-- ==== Sys2Proof/Word.lean ====
section
/-! DEFINITION. The machine's word types and their plainest arithmetic (R3, R12). -/

namespace Sys2Proof

/-- An instruction word (R12). -/
abbrev Word := BitVec 32

/-- A scalar register's 64 bits (R37). -/
abbrev Dword := BitVec 64

/-- A byte of memory (R3). -/
abbrev Byte := BitVec 8

end Sys2Proof
end

