-- ==== Sys2Proof/Config.lean ====
section
/-! DEFINITION. What an implementation fixes and the spec leaves open: free values (opaque constants, no body) and
the sizes of the module that the spec gives. -/

namespace Sys2Proof.Config

/-- A byte whose value the spec leaves open: the local bytes of an abandoned network element (R284) and the state
regions of a saved context area, whose encoding is the device's own (R330).  `n` is the model's counter `nfree`.
(DESIGN CHOICE: assumption 11.) -/
opaque freeByte : (n : Nat) → (offset : Nat) → BitVec 8

/-- `x` is an upper bound, as FP32, of |f''| on segment `k` of a line function (R184, R188); +∞ is one. -/
def IsCurvature (fn k : Nat) (x : BitVec 32) : Prop :=
  let sigm (z : ℝ) : ℝ := 1 / (1 + Real.exp (-z))
  let f : ℝ → ℝ := match fn with
    | 2 => fun z => z * ProbabilityTheory.cdf (ProbabilityTheory.gaussianReal 0 1) z
    | 3 => fun z => z * sigm z
    | 4 => Real.tanh
    | 5 => sigm
    | _ => fun z => 2 ^ z
  let segment : Set ℝ := if k = 0 then Set.Iio (-64) else if k = 129 then Set.Ici 64 else Set.Ico ((k : ℝ) - 65) ((k : ℝ) - 64)
  let e : Nat := x.toNat / 2 ^ 23
  let value : ℝ := if e = 0 then (x.toNat : ℝ) * 2 ^ (-149 : ℤ)
    else ((2 ^ 23 + x.toNat % 2 ^ 23 : ℕ) : ℝ) * 2 ^ ((e : ℤ) - 150)
  x = 0x7F800000 ∨ (x < 0x7F800000 ∧ ∀ z ∈ segment, |iteratedDeriv 2 f z| ≤ value)

/-- Curvature tables that R188 allows: entry `k` (0-129) of function `fn` (2-6).  (The defaults show that there are such.) -/
structure Curvatures where
  entry : (fn : Nat) → (k : Nat) → BitVec 32 := fun _ _ => 0x7F800000
  bounds : ∀ fn k, IsCurvature fn k (entry fn k) := by exact fun _ _ => Or.inl rfl
deriving Inhabited

/-- The curvature tables that firmware writes at boot: any that R188 allows.  (DESIGN CHOICE: assumption 12.) -/
opaque curvatures : Curvatures

/-- Entry `k` of the curvature table of function `fn` (R188). -/
def curvature (fn k : Nat) : BitVec 32 := curvatures.entry fn k

/-- Every entry bounds |f''| on its segment (R188). -/
theorem curvature_bounds (fn k : Nat) : IsCurvature fn k (curvature fn k) := curvatures.bounds fn k

/-- The energy of a compute die in one 1 microsecond interval, in microjoules (R346: no figures are given).
(DESIGN CHOICE: assumption 13.) -/
opaque dieEnergy : (n : Nat) → (die : Nat) → Nat

/-- The energy of the IO dies (part 0), the HBM4 stacks (1) and the SerDes (2) in one 1 microsecond interval, in microjoules
(R346).  (DESIGN CHOICE: assumption 13.) -/
opaque packageEnergy : (n : Nat) → (part : Nat) → Nat

/-- The 16 bytes of a block of main memory as they read once its region has moved to a key slot under which its ciphertext has not
been read before (R349): the standards fix them, the keys are not readable.  (DESIGN CHOICE: assumption 77.) -/
opaque deciphered : (n block : Nat) → BitVec 128

/-- What a state summary reports of the hardware outside the model, and the bytes that its layout gives (R352): `k` names the
item.  (DESIGN CHOICE: assumption 94.) -/
opaque summaryItem : (n : Nat) → (k : Nat) → Nat

/-- Where a residue mismatch lies and what it shows, as far as the spec leaves it to the fault (R315, R316, R321): field `k`
of the report of the model's `n`-th check.  (DESIGN CHOICE: assumption 14.) -/
opaque faultPlace : (n : Nat) → (k : Nat) → Nat

/-- The signature bytes of an attestation report (R348).  (DESIGN CHOICE: assumption 15.) -/
opaque attestationSignature : (n : Nat) → Nat

/-- The fused rollback counter of the package (R348).  (DESIGN CHOICE: assumption 15.) -/
opaque rollbackCounter : Nat

/-- A correctly rounded result of a transcendental function (R131, R184) that the model's interval evaluation does
not separate at its last precision; `code` names the function.  (DESIGN CHOICE: assumption 16.) -/
opaque undecided : (code : Nat) → (x : BitVec 32) → BitVec 32

/-- The bytes of main memory on one device: 768 GiB in 12 stacks (R1, Table 1).  (DEDUCED: assumption 10.) -/
def mainBytes : Nat := 768 * 2 ^ 30

/-- The bytes of a core scratchpad: 3 MiB (R206). -/
def scratchBytes : Nat := 3 * 2 ^ 20

end Sys2Proof.Config
end

