-- ==== Sys2Proof/Machine/Numeric.lean ====
section
/-! DEFINITION. The number formats of R85-R100: exact values, the one rounding, conversion, saturation, block
encoding, and the arithmetic that every engine shares.  Exact values are rationals n / d · 2^e with a sign. -/

namespace Sys2Proof.Machine

/-! ## Formats (R85, Table 1) -/

/-- How a format uses its all-ones exponent (R85). -/
inductive FmtKind where
  | ieee | e4m3 | e2m1
deriving DecidableEq, Repr

/-- A floating-point format: exponent bits, mantissa bits, bias. -/
structure Fmt where
  ebits : Nat
  mbits : Nat
  bias  : Nat
  kind  : FmtKind
deriving DecidableEq, Repr

def Fmt.f32 : Fmt := ⟨8, 23, 127, .ieee⟩
def Fmt.f16 : Fmt := ⟨5, 10, 15, .ieee⟩
def Fmt.bf16 : Fmt := ⟨8, 7, 127, .ieee⟩
def Fmt.e4m3 : Fmt := ⟨4, 3, 7, .e4m3⟩
def Fmt.e5m2 : Fmt := ⟨5, 2, 15, .ieee⟩
def Fmt.e2m1 : Fmt := ⟨2, 1, 1, .e2m1⟩

/-- Encoding of the sign bit; codes below it are magnitudes. -/
def Fmt.signBit (f : Fmt) : Nat := 2 ^ (f.ebits + f.mbits)

/-- The largest finite magnitude (R85). -/
def Fmt.maxCode (f : Fmt) : Nat :=
  match f.kind with
  | .ieee => (2 ^ f.ebits - 1) * 2 ^ f.mbits - 1
  | .e4m3 => 0x7E
  | .e2m1 => 7

/-- +∞ where the format has one; E4M3 answers its NaN and E2M1 its largest value, as R94 and R95 direct. -/
def Fmt.infCode (f : Fmt) : Nat :=
  match f.kind with
  | .ieee => (2 ^ f.ebits - 1) * 2 ^ f.mbits
  | .e4m3 => 0x7F
  | .e2m1 => 7

/-- QNaN(f) (R8, R85); E2M1 has none and takes +0 (R94). -/
def Fmt.nanCode (f : Fmt) : Nat :=
  match f.kind with
  | .ieee => (2 ^ f.ebits - 1) * 2 ^ f.mbits + 2 ^ (f.mbits - 1)
  | .e4m3 => 0x7F
  | .e2m1 => 0

/-- The exponent of the least significant mantissa bit of a subnormal. -/
def Fmt.qmin (f : Fmt) : Int := 1 - (f.bias : Int) - (f.mbits : Int)

/-! ## Exact values -/

/-- An exact value: NaN (`nv` when an invalid operation made it, R97), an infinity, or (−1)^neg · n / d · 2^e. -/
inductive Ex where
  | nan (nv : Bool)
  | inf (neg : Bool)
  | fin (neg : Bool) (n d : Nat) (e : Int)
deriving DecidableEq, Repr, Inhabited

/-- The value of an encoding (R85). -/
def Fmt.decode (f : Fmt) (code : Nat) : Ex :=
  let neg := decide (code / f.signBit % 2 = 1)
  let mag := code % f.signBit
  let ex := mag / 2 ^ f.mbits
  let fr := mag % 2 ^ f.mbits
  if f.kind = .ieee ∧ ex = 2 ^ f.ebits - 1 then (if fr = 0 then .inf neg else .nan false)
  else if f.kind = .e4m3 ∧ mag = 0x7F then .nan false
  else if ex = 0 then .fin neg fr 1 f.qmin
  else .fin neg (2 ^ f.mbits + fr) 1 (f.qmin + (ex : Int) - 1)

/-- Negation of an exact value. -/
def Ex.neg : Ex → Ex
  | .nan nv => .nan nv
  | .inf s => .inf !s
  | .fin s n d e => .fin (!s) n d e

/-- Magnitude of an exact value. -/
def Ex.abs : Ex → Ex
  | .nan nv => .nan nv
  | .inf _ => .inf false
  | .fin _ n d e => .fin false n d e

/-- An exact integer. -/
def Ex.ofInt (i : Int) : Ex := .fin (decide (i < 0)) i.natAbs 1 0

/-- n · 2^k as a pair of numerator and factor of the denominator. -/
def scale (n d : Nat) (k : Int) : Nat × Nat :=
  if 0 ≤ k then (n * 2 ^ k.toNat, d) else (n, d * 2 ^ (-k).toNat)

/-- The exact product; 0 × ∞ is invalid (R97, R128). -/
def Ex.mul : Ex → Ex → Ex
  | .nan a, .nan b => .nan (a || b)
  | .nan a, _ => .nan a
  | _, .nan b => .nan b
  | .inf s, .inf t => .inf (s != t)
  | .inf s, .fin t n _ _ => if n = 0 then .nan true else .inf (s != t)
  | .fin s n _ _, .inf t => if n = 0 then .nan true else .inf (s != t)
  | .fin s n d e, .fin t m c k => .fin (s != t) (n * m) (d * c) (e + k)

/-- The exact sum; ∞ − ∞ is invalid; an exactly zero sum is +0 unless both are zeros of one sign (R128). -/
def Ex.add : Ex → Ex → Ex
  | .nan a, .nan b => .nan (a || b)
  | .nan a, _ => .nan a
  | _, .nan b => .nan b
  | .inf s, .inf t => if s = t then .inf s else .nan true
  | .inf s, .fin .. => .inf s
  | .fin .., .inf t => .inf t
  | .fin s n d e, .fin t m c k =>
    let l := min e k
    let x : Nat := n * c * 2 ^ (e - l).toNat
    let y : Nat := m * d * 2 ^ (k - l).toNat
    if s = t then .fin s (x + y) (d * c) l
    else if x = y then .fin false 0 1 0
    else if y < x then .fin s (x - y) (d * c) l
    else .fin t (y - x) (d * c) l

/-- The exact quotient (R128): 0 ÷ 0 and ∞ ÷ ∞ are invalid, finite non-zero ÷ 0 is an infinity without a flag. -/
def Ex.div : Ex → Ex → Ex
  | .nan a, .nan b => .nan (a || b)
  | .nan a, _ => .nan a
  | _, .nan b => .nan b
  | .inf _, .inf _ => .nan true
  | .inf s, .fin t _ _ _ => .inf (s != t)
  | .fin s _ _ _, .inf t => .fin (s != t) 0 1 0
  | .fin s n d e, .fin t m c k =>
    if m = 0 then (if n = 0 then .nan true else .inf (s != t))
    else .fin (s != t) (n * c) (d * m) (e - k)

/-- Strict comparison of finite magnitudes n / d · 2^e. -/
def magLt (n d : Nat) (e : Int) (m c : Nat) (k : Int) : Bool :=
  let l := min e k
  decide (n * c * 2 ^ (e - l).toNat < m * d * 2 ^ (k - l).toNat)

/-! ## Rounding (R92, R93) -/

/-- The rounding modes (R92, Table 3). -/
inductive Rnd where
  | ne | tz | up | dn
deriving DecidableEq, Repr, Inhabited

/-- The mode of a 2-bit rounding field (R92). -/
def Rnd.ofBits (b : BitVec 2) : Rnd :=
  match b.toNat with
  | 0 => .ne | 1 => .tz | 2 => .up | _ => .dn

/-- The integer that n / d rounds to, for a value of sign `neg`, and whether it is inexact. -/
def roundQuot (r : Rnd) (neg : Bool) (n d : Nat) : Nat × Bool :=
  let k := n / d
  let rem := n % d
  let inc := match r with
    | .ne => decide (d < 2 * rem) || (decide (2 * rem = d) && decide (k % 2 = 1))
    | .tz => false
    | .up => !neg && decide (rem ≠ 0)
    | .dn => neg && decide (rem ≠ 0)
  (if inc then k + 1 else k, decide (rem ≠ 0))

/-- ⌊log₂ (n / d)⌋ for n, d > 0. -/
def floorLog2 (n d : Nat) : Int :=
  let l : Int := (Nat.log2 n : Int) - (Nat.log2 d : Int)
  let (a, b) := scale n d (-l)
  if b ≤ a then l else l - 1

/-- The magnitude code of n / d · 2^e rounded to `f` with subnormals and no upper exponent limit (R93), and whether
it is inexact.  A code counts the values of the format upwards from 0. -/
def Fmt.roundMag (f : Fmt) (r : Rnd) (neg : Bool) (n d : Nat) (e : Int) : Nat × Bool :=
  if n = 0 then (0, false)
  else
    let q := max f.qmin (floorLog2 n d + e - f.mbits)
    let (a, b) := scale n d (e - q)
    let (k, ix) := roundQuot r neg a b
    ((q - f.qmin).toNat * 2 ^ f.mbits + k, ix)

/-- A code with the sign `neg`. -/
def Fmt.withSign (f : Fmt) (neg : Bool) (mag : Nat) : Nat := if neg then f.signBit + mag else mag

/-! Flags {FLUSH, NX, UF, OF, NV} of R83, Table 7. -/

def flagNV : BitVec 5 := 0b00001
def flagOF : BitVec 5 := 0b00010
def flagUF : BitVec 5 := 0b00100
def flagNX : BitVec 5 := 0b01000
def flagFLUSH : BitVec 5 := 0b10000

/-- The result of an overflow (R95). -/
def Fmt.overflow (f : Fmt) (r : Rnd) (neg : Bool) : Nat :=
  let away := match r with
    | .ne => true | .tz => false | .up => !neg | .dn => neg
  if away then
    match f.kind with
    | .e4m3 => f.nanCode
    | _ => f.withSign neg f.infCode
  else f.withSign neg f.maxCode

/-- The formats whose subnormals the vector engine flushes in exposed mode (R56, R99). -/
def Fmt.flushes (f : Fmt) : Bool := decide (f = .f32) || decide (f = .f16) || decide (f = .bf16)

/-- Rounds an exact value to `f` (R92-R95), flushing a tiny result when `fl` (R56), with the flags of R97. -/
def Fmt.round (f : Fmt) (r : Rnd) (fl : Bool) : Ex → Nat × BitVec 5
  | .nan nv => (f.nanCode, if nv then flagNV else 0)
  | .inf neg => (if f.kind = .e4m3 then f.nanCode else f.withSign neg f.infCode, 0)
  | .fin neg n d e =>
    let (c, ix) := f.roundMag r neg n d e
    if f.maxCode < c then (f.overflow r neg, flagOF ||| flagNX)
    else if fl && f.flushes && decide (n ≠ 0) && decide (c < 2 ^ f.mbits) then
      (f.withSign neg 0, flagFLUSH ||| flagUF ||| flagNX)
    else (f.withSign neg c,
      if ix then (if c < 2 ^ f.mbits then flagUF ||| flagNX else flagNX) else 0)

/-- RoundNE to FP32 with subnormals honoured and no flags: the helper of the quantiser, matrix and line engines and
of the operations at memory (R7, R99). -/
def rne32 (x : Ex) : BitVec 32 := BitVec.ofNat 32 (Fmt.f32.round .ne false x).1

/-- The exact value of an FP32 pattern. -/
def val32 (x : BitVec 32) : Ex := Fmt.f32.decode x.toNat

/-- An input flushed when `fl` (R56): zero of its sign, with FLUSH. -/
def Fmt.flushIn (f : Fmt) (fl : Bool) (code : Nat) : Nat × BitVec 5 :=
  let mag := code % f.signBit
  if fl && f.flushes && decide (0 < mag) && decide (mag < 2 ^ f.mbits) then (code - mag, flagFLUSH) else (code, 0)

/-! ## Conversion (R94-R96) -/

/-- |x| > maxfinite of `f`. -/
def Fmt.beyond (f : Fmt) (n d : Nat) (e : Int) : Bool :=
  match f.decode f.maxCode with
  | .fin _ m c k => magLt m c k n d e
  | _ => false

/-- Convert(x, f, rnd, sat) (R94, Table 5). -/
def Fmt.convert (f : Fmt) (r : Rnd) (sat fl : Bool) : Ex → Nat × BitVec 5
  | .nan _ => (f.nanCode, if f.kind = .e2m1 then flagNV else 0)
  | .inf neg =>
    if sat || decide (f.kind = .e2m1) then (f.withSign neg f.maxCode, flagOF ||| flagNX)
    else match f.kind with
      | .e4m3 => (f.nanCode, flagNV)
      | _ => (f.withSign neg f.infCode, 0)
  | .fin neg n d e =>
    if (sat || decide (f.kind = .e2m1)) && f.beyond n d e then (f.withSign neg f.maxCode, flagOF ||| flagNX)
    else f.round r fl (.fin neg n d e)

/-- An exact finite value rounded to an integer. -/
def roundInt (r : Rnd) (neg : Bool) (n d : Nat) (e : Int) : Int × Bool :=
  let (a, b) := scale n d e
  let (k, ix) := roundQuot r neg a b
  (if neg then -(k : Int) else k, ix)

/-- Conversion to an integer of range lo … hi (R96): clamped, NaN gives 0; NV and NX as stated. -/
def toInteger (r : Rnd) (lo hi : Int) : Ex → Int × BitVec 5
  | .nan _ => (0, flagNV)
  | .inf neg => (if neg then lo else hi, flagNV)
  | .fin neg n d e =>
    let (k, ix) := roundInt r neg n d e
    if hi < k then (hi, flagNV) else if k < lo then (lo, flagNV) else (k, if ix then flagNX else 0)

/-! ## Ordering of encodings -/

/-- A key that orders the non-NaN encodings of a format, −0 below +0. -/
def Fmt.key (f : Fmt) (code : Nat) : Int :=
  let mag := code % f.signBit
  if code / f.signBit % 2 = 1 then -(mag : Int) - 1 else mag

/-- A key that orders values: −0 equal to +0. -/
def Fmt.valueKey (f : Fmt) (code : Nat) : Int :=
  let mag := code % f.signBit
  if code / f.signBit % 2 = 1 then -(mag : Int) else mag

/-- Whether a code is a NaN of `f`. -/
def Fmt.isNaN (f : Fmt) (code : Nat) : Bool :=
  match f.decode code with
  | .nan _ => true
  | _ => false

/-- The VFMIN and VFMAX rule (R128): exact, a NaN operand passed over, two NaNs give QNaN. -/
def Fmt.minMax (f : Fmt) (isMax : Bool) (a b : Nat) : Nat :=
  if f.isNaN a then (if f.isNaN b then f.nanCode else b)
  else if f.isNaN b then a
  else if isMax then (if f.key a < f.key b then b else a)
  else (if f.key b < f.key a then b else a)

/-! ## Square root and reciprocal square root -/

/-- ⌊√n⌋ below 2^b, one bit at a time from bit b − 1. -/
def isqrtFrom (n : Nat) : Nat → Nat → Nat
  | 0, r => r
  | b + 1, r => isqrtFrom n b (if (r + 2 ^ b) * (r + 2 ^ b) ≤ n then r + 2 ^ b else r)

/-- ⌊√n⌋. -/
def isqrt (n : Nat) : Nat := isqrtFrom n (Nat.log2 n / 2 + 1) 0

/-- √(n / d · 2^e) for n, d > 0 as a value that rounds as the root does to any format of at most 40 mantissa bits:
exact when the root is a multiple of its last place, otherwise half a unit above the floor. -/
def sqrtFin (n d : Nat) (e : Int) : Ex :=
  let k0 : Nat := 96 + Nat.log2 d
  let k := if (e - k0) % 2 = 0 then k0 else k0 + 1
  let big := n * 2 ^ k
  let s := isqrt (big / d)
  let exact := decide (d * s * s = big)
  .fin false (2 * s + (if exact then 0 else 1)) 1 ((e - k) / 2 - 1)

/-- √x (R130). -/
def Ex.sqrt : Ex → Ex
  | .nan nv => .nan nv
  | .inf neg => if neg then .nan true else .inf false
  | .fin neg n d e => if n = 0 then .fin neg 0 1 0 else if neg then .nan true else sqrtFin n d e

/-- 1 ÷ √x (R131): +0 → +∞, −0 → −∞, +∞ → +0. -/
def Ex.rsqrt : Ex → Ex
  | .nan nv => .nan nv
  | .inf neg => if neg then .nan true else .fin false 0 1 0
  | .fin neg n d e =>
    if n = 0 then .inf neg else if neg then .nan true else sqrtFin d n (-e)

/-! ## Block formats (R89, R100) -/

/-- B8: 6 magnitude bits and bias 132; B4: 2 magnitude bits and bias 128 (R89). -/
structure BlockFmt where
  mbits : Nat
  bias  : Nat
deriving DecidableEq, Repr

def BlockFmt.b8 : BlockFmt := ⟨6, 132⟩
def BlockFmt.b4 : BlockFmt := ⟨2, 128⟩

/-- The largest magnitude of an element. -/
def BlockFmt.mmax (f : BlockFmt) : Nat := 2 ^ f.mbits - 1

/-- The value of an element {sel, sign, m} against its block's exponents (R89). -/
def BlockFmt.decode (f : BlockFmt) (elem elo ehi : Nat) : Ex :=
  let sel := elem / 2 ^ (f.mbits + 1) % 2
  let neg := decide (elem / 2 ^ f.mbits % 2 = 1)
  let m := elem % 2 ^ f.mbits
  let ex := if sel = 0 then elo else ehi
  if ex = 0 then .fin neg 0 1 0
  else if ex = 255 then .nan false
  else .fin neg m 1 ((ex : Int) - f.bias)

/-- r(E, x) of R100: |x| ÷ 2^(E − bias) rounded once to an integer; none stands for ∞. -/
def BlockFmt.mag (f : BlockFmt) (r : Rnd) (ex : Nat) : Ex → Option Nat
  | .nan _ => none
  | .inf _ => none
  | .fin _ n d e =>
    let (a, b) := scale n d (e - ((ex : Int) - f.bias))
    some (roundQuot r false a b).1

/-- r(E, x) ≤ mmax. -/
def BlockFmt.fits (f : BlockFmt) (r : Rnd) (ex : Nat) (x : Ex) : Bool :=
  match f.mag r ex x with
  | some m => decide (m ≤ f.mmax)
  | none => false

/-- The sign bit of an exact value (−0 has sign 1, R100). -/
def Ex.sign : Ex → Bool
  | .nan _ => false
  | .inf s => s
  | .fin s _ _ _ => s

/-- Whether an exact value is NaN. -/
def Ex.isNaN : Ex → Bool
  | .nan _ => true
  | _ => false

/-- The element {sel, sign, m}. -/
def BlockFmt.elem (f : BlockFmt) (sel sign : Bool) (m : Nat) : Nat :=
  (if sel then 2 ^ (f.mbits + 1) else 0) + (if sign then 2 ^ f.mbits else 0) + m

/-- An encoded block: exponents, elements with their saturation, and the NaN report (R100). -/
structure Block where
  elo   : Nat
  ehi   : Nat
  elems : List (Nat × Bool)
  nan   : Bool
deriving DecidableEq, Repr

/-- The least exponent from `ex` up to 254 that holds every value; 254 if there is none (R100). -/
def BlockFmt.findHi (f : BlockFmt) (r : Rnd) (v : List Ex) : Nat → Nat → Nat
  | 0, _ => 254
  | fuel + 1, ex => if v.all (f.fits r ex) then ex else f.findHi r v fuel (ex + 1)

/-- EncodeBlock(v, rnd, D) (R100). -/
def BlockFmt.encode (f : BlockFmt) (r : Rnd) (dd : Nat) (v : List Ex) : Block :=
  if v.any Ex.isNaN then
    ⟨255 - dd, 255, v.map (fun _ => (f.elem true false 0, false)), true⟩
  else if v.all (fun x => decide (f.mag r 1 x = some 0)) then
    ⟨0, 0, v.map (fun x => (f.elem false x.sign 0, false)), false⟩
  else
    let ehi := f.findHi r v 254 1
    let elo := ehi - dd
    ⟨elo, ehi, v.map (fun x =>
      if decide (1 ≤ elo) && f.fits r elo x then (f.elem false x.sign ((f.mag r elo x).getD 0), false)
      else (f.elem true x.sign (min ((f.mag r ehi x).getD f.mmax) f.mmax), !f.fits r ehi x)), false⟩

/-! ## Residues (R315, R316) -/

/-- The residue of a value: the value mod 7, in 0–6. -/
def residue (x : Int) : Nat := (x % 7).toNat

end Sys2Proof.Machine
end

