-- ==== Sys2Proof/Machine/Transc.lean ====
section
/-! DEFINITION. Correctly rounded special functions (R131, R184).  Every function is enclosed between two integers over a power
of two; the result is the FP32 value to which both ends round, at the first of three precisions at which they agree.
Where they do not, the result is a free value (`Config.undecided`). -/

namespace Sys2Proof.Machine

/-! ## Fixed point: an enclosure (lo, hi) of x stands for lo ≤ x · 2^w ≤ hi -/

/-- An enclosure of a non-negative number. -/
abbrev Fx := Nat × Nat

/-- Product, at precision w. -/
def Fx.mul (w : Nat) (a b : Fx) : Fx := (a.1 * b.1 / 2 ^ w, a.2 * b.2 / 2 ^ w + 1)

/-- Quotient, at precision w; the divisor is positive. -/
def Fx.div (w : Nat) (a b : Fx) : Fx := (a.1 * 2 ^ w / b.2, a.2 * 2 ^ w / b.1 + 1)

/-- Sum. -/
def Fx.add (a b : Fx) : Fx := (a.1 + b.1, a.2 + b.2)

/-- Half. -/
def Fx.half (a : Fx) : Fx := (a.1 / 2, a.2 / 2 + 1)

/-- The rational n / d · 2^e. -/
def Fx.ofRat (w n d : Nat) (e : Int) : Fx :=
  let (a, b) := scale n d (e + w)
  (a / b, a / b + 1)

/-- Difference as an enclosure of a signed number. -/
def Fx.sub (a b : Fx) : Int × Int := ((a.1 : Int) - b.2, (a.2 : Int) - b.1)

/-- Σ over j of 2^w / ((2j + 1) · k^(2j+1)), j below `n`, rounded down term by term. -/
def atanhSum (w k : Nat) : Nat → Nat → Nat → Nat
  | 0, _, _ => 0
  | n + 1, j, p => 2 ^ w / ((2 * j + 1) * p) + atanhSum w k n (j + 1) (p * k * k)

/-- ln 2 = 2 · atanh (1/3). -/
def fxLn2 (w : Nat) : Fx :=
  let n := w / 3 + 4
  let s := atanhSum (w + 1) 3 n 0 3
  (s, s + n + 1)

/-- The terms of e^r from the k-th on, for 0 ≤ r < 1. -/
def expTerms (w : Nat) (r : Fx) : Nat → Nat → Fx → Fx → Fx
  | 0, _, t, s => (s.1, s.2 + 2 * t.2 + 2)
  | n + 1, k, t, s =>
    let u : Fx := (t.1 * r.1 / (2 ^ w * k), t.2 * r.2 / (2 ^ w * k) + 1)
    expTerms w r n (k + 1) u (Fx.add s u)

/-- e^r for 0 ≤ r < 1. -/
def fxExp (w : Nat) (r : Fx) : Fx := expTerms w r (w / 4 + 24) 1 (2 ^ w, 2 ^ w) (2 ^ w, 2 ^ w)

/-- e^(−y) for y = n / d · 2^e ≥ 0, as E · 2^(−q). -/
def expNeg (w n d : Nat) (e : Int) : Fx × Nat :=
  let l := fxLn2 w
  let y := Fx.ofRat w n d e
  let q := y.1 / l.1 + 1
  (fxExp w (q * l.1 - y.2, q * l.2 - y.1), q)

/-- e^(−y) at precision w. -/
def fxExpNeg (w n d : Nat) (e : Int) : Fx :=
  let (x, q) := expNeg w n d e
  (x.1 / 2 ^ q, x.2 / 2 ^ q + 1)

/-- Σ of (−1)^j · 2^w / ((2j + 1) · k^(2j+1)), each term rounded toward zero. -/
def atanSum (w k : Nat) : Nat → Nat → Nat → Int
  | 0, _, _ => 0
  | n + 1, j, p =>
    let t : Int := ((2 ^ w / ((2 * j + 1) * p) : Nat) : Int)
    (if j % 2 = 0 then t else -t) + atanSum w k n (j + 1) (p * k * k)

/-- π by Machin's formula. -/
def fxPi (w : Nat) : Fx :=
  let n := w / 4 + 4
  let s := 16 * atanSum w 5 n 0 5 - 4 * atanSum w 239 n 0 239
  ((s - 20 * n - 20).toNat, (s + 20 * n + 20).toNat)

/-- φ(x) = e^(−x²/2) / √(2π) for x = m · 2^e. -/
def fxPhi (w m : Nat) (e : Int) : Fx :=
  let p := fxPi w
  let root : Fx := (isqrt (2 ^ (3 * w) / (2 * p.2)), isqrt (2 ^ (3 * w) / (2 * p.1)) + 1)
  Fx.mul w (fxExpNeg w (m * m) 1 (2 * e - 1)) root

/-- The terms of Σ x^(2n+1) / (2n+1)!!. -/
def gaussTerms (w : Nat) (sq : Fx) : Nat → Nat → Fx → Fx → Fx
  | 0, _, t, s => (s.1, s.2 + 2 * t.2 + 2)
  | n + 1, k, t, s =>
    let u : Fx := (t.1 * sq.1 / (2 ^ w * k), t.2 * sq.2 / (2 ^ w * k) + 1)
    gaussTerms w sq n (k + 2) u (Fx.add s u)

/-- Φ(x) − ½ = φ(x) · Σ x^(2n+1) / (2n+1)!! for 0 ≤ x ≤ 16. -/
def fxHalfErf (w m : Nat) (e : Int) : Fx :=
  let x := Fx.ofRat w m 1 e
  let sq := Fx.ofRat w (m * m) 1 (2 * e)
  Fx.mul w (fxPhi w m e) (gaussTerms w sq (w + 200) 3 x x)

/-! ## Rounding an enclosure -/

/-- An enclosure of a signed number at a scale: lo · 2^e ≤ x ≤ hi · 2^e. -/
abbrev Encl := Int × Int × Int

/-- The magnitude code of i · 2^e rounded to FP32 without an upper exponent limit, and its sign. -/
def magAt (i e : Int) : Bool × Nat := (decide (i < 0), (Fmt.f32.roundMag .ne false i.natAbs 1 e).1)

/-- The sign and magnitude code on which both ends of an enclosure agree. -/
def agree (x : Encl) : Option (Bool × Nat) :=
  let a := magAt x.1 x.2.2
  let b := magAt x.2.1 x.2.2
  if a = b then some a else none

/-- A result from its sign and magnitude code; the exact value is no FP32 value, so NX is set (R97, R131).
(DESIGN CHOICE: assumption 16.) -/
def finish (fl : Bool) (r : Bool × Nat) : Nat × BitVec 5 :=
  if Fmt.f32.maxCode < r.2 then (Fmt.f32.overflow .ne r.1, flagOF ||| flagNX)
  else if r.2 < 2 ^ 23 then
    (if fl then (Fmt.f32.withSign r.1 0, flagFLUSH ||| flagUF ||| flagNX)
     else (Fmt.f32.withSign r.1 r.2, flagUF ||| flagNX))
  else (Fmt.f32.withSign r.1 r.2, flagNX)

/-- The correctly rounded result of the function that `f` encloses at every precision. -/
def pick (fl : Bool) (code x : Nat) (f : Nat → Encl) : Nat × BitVec 5 :=
  match agree (f 230) with
  | some r => finish fl r
  | none =>
    match agree (f 460) with
    | some r => finish fl r
    | none =>
      match agree (f 900) with
      | some r => finish fl r
      | none => ((Config.undecided code (BitVec.ofNat 32 x)).toNat, flagNX)

/-! ## Enclosures: x = (−1)^neg · m · 2^e, m > 0 -/

/-- 2^x, times ln 2 when `deriv`. -/
def exp2Encl (deriv neg : Bool) (m : Nat) (e : Int) (w : Nat) : Encl :=
  let (a, b) := scale m 1 e
  let x : Int := if neg then -(a : Int) else a
  let n := x / (b : Int)
  let f := (x % (b : Int)).toNat
  let l := fxLn2 w
  let r : Fx := (f * l.1 / b, f * l.2 / b + 1)
  let y := fxExp w r
  let y := if deriv then Fx.mul w y l else y
  (y.1, y.2, n - w)

/-- The terms of atanh t = Σ t^(2j+1) / (2j+1) from the k-th power on; `sq` is t². -/
def atanhTerms (w : Nat) (sq : Fx) : Nat → Nat → Fx → Fx → Fx
  | 0, _, p, s => (s.1, s.2 + 2 * p.2 + 2)
  | n + 1, k, p, s => atanhTerms w sq n (k + 2) (Fx.mul w p sq) (Fx.add s (p.1 / k, p.2 / k + 1))

/-- log₂ x for x > 0. -/
def log2Encl (m : Nat) (e : Int) (w : Nat) : Encl :=
  let k0 := Nat.log2 m
  -- m / 2^k0 in [1, 2); halved from 3/2 on
  let up := decide (3 * 2 ^ k0 ≤ 2 * m)
  let k : Int := e + k0 + (if up then 1 else 0)
  let den := if up then 2 ^ (k0 + 1) else 2 ^ k0
  -- ln (m/den) = 2 atanh t, t = (m - den) / (m + den)
  let low := decide (m < den)
  let t := Fx.ofRat w (if low then den - m else m - den) (m + den) 0
  let sq := Fx.mul w t t
  let h := atanhTerms w sq (w / 4 + 8) 1 t (0, 0)
  let ln : Fx := (2 * h.1, 2 * h.2)
  let l := fxLn2 w
  let kl : Int × Int := if 0 ≤ k then (k * l.1, k * l.2) else (k * l.2, k * l.1)
  let tot : Int × Int := if low then (kl.1 - ln.2, kl.2 - ln.1) else (kl.1 + ln.1, kl.2 + ln.2)
  let quo (x : Int) (down : Bool) : Int :=
    let d : Nat := if decide (0 ≤ x) == down then l.2 else l.1
    if down then x * 2 ^ w / (d : Int) else x * 2 ^ w / (d : Int) + 1
  (quo tot.1 true, quo tot.2 false, -(w : Int))

/-- |tanh x| = (1 − e^(−2|x|)) / (1 + e^(−2|x|)), with the sign of x. -/
def tanhEncl (neg : Bool) (m : Nat) (e : Int) (w : Nat) : Encl :=
  let x := fxExpNeg w m 1 (e + 1)
  let one : Nat := 2 ^ w
  let q := Fx.div w (one - x.2, one - x.1) (one + x.1, one + x.2)
  if neg then (-(q.2 : Int), -(q.1 : Int), -(w : Int)) else (q.1, q.2, -(w : Int))

/-- σ(x) as y · 2^(−q). -/
def sigmFx (neg : Bool) (m : Nat) (e : Int) (w : Nat) : Fx × Nat :=
  let (x, q) := expNeg w m 1 e
  let one : Nat := 2 ^ w
  let den : Fx := (one + x.1 / 2 ^ q, one + x.2 / 2 ^ q + 1)
  if neg then (Fx.div w x den, q) else (Fx.div w (one, one) den, 0)

/-- σ(x). -/
def sigmEncl (neg : Bool) (m : Nat) (e : Int) (w : Nat) : Encl :=
  let (y, q) := sigmFx neg m e w
  (y.1, y.2, -(w : Int) - q)

/-- x · σ(x). -/
def siluEncl (neg : Bool) (m : Nat) (e : Int) (w : Nat) : Encl :=
  let (y, q) := sigmFx neg m e w
  if neg then (-((y.2 * m : Nat) : Int), -((y.1 * m : Nat) : Int), e - w - q)
  else ((y.1 * m : Nat), (y.2 * m : Nat), e - w - q)

/-- x · Φ(x), for |x| < 16, at a working precision that covers the cancellation below zero. -/
def geluEncl (neg : Bool) (m : Nat) (e : Int) (w : Nat) : Encl :=
  let v := w + 420
  let h := fxHalfErf v m e
  let half : Nat := 2 ^ (v - 1)
  if neg then
    let y := Fx.sub (half, half) h
    (-(y.2 * m), -(max 0 y.1 * m), e - v)
  else ((((half + h.1) * m : Nat) : Int), (((half + h.2) * m : Nat) : Int), e - v)

/-- Φ(x) + x φ(x). -/
def gelu'Encl (neg : Bool) (m : Nat) (e : Int) (w : Nat) : Encl :=
  let v := w + 420
  let h := fxHalfErf v m e
  let g := Fx.mul v (fxPhi v m e) (Fx.ofRat v m 1 e)
  let half : Nat := 2 ^ (v - 1)
  if neg then
    let y := Fx.sub (half, half) (Fx.add h g)
    (y.1, y.2, -(v : Int))
  else ((half + h.1 + g.1 : Nat), (half + h.2 + g.2 : Nat), -(v : Int))

/-- σ(x)(1 + x(1 − σ(x))) = u (1 + u − |x|) / (1 + u)² below 0, (1 + u + x u) / (1 + u)² above, u = e^(−|x|). -/
def silu'Encl (neg : Bool) (m : Nat) (e : Int) (w : Nat) : Encl :=
  let u := fxExpNeg (w + 200) m 1 e
  let v := w + 200
  let one : Nat := 2 ^ v
  let x := Fx.ofRat v m 1 e
  let den := Fx.mul v (one + u.1, one + u.2) (one + u.1, one + u.2)
  if neg then
    let k := Fx.div v u den
    let d := Fx.sub (one + u.1, one + u.2) x
    let lo := if 0 ≤ d.1 then d.1 * k.1 else d.1 * k.2
    let hi := if 0 ≤ d.2 then d.2 * k.2 else d.2 * k.1
    (lo, hi, -(2 * v : Int))
  else
    let n := Fx.add (one + u.1, one + u.2) (Fx.mul v x u)
    let q := Fx.div v n den
    (q.1, q.2, -(v : Int))

/-- c · e^(−k|x|) / (1 + e^(−k|x|))²: tanh′ with c = 4, k = 2, and σ′ with c = 1, k = 1. -/
def bellEncl (c : Nat) (k : Int) (m : Nat) (e : Int) (w : Nat) : Encl :=
  let (x, q) := expNeg w m 1 (e + k)
  let one : Nat := 2 ^ w
  let s : Fx := (one + x.1 / 2 ^ q, one + x.2 / 2 ^ q + 1)
  let y := Fx.div w x (Fx.mul w s s)
  ((c * y.1 : Nat), (c * y.2 : Nat), -(w : Int) - q)

/-! ## The functions -/

/-- |m · 2^e| ≥ k. -/
def atLeast (m : Nat) (e : Int) (k : Nat) : Bool := !magLt m 1 e k 1 0

/-- A value that rounds to the magnitude code `c` and is no FP32 value itself. -/
def near (fl neg : Bool) (c : Nat) : Nat × BitVec 5 := finish fl (neg, c)

/-- 2^x (R131): exact for an integer x. -/
def fnExp2 (fl : Bool) (a : Nat) : Nat × BitVec 5 :=
  match Fmt.f32.decode a with
  | .nan _ => (Fmt.f32.nanCode, 0)
  | .inf neg => (if neg then 0 else Fmt.f32.infCode, 0)
  | .fin neg m _ e =>
    if m = 0 then (0x3F800000, 0)
    else if atLeast m e 160 then (if neg then near fl false 0 else (Fmt.f32.infCode, flagOF ||| flagNX))
    else
      let (n, d) := scale m 1 e
      if n % d = 0 then Fmt.f32.round .ne fl (.fin false 1 1 (if neg then -((n / d : Nat) : Int) else (n / d : Nat)))
      else pick fl 2 a (exp2Encl false neg m e)

/-- log₂ x (R131): exact for a power of two. -/
def fnLog2 (fl : Bool) (a : Nat) : Nat × BitVec 5 :=
  match Fmt.f32.decode a with
  | .nan _ => (Fmt.f32.nanCode, 0)
  | .inf neg => if neg then (Fmt.f32.nanCode, flagNV) else (Fmt.f32.infCode, 0)
  | .fin neg m _ e =>
    if m = 0 then (Fmt.f32.withSign true Fmt.f32.infCode, 0)
    else if neg then (Fmt.f32.nanCode, flagNV)
    else if m = 2 ^ Nat.log2 m then Fmt.f32.round .ne fl (Ex.ofInt (e + Nat.log2 m))
    else pick fl 3 a (log2Encl m e)

/-- tanh x (R131). -/
def fnTanh (fl : Bool) (a : Nat) : Nat × BitVec 5 :=
  match Fmt.f32.decode a with
  | .nan _ => (Fmt.f32.nanCode, 0)
  | .inf neg => (Fmt.f32.withSign neg 0x3F800000, 0)
  | .fin neg m _ e =>
    if m = 0 then (a, 0)
    else if atLeast m e 16 then near fl neg 0x3F800000
    else pick fl 4 a (tanhEncl neg m e)

/-- σ(x) (R131): ½ at zero. -/
def fnSigm (fl : Bool) (a : Nat) : Nat × BitVec 5 :=
  match Fmt.f32.decode a with
  | .nan _ => (Fmt.f32.nanCode, 0)
  | .inf neg => (if neg then 0 else 0x3F800000, 0)
  | .fin neg m _ e =>
    if m = 0 then (0x3F000000, 0)
    else if neg && atLeast m e 128 then near fl false 0
    else if !neg && atLeast m e 32 then near fl false 0x3F800000
    else pick fl 5 a (sigmEncl neg m e)

/-- x Φ(x) (R131). -/
def fnGelu (fl : Bool) (a : Nat) : Nat × BitVec 5 :=
  match Fmt.f32.decode a with
  | .nan _ => (Fmt.f32.nanCode, 0)
  | .inf neg => (if neg then 0x80000000 else Fmt.f32.infCode, 0)
  | .fin neg m _ e =>
    if m = 0 then (a, 0)
    else if neg && atLeast m e 15 then near fl true 0
    else if !neg && atLeast m e 8 then near fl false a
    else pick fl 6 a (geluEncl neg m e)

/-- x σ(x) (R131). -/
def fnSilu (fl : Bool) (a : Nat) : Nat × BitVec 5 :=
  match Fmt.f32.decode a with
  | .nan _ => (Fmt.f32.nanCode, 0)
  | .inf neg => (if neg then 0x80000000 else Fmt.f32.infCode, 0)
  | .fin neg m _ e =>
    if m = 0 then (a, 0)
    else if neg && atLeast m e 128 then near fl true 0
    else if !neg && atLeast m e 32 then near fl false a
    else pick fl 7 a (siluEncl neg m e)

/-- VFUN (R131, Table 2) on an FP32 encoding whose input has been flushed. -/
def specialFn (fn : Nat) (fl : Bool) (a : Nat) : Nat × BitVec 5 :=
  match fn with
  | 0 => Fmt.f32.round .ne fl ((Ex.fin false 1 1 0).div (Fmt.f32.decode a))
  | 1 => Fmt.f32.round .ne fl (Fmt.f32.decode a).rsqrt
  | 2 => fnExp2 fl a
  | 3 => fnLog2 fl a
  | 4 => fnTanh fl a
  | 5 => fnSigm fl a
  | 6 => fnGelu fl a
  | _ => fnSilu fl a

/-! ## Line functions (R184, Table 3) -/

/-- F(z) for a function code. -/
def lineF (fn a : Nat) : Nat :=
  match fn with
  | 1 =>
    match Fmt.f32.decode a with
    | .nan _ => Fmt.f32.nanCode
    | .inf neg => if neg then 0 else Fmt.f32.infCode
    | .fin neg m d e => if neg then 0 else (Fmt.f32.round .ne false (.fin false (m * m) (d * d) (2 * e))).1
  | 2 => (fnGelu false a).1
  | 3 => (fnSilu false a).1
  | 4 => (fnTanh false a).1
  | 5 => (fnSigm false a).1
  | _ => (fnExp2 false a).1

/-- F′(z) for a function code. -/
def lineF' (fn a : Nat) : Nat :=
  match Fmt.f32.decode a with
  | .nan _ => Fmt.f32.nanCode
  | .inf neg =>
    match fn with
    | 1 => if neg then 0 else Fmt.f32.infCode
    | 2 => if neg then 0x80000000 else 0x3F800000
    | 3 => if neg then 0x80000000 else 0x3F800000
    | 6 => if neg then 0 else Fmt.f32.infCode
    | _ => 0
  | .fin neg m d e =>
    match fn with
    | 1 => if neg then 0 else (Fmt.f32.round .ne false (.fin false (2 * m) d e)).1
    | 2 =>
      if m = 0 then 0x3F000000
      else if neg && atLeast m e 15 then 0x80000000
      else if !neg && atLeast m e 8 then 0x3F800000
      else (pick false 8 a (gelu'Encl neg m e)).1
    | 3 =>
      if m = 0 then 0x3F000000
      else if neg && atLeast m e 128 then 0x80000000
      else if !neg && atLeast m e 64 then 0x3F800000
      else (pick false 9 a (silu'Encl neg m e)).1
    | 4 =>
      if m = 0 then 0x3F800000
      else if atLeast m e 128 then 0
      else (pick false 10 a (bellEncl 4 1 m e)).1
    | 5 =>
      if m = 0 then 0x3E800000
      else if atLeast m e 128 then 0
      else (pick false 11 a (bellEncl 1 0 m e)).1
    | _ =>
      if m = 0 then (pick false 12 a (exp2Encl true false 0 0)).1
      else if atLeast m e 160 then (if neg then 0 else Fmt.f32.infCode)
      else (pick false 12 a (exp2Encl true neg m e)).1

end Sys2Proof.Machine
end

