-- ==== Sys2Proof/Syntax.lean ====
section
/-! DEFINITION. The instructions and machine events of the opcode table (R12-R31, Tables of every chapter), as
plain data: one constructor per row.  Register numbers and operation codes are the fields of the encoding. -/

namespace Sys2Proof

/-- The iteration qualifier ITQ of R14 (0b11 is illegal and has no constructor). -/
inductive Itq where
  | every | first | last
deriving DecidableEq, Repr, Inhabited

/-- The engines of R13, Table 2 (ENG 7, the continuation, is no engine). -/
inductive Engine where
  | control | vector | matrix | quantiser | line | copy | sync
deriving DecidableEq, Repr, Inhabited

/-- The user causes of R244, Table 1, with the TRAPDATA each defines. -/
structure UserCause where
  code : BitVec 8
  data : BitVec 64
deriving DecidableEq, Repr, Inhabited

/-- The fatal context errors of R244: 0x20 invalid handle, 0x21 offset out of page, 0x22 protection; a user trap
delivered as one (R245) carries its own cause code. -/
inductive FatalCause where
  | invalidHandle | outOfPage | protection
  /-- R245: a user trap that is delivered as a fatal context error; `double` when raised inside a handler. -/
  | userTrap (code : BitVec 8) (double : Bool)
  /-- R245 with R249 or R252: cause 0x0C; the detail of R244, Table 1. -/
  | handlerFault (detail : BitVec 64)
deriving DecidableEq, Repr, Inhabited

/-- The machine checks of R244: 0x10 residue mismatch, 0x11 poison consumed. -/
inductive CheckCause where
  /-- A residue mismatch; `injected` when MCHK op 1 armed it (R335); where the CIM check names a place (R177). -/
  | residue (injected : Bool)
  | poison
deriving DecidableEq, Repr, Inhabited

/-- An access that arrives at this core's device from outside the core (R279, R282): to a flat location of the
model's one address space (`Sys2Proof.Machine.Place`). -/
inductive RemoteReq where
  /-- Reads `n` bytes; `fe` is a load qualifier of R23; `strand` and `cls` are the global strand id and the engine class of
  the word that asks (R210). -/
  | read (place : Nat) (n : Nat) (fe : BitVec 2) (strand : Nat) (cls : BitVec 3)
  /-- Writes the bytes; `fe` is a store qualifier of R23; `poison` lists the granules (on chip) or lines (main memory) whose
  data are poisoned (R212, R318). -/
  | write (place : Nat) (bytes : List (BitVec 8)) (poison : List Nat) (fe : BitVec 2)
deriving DecidableEq, Repr, Inhabited

/-- The three images of R348, in loading order. -/
inductive ImageKind where
  | security | ganymede | loader
deriving DecidableEq, Repr, Inhabited

/-- An image as the boot core sees it (R348): its version and the verdicts of its two signature checks, which the
spec leaves to the cryptographic standards and the fused key hashes. -/
structure FlashImage where
  version   : Nat
  rsaOk     : Bool
  slhOk     : Bool
  measure   : Nat
deriving DecidableEq, Repr, Inhabited

/-- How firmware sets up the Precision Time Protocol (R338): the domain, whether the module is a boundary clock or an ordinary
one, and whether it measures delays between peers or by request and response. -/
structure PtpSetup where
  domain    : Nat
  boundary  : Bool
  peerDelay : Bool
deriving DecidableEq, Repr, Inhabited

/-- Module flash at boot: slots A and B of each image (R348), the holdover time in nanoseconds when one is set (R339), and the
setting of PTP. -/
structure FlashImages where
  security : FlashImage × FlashImage
  ganymede : FlashImage × FlashImage
  loader   : FlashImage × FlashImage
  holdover : Option Nat
  ptp      : PtpSetup
deriving DecidableEq, Repr, Inhabited

/-- What a scrub of one row found (R327). -/
inductive ScrubResult where
  | clean (stack bank : Nat)
  /-- A row whose error the on-die ECC corrected: counted per bank. -/
  | corrected (stack bank : Nat)
  /-- An uncorrectable error in the base die's row-remap table of a channel. -/
  | remapTable (channel : Nat)
deriving DecidableEq, Repr, Inhabited

/-- A launch queue's binding (R293, R294, R344, R349): the context's translation root, the privilege bit, the rings
and the trace ring, all set by firmware at the operating system's request. -/
structure QueueBinding where
  base      : Nat
  n         : Nat
  asid      : BitVec 16
  priv      : Bool
  /-- Virtual address of the task-record ring, and k of its 2^k records (4-16). -/
  ring      : BitVec 56
  k         : Nat
  /-- Virtual address of the completion ring. -/
  compRing  : BitVec 56
  /-- The trace ring: virtual address, exponent (6-20) and address of the index pair; none when not bound. -/
  trace     : Option (BitVec 56 × Nat × BitVec 56)
  mask      : BitVec 8
  /-- The key slot of each 512 KiB region the address space uses (R349). -/
  keys      : List (Nat × Nat)
deriving DecidableEq, Repr, Inhabited

/-- One constructor per row of the opcode table.  The first block are the instruction words (`q` is the
iteration qualifier of R14; fields that the layout fixes at zero are not carried), the second block the machine
events of the table: they have no encoding and are taken from `Env.inputs`, never from the text. -/
inductive Instr where
  /-- NOP (R28): Does nothing for one split cycle. -/
  | nop (q : Itq)
  /-- ADD (R57): Writes the 64-bit wrapped sum of two scalars. -/
  | add (q : Itq) (d a b : BitVec 5)
  /-- SUB (R57): Writes the 64-bit wrapped difference of two scalars. -/
  | sub (q : Itq) (d a b : BitVec 5)
  /-- AND (R57): Writes the bitwise AND of two scalars. -/
  | and (q : Itq) (d a b : BitVec 5)
  /-- OR (R57): Writes the bitwise OR of two scalars. -/
  | or (q : Itq) (d a b : BitVec 5)
  /-- XOR (R57): Writes the bitwise XOR of two scalars. -/
  | xor (q : Itq) (d a b : BitVec 5)
  /-- SHL (R57): Shifts a scalar left by the low six bits of another. -/
  | shl (q : Itq) (d a b : BitVec 5)
  /-- SHR (R57): Shifts a scalar right logically by the low six bits of another. -/
  | shr (q : Itq) (d a b : BitVec 5)
  /-- SRA (R57): Shifts a scalar right arithmetically by the low six bits of another. -/
  | sra (q : Itq) (d a b : BitVec 5)
  /-- MUL (R57): Writes the low 64 bits of a scalar product. -/
  | mul (q : Itq) (d a b : BitVec 5)
  /-- MULH (R57): Writes the high 64 bits of the signed 128-bit product. -/
  | mulh (q : Itq) (d a b : BitVec 5)
  /-- MULHU (R57): Writes the high 64 bits of the unsigned 128-bit product. -/
  | mulhu (q : Itq) (d a b : BitVec 5)
  /-- MIN (R57): Writes the signed lesser of two scalars. -/
  | min (q : Itq) (d a b : BitVec 5)
  /-- MAX (R57): Writes the signed greater of two scalars. -/
  | max (q : Itq) (d a b : BitVec 5)
  /-- MINU (R57): Writes the unsigned lesser of two scalars. -/
  | minu (q : Itq) (d a b : BitVec 5)
  /-- MAXU (R57): Writes the unsigned greater of two scalars. -/
  | maxu (q : Itq) (d a b : BitVec 5)
  /-- ADDI (R58): Adds a sign-extended 11-bit immediate to a scalar. -/
  | addi (q : Itq) (d a : BitVec 5) (imm : BitVec 11)
  /-- ANDI (R58): ANDs a scalar with a sign-extended immediate. -/
  | andi (q : Itq) (d a : BitVec 5) (imm : BitVec 11)
  /-- ORI (R58): ORs a scalar with a sign-extended immediate. -/
  | ori (q : Itq) (d a : BitVec 5) (imm : BitVec 11)
  /-- XORI (R58): XORs a scalar with a sign-extended immediate. -/
  | xori (q : Itq) (d a : BitVec 5) (imm : BitVec 11)
  /-- SHLI (R58): Shifts a scalar left by an immediate amount. -/
  | shli (q : Itq) (d a : BitVec 5) (imm : BitVec 11)
  /-- SHRI (R58): Shifts a scalar right logically by an immediate amount. -/
  | shri (q : Itq) (d a : BitVec 5) (imm : BitVec 11)
  /-- SRAI (R58): Shifts a scalar right arithmetically by an immediate amount. -/
  | srai (q : Itq) (d a : BitVec 5) (imm : BitVec 11)
  /-- MOVI (R59): Writes a sign-extended 16-bit immediate to a scalar. -/
  | movi (q : Itq) (d : BitVec 5) (imm : BitVec 16)
  /-- INSH_0 (R59): Inserts a 16-bit immediate into bits 15:0 of a scalar. -/
  | insh0 (q : Itq) (d : BitVec 5) (imm : BitVec 16)
  /-- INSH_1 (R59): Inserts a 16-bit immediate into bits 31:16 of a scalar. -/
  | insh1 (q : Itq) (d : BitVec 5) (imm : BitVec 16)
  /-- INSH_2 (R59): Inserts a 16-bit immediate into bits 47:32 of a scalar. -/
  | insh2 (q : Itq) (d : BitVec 5) (imm : BitVec 16)
  /-- INSH_3 (R59): Inserts a 16-bit immediate into bits 63:48 of a scalar. -/
  | insh3 (q : Itq) (d : BitVec 5) (imm : BitVec 16)
  /-- POPC (R57): Writes the number of one bits in a scalar. -/
  | popc (q : Itq) (d a : BitVec 5)
  /-- CLZ (R57): Writes the number of leading zero bits in a scalar. -/
  | clz (q : Itq) (d a : BitVec 5)
  /-- CMP (R60): Sets a predicate from a comparison of two scalars. -/
  | cmp (q : Itq) (pd : BitVec 3) (a b : BitVec 5) (cond : BitVec 4)
  /-- CMPI (R60): Sets a predicate from a comparison of a scalar with an immediate. -/
  | cmpi (q : Itq) (pd : BitVec 3) (a : BitVec 5) (cond : BitVec 3) (imm : BitVec 10)
  /-- PLOG (R61): Combines predicates with a logical function. -/
  | plog (q : Itq) (pd pa pb fn : BitVec 3)
  /-- SEL (R62): Selects one of two scalars by a predicate. -/
  | sel (q : Itq) (d a b : BitVec 5) (p : BitVec 3)
  /-- PBR (R63): Loads a PC-relative branch target into a branch register. -/
  | pbr (q : Itq) (bt : BitVec 2) (imm : BitVec 19)
  /-- PBRR (R63): Loads a branch register from a scalar, trapping on misalignment. -/
  | pbrr (q : Itq) (bt : BitVec 2) (a : BitVec 5)
  /-- BR (R64): Transfers control after two delay instructions when the predicate holds. -/
  | br (q : Itq) (bt : BitVec 2) (p : BitVec 3) (neg : BitVec 1)
  /-- CALL (R64): Pushes the return address and transfers control after two delay instructions. -/
  | call (q : Itq) (bt : BitVec 2) (p : BitVec 3) (neg : BitVec 1)
  /-- RET (R64): Pops the return stack and transfers control after two delay instructions. -/
  | ret (q : Itq) (p : BitVec 3) (neg : BitVec 1)
  /-- LOOP (R67): Opens a loop level with a trip count, body length and vector mode. -/
  | loop (q : Itq) (level : BitVec 3) (sc : BitVec 5) (len : BitVec 9) (mode : BitVec 1)
  /-- LSTR (R70): Sets the stride of an address register at a loop level. -/
  | lstr (q : Itq) (level a : BitVec 3) (sb : BitVec 5)
  /-- LBRK (R71): Marks the innermost loop level's current iteration as its last. -/
  | lbrk (q : Itq) (p : BitVec 3) (neg : BitVec 1)
  /-- LDS_W (R76): Loads a zero-extended word from a scratchpad space at split. -/
  | ldsW (q : Itq) (r : BitVec 5) (a : BitVec 3) (space fe : BitVec 2) (imm : BitVec 9)
  /-- LDS_D (R76): Loads a doubleword from a scratchpad space at split. -/
  | ldsD (q : Itq) (r : BitVec 5) (a : BitVec 3) (space fe : BitVec 2) (imm : BitVec 9)
  /-- STS_W (R76): Stores the low word of a scalar to a scratchpad space at split. -/
  | stsW (q : Itq) (r : BitVec 5) (a : BitVec 3) (space fe : BitVec 2) (imm : BitVec 9)
  /-- STS_D (R76): Stores a scalar doubleword to a scratchpad space at split. -/
  | stsD (q : Itq) (r : BitVec 5) (a : BitVec 3) (space fe : BitVec 2) (imm : BitVec 9)
  /-- LDG (R79): Loads a word or doubleword from main memory through a handle at split. -/
  | ldg (q : Itq) (r : BitVec 5) (h : BitVec 4) (sb : BitVec 5) (size : BitVec 2)
  /-- STG (R79): Stores a word or doubleword to main memory through a handle at split. -/
  | stg (q : Itq) (r : BitVec 5) (h : BitVec 4) (sb : BitVec 5) (size : BitVec 2)
  /-- AMOV (R75): Sets an address register's address, modulo base and length. -/
  | amov (q : Itq) (a : BitVec 3) (sa sb : BitVec 5)
  /-- AINC (R75): Advances an address register by an immediate under its modulo rule. -/
  | ainc (q : Itq) (a : BitVec 3) (imm : BitVec 18)
  /-- CSRR (R83): Reads a control register into a scalar. -/
  | csrr (q : Itq) (r : BitVec 5) (csr : BitVec 12)
  /-- CSRW (R83): Writes a scalar to a control register that has no row of its own. -/
  | csrw (q : Itq) (r : BitVec 5) (csr : BitVec 12)
  /-- RSBOTTOM_READ (R84): A read of RSBOTTOM removes and returns the oldest return-stack entry. -/
  | rsbottomRead (q : Itq) (r : BitVec 5)
  /-- RSBOTTOM_WRITE (R84): A write of RSBOTTOM inserts a new oldest return-stack entry. -/
  | rsbottomWrite (q : Itq) (r : BitVec 5)
  /-- GETID (R81): Writes an identity value selected by kind. -/
  | getid (q : Itq) (d : BitVec 5) (kind : BitVec 4)
  /-- TIME (R82): Writes the Encke counter value at split. -/
  | time (q : Itq) (d : BitVec 5)
  /-- VFADD (R128): Adds floating-point elements with one rounding. -/
  | vfadd (q : Itq) (vd va vb : BitVec 6)
  /-- VFSUB (R128): Subtracts floating-point elements with one rounding. -/
  | vfsub (q : Itq) (vd va vb : BitVec 6)
  /-- VFMUL (R128): Multiplies floating-point elements with one rounding. -/
  | vfmul (q : Itq) (vd va vb : BitVec 6)
  /-- VFMA (R128): Fused multiply-add a times b plus d. -/
  | vfma (q : Itq) (vd va vb : BitVec 6)
  /-- VFMS (R128): Fused multiply-subtract a times b minus d. -/
  | vfms (q : Itq) (vd va vb : BitVec 6)
  /-- VFNMA (R128): Fused d minus a times b. -/
  | vfnma (q : Itq) (vd va vb : BitVec 6)
  /-- VFMIN (R128): Elementwise floating-point minimum. -/
  | vfmin (q : Itq) (vd va vb : BitVec 6)
  /-- VFMAX (R128): Elementwise floating-point maximum. -/
  | vfmax (q : Itq) (vd va vb : BitVec 6)
  /-- VFSGN (R129): Changes element signs by ABS, NEG, COPYSIGN or XORSIGN. -/
  | vfsgn (q : Itq) (vd va vb : BitVec 6) (fn : BitVec 3)
  /-- VFDIV (R128): Divides floating-point elements with one rounding. -/
  | vfdiv (q : Itq) (vd va vb : BitVec 6)
  /-- VFSQRT (R130): Square root of floating-point elements. -/
  | vfsqrt (q : Itq) (vd va : BitVec 6)
  /-- VFUN (R131): Applies a correctly rounded special function to F32 lanes. -/
  | vfun (q : Itq) (vd va : BitVec 6) (fn : BitVec 3)
  /-- VADD (R132): Integer elementwise add, wrapped or saturated. -/
  | vadd (q : Itq) (vd va vb : BitVec 6) (fn : BitVec 3)
  /-- VSUB (R132): Integer elementwise subtract, wrapped or saturated. -/
  | vsub (q : Itq) (vd va vb : BitVec 6) (fn : BitVec 3)
  /-- VMUL (R132): Low bits of integer elementwise products. -/
  | vmul (q : Itq) (vd va vb : BitVec 6)
  /-- VMULH (R132): High bits of integer elementwise products. -/
  | vmulh (q : Itq) (vd va vb : BitVec 6) (fn : BitVec 3)
  /-- VAND (R132): Bitwise AND of elements. -/
  | vand (q : Itq) (vd va vb : BitVec 6)
  /-- VOR (R132): Bitwise OR of elements. -/
  | vor (q : Itq) (vd va vb : BitVec 6)
  /-- VXOR (R132): Bitwise XOR of elements. -/
  | vxor (q : Itq) (vd va vb : BitVec 6)
  /-- VSHL (R132): Elementwise left shift. -/
  | vshl (q : Itq) (vd va vb : BitVec 6)
  /-- VSHR (R132): Elementwise logical right shift. -/
  | vshr (q : Itq) (vd va vb : BitVec 6)
  /-- VSRA (R132): Elementwise arithmetic right shift. -/
  | vsra (q : Itq) (vd va vb : BitVec 6)
  /-- VMIN (R132): Elementwise integer minimum, signed or unsigned. -/
  | vmin (q : Itq) (vd va vb : BitVec 6) (fn : BitVec 3)
  /-- VMAX (R132): Elementwise integer maximum, signed or unsigned. -/
  | vmax (q : Itq) (vd va vb : BitVec 6) (fn : BitVec 3)
  /-- VFOPS (R133): Floating-point operation with a broadcast scalar operand. -/
  | vfops (q : Itq) (vd va : BitVec 6) (sb : BitVec 5) (fn : BitVec 4)
  /-- VIOPS (R133): Integer operation with a broadcast scalar operand. -/
  | viops (q : Itq) (vd va : BitVec 6) (sb : BitVec 5) (fn : BitVec 4)
  /-- VFCMP (R134): Floating-point lane compare writing every lane of a mask. -/
  | vfcmp (q : Itq) (md : BitVec 3) (va vb : BitVec 6) (cond : BitVec 4)
  /-- VCMP (R134): Integer lane compare writing every lane of a mask. -/
  | vcmp (q : Itq) (md : BitVec 3) (va vb : BitVec 6) (cond : BitVec 4)
  /-- VMLOG (R135): Combines masks with a logical function. -/
  | vmlog (q : Itq) (md ma mb fn : BitVec 3)
  /-- VACT (R135): Makes a mask register the active mask. -/
  | vact (q : Itq) (ma : BitVec 3)
  /-- VANY (R136): Sets a predicate when any active lane of a mask is set. -/
  | vany (q : Itq) (pd ma : BitVec 3)
  /-- VALL (R136): Sets a predicate when every active lane of a mask is set. -/
  | vall (q : Itq) (pd ma : BitVec 3)
  /-- VMPOP (R136): Counts active lanes set in a mask into a scalar. -/
  | vmpop (q : Itq) (d : BitVec 5) (ma : BitVec 3)
  /-- VSEL (R137): Selects lanes of two registers by a mask. -/
  | vsel (q : Itq) (vd va vb : BitVec 6) (mk : BitVec 3)
  /-- VFRED (R138): Floating-point tree reduction to a broadcast register or a scalar. -/
  | vfred (q : Itq) (vd va : BitVec 6) (sb : BitVec 5) (fn : BitVec 4)
  /-- VRED (R139): Exact integer reduction to a broadcast register or a scalar. -/
  | vred (q : Itq) (vd va : BitVec 6) (sb : BitVec 5) (fn : BitVec 4)
  /-- VFSCAN (R140): Scans F32 lanes in ascending order. -/
  | vfscan (q : Itq) (vd va : BitVec 6) (fn : BitVec 3)
  /-- VBCS (R142): Broadcasts a scalar into every element with a given tag. -/
  | vbcs (q : Itq) (vd : BitVec 6) (sb : BitVec 5) (fn : BitVec 4)
  /-- VBCL (R142): Broadcasts one lane into every active lane. -/
  | vbcl (q : Itq) (vd va : BitVec 6) (sb : BitVec 5)
  /-- VPERM (R143): Permutes lanes by an index register. -/
  | vperm (q : Itq) (vd va vb : BitVec 6)
  /-- VROT (R143): Rotates or shifts lanes by a scalar amount. -/
  | vrot (q : Itq) (vd va : BitVec 6) (sb : BitVec 5) (fn : BitVec 4)
  /-- VEXT (R144): Extracts one lane into a scalar. -/
  | vext (q : Itq) (vd va : BitVec 6) (sb : BitVec 5) (fn : BitVec 4)
  /-- VINS (R144): Inserts a scalar word into one lane. -/
  | vins (q : Itq) (vd va : BitVec 6) (sb : BitVec 5)
  /-- VMOV (R141): Copies a register with its tag, sidecar and poison. -/
  | vmov (q : Itq) (vd va : BitVec 6)
  /-- VMOV_MASK_TO_REG (R141): Writes a mask as a MASK-tagged register. -/
  | vmovMaskToReg (q : Itq) (vd va : BitVec 6)
  /-- VMOV_REG_TO_MASK (R141): Writes a mask from a MASK-tagged register. -/
  | vmovRegToMask (q : Itq) (vd va : BitVec 6)
  /-- VMOVI (R141): Writes a sign-extended immediate to each active lane. -/
  | vmovi (q : Itq) (vd : BitVec 6) (imm : BitVec 15)
  /-- VIOTA (R141): Writes lane indices or active-lane ranks. -/
  | viota (q : Itq) (vd : BitVec 6) (fn : BitVec 3)
  /-- VCVT (R145): Converts a group of registers between formats. -/
  | vcvt (q : Itq) (vd va : BitVec 6) (tag : BitVec 4) (sat : BitVec 1) (rnd : BitVec 2)
  /-- VTAG (R146): Copies a register under a new tag. -/
  | vtag (q : Itq) (vd va : BitVec 6) (tag : BitVec 4)
  /-- VAMO (R150): Performs per-lane indivisible read-modify-writes at indexed addresses. -/
  | vamo (q : Itq) (vd : BitVec 6) (a : BitVec 3) (space fe : BitVec 2) (fmt inc : BitVec 4) (vx : BitVec 6) (op : BitVec 4)
  /-- VLD (R147): Loads 128 bytes into a vector register with a tag. -/
  | vld (q : Itq) (vd : BitVec 6) (a : BitVec 3) (space fe : BitVec 2) (fmt inc : BitVec 4)
  /-- VST (R147): Stores the active lanes of a vector register. -/
  | vst (q : Itq) (vd : BitVec 6) (a : BitVec 3) (space fe : BitVec 2) (fmt inc : BitVec 4)
  /-- VLDX (R149): Gathers lanes from indexed addresses. -/
  | vldx (q : Itq) (vd : BitVec 6) (a : BitVec 3) (space fe : BitVec 2) (fmt inc : BitVec 4) (vx : BitVec 6)
  /-- VSTX (R149): Scatters lanes to indexed addresses. -/
  | vstx (q : Itq) (vd : BitVec 6) (a : BitVec 3) (space fe : BitVec 2) (fmt inc : BitVec 4) (vx : BitVec 6)
  /-- VLDL (R148): Loads a register from the strand's lane slices. -/
  | vldl (q : Itq) (vd : BitVec 6) (a : BitVec 3) (space fe : BitVec 2) (fmt inc : BitVec 4)
  /-- VSTL (R148): Stores a register to the strand's lane slices. -/
  | vstl (q : Itq) (vd : BitVec 6) (a : BitVec 3) (space fe : BitVec 2) (fmt inc : BitVec 4)
  /-- MCFG (R155): Sets the gang arrangement once no chain is open. -/
  | mcfg (q : Itq) (gang : BitVec 2)
  /-- MLDW (R158): Loads K-rows of a gang's shadow plane from a weight image. -/
  | mldw (q : Itq) (g : BitVec 3) (fmt : BitVec 4) (a : BitVec 3) (space : BitVec 2) (ae : BitVec 3) (vq : BitVec 1) (k0 n1 : BitVec 10) (whole : BitVec 1)
  /-- MLDWS (R160): Loads a 2:4 sparse shadow plane after checking all metadata groups. -/
  | mldws (q : Itq) (g : BitVec 3) (fmt : BitVec 4) (a : BitVec 3) (space : BitVec 2) (ae am : BitVec 3) (k0 n1 : BitVec 10) (whole : BitVec 1)
  /-- MSWAP (R163): Swaps active and shadow planes once no chain is open. -/
  | mswap (q : Itq) (g : BitVec 3) (all : BitVec 1)
  /-- MMUL (R169): Multiplies activation rows by a gang's active plane into tiles within a chain. -/
  | mmul (q : Itq) (t : BitVec 4) (g : BitVec 3) (rows1 : BitVec 5) (afmt : BitVec 4) (start fin wide : BitVec 1) (a : BitVec 3) (space fe : BitVec 2) (stride : BitVec 16)
  /-- MRD (R172): Stores rows of a tile to memory. -/
  | mrd (q : Itq) (t : BitVec 4) (row0 count1 : BitVec 5) (a : BitVec 3) (space fe : BitVec 2) (stride : BitVec 16)
  /-- MRDV (R173): Writes one tile row into two vector registers. -/
  | mrdv (q : Itq) (t : BitVec 4) (row : BitVec 5) (v : BitVec 6)
  /-- MCLR (R174): Writes tile status and clears, keeps or clears the OVF and WSAT bits. -/
  | mclr (q : Itq) (t : BitVec 4) (d : BitVec 5) (op : BitVec 2)
  /-- MPOIS (R174): Sets the poison bit of a tile. -/
  | mpois (q : Itq) (t : BitVec 4)
  /-- MRDK (R162): Reads one K-row of a shadow plane into vector registers. -/
  | mrdk (q : Itq) (mac : BitVec 3) (v : BitVec 6) (sk : BitVec 5)
  /-- MWRK (R161): Encodes and writes one K-row of a shadow plane from vector registers. -/
  | mwrk (q : Itq) (mac : BitVec 3) (v : BitVec 6) (sk : BitVec 5)
  /-- MSLOT (R175): Writes the matrix slot table. -/
  | mslot (q : Itq) (sa : BitVec 5) (now : BitVec 1)
  /-- QCFG (R106): Sets the strand's quantiser target, axis, mode, saturation and D. -/
  | qcfg (q : Itq) (target : BitVec 4) (axis : BitVec 1) (mode : BitVec 2) (sat : BitVec 1) (dd : BitVec 3)
  /-- QSTV (R112): Quantises 32 FP32 lanes through the carry step and stores the codes. -/
  | qstv (q : Itq) (a : BitVec 3) (space : BitVec 2) (v : BitVec 6) (qr : BitVec 4) (sb : BitVec 5) (axisend : BitVec 1)
  /-- QSTT (R113): Quantises tile rows and stores them. -/
  | qstt (q : Itq) (t : BitVec 4) (row0 count1 sb : BitVec 5) (axisend : BitVec 1) (a : BitVec 3) (space : BitVec 2) (qr : BitVec 4) (stride : BitVec 16)
  /-- QSCL (R114): Derives a scale from an amax for the current target. -/
  | qscl (q : Itq) (d sa : BitVec 5)
  /-- QRLD (R115): Loads a carry register from memory, optionally as an acquire. -/
  | qrld (q : Itq) (kind : BitVec 1) (qr : BitVec 4) (a : BitVec 3) (space fe : BitVec 2) (ord : BitVec 1) (scope : BitVec 3)
  /-- QRST (R115): Stores a carry register to memory and zeroes it, optionally as a release. -/
  | qrst (q : Itq) (kind : BitVec 1) (qr : BitVec 4) (a : BitVec 3) (space fe : BitVec 2) (ord : BitVec 1) (scope : BitVec 3)
  /-- QRCLR (R116): Breaks a carry chain by zeroing its register and setting BREAK. -/
  | qrclr (q : Itq) (kind : BitVec 1) (qr : BitVec 4)
  /-- QRMOV (R116): Moves a carry to another register and zeroes the source. -/
  | qrmov (q : Itq) (kind : BitVec 1) (qd qa : BitVec 4)
  /-- QFLG (R117): Reads QFLAGS in queue order and optionally clears them. -/
  | qflg (q : Itq) (d : BitVec 5) (clr : BitVec 1)
  /-- LNTOL (R185): Sets the tolerance of a line set. -/
  | lntol (q : Itq) (set : BitVec 7) (sb : BitVec 5)
  /-- LNFIT (R186): Fits tangent lines for masked features at given points. -/
  | lnfit (q : Itq) (vp : BitVec 6) (mk : BitVec 3) (fb : BitVec 8) (fn : BitVec 4)
  /-- LNLD (R190): Loads line records into features and sets their function code. -/
  | lnld (q : Itq) (sf : BitVec 5) (a : BitVec 3) (space : BitVec 2) (n1 : BitVec 7) (fn : BitVec 4)
  /-- LNST (R190): Stores line records of features to memory. -/
  | lnst (q : Itq) (sf : BitVec 5) (a : BitVec 3) (space : BitVec 2) (n1 : BitVec 7)
  /-- LNST_TABLE (R190): Stores a function's 130-entry curvature table to memory. -/
  | lnstTable (q : Itq) (a : BitVec 3) (space : BitVec 2) (kind : BitVec 4)
  /-- LNCHK (R191): Checks tile rows against lines, setting masks, appending escapes and counting them. -/
  | lnchk (q : Itq) (md : BitVec 3) (t : BitVec 4) (row0 count1 : BitVec 5) (fset : BitVec 7)
  /-- LNAPL (R192): Applies lines to a tile row, optionally with exact values for escapes. -/
  | lnapl (q : Itq) (vd : BitVec 6) (t : BitVec 4) (row : BitVec 5) (fix : BitVec 1) (fb : BitVec 8)
  /-- LNCOR (R192): Writes corrections or slope differences for escaped elements. -/
  | lncor (q : Itq) (vd : BitVec 6) (t : BitVec 4) (row : BitVec 5) (grad : BitVec 1) (fb : BitVec 8)
  /-- LNRFL (R193): Drains refresh-list entries to memory and reports counts. -/
  | lnrfl (q : Itq) (d : BitVec 5) (a : BitVec 3) (space : BitVec 2) (n1 : BitVec 10)
  /-- LNCNT (R194): Reads 32 escape counters into a register, optionally clearing them. -/
  | lncnt (q : Itq) (vd : BitVec 6) (fb : BitVec 8) (clr : BitVec 1)
  /-- LNCLR_COUNTS (R194): Clears the 64 escape counters of a line set. -/
  | lnclrCounts (q : Itq) (set : BitVec 7)
  /-- LNCLR_LIST (R194): Empties the refresh list and clears OVF. -/
  | lnclrList (q : Itq)
  /-- LNCLR_LINES (R194): Gives a line set the empty line and function code NONE. -/
  | lnclrLines (q : Itq) (set : BitVec 7)
  /-- LNFOLD (R195): Forms folded weight rows and intercept terms from lines. -/
  | lnfold (q : Itq) (vd va : BitVec 6) (sf : BitVec 5) (col acc : BitVec 1)
  /-- SREC (R216): Loads a stream pattern record into a stream slot. -/
  | srec (q : Itq) (slot : BitVec 4) (a : BitVec 3) (space : BitVec 2)
  /-- CPY_LINEAR (R217): Copies a byte count between two addresses in groups. -/
  | cpyLinear (q : Itq) (ad : BitVec 3) (dsp : BitVec 2) (asrc : BitVec 3) (ssp : BitVec 2) (sn : BitVec 5) (dfe sfe : BitVec 2)
  /-- CPY_PATTERN (R217): Copies elements between two stream slots. -/
  | cpyPattern (q : Itq) (dslot sslot h : BitVec 4) (dfe sfe : BitVec 2)
  /-- CPYM_LINEAR (R219): Linear copy that releases a held matrix follow-on when its last byte lands. -/
  | cpymLinear (q : Itq) (ad : BitVec 3) (dsp : BitVec 2) (asrc : BitVec 3) (ssp : BitVec 2) (sn : BitVec 5) (dfe sfe : BitVec 2) (follow : Instr)
  /-- CPYM_PATTERN (R219): Pattern copy that releases a held matrix follow-on when its last byte lands. -/
  | cpymPattern (q : Itq) (dslot sslot h : BitVec 4) (dfe sfe : BitVec 2) (follow : Instr)
  /-- CWIN (R222): Opens a window of tensor rows in a scratchpad ring and fetches them. -/
  | cwin (q : Itq) (slot : BitVec 4) (a : BitVec 3) (space : BitVec 2) (h : BitVec 4) (sw sr : BitVec 5)
  /-- CADV (R223): Retires window rows and fetches further rows. -/
  | cadv (q : Itq) (slot : BitVec 4) (sn : BitVec 5) (h : BitVec 4) (nh : BitVec 1)
  /-- CGATH (R224): Gathers remote elements named by descriptors into a local array. -/
  | cgath (q : Itq) (a : BitVec 3) (space : BitVec 2) (ai : BitVec 3) (ispace : BitVec 2) (sn : BitVec 5) (esz : BitVec 3) (lfe rfe : BitVec 2)
  /-- CSCAT (R224): Scatters local elements to remote locations named by descriptors. -/
  | cscat (q : Itq) (a : BitVec 3) (space : BitVec 2) (ai : BitVec 3) (ispace : BitVec 2) (sn : BitVec 5) (esz : BitVec 3) (lfe rfe : BitVec 2)
  /-- CRED (R225): Adds a source array into a destination array element by element. -/
  | cred (q : Itq) (ad : BitVec 3) (dsp : BitVec 2) (asrc : BitVec 3) (ssp : BitVec 2) (sn : BitVec 5) (fmt : BitVec 4) (dfe sfe : BitVec 2)
  /-- CVQX_BOOK (R226): Loads the core's codebook. -/
  | cvqxBook (q : Itq) (asrc : BitVec 3) (ssp sfe : BitVec 2)
  /-- CVQX_EXPAND (R226): Expands index bytes into B8 codes through the codebook. -/
  | cvqxExpand (q : Itq) (ad : BitVec 3) (dsp : BitVec 2) (asrc : BitVec 3) (ssp : BitVec 2) (sn : BitVec 5) (dfe sfe : BitVec 2)
  /-- SISECT (R227): Intersects two sorted index streams and reports why it stopped. -/
  | sisect (q : Itq) (d sp se : BitVec 5) (ka kb out : BitVec 1) (h : BitVec 4) (spa spb : BitVec 2) (ao : BitVec 3) (osp : BitVec 2)
  /-- CSEQ (R221): Reads an issued or completed sequence counter. -/
  | cseq (q : Itq) (d : BitVec 5) (cls which : BitVec 1)
  /-- FENCE (R263): Waits until every earlier access is performed at a scope. -/
  | fence (q : Itq) (scope : BitVec 3)
  /-- XFENCE (R264): Orders earlier accesses of one class before later ones of another. -/
  | xfence (q : Itq) (ca cb scope : BitVec 3)
  /-- LDAQ (R266): Acquire load from a scratchpad space. -/
  | ldaq (q : Itq) (r : BitVec 5) (size : BitVec 1) (a : BitVec 3) (space fe : BitVec 2) (scope : BitVec 3)
  /-- LDAQ_HANDLE (R266): Acquire load from main memory through a handle. -/
  | ldaqHandle (q : Itq) (r : BitVec 5) (size : BitVec 1) (h : BitVec 4) (sb : BitVec 5) (scope : BitVec 3)
  /-- STRL (R266): Release store to a scratchpad space. -/
  | strl (q : Itq) (r : BitVec 5) (size : BitVec 1) (a : BitVec 3) (space fe : BitVec 2) (scope : BitVec 3)
  /-- STRL_HANDLE (R266): Release store to main memory through a handle. -/
  | strlHandle (q : Itq) (r : BitVec 5) (size : BitVec 1) (h : BitVec 4) (sb : BitVec 5) (scope : BitVec 3)
  /-- AMO (R269): Indivisible read-modify-write at a location with optional ordering. -/
  | amo (q : Itq) (d : BitVec 5) (g size : BitVec 1) (loc : BitVec 9) (ord : BitVec 2) (scope : BitVec 3) (sc : BitVec 5) (op : BitVec 4)
  /-- CAS (R269): Indivisible compare-and-swap at a location with optional ordering. -/
  | cas (q : Itq) (d : BitVec 5) (g size : BitVec 1) (loc : BitVec 9) (ord : BitVec 2) (scope : BitVec 3) (sc sn : BitVec 5)
  /-- BAR (R286): Waits at a group barrier after performing earlier accesses at a scope. -/
  | bar (q : Itq) (group : BitVec 8) (d : BitVec 5) (scope : BitVec 3)
  /-- WAITSEQ (R289): Waits for a sequence number to complete and reports lost flags. -/
  | waitseq (q : Itq) (d sa : BitVec 5) (cls : BitVec 2) (scope : BitVec 3)
  /-- WFE (R272): Waits until the event latch is set and clears it. -/
  | wfe (q : Itq)
  /-- SEV (R273): Sends an event to strands after a release wait. -/
  | sev (q : Itq) (kind strand : BitVec 2) (core : BitVec 7) (scope : BitVec 3)
  /-- SLPAT (R340): Sleeps until the Encke counter reaches a deadline. -/
  | slpat (q : Itq) (sa : BitVec 5)
  /-- TRN (R230): Translates a virtual address into a handle in a fixed time. -/
  | trn (q : Itq) (h : BitVec 4) (sa : BitVec 5)
  /-- PROBE (R239): Walks the page table after a drain and writes a handle or faults. -/
  | probe (q : Itq) (h : BitVec 4) (sa : BitVec 5) (acc : BitVec 2)
  /-- HVLD (R232): Tests a handle's validity and writes its status. -/
  | hvld (q : Itq) (pd : BitVec 3) (h : BitVec 4) (d : BitVec 5)
  /-- TRIG (R306): Marks the strand triggered after performing earlier accesses at package scope. -/
  | trig (q : Itq)
  /-- EXIT (R308): Drains the strand at domain scope and ends it. -/
  | exit (q : Itq)
  /-- TRAP (R251): Raises software trap 0x08 after earlier words finish. -/
  | trap (q : Itq) (code : BitVec 16)
  /-- ERET (R252): Checks the frame, restores state, re-injects replay entries and resumes. -/
  | eret (q : Itq)
  /-- TASK (R312): Appends a task record from memory to a launch queue. -/
  | task (q : Itq) (d : BitVec 5) (a : BitVec 3) (space : BitVec 2) (sq : BitVec 5)
  /-- TOKQ (R311): Pushes a token to an expert token queue. -/
  | tokq (q : Itq) (d sq st : BitVec 5)
  /-- TRC (R343): Places a user trace record in the core's trace buffer. -/
  | trc (q : Itq) (sa sb : BitVec 5) (code : BitVec 12)
  /-- DRAIN (R307): Waits until every earlier word has completed and its accesses are performed. -/
  | drain (q : Itq) (scope : BitVec 3)
  /-- INVQ_ISSUE (R240): Issues an invalidate command into the package queue. -/
  | invqIssue (q : Itq) (d sa sb : BitVec 5)
  /-- INVQ_ACK (R240): Reads the greatest acknowledged invalidate number. -/
  | invqAck (q : Itq) (d : BitVec 5)
  /-- MCHK_POP (R335): Moves the oldest machine-check log record to memory. -/
  | mchkPop (q : Itq) (d : BitVec 5) (h : BitVec 4) (sb : BitVec 5) (cls : BitVec 3)
  /-- MCHK_INJECT (R335): Arms one residue fault for the next word of a class. -/
  | mchkInject (q : Itq) (cls : BitVec 3)
  /-- CTXSV_STRAND (R336): Pre-empts a strand and saves its strand area. -/
  | ctxsvStrand (q : Itq) (d sa : BitVec 5) (h : BitVec 4) (sb : BitVec 5)
  /-- CTXSV_CORE (R336): Saves a core area with its translation root. -/
  | ctxsvCore (q : Itq) (d sa : BitVec 5) (h : BitVec 4) (sb : BitVec 5)
  /-- CTXLD_STRAND (R336): Loads a strand area into a free slot and resumes it. -/
  | ctxldStrand (q : Itq) (d sa : BitVec 5) (h : BitVec 4) (sb : BitVec 5)
  /-- CTXLD_CORE (R336): Loads a core area and sets the core context. -/
  | ctxldCore (q : Itq) (d sa : BitVec 5) (h : BitVec 4) (sb : BitVec 5)
  /-- SLOT_TABLE_APPLY (R175): A deferred slot table takes effect at the next slot-0 period and clears debts. -/
  | slotTableApply 
  /-- SLOT_BOUNDARY (R51): At each 256-cycle slot the owner changes and chain debt is charged or repaid. -/
  | slotBoundary 
  /-- SLEEP_DEADLINE (R340): A sleeping SLPAT completes when Now reaches its deadline. -/
  | sleepDeadline 
  /-- TRN_RESULT_LANDS (R231): After exactly 640 cycles the handle lands valid, late, not found or revoked. -/
  | trnResultLands (smallLate : Bool) (largeLate : Bool)
  /-- INVALIDATE_BROADCAST (R241): A command reaches each core, revoking covered handles and in-flight TRNs. -/
  | invalidateBroadcast 
  /-- INVALIDATE_ACKNOWLEDGE (R241): A command is acknowledged once counted words complete, and the issuer receives an event. -/
  | invalidateAcknowledge 
  /-- TRAP_ENTRY (R248): Withdraws unfinished words, writes the frame and enters the handler. -/
  | trapEntry (cause : UserCause)
  /-- FATAL_CONTEXT_ERROR (R234): Stops every strand of the context and completes its running nodes tainted. -/
  | fatalContextError (cause : FatalCause) (addr : BitVec 64)
  /-- MACHINE_CHECK (R323): Stops a node's strands and replays the node or kills the context. -/
  | machineCheck (cause : CheckCause)
  /-- FULL_EMPTY_WAKE (R210): When granules become full, waiting waits and one take are performed. -/
  | fullEmptyWake 
  /-- NEAR_BUFFER_DRAIN (R276): The near buffer drains one unpinned line to its target. -/
  | nearBufferDrain 
  /-- NEAR_BUFFER_FORCED_DRAIN (R280): After 65,536 stalled cycles the oldest pinned line drains. -/
  | nearBufferForcedDrain 
  /-- REMOTE_REQUEST (R282): An access arriving from outside the core or device is served. -/
  | remoteRequest (req : RemoteReq)
  /-- RETRY_REISSUE (R279): A retried access is reissued 64 cycles later and counted. -/
  | retryReissue 
  /-- PARTNER_LOST (R284): A remote access unanswered for 1 ms completes as partner lost. -/
  | partnerLost (strand : Fin 4) (net : Bool)
  /-- RESET (R209): Reset clears memories' bits, planes, line engine and counters. -/
  | reset (flash : FlashImages)
  /-- RECOVERY_IMAGE (R348): In recovery an image is accepted through the management mailbox. -/
  | recoveryImage (which : ImageKind) (img : FlashImage)
  /-- LAUNCH_DOORBELL (R293): The runtime writes a launch queue's new tail index. -/
  | launchDoorbell (queue : BitVec 6) (tail : BitVec 64)
  /-- TASK_RECORD_LAUNCH (R297): The firmware accepts and checks an op-0 task record. -/
  | taskRecordLaunch (queue : BitVec 6)
  /-- RELEASE_HELD_NODE (R299): An op-1 record releases a held node. -/
  | releaseHeldNode (queue : BitVec 6)
  /-- CANCEL_HELD_NODE (R299): An op-2 record cancels a held node or clears a taint. -/
  | cancelHeldNode (queue : BitVec 6)
  /-- CONFIGURE_EXPERT_QUEUE (R309): An op-3 record configures an expert token queue. -/
  | configureExpertQueue (queue : BitVec 6)
  /-- NODE_PLACEMENT (R302): The firmware places an eligible node's strands as one gang. -/
  | nodePlacement (queue : BitVec 6)
  /-- NODE_COMPLETION (R295): A completion record is written once the completion ring has room. -/
  | nodeCompletion (queue : BitVec 6)
  /-- EXPERT_QUEUE_TIMEOUT (R310): The oldest token's timeout expiry makes the queue fire. -/
  | expertQueueTimeout (eq : BitVec 10)
  /-- EXPERT_QUEUE_FIRE (R310): Writes a batch and submits the template task record. -/
  | expertQueueFire (eq : BitVec 10)
  /-- ENERGY_INTEGRATION (R346): Each 1 microsecond interval's energy is split among nodes. -/
  | energyIntegration 
  /-- ENERGY_INTERVAL_START (R347): A new energy interval restores the per-interval budget. -/
  | energyIntervalStart 
  /-- ENERGY_CONFIG (R347): A management command sets the energy interval and budget. -/
  | energyConfig (interval : Nat) (budget : Nat)
  /-- STATE_SUMMARY (R352): A management command writes the state-summary sections. -/
  | stateSummary (buffer : Nat)
  /-- PTP_MESSAGE (R338): A time-stamped IEEE 1588 message disciplines the Encke counter. -/
  | ptpMessage (offset : Int)
  /-- HOLDOVER_EXPIRY (R339): Without lock the firmware begins placing nodes with the counter unlocked. -/
  | holdoverExpiry 
  /-- TRACE_RECORD_MOVE (R344): A buffered trace record is written to the ring or dropped. -/
  | traceRecordMove 
  /-- HBM_PARITY_ALERT (R326): A dropped command is replayed from the history buffer. -/
  | hbmParityAlert (stack : Nat) (channel : Nat) (line : Nat) (write : Bool) (fails : Nat)
  /-- HBM_SCRUB (R327): Scrub runs within refresh over every row. -/
  | hbmScrub (row : ScrubResult)
  /-- CRITICAL_TEMPERATURE (R328): A stack enters self-refresh and requests are held. -/
  | criticalTemperature (stack : Nat)
  /-- SELF_REFRESH_EXIT (R328): Held requests proceed after the stack leaves self-refresh. -/
  | selfRefreshExit (stack : Nat)
  /-- STALL_REPORT (R328): A request held for 50 ms logs one stall report per stack. -/
  | stallReport (stack : Nat)
  /-- LAUNCH_QUEUE_BINDING (R294): At the operating system's request through the management mailbox, the firmware binds a launch queue to a context with its privilege bit, trace ring and event mask, and its key-region table. -/
  | launchQueueBinding (queue : BitVec 6) (b : QueueBinding)
  /-- ABANDON_FLIT_ARRIVAL (R284): An abandon flit, sent by a device that kills a context, arrives and completes the waiting remote access as partner lost, setting its class's lost flag. -/
  | abandonFlitArrival (strand : Fin 4) (net : Bool)
  /-- NO_BETTER_CLOCK_ANNOUNCED (R338): When no better clock is announced any longer, the module takes the grandmaster role for its PTP domain. -/
  | noBetterClockAnnounced 
  /-- ATTESTATION_REPORT (R348): The security cores produce an attestation report that lists the measurement of every loaded image, signed by the device key with both algorithms. -/
  | attestationReport 
deriving DecidableEq, Repr, Inhabited

namespace Instr

/-- The iteration qualifier of an instruction word (R14); an event has none. -/
def itq : Instr → Option Itq
  | .nop q => some q
  | .add q _ _ _ => some q
  | .sub q _ _ _ => some q
  | .and q _ _ _ => some q
  | .or q _ _ _ => some q
  | .xor q _ _ _ => some q
  | .shl q _ _ _ => some q
  | .shr q _ _ _ => some q
  | .sra q _ _ _ => some q
  | .mul q _ _ _ => some q
  | .mulh q _ _ _ => some q
  | .mulhu q _ _ _ => some q
  | .min q _ _ _ => some q
  | .max q _ _ _ => some q
  | .minu q _ _ _ => some q
  | .maxu q _ _ _ => some q
  | .addi q _ _ _ => some q
  | .andi q _ _ _ => some q
  | .ori q _ _ _ => some q
  | .xori q _ _ _ => some q
  | .shli q _ _ _ => some q
  | .shri q _ _ _ => some q
  | .srai q _ _ _ => some q
  | .movi q _ _ => some q
  | .insh0 q _ _ => some q
  | .insh1 q _ _ => some q
  | .insh2 q _ _ => some q
  | .insh3 q _ _ => some q
  | .popc q _ _ => some q
  | .clz q _ _ => some q
  | .cmp q _ _ _ _ => some q
  | .cmpi q _ _ _ _ => some q
  | .plog q _ _ _ _ => some q
  | .sel q _ _ _ _ => some q
  | .pbr q _ _ => some q
  | .pbrr q _ _ => some q
  | .br q _ _ _ => some q
  | .call q _ _ _ => some q
  | .ret q _ _ => some q
  | .loop q _ _ _ _ => some q
  | .lstr q _ _ _ => some q
  | .lbrk q _ _ => some q
  | .ldsW q _ _ _ _ _ => some q
  | .ldsD q _ _ _ _ _ => some q
  | .stsW q _ _ _ _ _ => some q
  | .stsD q _ _ _ _ _ => some q
  | .ldg q _ _ _ _ => some q
  | .stg q _ _ _ _ => some q
  | .amov q _ _ _ => some q
  | .ainc q _ _ => some q
  | .csrr q _ _ => some q
  | .csrw q _ _ => some q
  | .rsbottomRead q _ => some q
  | .rsbottomWrite q _ => some q
  | .getid q _ _ => some q
  | .time q _ => some q
  | .vfadd q _ _ _ => some q
  | .vfsub q _ _ _ => some q
  | .vfmul q _ _ _ => some q
  | .vfma q _ _ _ => some q
  | .vfms q _ _ _ => some q
  | .vfnma q _ _ _ => some q
  | .vfmin q _ _ _ => some q
  | .vfmax q _ _ _ => some q
  | .vfsgn q _ _ _ _ => some q
  | .vfdiv q _ _ _ => some q
  | .vfsqrt q _ _ => some q
  | .vfun q _ _ _ => some q
  | .vadd q _ _ _ _ => some q
  | .vsub q _ _ _ _ => some q
  | .vmul q _ _ _ => some q
  | .vmulh q _ _ _ _ => some q
  | .vand q _ _ _ => some q
  | .vor q _ _ _ => some q
  | .vxor q _ _ _ => some q
  | .vshl q _ _ _ => some q
  | .vshr q _ _ _ => some q
  | .vsra q _ _ _ => some q
  | .vmin q _ _ _ _ => some q
  | .vmax q _ _ _ _ => some q
  | .vfops q _ _ _ _ => some q
  | .viops q _ _ _ _ => some q
  | .vfcmp q _ _ _ _ => some q
  | .vcmp q _ _ _ _ => some q
  | .vmlog q _ _ _ _ => some q
  | .vact q _ => some q
  | .vany q _ _ => some q
  | .vall q _ _ => some q
  | .vmpop q _ _ => some q
  | .vsel q _ _ _ _ => some q
  | .vfred q _ _ _ _ => some q
  | .vred q _ _ _ _ => some q
  | .vfscan q _ _ _ => some q
  | .vbcs q _ _ _ => some q
  | .vbcl q _ _ _ => some q
  | .vperm q _ _ _ => some q
  | .vrot q _ _ _ _ => some q
  | .vext q _ _ _ _ => some q
  | .vins q _ _ _ => some q
  | .vmov q _ _ => some q
  | .vmovMaskToReg q _ _ => some q
  | .vmovRegToMask q _ _ => some q
  | .vmovi q _ _ => some q
  | .viota q _ _ => some q
  | .vcvt q _ _ _ _ _ => some q
  | .vtag q _ _ _ => some q
  | .vamo q _ _ _ _ _ _ _ _ => some q
  | .vld q _ _ _ _ _ _ => some q
  | .vst q _ _ _ _ _ _ => some q
  | .vldx q _ _ _ _ _ _ _ => some q
  | .vstx q _ _ _ _ _ _ _ => some q
  | .vldl q _ _ _ _ _ _ => some q
  | .vstl q _ _ _ _ _ _ => some q
  | .mcfg q _ => some q
  | .mldw q _ _ _ _ _ _ _ _ _ => some q
  | .mldws q _ _ _ _ _ _ _ _ _ => some q
  | .mswap q _ _ => some q
  | .mmul q _ _ _ _ _ _ _ _ _ _ _ => some q
  | .mrd q _ _ _ _ _ _ _ => some q
  | .mrdv q _ _ _ => some q
  | .mclr q _ _ _ => some q
  | .mpois q _ => some q
  | .mrdk q _ _ _ => some q
  | .mwrk q _ _ _ => some q
  | .mslot q _ _ => some q
  | .qcfg q _ _ _ _ _ => some q
  | .qstv q _ _ _ _ _ _ => some q
  | .qstt q _ _ _ _ _ _ _ _ _ => some q
  | .qscl q _ _ => some q
  | .qrld q _ _ _ _ _ _ _ => some q
  | .qrst q _ _ _ _ _ _ _ => some q
  | .qrclr q _ _ => some q
  | .qrmov q _ _ _ => some q
  | .qflg q _ _ => some q
  | .lntol q _ _ => some q
  | .lnfit q _ _ _ _ => some q
  | .lnld q _ _ _ _ _ => some q
  | .lnst q _ _ _ _ => some q
  | .lnstTable q _ _ _ => some q
  | .lnchk q _ _ _ _ _ => some q
  | .lnapl q _ _ _ _ _ => some q
  | .lncor q _ _ _ _ _ => some q
  | .lnrfl q _ _ _ _ => some q
  | .lncnt q _ _ _ => some q
  | .lnclrCounts q _ => some q
  | .lnclrList q => some q
  | .lnclrLines q _ => some q
  | .lnfold q _ _ _ _ _ => some q
  | .srec q _ _ _ => some q
  | .cpyLinear q _ _ _ _ _ _ _ => some q
  | .cpyPattern q _ _ _ _ _ => some q
  | .cpymLinear q _ _ _ _ _ _ _ _ => some q
  | .cpymPattern q _ _ _ _ _ _ => some q
  | .cwin q _ _ _ _ _ _ => some q
  | .cadv q _ _ _ _ => some q
  | .cgath q _ _ _ _ _ _ _ _ => some q
  | .cscat q _ _ _ _ _ _ _ _ => some q
  | .cred q _ _ _ _ _ _ _ _ => some q
  | .cvqxBook q _ _ _ => some q
  | .cvqxExpand q _ _ _ _ _ _ _ => some q
  | .sisect q _ _ _ _ _ _ _ _ _ _ _ => some q
  | .cseq q _ _ _ => some q
  | .fence q _ => some q
  | .xfence q _ _ _ => some q
  | .ldaq q _ _ _ _ _ _ => some q
  | .ldaqHandle q _ _ _ _ _ => some q
  | .strl q _ _ _ _ _ _ => some q
  | .strlHandle q _ _ _ _ _ => some q
  | .amo q _ _ _ _ _ _ _ _ => some q
  | .cas q _ _ _ _ _ _ _ _ => some q
  | .bar q _ _ _ => some q
  | .waitseq q _ _ _ _ => some q
  | .wfe q => some q
  | .sev q _ _ _ _ => some q
  | .slpat q _ => some q
  | .trn q _ _ => some q
  | .probe q _ _ _ => some q
  | .hvld q _ _ _ => some q
  | .trig q => some q
  | .exit q => some q
  | .trap q _ => some q
  | .eret q => some q
  | .task q _ _ _ _ => some q
  | .tokq q _ _ _ => some q
  | .trc q _ _ _ => some q
  | .drain q _ => some q
  | .invqIssue q _ _ _ => some q
  | .invqAck q _ => some q
  | .mchkPop q _ _ _ _ => some q
  | .mchkInject q _ => some q
  | .ctxsvStrand q _ _ _ _ => some q
  | .ctxsvCore q _ _ _ _ => some q
  | .ctxldStrand q _ _ _ _ => some q
  | .ctxldCore q _ _ _ _ => some q
  | .slotTableApply => none
  | .slotBoundary => none
  | .sleepDeadline => none
  | .trnResultLands _ _ => none
  | .invalidateBroadcast => none
  | .invalidateAcknowledge => none
  | .trapEntry _ => none
  | .fatalContextError _ _ => none
  | .machineCheck _ => none
  | .fullEmptyWake => none
  | .nearBufferDrain => none
  | .nearBufferForcedDrain => none
  | .remoteRequest _ => none
  | .retryReissue => none
  | .partnerLost _ _ => none
  | .reset _ => none
  | .recoveryImage _ _ => none
  | .launchDoorbell _ _ => none
  | .taskRecordLaunch _ => none
  | .releaseHeldNode _ => none
  | .cancelHeldNode _ => none
  | .configureExpertQueue _ => none
  | .nodePlacement _ => none
  | .nodeCompletion _ => none
  | .expertQueueTimeout _ => none
  | .expertQueueFire _ => none
  | .energyIntegration => none
  | .energyIntervalStart => none
  | .energyConfig _ _ => none
  | .stateSummary _ => none
  | .ptpMessage _ => none
  | .holdoverExpiry => none
  | .traceRecordMove => none
  | .hbmParityAlert _ _ _ _ _ => none
  | .hbmScrub _ => none
  | .criticalTemperature _ => none
  | .selfRefreshExit _ => none
  | .stallReport _ => none
  | .launchQueueBinding _ _ => none
  | .abandonFlitArrival _ _ => none
  | .noBetterClockAnnounced => none
  | .attestationReport => none

/-- The engine field of the head word (R13); events have none. -/
def eng : Instr → Option Engine
  | .nop _ => some .control
  | .add _ _ _ _ => some .control
  | .sub _ _ _ _ => some .control
  | .and _ _ _ _ => some .control
  | .or _ _ _ _ => some .control
  | .xor _ _ _ _ => some .control
  | .shl _ _ _ _ => some .control
  | .shr _ _ _ _ => some .control
  | .sra _ _ _ _ => some .control
  | .mul _ _ _ _ => some .control
  | .mulh _ _ _ _ => some .control
  | .mulhu _ _ _ _ => some .control
  | .min _ _ _ _ => some .control
  | .max _ _ _ _ => some .control
  | .minu _ _ _ _ => some .control
  | .maxu _ _ _ _ => some .control
  | .addi _ _ _ _ => some .control
  | .andi _ _ _ _ => some .control
  | .ori _ _ _ _ => some .control
  | .xori _ _ _ _ => some .control
  | .shli _ _ _ _ => some .control
  | .shri _ _ _ _ => some .control
  | .srai _ _ _ _ => some .control
  | .movi _ _ _ => some .control
  | .insh0 _ _ _ => some .control
  | .insh1 _ _ _ => some .control
  | .insh2 _ _ _ => some .control
  | .insh3 _ _ _ => some .control
  | .popc _ _ _ => some .control
  | .clz _ _ _ => some .control
  | .cmp _ _ _ _ _ => some .control
  | .cmpi _ _ _ _ _ => some .control
  | .plog _ _ _ _ _ => some .control
  | .sel _ _ _ _ _ => some .control
  | .pbr _ _ _ => some .control
  | .pbrr _ _ _ => some .control
  | .br _ _ _ _ => some .control
  | .call _ _ _ _ => some .control
  | .ret _ _ _ => some .control
  | .loop _ _ _ _ _ => some .control
  | .lstr _ _ _ _ => some .control
  | .lbrk _ _ _ => some .control
  | .ldsW _ _ _ _ _ _ => some .control
  | .ldsD _ _ _ _ _ _ => some .control
  | .stsW _ _ _ _ _ _ => some .control
  | .stsD _ _ _ _ _ _ => some .control
  | .ldg _ _ _ _ _ => some .control
  | .stg _ _ _ _ _ => some .control
  | .amov _ _ _ _ => some .control
  | .ainc _ _ _ => some .control
  | .csrr _ _ _ => some .control
  | .csrw _ _ _ => some .control
  | .rsbottomRead _ _ => some .control
  | .rsbottomWrite _ _ => some .control
  | .getid _ _ _ => some .control
  | .time _ _ => some .control
  | .vfadd _ _ _ _ => some .vector
  | .vfsub _ _ _ _ => some .vector
  | .vfmul _ _ _ _ => some .vector
  | .vfma _ _ _ _ => some .vector
  | .vfms _ _ _ _ => some .vector
  | .vfnma _ _ _ _ => some .vector
  | .vfmin _ _ _ _ => some .vector
  | .vfmax _ _ _ _ => some .vector
  | .vfsgn _ _ _ _ _ => some .vector
  | .vfdiv _ _ _ _ => some .vector
  | .vfsqrt _ _ _ => some .vector
  | .vfun _ _ _ _ => some .vector
  | .vadd _ _ _ _ _ => some .vector
  | .vsub _ _ _ _ _ => some .vector
  | .vmul _ _ _ _ => some .vector
  | .vmulh _ _ _ _ _ => some .vector
  | .vand _ _ _ _ => some .vector
  | .vor _ _ _ _ => some .vector
  | .vxor _ _ _ _ => some .vector
  | .vshl _ _ _ _ => some .vector
  | .vshr _ _ _ _ => some .vector
  | .vsra _ _ _ _ => some .vector
  | .vmin _ _ _ _ _ => some .vector
  | .vmax _ _ _ _ _ => some .vector
  | .vfops _ _ _ _ _ => some .vector
  | .viops _ _ _ _ _ => some .vector
  | .vfcmp _ _ _ _ _ => some .vector
  | .vcmp _ _ _ _ _ => some .vector
  | .vmlog _ _ _ _ _ => some .vector
  | .vact _ _ => some .vector
  | .vany _ _ _ => some .vector
  | .vall _ _ _ => some .vector
  | .vmpop _ _ _ => some .vector
  | .vsel _ _ _ _ _ => some .vector
  | .vfred _ _ _ _ _ => some .vector
  | .vred _ _ _ _ _ => some .vector
  | .vfscan _ _ _ _ => some .vector
  | .vbcs _ _ _ _ => some .vector
  | .vbcl _ _ _ _ => some .vector
  | .vperm _ _ _ _ => some .vector
  | .vrot _ _ _ _ _ => some .vector
  | .vext _ _ _ _ _ => some .vector
  | .vins _ _ _ _ => some .vector
  | .vmov _ _ _ => some .vector
  | .vmovMaskToReg _ _ _ => some .vector
  | .vmovRegToMask _ _ _ => some .vector
  | .vmovi _ _ _ => some .vector
  | .viota _ _ _ => some .vector
  | .vcvt _ _ _ _ _ _ => some .vector
  | .vtag _ _ _ _ => some .vector
  | .vamo _ _ _ _ _ _ _ _ _ => some .vector
  | .vld _ _ _ _ _ _ _ => some .vector
  | .vst _ _ _ _ _ _ _ => some .vector
  | .vldx _ _ _ _ _ _ _ _ => some .vector
  | .vstx _ _ _ _ _ _ _ _ => some .vector
  | .vldl _ _ _ _ _ _ _ => some .vector
  | .vstl _ _ _ _ _ _ _ => some .vector
  | .mcfg _ _ => some .matrix
  | .mldw _ _ _ _ _ _ _ _ _ _ => some .matrix
  | .mldws _ _ _ _ _ _ _ _ _ _ => some .matrix
  | .mswap _ _ _ => some .matrix
  | .mmul _ _ _ _ _ _ _ _ _ _ _ _ => some .matrix
  | .mrd _ _ _ _ _ _ _ _ => some .matrix
  | .mrdv _ _ _ _ => some .matrix
  | .mclr _ _ _ _ => some .matrix
  | .mpois _ _ => some .matrix
  | .mrdk _ _ _ _ => some .matrix
  | .mwrk _ _ _ _ => some .matrix
  | .mslot _ _ _ => some .matrix
  | .qcfg _ _ _ _ _ _ => some .quantiser
  | .qstv _ _ _ _ _ _ _ => some .quantiser
  | .qstt _ _ _ _ _ _ _ _ _ _ => some .quantiser
  | .qscl _ _ _ => some .quantiser
  | .qrld _ _ _ _ _ _ _ _ => some .quantiser
  | .qrst _ _ _ _ _ _ _ _ => some .quantiser
  | .qrclr _ _ _ => some .quantiser
  | .qrmov _ _ _ _ => some .quantiser
  | .qflg _ _ _ => some .quantiser
  | .lntol _ _ _ => some .line
  | .lnfit _ _ _ _ _ => some .line
  | .lnld _ _ _ _ _ _ => some .line
  | .lnst _ _ _ _ _ => some .line
  | .lnstTable _ _ _ _ => some .line
  | .lnchk _ _ _ _ _ _ => some .line
  | .lnapl _ _ _ _ _ _ => some .line
  | .lncor _ _ _ _ _ _ => some .line
  | .lnrfl _ _ _ _ _ => some .line
  | .lncnt _ _ _ _ => some .line
  | .lnclrCounts _ _ => some .line
  | .lnclrList _ => some .line
  | .lnclrLines _ _ => some .line
  | .lnfold _ _ _ _ _ _ => some .line
  | .srec _ _ _ _ => some .copy
  | .cpyLinear _ _ _ _ _ _ _ _ => some .copy
  | .cpyPattern _ _ _ _ _ _ => some .copy
  | .cpymLinear _ _ _ _ _ _ _ _ _ => some .copy
  | .cpymPattern _ _ _ _ _ _ _ => some .copy
  | .cwin _ _ _ _ _ _ _ => some .copy
  | .cadv _ _ _ _ _ => some .copy
  | .cgath _ _ _ _ _ _ _ _ _ => some .copy
  | .cscat _ _ _ _ _ _ _ _ _ => some .copy
  | .cred _ _ _ _ _ _ _ _ _ => some .copy
  | .cvqxBook _ _ _ _ => some .copy
  | .cvqxExpand _ _ _ _ _ _ _ _ => some .copy
  | .sisect _ _ _ _ _ _ _ _ _ _ _ _ => some .copy
  | .cseq _ _ _ _ => some .copy
  | .fence _ _ => some .sync
  | .xfence _ _ _ _ => some .sync
  | .ldaq _ _ _ _ _ _ _ => some .sync
  | .ldaqHandle _ _ _ _ _ _ => some .sync
  | .strl _ _ _ _ _ _ _ => some .sync
  | .strlHandle _ _ _ _ _ _ => some .sync
  | .amo _ _ _ _ _ _ _ _ _ => some .sync
  | .cas _ _ _ _ _ _ _ _ _ => some .sync
  | .bar _ _ _ _ => some .sync
  | .waitseq _ _ _ _ _ => some .sync
  | .wfe _ => some .sync
  | .sev _ _ _ _ _ => some .sync
  | .slpat _ _ => some .sync
  | .trn _ _ _ => some .sync
  | .probe _ _ _ _ => some .sync
  | .hvld _ _ _ _ => some .sync
  | .trig _ => some .sync
  | .exit _ => some .sync
  | .trap _ _ => some .sync
  | .eret _ => some .sync
  | .task _ _ _ _ _ => some .sync
  | .tokq _ _ _ _ => some .sync
  | .trc _ _ _ _ => some .sync
  | .drain _ _ => some .sync
  | .invqIssue _ _ _ _ => some .sync
  | .invqAck _ _ => some .sync
  | .mchkPop _ _ _ _ _ => some .sync
  | .mchkInject _ _ => some .sync
  | .ctxsvStrand _ _ _ _ _ => some .sync
  | .ctxsvCore _ _ _ _ _ => some .sync
  | .ctxldStrand _ _ _ _ _ => some .sync
  | .ctxldCore _ _ _ _ _ => some .sync
  | .slotTableApply => none
  | .slotBoundary => none
  | .sleepDeadline => none
  | .trnResultLands _ _ => none
  | .invalidateBroadcast => none
  | .invalidateAcknowledge => none
  | .trapEntry _ => none
  | .fatalContextError _ _ => none
  | .machineCheck _ => none
  | .fullEmptyWake => none
  | .nearBufferDrain => none
  | .nearBufferForcedDrain => none
  | .remoteRequest _ => none
  | .retryReissue => none
  | .partnerLost _ _ => none
  | .reset _ => none
  | .recoveryImage _ _ => none
  | .launchDoorbell _ _ => none
  | .taskRecordLaunch _ => none
  | .releaseHeldNode _ => none
  | .cancelHeldNode _ => none
  | .configureExpertQueue _ => none
  | .nodePlacement _ => none
  | .nodeCompletion _ => none
  | .expertQueueTimeout _ => none
  | .expertQueueFire _ => none
  | .energyIntegration => none
  | .energyIntervalStart => none
  | .energyConfig _ _ => none
  | .stateSummary _ => none
  | .ptpMessage _ => none
  | .holdoverExpiry => none
  | .traceRecordMove => none
  | .hbmParityAlert _ _ _ _ _ => none
  | .hbmScrub _ => none
  | .criticalTemperature _ => none
  | .selfRefreshExit _ => none
  | .stallReport _ => none
  | .launchQueueBinding _ _ => none
  | .abandonFlitArrival _ _ => none
  | .noBetterClockAnnounced => none
  | .attestationReport => none

/-- The number of words an instruction occupies (R16): 1, 2 with a continuation, CPYM with its follow-on. -/
def words : Instr → Nat
  | .nop _ => 1
  | .add _ _ _ _ => 1
  | .sub _ _ _ _ => 1
  | .and _ _ _ _ => 1
  | .or _ _ _ _ => 1
  | .xor _ _ _ _ => 1
  | .shl _ _ _ _ => 1
  | .shr _ _ _ _ => 1
  | .sra _ _ _ _ => 1
  | .mul _ _ _ _ => 1
  | .mulh _ _ _ _ => 1
  | .mulhu _ _ _ _ => 1
  | .min _ _ _ _ => 1
  | .max _ _ _ _ => 1
  | .minu _ _ _ _ => 1
  | .maxu _ _ _ _ => 1
  | .addi _ _ _ _ => 1
  | .andi _ _ _ _ => 1
  | .ori _ _ _ _ => 1
  | .xori _ _ _ _ => 1
  | .shli _ _ _ _ => 1
  | .shri _ _ _ _ => 1
  | .srai _ _ _ _ => 1
  | .movi _ _ _ => 1
  | .insh0 _ _ _ => 1
  | .insh1 _ _ _ => 1
  | .insh2 _ _ _ => 1
  | .insh3 _ _ _ => 1
  | .popc _ _ _ => 1
  | .clz _ _ _ => 1
  | .cmp _ _ _ _ _ => 1
  | .cmpi _ _ _ _ _ => 1
  | .plog _ _ _ _ _ => 1
  | .sel _ _ _ _ _ => 1
  | .pbr _ _ _ => 1
  | .pbrr _ _ _ => 1
  | .br _ _ _ _ => 1
  | .call _ _ _ _ => 1
  | .ret _ _ _ => 1
  | .loop _ _ _ _ _ => 1
  | .lstr _ _ _ _ => 1
  | .lbrk _ _ _ => 1
  | .ldsW _ _ _ _ _ _ => 1
  | .ldsD _ _ _ _ _ _ => 1
  | .stsW _ _ _ _ _ _ => 1
  | .stsD _ _ _ _ _ _ => 1
  | .ldg _ _ _ _ _ => 1
  | .stg _ _ _ _ _ => 1
  | .amov _ _ _ _ => 1
  | .ainc _ _ _ => 1
  | .csrr _ _ _ => 1
  | .csrw _ _ _ => 1
  | .rsbottomRead _ _ => 1
  | .rsbottomWrite _ _ => 1
  | .getid _ _ _ => 1
  | .time _ _ => 1
  | .vfadd _ _ _ _ => 1
  | .vfsub _ _ _ _ => 1
  | .vfmul _ _ _ _ => 1
  | .vfma _ _ _ _ => 1
  | .vfms _ _ _ _ => 1
  | .vfnma _ _ _ _ => 1
  | .vfmin _ _ _ _ => 1
  | .vfmax _ _ _ _ => 1
  | .vfsgn _ _ _ _ _ => 1
  | .vfdiv _ _ _ _ => 1
  | .vfsqrt _ _ _ => 1
  | .vfun _ _ _ _ => 1
  | .vadd _ _ _ _ _ => 1
  | .vsub _ _ _ _ _ => 1
  | .vmul _ _ _ _ => 1
  | .vmulh _ _ _ _ _ => 1
  | .vand _ _ _ _ => 1
  | .vor _ _ _ _ => 1
  | .vxor _ _ _ _ => 1
  | .vshl _ _ _ _ => 1
  | .vshr _ _ _ _ => 1
  | .vsra _ _ _ _ => 1
  | .vmin _ _ _ _ _ => 1
  | .vmax _ _ _ _ _ => 1
  | .vfops _ _ _ _ _ => 1
  | .viops _ _ _ _ _ => 1
  | .vfcmp _ _ _ _ _ => 1
  | .vcmp _ _ _ _ _ => 1
  | .vmlog _ _ _ _ _ => 1
  | .vact _ _ => 1
  | .vany _ _ _ => 1
  | .vall _ _ _ => 1
  | .vmpop _ _ _ => 1
  | .vsel _ _ _ _ _ => 1
  | .vfred _ _ _ _ _ => 1
  | .vred _ _ _ _ _ => 1
  | .vfscan _ _ _ _ => 1
  | .vbcs _ _ _ _ => 1
  | .vbcl _ _ _ _ => 1
  | .vperm _ _ _ _ => 1
  | .vrot _ _ _ _ _ => 1
  | .vext _ _ _ _ _ => 1
  | .vins _ _ _ _ => 1
  | .vmov _ _ _ => 1
  | .vmovMaskToReg _ _ _ => 1
  | .vmovRegToMask _ _ _ => 1
  | .vmovi _ _ _ => 1
  | .viota _ _ _ => 1
  | .vcvt _ _ _ _ _ _ => 1
  | .vtag _ _ _ _ => 1
  | .vamo _ _ _ _ _ _ _ _ _ => 2
  | .vld _ _ _ _ _ _ _ => 1
  | .vst _ _ _ _ _ _ _ => 1
  | .vldx _ _ _ _ _ _ _ _ => 2
  | .vstx _ _ _ _ _ _ _ _ => 2
  | .vldl _ _ _ _ _ _ _ => 1
  | .vstl _ _ _ _ _ _ _ => 1
  | .mcfg _ _ => 1
  | .mldw _ _ _ _ _ _ _ _ _ _ => 2
  | .mldws _ _ _ _ _ _ _ _ _ _ => 2
  | .mswap _ _ _ => 1
  | .mmul _ _ _ _ _ _ _ _ _ _ _ _ => 2
  | .mrd _ _ _ _ _ _ _ _ => 2
  | .mrdv _ _ _ _ => 1
  | .mclr _ _ _ _ => 1
  | .mpois _ _ => 1
  | .mrdk _ _ _ _ => 1
  | .mwrk _ _ _ _ => 1
  | .mslot _ _ _ => 2
  | .qcfg _ _ _ _ _ _ => 1
  | .qstv _ _ _ _ _ _ _ => 1
  | .qstt _ _ _ _ _ _ _ _ _ _ => 2
  | .qscl _ _ _ => 1
  | .qrld _ _ _ _ _ _ _ _ => 1
  | .qrst _ _ _ _ _ _ _ _ => 1
  | .qrclr _ _ _ => 1
  | .qrmov _ _ _ _ => 1
  | .qflg _ _ _ => 1
  | .lntol _ _ _ => 1
  | .lnfit _ _ _ _ _ => 2
  | .lnld _ _ _ _ _ _ => 1
  | .lnst _ _ _ _ _ => 1
  | .lnstTable _ _ _ _ => 1
  | .lnchk _ _ _ _ _ _ => 2
  | .lnapl _ _ _ _ _ _ => 2
  | .lncor _ _ _ _ _ _ => 2
  | .lnrfl _ _ _ _ _ => 1
  | .lncnt _ _ _ _ => 1
  | .lnclrCounts _ _ => 1
  | .lnclrList _ => 1
  | .lnclrLines _ _ => 1
  | .lnfold _ _ _ _ _ _ => 2
  | .srec _ _ _ _ => 1
  | .cpyLinear _ _ _ _ _ _ _ _ => 1
  | .cpyPattern _ _ _ _ _ _ => 1
  | .cpymLinear _ _ _ _ _ _ _ _ follow => 1 + follow.words
  | .cpymPattern _ _ _ _ _ _ follow => 1 + follow.words
  | .cwin _ _ _ _ _ _ _ => 2
  | .cadv _ _ _ _ _ => 1
  | .cgath _ _ _ _ _ _ _ _ _ => 2
  | .cscat _ _ _ _ _ _ _ _ _ => 2
  | .cred _ _ _ _ _ _ _ _ _ => 2
  | .cvqxBook _ _ _ _ => 2
  | .cvqxExpand _ _ _ _ _ _ _ _ => 2
  | .sisect _ _ _ _ _ _ _ _ _ _ _ _ => 2
  | .cseq _ _ _ _ => 1
  | .fence _ _ => 1
  | .xfence _ _ _ _ => 1
  | .ldaq _ _ _ _ _ _ _ => 1
  | .ldaqHandle _ _ _ _ _ _ => 1
  | .strl _ _ _ _ _ _ _ => 1
  | .strlHandle _ _ _ _ _ _ => 1
  | .amo _ _ _ _ _ _ _ _ _ => 2
  | .cas _ _ _ _ _ _ _ _ _ => 2
  | .bar _ _ _ _ => 1
  | .waitseq _ _ _ _ _ => 1
  | .wfe _ => 1
  | .sev _ _ _ _ _ => 1
  | .slpat _ _ => 1
  | .trn _ _ _ => 1
  | .probe _ _ _ _ => 1
  | .hvld _ _ _ _ => 1
  | .trig _ => 1
  | .exit _ => 1
  | .trap _ _ => 1
  | .eret _ => 1
  | .task _ _ _ _ _ => 2
  | .tokq _ _ _ _ => 1
  | .trc _ _ _ _ => 2
  | .drain _ _ => 1
  | .invqIssue _ _ _ _ => 1
  | .invqAck _ _ => 1
  | .mchkPop _ _ _ _ _ => 1
  | .mchkInject _ _ => 1
  | .ctxsvStrand _ _ _ _ _ => 1
  | .ctxsvCore _ _ _ _ _ => 1
  | .ctxldStrand _ _ _ _ _ => 1
  | .ctxldCore _ _ _ _ _ => 1
  | .slotTableApply => 0
  | .slotBoundary => 0
  | .sleepDeadline => 0
  | .trnResultLands _ _ => 0
  | .invalidateBroadcast => 0
  | .invalidateAcknowledge => 0
  | .trapEntry _ => 0
  | .fatalContextError _ _ => 0
  | .machineCheck _ => 0
  | .fullEmptyWake => 0
  | .nearBufferDrain => 0
  | .nearBufferForcedDrain => 0
  | .remoteRequest _ => 0
  | .retryReissue => 0
  | .partnerLost _ _ => 0
  | .reset _ => 0
  | .recoveryImage _ _ => 0
  | .launchDoorbell _ _ => 0
  | .taskRecordLaunch _ => 0
  | .releaseHeldNode _ => 0
  | .cancelHeldNode _ => 0
  | .configureExpertQueue _ => 0
  | .nodePlacement _ => 0
  | .nodeCompletion _ => 0
  | .expertQueueTimeout _ => 0
  | .expertQueueFire _ => 0
  | .energyIntegration => 0
  | .energyIntervalStart => 0
  | .energyConfig _ _ => 0
  | .stateSummary _ => 0
  | .ptpMessage _ => 0
  | .holdoverExpiry => 0
  | .traceRecordMove => 0
  | .hbmParityAlert _ _ _ _ _ => 0
  | .hbmScrub _ => 0
  | .criticalTemperature _ => 0
  | .selfRefreshExit _ => 0
  | .stallReport _ => 0
  | .launchQueueBinding _ _ => 0
  | .abandonFlitArrival _ _ => 0
  | .noBetterClockAnnounced => 0
  | .attestationReport => 0

/-- The mnemonic of the opcode table. -/
def mnemonic : Instr → String
  | .nop _ => "NOP"
  | .add _ _ _ _ => "ADD"
  | .sub _ _ _ _ => "SUB"
  | .and _ _ _ _ => "AND"
  | .or _ _ _ _ => "OR"
  | .xor _ _ _ _ => "XOR"
  | .shl _ _ _ _ => "SHL"
  | .shr _ _ _ _ => "SHR"
  | .sra _ _ _ _ => "SRA"
  | .mul _ _ _ _ => "MUL"
  | .mulh _ _ _ _ => "MULH"
  | .mulhu _ _ _ _ => "MULHU"
  | .min _ _ _ _ => "MIN"
  | .max _ _ _ _ => "MAX"
  | .minu _ _ _ _ => "MINU"
  | .maxu _ _ _ _ => "MAXU"
  | .addi _ _ _ _ => "ADDI"
  | .andi _ _ _ _ => "ANDI"
  | .ori _ _ _ _ => "ORI"
  | .xori _ _ _ _ => "XORI"
  | .shli _ _ _ _ => "SHLI"
  | .shri _ _ _ _ => "SHRI"
  | .srai _ _ _ _ => "SRAI"
  | .movi _ _ _ => "MOVI"
  | .insh0 _ _ _ => "INSH_0"
  | .insh1 _ _ _ => "INSH_1"
  | .insh2 _ _ _ => "INSH_2"
  | .insh3 _ _ _ => "INSH_3"
  | .popc _ _ _ => "POPC"
  | .clz _ _ _ => "CLZ"
  | .cmp _ _ _ _ _ => "CMP"
  | .cmpi _ _ _ _ _ => "CMPI"
  | .plog _ _ _ _ _ => "PLOG"
  | .sel _ _ _ _ _ => "SEL"
  | .pbr _ _ _ => "PBR"
  | .pbrr _ _ _ => "PBRR"
  | .br _ _ _ _ => "BR"
  | .call _ _ _ _ => "CALL"
  | .ret _ _ _ => "RET"
  | .loop _ _ _ _ _ => "LOOP"
  | .lstr _ _ _ _ => "LSTR"
  | .lbrk _ _ _ => "LBRK"
  | .ldsW _ _ _ _ _ _ => "LDS_W"
  | .ldsD _ _ _ _ _ _ => "LDS_D"
  | .stsW _ _ _ _ _ _ => "STS_W"
  | .stsD _ _ _ _ _ _ => "STS_D"
  | .ldg _ _ _ _ _ => "LDG"
  | .stg _ _ _ _ _ => "STG"
  | .amov _ _ _ _ => "AMOV"
  | .ainc _ _ _ => "AINC"
  | .csrr _ _ _ => "CSRR"
  | .csrw _ _ _ => "CSRW"
  | .rsbottomRead _ _ => "RSBOTTOM_READ"
  | .rsbottomWrite _ _ => "RSBOTTOM_WRITE"
  | .getid _ _ _ => "GETID"
  | .time _ _ => "TIME"
  | .vfadd _ _ _ _ => "VFADD"
  | .vfsub _ _ _ _ => "VFSUB"
  | .vfmul _ _ _ _ => "VFMUL"
  | .vfma _ _ _ _ => "VFMA"
  | .vfms _ _ _ _ => "VFMS"
  | .vfnma _ _ _ _ => "VFNMA"
  | .vfmin _ _ _ _ => "VFMIN"
  | .vfmax _ _ _ _ => "VFMAX"
  | .vfsgn _ _ _ _ _ => "VFSGN"
  | .vfdiv _ _ _ _ => "VFDIV"
  | .vfsqrt _ _ _ => "VFSQRT"
  | .vfun _ _ _ _ => "VFUN"
  | .vadd _ _ _ _ _ => "VADD"
  | .vsub _ _ _ _ _ => "VSUB"
  | .vmul _ _ _ _ => "VMUL"
  | .vmulh _ _ _ _ _ => "VMULH"
  | .vand _ _ _ _ => "VAND"
  | .vor _ _ _ _ => "VOR"
  | .vxor _ _ _ _ => "VXOR"
  | .vshl _ _ _ _ => "VSHL"
  | .vshr _ _ _ _ => "VSHR"
  | .vsra _ _ _ _ => "VSRA"
  | .vmin _ _ _ _ _ => "VMIN"
  | .vmax _ _ _ _ _ => "VMAX"
  | .vfops _ _ _ _ _ => "VFOPS"
  | .viops _ _ _ _ _ => "VIOPS"
  | .vfcmp _ _ _ _ _ => "VFCMP"
  | .vcmp _ _ _ _ _ => "VCMP"
  | .vmlog _ _ _ _ _ => "VMLOG"
  | .vact _ _ => "VACT"
  | .vany _ _ _ => "VANY"
  | .vall _ _ _ => "VALL"
  | .vmpop _ _ _ => "VMPOP"
  | .vsel _ _ _ _ _ => "VSEL"
  | .vfred _ _ _ _ _ => "VFRED"
  | .vred _ _ _ _ _ => "VRED"
  | .vfscan _ _ _ _ => "VFSCAN"
  | .vbcs _ _ _ _ => "VBCS"
  | .vbcl _ _ _ _ => "VBCL"
  | .vperm _ _ _ _ => "VPERM"
  | .vrot _ _ _ _ _ => "VROT"
  | .vext _ _ _ _ _ => "VEXT"
  | .vins _ _ _ _ => "VINS"
  | .vmov _ _ _ => "VMOV"
  | .vmovMaskToReg _ _ _ => "VMOV_MASK_TO_REG"
  | .vmovRegToMask _ _ _ => "VMOV_REG_TO_MASK"
  | .vmovi _ _ _ => "VMOVI"
  | .viota _ _ _ => "VIOTA"
  | .vcvt _ _ _ _ _ _ => "VCVT"
  | .vtag _ _ _ _ => "VTAG"
  | .vamo _ _ _ _ _ _ _ _ _ => "VAMO"
  | .vld _ _ _ _ _ _ _ => "VLD"
  | .vst _ _ _ _ _ _ _ => "VST"
  | .vldx _ _ _ _ _ _ _ _ => "VLDX"
  | .vstx _ _ _ _ _ _ _ _ => "VSTX"
  | .vldl _ _ _ _ _ _ _ => "VLDL"
  | .vstl _ _ _ _ _ _ _ => "VSTL"
  | .mcfg _ _ => "MCFG"
  | .mldw _ _ _ _ _ _ _ _ _ _ => "MLDW"
  | .mldws _ _ _ _ _ _ _ _ _ _ => "MLDWS"
  | .mswap _ _ _ => "MSWAP"
  | .mmul _ _ _ _ _ _ _ _ _ _ _ _ => "MMUL"
  | .mrd _ _ _ _ _ _ _ _ => "MRD"
  | .mrdv _ _ _ _ => "MRDV"
  | .mclr _ _ _ _ => "MCLR"
  | .mpois _ _ => "MPOIS"
  | .mrdk _ _ _ _ => "MRDK"
  | .mwrk _ _ _ _ => "MWRK"
  | .mslot _ _ _ => "MSLOT"
  | .qcfg _ _ _ _ _ _ => "QCFG"
  | .qstv _ _ _ _ _ _ _ => "QSTV"
  | .qstt _ _ _ _ _ _ _ _ _ _ => "QSTT"
  | .qscl _ _ _ => "QSCL"
  | .qrld _ _ _ _ _ _ _ _ => "QRLD"
  | .qrst _ _ _ _ _ _ _ _ => "QRST"
  | .qrclr _ _ _ => "QRCLR"
  | .qrmov _ _ _ _ => "QRMOV"
  | .qflg _ _ _ => "QFLG"
  | .lntol _ _ _ => "LNTOL"
  | .lnfit _ _ _ _ _ => "LNFIT"
  | .lnld _ _ _ _ _ _ => "LNLD"
  | .lnst _ _ _ _ _ => "LNST"
  | .lnstTable _ _ _ _ => "LNST_TABLE"
  | .lnchk _ _ _ _ _ _ => "LNCHK"
  | .lnapl _ _ _ _ _ _ => "LNAPL"
  | .lncor _ _ _ _ _ _ => "LNCOR"
  | .lnrfl _ _ _ _ _ => "LNRFL"
  | .lncnt _ _ _ _ => "LNCNT"
  | .lnclrCounts _ _ => "LNCLR_COUNTS"
  | .lnclrList _ => "LNCLR_LIST"
  | .lnclrLines _ _ => "LNCLR_LINES"
  | .lnfold _ _ _ _ _ _ => "LNFOLD"
  | .srec _ _ _ _ => "SREC"
  | .cpyLinear _ _ _ _ _ _ _ _ => "CPY_LINEAR"
  | .cpyPattern _ _ _ _ _ _ => "CPY_PATTERN"
  | .cpymLinear _ _ _ _ _ _ _ _ _ => "CPYM_LINEAR"
  | .cpymPattern _ _ _ _ _ _ _ => "CPYM_PATTERN"
  | .cwin _ _ _ _ _ _ _ => "CWIN"
  | .cadv _ _ _ _ _ => "CADV"
  | .cgath _ _ _ _ _ _ _ _ _ => "CGATH"
  | .cscat _ _ _ _ _ _ _ _ _ => "CSCAT"
  | .cred _ _ _ _ _ _ _ _ _ => "CRED"
  | .cvqxBook _ _ _ _ => "CVQX_BOOK"
  | .cvqxExpand _ _ _ _ _ _ _ _ => "CVQX_EXPAND"
  | .sisect _ _ _ _ _ _ _ _ _ _ _ _ => "SISECT"
  | .cseq _ _ _ _ => "CSEQ"
  | .fence _ _ => "FENCE"
  | .xfence _ _ _ _ => "XFENCE"
  | .ldaq _ _ _ _ _ _ _ => "LDAQ"
  | .ldaqHandle _ _ _ _ _ _ => "LDAQ_HANDLE"
  | .strl _ _ _ _ _ _ _ => "STRL"
  | .strlHandle _ _ _ _ _ _ => "STRL_HANDLE"
  | .amo _ _ _ _ _ _ _ _ _ => "AMO"
  | .cas _ _ _ _ _ _ _ _ _ => "CAS"
  | .bar _ _ _ _ => "BAR"
  | .waitseq _ _ _ _ _ => "WAITSEQ"
  | .wfe _ => "WFE"
  | .sev _ _ _ _ _ => "SEV"
  | .slpat _ _ => "SLPAT"
  | .trn _ _ _ => "TRN"
  | .probe _ _ _ _ => "PROBE"
  | .hvld _ _ _ _ => "HVLD"
  | .trig _ => "TRIG"
  | .exit _ => "EXIT"
  | .trap _ _ => "TRAP"
  | .eret _ => "ERET"
  | .task _ _ _ _ _ => "TASK"
  | .tokq _ _ _ _ => "TOKQ"
  | .trc _ _ _ _ => "TRC"
  | .drain _ _ => "DRAIN"
  | .invqIssue _ _ _ _ => "INVQ_ISSUE"
  | .invqAck _ _ => "INVQ_ACK"
  | .mchkPop _ _ _ _ _ => "MCHK_POP"
  | .mchkInject _ _ => "MCHK_INJECT"
  | .ctxsvStrand _ _ _ _ _ => "CTXSV_STRAND"
  | .ctxsvCore _ _ _ _ _ => "CTXSV_CORE"
  | .ctxldStrand _ _ _ _ _ => "CTXLD_STRAND"
  | .ctxldCore _ _ _ _ _ => "CTXLD_CORE"
  | .slotTableApply => "SLOT_TABLE_APPLY"
  | .slotBoundary => "SLOT_BOUNDARY"
  | .sleepDeadline => "SLEEP_DEADLINE"
  | .trnResultLands _ _ => "TRN_RESULT_LANDS"
  | .invalidateBroadcast => "INVALIDATE_BROADCAST"
  | .invalidateAcknowledge => "INVALIDATE_ACKNOWLEDGE"
  | .trapEntry _ => "TRAP_ENTRY"
  | .fatalContextError _ _ => "FATAL_CONTEXT_ERROR"
  | .machineCheck _ => "MACHINE_CHECK"
  | .fullEmptyWake => "FULL_EMPTY_WAKE"
  | .nearBufferDrain => "NEAR_BUFFER_DRAIN"
  | .nearBufferForcedDrain => "NEAR_BUFFER_FORCED_DRAIN"
  | .remoteRequest _ => "REMOTE_REQUEST"
  | .retryReissue => "RETRY_REISSUE"
  | .partnerLost _ _ => "PARTNER_LOST"
  | .reset _ => "RESET"
  | .recoveryImage _ _ => "RECOVERY_IMAGE"
  | .launchDoorbell _ _ => "LAUNCH_DOORBELL"
  | .taskRecordLaunch _ => "TASK_RECORD_LAUNCH"
  | .releaseHeldNode _ => "RELEASE_HELD_NODE"
  | .cancelHeldNode _ => "CANCEL_HELD_NODE"
  | .configureExpertQueue _ => "CONFIGURE_EXPERT_QUEUE"
  | .nodePlacement _ => "NODE_PLACEMENT"
  | .nodeCompletion _ => "NODE_COMPLETION"
  | .expertQueueTimeout _ => "EXPERT_QUEUE_TIMEOUT"
  | .expertQueueFire _ => "EXPERT_QUEUE_FIRE"
  | .energyIntegration => "ENERGY_INTEGRATION"
  | .energyIntervalStart => "ENERGY_INTERVAL_START"
  | .energyConfig _ _ => "ENERGY_CONFIG"
  | .stateSummary _ => "STATE_SUMMARY"
  | .ptpMessage _ => "PTP_MESSAGE"
  | .holdoverExpiry => "HOLDOVER_EXPIRY"
  | .traceRecordMove => "TRACE_RECORD_MOVE"
  | .hbmParityAlert _ _ _ _ _ => "HBM_PARITY_ALERT"
  | .hbmScrub _ => "HBM_SCRUB"
  | .criticalTemperature _ => "CRITICAL_TEMPERATURE"
  | .selfRefreshExit _ => "SELF_REFRESH_EXIT"
  | .stallReport _ => "STALL_REPORT"
  | .launchQueueBinding _ _ => "LAUNCH_QUEUE_BINDING"
  | .abandonFlitArrival _ _ => "ABANDON_FLIT_ARRIVAL"
  | .noBetterClockAnnounced => "NO_BETTER_CLOCK_ANNOUNCED"
  | .attestationReport => "ATTESTATION_REPORT"

end Instr

end Sys2Proof
end

