-- ==== Sys2Proof/WellFormed.lean ====
section
/-! DEFINITION. Which field values the spec lists: test 8 of R32 (R21, R23, R25, R27 and the defining chapters). -/

namespace Sys2Proof

/-- A full-empty field: 0b11 is reserved (R23). -/
def feOk (fe : BitVec 2) : Bool := decide (fe ≠ 3)

/-- A scope field: 7 is reserved (R25). -/
def scopeOk (scope : BitVec 3) : Bool := decide (scope ≠ 7)

/-- The fn of PLOG and VMLOG: 7 is reserved; NOT and MOV take a second operand of 0 (R21, R61, R135). -/
def fnPlogOk (fn : BitVec 3) (second : BitVec 3) : Bool :=
  decide (fn.toNat ≤ 4) || (decide (fn.toNat ≤ 6) && decide (second = 0))

/-- The fmt of a load: it sets a tag, so 0x0 is reserved as 0xE and 0xF are (R23, R27). -/
def fmtLoadOk (fmt : BitVec 4) : Bool := decide (1 ≤ fmt.toNat) && decide (fmt.toNat ≤ 13)

/-- The fmt of a store: 0xE and 0xF are reserved (R23). -/
def fmtStoreOk (fmt : BitVec 4) : Bool := decide (fmt.toNat ≤ 13)

/-- The block tags B8 and B4 (R27). -/
def isBlockTag (t : BitVec 4) : Bool := decide (t = 10) || decide (t = 11)

/-- fn[3] of VFRED and VRED: the vector form has sb 0, the scalar form vd 0 (R138, R139). -/
def redDestOk (fn : BitVec 4) (vd : BitVec 6) (sb : BitVec 5) : Bool :=
  if fn.getLsbD 3 then decide (vd = 0) else decide (sb = 0)

/-- op and fmt of VAMO (R150). -/
def vamoFmtOk (op fmt : BitVec 4) : Bool :=
  (decide (op.toNat ≤ 7) && decide (fmt.toNat ∈ [4, 12])) ||
  (decide (op = 8) && decide (fmt.toNat ∈ [1, 4, 12])) || (decide (op = 9) && decide (fmt = 1))

/-- The K-row range of MLDW and MLDWS (R158): `blocks` when the format is loaded by 32-row blocks. -/
def kRangeOk (blocks : Bool) (k0 n1 : BitVec 10) (whole : BitVec 1) : Bool :=
  if whole = 1 then decide (k0 = 0) && decide (n1 = 0)
  else decide (k0.toNat + n1.toNat + 1 ≤ 1024) &&
    (!blocks || (decide (k0.toNat % 32 = 0) && decide ((n1.toNat + 1) % 32 = 0)))

/-- A quantiser configuration that QCFG accepts (R106, R107). -/
def qcfgOk (target : BitVec 4) (axis : BitVec 1) (mode : BitVec 2) : Bool :=
  decide (target.toNat ∈ [2, 3, 6, 7, 8, 9, 10, 11]) && decide (mode ≠ 3) &&
  !(isBlockTag target && decide (axis = 0) && decide (mode = 2))

/-- A carry register number: with kind 1 it is one of QV0-QV3 (R115, R116). -/
def carryIdxOk (kind : BitVec 1) (qr : BitVec 4) : Bool := decide (kind = 0) || decide (qr.toNat < 4)

/-- QRLD and QRST (R115). -/
def carryWordOk (kind : BitVec 1) (qr : BitVec 4) (fe : BitVec 2) (ord : BitVec 1) (scope : BitVec 3) : Bool :=
  carryIdxOk kind qr && feOk fe && scopeOk scope && (decide (ord = 1) || decide (scope = 0))

/-- The breaches that R227 lists for SISECT. -/
def sisectOk (d sp se : BitVec 5) (ka kb out : BitVec 1) (spa spb : BitVec 2) (ao : BitVec 3) (osp : BitVec 2) :
    Bool :=
  decide (sp.toNat % 2 = 0) && decide (sp ≠ 0) && decide (se.toNat % 2 = 0) && decide (se ≠ 0) &&
  decide (d ≠ sp) && decide (d ≠ sp + 1) && (decide (ka = 0) || decide (spa = 0)) &&
  (decide (kb = 0) || decide (spb = 0)) && (decide (out = 1) || (decide (ao = 0) && decide (osp = 0)))

/-- The location field of AMO and CAS: with g = 0 its bits [8:5] of the word are zero (R266, Table 6). -/
def amoLocOk (g : BitVec 1) (loc : BitVec 9) : Bool := decide (g = 1) || decide (loc.toNat % 16 = 0)

/-- The fields that each kind of SEV marks 0 (R273). -/
def sevOk (kind strand : BitVec 2) (core : BitVec 7) : Bool :=
  (decide (kind = 0) && decide (core = 0)) || (decide (kind = 1) && decide (strand = 0) && decide (core = 0)) ||
  (decide (kind = 2) && decide (strand = 0) && decide (core.toNat ≤ 95))

/-- The user and privileged control registers the maps assign, RSBOTTOM apart (R83 Table 4, R333 Table 6). -/
def csrReadable (csr : BitVec 12) : Bool :=
  decide (csr.toNat ∈ [0x000, 0x001, 0x002, 0x003, 0x010, 0x011, 0x012, 0x013, 0x020, 0x021, 0x022, 0x023,
    0x030, 0x031, 0x032, 0x040, 0x050, 0x800, 0x801, 0x810, 0x820, 0x821])

/-- The control registers with a writable field, RSBOTTOM apart (R83, R333). -/
def csrWritable (csr : BitVec 12) : Bool :=
  decide (csr.toNat ∈ [0x001, 0x002, 0x003, 0x010, 0x011, 0x800, 0x801, 0x821])

/-- R17, step 1: the follow-on is a matrix instruction other than MSLOT with the CPYM word's qualifier. -/
def followOk (q : Itq) (follow : Instr) : Bool :=
  decide (follow.eng = some .matrix) && decide (follow.mnemonic ≠ "MSLOT") && decide (follow.itq = some q)

/-- No field of the instruction holds a reserved value (test 8 of R32, less the part that depends on the strand:
`Sys2Proof.Machine.Strand.valueOk`).  For a CPYM its follow-on must be one that R17 admits, and well formed itself. -/
def Instr.wf : Instr → Bool
  | .nop _ => true
  | .add _ _ _ _ => true
  | .sub _ _ _ _ => true
  | .and _ _ _ _ => true
  | .or _ _ _ _ => true
  | .xor _ _ _ _ => true
  | .shl _ _ _ _ => true
  | .shr _ _ _ _ => true
  | .sra _ _ _ _ => true
  | .mul _ _ _ _ => true
  | .mulh _ _ _ _ => true
  | .mulhu _ _ _ _ => true
  | .min _ _ _ _ => true
  | .max _ _ _ _ => true
  | .minu _ _ _ _ => true
  | .maxu _ _ _ _ => true
  | .addi _ _ _ _ => true
  | .andi _ _ _ _ => true
  | .ori _ _ _ _ => true
  | .xori _ _ _ _ => true
  | .shli _ _ _ imm => decide (imm.toNat < 64)
  | .shri _ _ _ imm => decide (imm.toNat < 64)
  | .srai _ _ _ imm => decide (imm.toNat < 64)
  | .movi _ _ _ => true
  | .insh0 _ _ _ => true
  | .insh1 _ _ _ => true
  | .insh2 _ _ _ => true
  | .insh3 _ _ _ => true
  | .popc _ _ _ => true
  | .clz _ _ _ => true
  | .cmp _ _ _ _ cond => decide (cond.toNat ≤ 5)
  | .cmpi _ _ _ cond _ => decide (cond.toNat ≤ 5)
  | .plog _ _ _ pb fn => fnPlogOk fn pb
  | .sel _ _ _ _ _ => true
  | .pbr _ _ _ => true
  | .pbrr _ _ _ => true
  | .br _ _ _ _ => true
  | .call _ _ _ _ => true
  | .ret _ _ _ => true
  | .loop _ level _ len _ => decide (level.toNat ≤ 5) && decide (len ≠ 0)
  | .lstr _ level _ _ => decide (level.toNat ≤ 5)
  | .lbrk _ _ _ => true
  | .ldsW _ _ _ _ fe _ => feOk fe
  | .ldsD _ _ _ _ fe _ => feOk fe
  | .stsW _ _ _ _ fe _ => feOk fe
  | .stsD _ _ _ _ fe _ => feOk fe
  | .ldg _ _ _ _ size => decide (size.toNat < 2)
  | .stg _ _ _ _ size => decide (size.toNat < 2)
  | .amov _ _ _ _ => true
  | .ainc _ _ _ => true
  | .csrr _ _ csr => csrReadable csr
  | .csrw _ _ csr => csrWritable csr
  | .rsbottomRead _ _ => true
  | .rsbottomWrite _ _ => true
  | .getid _ _ kind => decide (kind.toNat ≤ 9)
  | .time _ _ => true
  | .vfadd _ _ _ _ => true
  | .vfsub _ _ _ _ => true
  | .vfmul _ _ _ _ => true
  | .vfma _ _ _ _ => true
  | .vfms _ _ _ _ => true
  | .vfnma _ _ _ _ => true
  | .vfmin _ _ _ _ => true
  | .vfmax _ _ _ _ => true
  | .vfsgn _ _ _ vb fn => decide (fn.toNat ≤ 3) && (decide (2 ≤ fn.toNat) || decide (vb = 0))
  | .vfdiv _ _ _ _ => true
  | .vfsqrt _ _ _ => true
  | .vfun _ _ _ _ => true
  | .vadd _ _ _ _ fn => decide (fn.toNat ∈ [0, 2, 3])
  | .vsub _ _ _ _ fn => decide (fn.toNat ∈ [0, 2, 3])
  | .vmul _ _ _ _ => true
  | .vmulh _ _ _ _ fn => decide (fn.toNat ≤ 1)
  | .vand _ _ _ _ => true
  | .vor _ _ _ _ => true
  | .vxor _ _ _ _ => true
  | .vshl _ _ _ _ => true
  | .vshr _ _ _ _ => true
  | .vsra _ _ _ _ => true
  | .vmin _ _ _ _ fn => decide (fn.toNat ≤ 1)
  | .vmax _ _ _ _ fn => decide (fn.toNat ≤ 1)
  | .vfops _ _ _ _ fn => decide (fn.toNat ≤ 7)
  | .viops _ _ _ _ fn => decide (fn.toNat ≤ 13)
  | .vfcmp _ _ _ _ cond => decide (cond.toNat ≤ 7)
  | .vcmp _ _ _ _ cond => decide (cond.toNat ≤ 6)
  | .vmlog _ _ _ mb fn => fnPlogOk fn mb
  | .vact _ _ => true
  | .vany _ _ _ => true
  | .vall _ _ _ => true
  | .vmpop _ _ _ => true
  | .vsel _ _ _ _ _ => true
  | .vfred _ vd _ sb fn => decide (fn.toNat % 8 ≤ 3) && redDestOk fn vd sb
  | .vred _ vd _ sb fn => redDestOk fn vd sb
  | .vfscan _ _ _ fn => decide (fn.toNat ≤ 3)
  | .vbcs _ _ _ fn => decide (fn.toNat ∈ [1, 2, 3, 4, 5, 6, 7, 8, 9, 12])
  | .vbcl _ _ _ _ => true
  | .vperm _ _ _ _ => true
  | .vrot _ _ _ _ fn => decide (fn.toNat ≤ 2)
  | .vext _ vd _ _ fn => decide (fn.toNat ≤ 1) && decide (vd.toNat < 32)
  | .vins _ _ va _ => decide (va.toNat < 32)
  | .vmov _ _ _ => true
  | .vmovMaskToReg _ _ va => decide (va.toNat < 8)
  | .vmovRegToMask _ vd _ => decide (vd.toNat < 8)
  | .vmovi _ _ _ => true
  | .viota _ _ fn => decide (fn.toNat ≤ 1)
  | .vcvt _ _ _ tag _ _ => decide (tag.toNat ∈ [1, 2, 3, 4, 5, 6, 7, 8, 9, 12])
  | .vtag _ _ _ tag => decide (1 ≤ tag.toNat) && decide (tag.toNat ≤ 13)
  | .vamo _ _ _ _ fe fmt _ _ op => decide (fe = 0) && vamoFmtOk op fmt
  | .vld _ _ _ _ fe fmt _ => feOk fe && fmtLoadOk fmt
  | .vst _ _ _ _ fe fmt _ => feOk fe && fmtStoreOk fmt
  | .vldx _ _ _ _ fe fmt _ _ => feOk fe && fmtLoadOk fmt && !isBlockTag fmt
  | .vstx _ _ _ _ fe fmt _ _ => feOk fe && fmtStoreOk fmt && !isBlockTag fmt
  | .vldl _ _ _ space fe fmt _ => decide (space = 0) && decide (fe = 0) && fmtLoadOk fmt && !isBlockTag fmt
  | .vstl _ _ _ space fe fmt _ => decide (space = 0) && decide (fe = 0) && fmtStoreOk fmt && !isBlockTag fmt
  | .mcfg _ _ => true
  | .mldw _ _ fmt _ _ ae vq k0 n1 whole => decide (fmt.toNat ∈ [10, 11, 6, 7]) && (decide (vq = 0) || decide (fmt = 10)) &&
      (decide (fmt.toNat ∈ [10, 11]) || decide (ae = 0)) && kRangeOk (decide (fmt.toNat ∈ [10, 11, 7])) k0 n1 whole
  | .mldws _ _ fmt _ _ _ _ k0 n1 whole => decide (fmt.toNat ∈ [10, 11, 6]) && kRangeOk (decide (fmt.toNat ∈ [10, 11])) k0 n1 whole
  | .mswap _ g all => decide (all = 0) || decide (g = 0)
  | .mmul _ _ g _ afmt _ _ wide _ _ fe _ => decide (afmt.toNat ∈ [6, 7, 8, 10, 11]) && (decide (wide = 0) || decide (g = 0)) && feOk fe
  | .mrd _ _ row0 count1 _ _ fe _ => decide (row0.toNat + count1.toNat + 1 ≤ 32) && feOk fe
  | .mrdv _ _ _ v => decide (v ≠ 63)
  | .mclr _ _ _ op => decide (op.toNat ≤ 2)
  | .mpois _ _ => true
  | .mrdk _ _ v _ => decide (v ≠ 63)
  | .mwrk _ _ v _ => decide (v ≠ 63)
  | .mslot _ _ _ => true
  | .qcfg _ target axis mode _ _ => qcfgOk target axis mode
  | .qstv _ _ _ _ _ _ _ => true
  | .qstt _ _ row0 count1 _ _ _ _ _ _ => decide (row0.toNat + count1.toNat + 1 ≤ 32)
  | .qscl _ _ _ => true
  | .qrld _ kind qr _ _ fe ord scope => carryWordOk kind qr fe ord scope
  | .qrst _ kind qr _ _ fe ord scope => carryWordOk kind qr fe ord scope
  | .qrclr _ kind qr => carryIdxOk kind qr
  | .qrmov _ kind qd qa => carryIdxOk kind qd && carryIdxOk kind qa
  | .qflg _ _ _ => true
  | .lntol _ _ _ => true
  | .lnfit _ _ _ _ fn => decide (1 ≤ fn.toNat) && decide (fn.toNat ≤ 6)
  | .lnld _ _ _ _ _ fn => decide (fn.toNat ≤ 6)
  | .lnst _ _ _ _ _ => true
  | .lnstTable _ _ _ kind => decide (2 ≤ kind.toNat) && decide (kind.toNat ≤ 6)
  | .lnchk _ md _ row0 count1 _ => decide (row0.toNat + count1.toNat + 1 ≤ 32) && decide (md ≠ 7)
  | .lnapl _ _ _ _ _ _ => true
  | .lncor _ _ _ _ _ _ => true
  | .lnrfl _ _ _ _ _ => true
  | .lncnt _ _ _ _ => true
  | .lnclrCounts _ _ => true
  | .lnclrList _ => true
  | .lnclrLines _ _ => true
  | .lnfold _ vd va _ _ _ => decide (vd.toNat ≤ 60) && decide (va.toNat ≤ 62)
  | .srec _ _ _ _ => true
  | .cpyLinear _ _ _ _ _ _ dfe sfe => feOk dfe && feOk sfe
  | .cpyPattern _ _ _ _ dfe sfe => feOk dfe && feOk sfe
  | .cpymLinear q _ _ _ _ _ dfe sfe follow => feOk dfe && feOk sfe && followOk q follow && follow.wf
  | .cpymPattern q _ _ _ dfe sfe follow => feOk dfe && feOk sfe && followOk q follow && follow.wf
  | .cwin _ _ _ _ _ _ _ => true
  | .cadv _ _ _ h nh => decide (nh = 1) || decide (h = 0)
  | .cgath _ _ _ _ _ _ esz lfe rfe => decide (2 ≤ esz.toNat) && decide (lfe = 0) && feOk rfe
  | .cscat _ _ _ _ _ _ esz lfe rfe => decide (2 ≤ esz.toNat) && feOk lfe && feOk rfe
  | .cred _ _ _ _ _ _ fmt dfe sfe => decide (fmt.toNat ∈ [1, 2, 4]) && feOk dfe && feOk sfe
  | .cvqxBook _ _ _ sfe => feOk sfe
  | .cvqxExpand _ _ _ _ _ _ dfe sfe => feOk dfe && feOk sfe
  | .sisect _ d sp se ka kb out _ spa spb ao osp => sisectOk d sp se ka kb out spa spb ao osp
  | .cseq _ _ _ _ => true
  | .fence _ scope => scopeOk scope
  | .xfence _ _ _ scope => scopeOk scope
  | .ldaq _ _ _ _ _ fe scope => feOk fe && scopeOk scope
  | .ldaqHandle _ _ _ _ _ scope => scopeOk scope
  | .strl _ _ _ _ _ fe scope => feOk fe && scopeOk scope
  | .strlHandle _ _ _ _ _ scope => scopeOk scope
  | .amo _ _ g size loc _ scope _ op => amoLocOk g loc && decide (op.toNat ≤ 9) && (decide (op ≠ 9) || decide (size = 1)) && scopeOk scope
  | .cas _ _ g _ loc _ scope _ _ => amoLocOk g loc && scopeOk scope
  | .bar _ _ _ scope => decide (scope ≠ 0) && scopeOk scope
  | .waitseq _ _ _ cls scope => decide (cls.toNat ≤ 1) && scopeOk scope
  | .wfe _ => true
  | .sev _ kind strand core scope => sevOk kind strand core && scopeOk scope
  | .slpat _ _ => true
  | .trn _ _ _ => true
  | .probe _ _ _ acc => decide (acc.toNat ≤ 1)
  | .hvld _ _ _ _ => true
  | .trig _ => true
  | .exit _ => true
  | .trap _ _ => true
  | .eret _ => true
  | .task _ _ _ _ _ => true
  | .tokq _ _ _ _ => true
  | .trc _ _ _ _ => true
  | .drain _ scope => scopeOk scope
  | .invqIssue _ _ _ _ => true
  | .invqAck _ _ => true
  | .mchkPop _ _ _ _ _ => true
  | .mchkInject _ _ => true
  | .ctxsvStrand _ _ _ _ _ => true
  | .ctxsvCore _ _ _ _ _ => true
  | .ctxldStrand _ _ _ _ _ => true
  | .ctxldCore _ _ _ _ _ => true
  | .slotTableApply => true
  | .slotBoundary => true
  | .sleepDeadline => true
  | .trnResultLands _ _ => true
  | .invalidateBroadcast => true
  | .invalidateAcknowledge => true
  | .trapEntry _ => true
  | .fatalContextError _ _ => true
  | .machineCheck _ => true
  | .fullEmptyWake => true
  | .nearBufferDrain => true
  | .nearBufferForcedDrain => true
  | .remoteRequest _ => true
  | .retryReissue => true
  | .partnerLost _ _ => true
  | .reset _ => true
  | .recoveryImage _ _ => true
  | .launchDoorbell _ _ => true
  | .taskRecordLaunch _ => true
  | .releaseHeldNode _ => true
  | .cancelHeldNode _ => true
  | .configureExpertQueue _ => true
  | .nodePlacement _ => true
  | .nodeCompletion _ => true
  | .expertQueueTimeout _ => true
  | .expertQueueFire _ => true
  | .energyIntegration => true
  | .energyIntervalStart => true
  | .energyConfig _ _ => true
  | .stateSummary _ => true
  | .ptpMessage _ => true
  | .holdoverExpiry => true
  | .traceRecordMove => true
  | .hbmParityAlert _ _ _ _ _ => true
  | .hbmScrub _ => true
  | .criticalTemperature _ => true
  | .selfRefreshExit _ => true
  | .stallReport _ => true
  | .launchQueueBinding _ _ => true
  | .abandonFlitArrival _ _ => true
  | .noBetterClockAnnounced => true
  | .attestationReport => true

/-- An instruction word, as opposed to a machine event of the table. -/
def Instr.isWord (i : Instr) : Bool := i.itq.isSome

end Sys2Proof
end

