-- ==== Sys2Proof/Decode.lean ====
section
/-! DEFINITION. The decoder (R12-R32): the tests of R32 that the words alone decide, in their order, with the
reason codes of Table 15; the encoder, from the same layouts; and `decodeTableWord`. -/

namespace Sys2Proof

/-- The reason codes of R32, Table 15. -/
inductive Reason where
  | unallocated | privileged | qualifier | outsideLoop | reservedBit | reservedValue
  | strayContinuation | missingContinuation | followOn | placement | eretOutside
deriving DecidableEq, Repr, Inhabited

/-- The number of a reason (R32, Table 15). -/
def Reason.code : Reason → BitVec 8
  | .unallocated => 0x01 | .privileged => 0x02 | .qualifier => 0x03 | .outsideLoop => 0x04
  | .reservedBit => 0x05 | .reservedValue => 0x06 | .strayContinuation => 0x07
  | .missingContinuation => 0x08 | .followOn => 0x09 | .placement => 0x0A | .eretOutside => 0x0B

/-- A failed test: its reason, and whether it was applied to a CPYM follow-on (bit 8 of TRAPDATA, R32). -/
structure Failure where
  reason : Reason
  follow : Bool
deriving DecidableEq, Repr, Inhabited

/-- A failure of a test on the instruction's own word. -/
def fail (r : Reason) : Failure := ⟨r, false⟩

/-- Tests 7 and 8 of a one-word instruction: `zm` are the bits its layout marks zero, `zeros` the fields it fixes. -/
def one (w zm : Word) (zeros : Bool) (i : Instr) : Except Failure Instr :=
  if w &&& zm ≠ 0 then .error (fail .reservedBit)
  else if zeros && i.wf then .ok i else .error (fail .reservedValue)

/-- Tests 6, 7 and 8 of an instruction with a continuation. -/
def two (w : Word) (c : Option Word) (zm cm : Word) (f : Word → Bool × Instr) : Except Failure Instr :=
  match c with
  | none => .error (fail .missingContinuation)
  | some c =>
    if w &&& zm ≠ 0 ∨ c &&& cm ≠ 0 then .error (fail .reservedBit)
    else if (f c).1 && (f c).2.wf then .ok (f c).2 else .error (fail .reservedValue)

/-- A word whose selector field holds a value that no row lists: test 7, then test 8. -/
def bad (w zm : Word) : Except Failure Instr :=
  .error (fail (if w &&& zm ≠ 0 then .reservedBit else .reservedValue))

/-- The qualifier's two bits (R14). -/
def Itq.bits : Itq → BitVec 2
  | .every => 0 | .first => 1 | .last => 2

/-- The qualifier read from its two bits; 0b11 is illegal (R14). -/
def Itq.ofBits (b : BitVec 2) : Option Itq :=
  match b.toNat with
  | 0 => some .every | 1 => some .first | 2 => some .last | _ => none

/-- A continuation word: ENG = 7 (R15). -/
def isCont (w : Word) : Bool := decide (w.extractLsb' 29 3 = 7)

/-- The next word, when it is a continuation (R16). -/
def contOf : List Word → Option Word
  | c :: _ => if isCont c then some c else none
  | [] => none

/-- An opcode of the privileged range of engines 2 to 6 (R31). -/
def inPrivRange (w : Word) : Bool :=
  decide (2 ≤ (w.extractLsb' 29 3).toNat) && decide ((w.extractLsb' 29 3).toNat ≤ 6) &&
  decide (0x30 ≤ (w.extractLsb' 21 6).toNat)

/-- Engine-0 words (R28, Table 12 and Table 6). -/
def decodeControl (q : Itq) (w : Word) : Except Failure Instr :=
  match (w.extractLsb' 21 6).toNat with
  | 0x00 => one w 0x001FFFFF#32 (true) (.nop q)
  | 0x01 => one w 0x0000003F#32 (true) (.add q (w.extractLsb' 16 5) (w.extractLsb' 11 5) (w.extractLsb' 6 5))
  | 0x02 => one w 0x0000003F#32 (true) (.sub q (w.extractLsb' 16 5) (w.extractLsb' 11 5) (w.extractLsb' 6 5))
  | 0x03 => one w 0x0000003F#32 (true) (.and q (w.extractLsb' 16 5) (w.extractLsb' 11 5) (w.extractLsb' 6 5))
  | 0x04 => one w 0x0000003F#32 (true) (.or q (w.extractLsb' 16 5) (w.extractLsb' 11 5) (w.extractLsb' 6 5))
  | 0x05 => one w 0x0000003F#32 (true) (.xor q (w.extractLsb' 16 5) (w.extractLsb' 11 5) (w.extractLsb' 6 5))
  | 0x06 => one w 0x0000003F#32 (true) (.shl q (w.extractLsb' 16 5) (w.extractLsb' 11 5) (w.extractLsb' 6 5))
  | 0x07 => one w 0x0000003F#32 (true) (.shr q (w.extractLsb' 16 5) (w.extractLsb' 11 5) (w.extractLsb' 6 5))
  | 0x08 => one w 0x0000003F#32 (true) (.sra q (w.extractLsb' 16 5) (w.extractLsb' 11 5) (w.extractLsb' 6 5))
  | 0x09 => one w 0x0000003F#32 (true) (.mul q (w.extractLsb' 16 5) (w.extractLsb' 11 5) (w.extractLsb' 6 5))
  | 0x0A => one w 0x0000003F#32 (true) (.mulh q (w.extractLsb' 16 5) (w.extractLsb' 11 5) (w.extractLsb' 6 5))
  | 0x0B => one w 0x0000003F#32 (true) (.mulhu q (w.extractLsb' 16 5) (w.extractLsb' 11 5) (w.extractLsb' 6 5))
  | 0x0C => one w 0x0000003F#32 (true) (.min q (w.extractLsb' 16 5) (w.extractLsb' 11 5) (w.extractLsb' 6 5))
  | 0x0D => one w 0x0000003F#32 (true) (.max q (w.extractLsb' 16 5) (w.extractLsb' 11 5) (w.extractLsb' 6 5))
  | 0x0E => one w 0x0000003F#32 (true) (.minu q (w.extractLsb' 16 5) (w.extractLsb' 11 5) (w.extractLsb' 6 5))
  | 0x0F => one w 0x0000003F#32 (true) (.maxu q (w.extractLsb' 16 5) (w.extractLsb' 11 5) (w.extractLsb' 6 5))
  | 0x10 => one w 0x00000000#32 (true) (.addi q (w.extractLsb' 16 5) (w.extractLsb' 11 5) (w.extractLsb' 0 11))
  | 0x11 => one w 0x00000000#32 (true) (.andi q (w.extractLsb' 16 5) (w.extractLsb' 11 5) (w.extractLsb' 0 11))
  | 0x12 => one w 0x00000000#32 (true) (.ori q (w.extractLsb' 16 5) (w.extractLsb' 11 5) (w.extractLsb' 0 11))
  | 0x13 => one w 0x00000000#32 (true) (.xori q (w.extractLsb' 16 5) (w.extractLsb' 11 5) (w.extractLsb' 0 11))
  | 0x14 => one w 0x00000000#32 (true) (.shli q (w.extractLsb' 16 5) (w.extractLsb' 11 5) (w.extractLsb' 0 11))
  | 0x15 => one w 0x00000000#32 (true) (.shri q (w.extractLsb' 16 5) (w.extractLsb' 11 5) (w.extractLsb' 0 11))
  | 0x16 => one w 0x00000000#32 (true) (.srai q (w.extractLsb' 16 5) (w.extractLsb' 11 5) (w.extractLsb' 0 11))
  | 0x17 => one w 0x00000000#32 (true) (.movi q (w.extractLsb' 16 5) (w.extractLsb' 0 16))
  | 0x18 => one w 0x00000000#32 (true) (.insh0 q (w.extractLsb' 16 5) (w.extractLsb' 0 16))
  | 0x19 => one w 0x00000000#32 (true) (.insh1 q (w.extractLsb' 16 5) (w.extractLsb' 0 16))
  | 0x1A => one w 0x00000000#32 (true) (.insh2 q (w.extractLsb' 16 5) (w.extractLsb' 0 16))
  | 0x1B => one w 0x00000000#32 (true) (.insh3 q (w.extractLsb' 16 5) (w.extractLsb' 0 16))
  | 0x1C => one w 0x0000003F#32 (decide ((w.extractLsb' 6 5) = 0)) (.popc q (w.extractLsb' 16 5) (w.extractLsb' 11 5))
  | 0x1D => one w 0x0000003F#32 (decide ((w.extractLsb' 6 5) = 0)) (.clz q (w.extractLsb' 16 5) (w.extractLsb' 11 5))
  | 0x1E => one w 0x0000000F#32 (true) (.cmp q (w.extractLsb' 18 3) (w.extractLsb' 13 5) (w.extractLsb' 8 5) (w.extractLsb' 4 4))
  | 0x1F => one w 0x00000000#32 (true) (.cmpi q (w.extractLsb' 18 3) (w.extractLsb' 13 5) (w.extractLsb' 10 3) (w.extractLsb' 0 10))
  | 0x20 => one w 0x000001FF#32 (true) (.plog q (w.extractLsb' 18 3) (w.extractLsb' 15 3) (w.extractLsb' 12 3) (w.extractLsb' 9 3))
  | 0x21 => one w 0x00000007#32 (true) (.sel q (w.extractLsb' 16 5) (w.extractLsb' 11 5) (w.extractLsb' 6 5) (w.extractLsb' 3 3))
  | 0x22 => one w 0x00000000#32 (true) (.pbr q (w.extractLsb' 19 2) (w.extractLsb' 0 19))
  | 0x23 => one w 0x000707FF#32 (true) (.pbrr q (w.extractLsb' 19 2) (w.extractLsb' 11 5))
  | 0x24 => one w 0x00007FFF#32 (true) (.br q (w.extractLsb' 19 2) (w.extractLsb' 16 3) (w.extractLsb' 15 1))
  | 0x25 => one w 0x00007FFF#32 (true) (.call q (w.extractLsb' 19 2) (w.extractLsb' 16 3) (w.extractLsb' 15 1))
  | 0x26 => one w 0x00007FFF#32 (decide ((w.extractLsb' 19 2) = 0)) (.ret q (w.extractLsb' 16 3) (w.extractLsb' 15 1))
  | 0x27 => one w 0x00000007#32 (true) (.loop q (w.extractLsb' 18 3) (w.extractLsb' 13 5) (w.extractLsb' 4 9) (w.extractLsb' 3 1))
  | 0x28 => one w 0x000003FF#32 (true) (.lstr q (w.extractLsb' 18 3) (w.extractLsb' 15 3) (w.extractLsb' 10 5))
  | 0x29 => one w 0x00007FFF#32 (decide ((w.extractLsb' 19 2) = 0)) (.lbrk q (w.extractLsb' 16 3) (w.extractLsb' 15 1))
  | 0x2A => one w 0x00000000#32 (true) (.ldsW q (w.extractLsb' 16 5) (w.extractLsb' 13 3) (w.extractLsb' 11 2) (w.extractLsb' 9 2) (w.extractLsb' 0 9))
  | 0x2B => one w 0x00000000#32 (true) (.ldsD q (w.extractLsb' 16 5) (w.extractLsb' 13 3) (w.extractLsb' 11 2) (w.extractLsb' 9 2) (w.extractLsb' 0 9))
  | 0x2C => one w 0x00000000#32 (true) (.stsW q (w.extractLsb' 16 5) (w.extractLsb' 13 3) (w.extractLsb' 11 2) (w.extractLsb' 9 2) (w.extractLsb' 0 9))
  | 0x2D => one w 0x00000000#32 (true) (.stsD q (w.extractLsb' 16 5) (w.extractLsb' 13 3) (w.extractLsb' 11 2) (w.extractLsb' 9 2) (w.extractLsb' 0 9))
  | 0x2E => one w 0x0000001F#32 (true) (.ldg q (w.extractLsb' 16 5) (w.extractLsb' 12 4) (w.extractLsb' 7 5) (w.extractLsb' 5 2))
  | 0x2F => one w 0x0000001F#32 (true) (.stg q (w.extractLsb' 16 5) (w.extractLsb' 12 4) (w.extractLsb' 7 5) (w.extractLsb' 5 2))
  | 0x30 => one w 0x000000FF#32 (true) (.amov q (w.extractLsb' 18 3) (w.extractLsb' 13 5) (w.extractLsb' 8 5))
  | 0x31 => one w 0x00000000#32 (true) (.ainc q (w.extractLsb' 18 3) (w.extractLsb' 0 18))
  | 0x32 => match (w.extractLsb' 4 12).toNat with
    | 0x051 => one w 0x0000000F#32 (true) (.rsbottomRead q (w.extractLsb' 16 5))
    | _ => one w 0x0000000F#32 (true) (.csrr q (w.extractLsb' 16 5) (w.extractLsb' 4 12))
  | 0x33 => match (w.extractLsb' 4 12).toNat with
    | 0x051 => one w 0x0000000F#32 (true) (.rsbottomWrite q (w.extractLsb' 16 5))
    | _ => one w 0x0000000F#32 (true) (.csrw q (w.extractLsb' 16 5) (w.extractLsb' 4 12))
  | 0x34 => one w 0x00000FFF#32 (true) (.getid q (w.extractLsb' 16 5) (w.extractLsb' 12 4))
  | 0x35 => one w 0x0000FFFF#32 (true) (.time q (w.extractLsb' 16 5))
  | _ => .error (fail .unallocated)

/-- Engine-1 words (R29, Table 13 and Table 7). -/
def decodeVector (q : Itq) (w : Word) (c : Option Word) : Except Failure Instr :=
  match (w.extractLsb' 21 6).toNat with
  | 0x00 => one w 0x00000000#32 (decide ((w.extractLsb' 0 3) = 0)) (.vfadd q (w.extractLsb' 15 6) (w.extractLsb' 9 6) (w.extractLsb' 3 6))
  | 0x01 => one w 0x00000000#32 (decide ((w.extractLsb' 0 3) = 0)) (.vfsub q (w.extractLsb' 15 6) (w.extractLsb' 9 6) (w.extractLsb' 3 6))
  | 0x02 => one w 0x00000000#32 (decide ((w.extractLsb' 0 3) = 0)) (.vfmul q (w.extractLsb' 15 6) (w.extractLsb' 9 6) (w.extractLsb' 3 6))
  | 0x03 => one w 0x00000000#32 (decide ((w.extractLsb' 0 3) = 0)) (.vfma q (w.extractLsb' 15 6) (w.extractLsb' 9 6) (w.extractLsb' 3 6))
  | 0x04 => one w 0x00000000#32 (decide ((w.extractLsb' 0 3) = 0)) (.vfms q (w.extractLsb' 15 6) (w.extractLsb' 9 6) (w.extractLsb' 3 6))
  | 0x05 => one w 0x00000000#32 (decide ((w.extractLsb' 0 3) = 0)) (.vfnma q (w.extractLsb' 15 6) (w.extractLsb' 9 6) (w.extractLsb' 3 6))
  | 0x06 => one w 0x00000000#32 (decide ((w.extractLsb' 0 3) = 0)) (.vfmin q (w.extractLsb' 15 6) (w.extractLsb' 9 6) (w.extractLsb' 3 6))
  | 0x07 => one w 0x00000000#32 (decide ((w.extractLsb' 0 3) = 0)) (.vfmax q (w.extractLsb' 15 6) (w.extractLsb' 9 6) (w.extractLsb' 3 6))
  | 0x08 => one w 0x00000000#32 (true) (.vfsgn q (w.extractLsb' 15 6) (w.extractLsb' 9 6) (w.extractLsb' 3 6) (w.extractLsb' 0 3))
  | 0x09 => one w 0x00000000#32 (decide ((w.extractLsb' 0 3) = 0)) (.vfdiv q (w.extractLsb' 15 6) (w.extractLsb' 9 6) (w.extractLsb' 3 6))
  | 0x0A => one w 0x00000000#32 (decide ((w.extractLsb' 3 6) = 0) && decide ((w.extractLsb' 0 3) = 0)) (.vfsqrt q (w.extractLsb' 15 6) (w.extractLsb' 9 6))
  | 0x0B => one w 0x00000000#32 (decide ((w.extractLsb' 3 6) = 0)) (.vfun q (w.extractLsb' 15 6) (w.extractLsb' 9 6) (w.extractLsb' 0 3))
  | 0x10 => one w 0x00000000#32 (true) (.vadd q (w.extractLsb' 15 6) (w.extractLsb' 9 6) (w.extractLsb' 3 6) (w.extractLsb' 0 3))
  | 0x11 => one w 0x00000000#32 (true) (.vsub q (w.extractLsb' 15 6) (w.extractLsb' 9 6) (w.extractLsb' 3 6) (w.extractLsb' 0 3))
  | 0x12 => one w 0x00000000#32 (decide ((w.extractLsb' 0 3) = 0)) (.vmul q (w.extractLsb' 15 6) (w.extractLsb' 9 6) (w.extractLsb' 3 6))
  | 0x13 => one w 0x00000000#32 (true) (.vmulh q (w.extractLsb' 15 6) (w.extractLsb' 9 6) (w.extractLsb' 3 6) (w.extractLsb' 0 3))
  | 0x14 => one w 0x00000000#32 (decide ((w.extractLsb' 0 3) = 0)) (.vand q (w.extractLsb' 15 6) (w.extractLsb' 9 6) (w.extractLsb' 3 6))
  | 0x15 => one w 0x00000000#32 (decide ((w.extractLsb' 0 3) = 0)) (.vor q (w.extractLsb' 15 6) (w.extractLsb' 9 6) (w.extractLsb' 3 6))
  | 0x16 => one w 0x00000000#32 (decide ((w.extractLsb' 0 3) = 0)) (.vxor q (w.extractLsb' 15 6) (w.extractLsb' 9 6) (w.extractLsb' 3 6))
  | 0x17 => one w 0x00000000#32 (decide ((w.extractLsb' 0 3) = 0)) (.vshl q (w.extractLsb' 15 6) (w.extractLsb' 9 6) (w.extractLsb' 3 6))
  | 0x18 => one w 0x00000000#32 (decide ((w.extractLsb' 0 3) = 0)) (.vshr q (w.extractLsb' 15 6) (w.extractLsb' 9 6) (w.extractLsb' 3 6))
  | 0x19 => one w 0x00000000#32 (decide ((w.extractLsb' 0 3) = 0)) (.vsra q (w.extractLsb' 15 6) (w.extractLsb' 9 6) (w.extractLsb' 3 6))
  | 0x1A => one w 0x00000000#32 (true) (.vmin q (w.extractLsb' 15 6) (w.extractLsb' 9 6) (w.extractLsb' 3 6) (w.extractLsb' 0 3))
  | 0x1B => one w 0x00000000#32 (true) (.vmax q (w.extractLsb' 15 6) (w.extractLsb' 9 6) (w.extractLsb' 3 6) (w.extractLsb' 0 3))
  | 0x1C => one w 0x00000000#32 (true) (.vfops q (w.extractLsb' 15 6) (w.extractLsb' 9 6) (w.extractLsb' 4 5) (w.extractLsb' 0 4))
  | 0x1D => one w 0x00000000#32 (true) (.viops q (w.extractLsb' 15 6) (w.extractLsb' 9 6) (w.extractLsb' 4 5) (w.extractLsb' 0 4))
  | 0x20 => one w 0x00000003#32 (true) (.vfcmp q (w.extractLsb' 18 3) (w.extractLsb' 12 6) (w.extractLsb' 6 6) (w.extractLsb' 2 4))
  | 0x21 => one w 0x00000003#32 (true) (.vcmp q (w.extractLsb' 18 3) (w.extractLsb' 12 6) (w.extractLsb' 6 6) (w.extractLsb' 2 4))
  | 0x22 => one w 0x000001FF#32 (true) (.vmlog q (w.extractLsb' 18 3) (w.extractLsb' 15 3) (w.extractLsb' 12 3) (w.extractLsb' 9 3))
  | 0x23 => one w 0x0003FFFF#32 (true) (.vact q (w.extractLsb' 18 3))
  | 0x24 => one w 0x00007FFF#32 (true) (.vany q (w.extractLsb' 18 3) (w.extractLsb' 15 3))
  | 0x25 => one w 0x00007FFF#32 (true) (.vall q (w.extractLsb' 18 3) (w.extractLsb' 15 3))
  | 0x26 => one w 0x00001FFF#32 (true) (.vmpop q (w.extractLsb' 16 5) (w.extractLsb' 13 3))
  | 0x27 => one w 0x00000000#32 (true) (.vsel q (w.extractLsb' 15 6) (w.extractLsb' 9 6) (w.extractLsb' 3 6) (w.extractLsb' 0 3))
  | 0x28 => one w 0x00000000#32 (true) (.vfred q (w.extractLsb' 15 6) (w.extractLsb' 9 6) (w.extractLsb' 4 5) (w.extractLsb' 0 4))
  | 0x29 => one w 0x00000000#32 (true) (.vred q (w.extractLsb' 15 6) (w.extractLsb' 9 6) (w.extractLsb' 4 5) (w.extractLsb' 0 4))
  | 0x2A => one w 0x00000000#32 (decide ((w.extractLsb' 3 6) = 0)) (.vfscan q (w.extractLsb' 15 6) (w.extractLsb' 9 6) (w.extractLsb' 0 3))
  | 0x2C => one w 0x00000000#32 (decide ((w.extractLsb' 9 6) = 0)) (.vbcs q (w.extractLsb' 15 6) (w.extractLsb' 4 5) (w.extractLsb' 0 4))
  | 0x2D => one w 0x00000000#32 (decide ((w.extractLsb' 0 4) = 0)) (.vbcl q (w.extractLsb' 15 6) (w.extractLsb' 9 6) (w.extractLsb' 4 5))
  | 0x2E => one w 0x00000000#32 (decide ((w.extractLsb' 0 3) = 0)) (.vperm q (w.extractLsb' 15 6) (w.extractLsb' 9 6) (w.extractLsb' 3 6))
  | 0x2F => one w 0x00000000#32 (true) (.vrot q (w.extractLsb' 15 6) (w.extractLsb' 9 6) (w.extractLsb' 4 5) (w.extractLsb' 0 4))
  | 0x30 => one w 0x00000000#32 (true) (.vext q (w.extractLsb' 15 6) (w.extractLsb' 9 6) (w.extractLsb' 4 5) (w.extractLsb' 0 4))
  | 0x31 => one w 0x00000000#32 (decide ((w.extractLsb' 0 4) = 0)) (.vins q (w.extractLsb' 15 6) (w.extractLsb' 9 6) (w.extractLsb' 4 5))
  | 0x32 => match (w.extractLsb' 0 3).toNat with
    | 0 => one w 0x00000000#32 (decide ((w.extractLsb' 3 6) = 0)) (.vmov q (w.extractLsb' 15 6) (w.extractLsb' 9 6))
    | 1 => one w 0x00000000#32 (decide ((w.extractLsb' 3 6) = 0)) (.vmovMaskToReg q (w.extractLsb' 15 6) (w.extractLsb' 9 6))
    | 2 => one w 0x00000000#32 (decide ((w.extractLsb' 3 6) = 0)) (.vmovRegToMask q (w.extractLsb' 15 6) (w.extractLsb' 9 6))
    | _ => bad w 0x00000000#32
  | 0x33 => one w 0x00000000#32 (true) (.vmovi q (w.extractLsb' 15 6) (w.extractLsb' 0 15))
  | 0x34 => one w 0x00000000#32 (decide ((w.extractLsb' 9 6) = 0) && decide ((w.extractLsb' 3 6) = 0)) (.viota q (w.extractLsb' 15 6) (w.extractLsb' 0 3))
  | 0x36 => one w 0x00000003#32 (true) (.vcvt q (w.extractLsb' 15 6) (w.extractLsb' 9 6) (w.extractLsb' 5 4) (w.extractLsb' 4 1) (w.extractLsb' 2 2))
  | 0x37 => one w 0x00000003#32 (decide ((w.extractLsb' 4 1) = 0) && decide ((w.extractLsb' 2 2) = 0)) (.vtag q (w.extractLsb' 15 6) (w.extractLsb' 9 6) (w.extractLsb' 5 4))
  | 0x39 => two w c 0x00000000#32 0x0007FFFF#32 fun c => (true, (.vamo q (w.extractLsb' 15 6) (w.extractLsb' 12 3) (w.extractLsb' 10 2) (w.extractLsb' 8 2) (w.extractLsb' 4 4) (w.extractLsb' 0 4) (c.extractLsb' 23 6) (c.extractLsb' 19 4)))
  | 0x3A => one w 0x00000000#32 (true) (.vld q (w.extractLsb' 15 6) (w.extractLsb' 12 3) (w.extractLsb' 10 2) (w.extractLsb' 8 2) (w.extractLsb' 4 4) (w.extractLsb' 0 4))
  | 0x3B => one w 0x00000000#32 (true) (.vst q (w.extractLsb' 15 6) (w.extractLsb' 12 3) (w.extractLsb' 10 2) (w.extractLsb' 8 2) (w.extractLsb' 4 4) (w.extractLsb' 0 4))
  | 0x3C => two w c 0x00000000#32 0x0007FFFF#32 fun c => (decide ((c.extractLsb' 19 4) = 0), (.vldx q (w.extractLsb' 15 6) (w.extractLsb' 12 3) (w.extractLsb' 10 2) (w.extractLsb' 8 2) (w.extractLsb' 4 4) (w.extractLsb' 0 4) (c.extractLsb' 23 6)))
  | 0x3D => two w c 0x00000000#32 0x0007FFFF#32 fun c => (decide ((c.extractLsb' 19 4) = 0), (.vstx q (w.extractLsb' 15 6) (w.extractLsb' 12 3) (w.extractLsb' 10 2) (w.extractLsb' 8 2) (w.extractLsb' 4 4) (w.extractLsb' 0 4) (c.extractLsb' 23 6)))
  | 0x3E => one w 0x00000000#32 (true) (.vldl q (w.extractLsb' 15 6) (w.extractLsb' 12 3) (w.extractLsb' 10 2) (w.extractLsb' 8 2) (w.extractLsb' 4 4) (w.extractLsb' 0 4))
  | 0x3F => one w 0x00000000#32 (true) (.vstl q (w.extractLsb' 15 6) (w.extractLsb' 12 3) (w.extractLsb' 10 2) (w.extractLsb' 8 2) (w.extractLsb' 4 4) (w.extractLsb' 0 4))
  | _ => .error (fail .unallocated)

/-- Engine-2 words (R30; Tables 1, 5, 6, 8 of the matrix chapter, R175). -/
def decodeMatrix (q : Itq) (w : Word) (c : Option Word) : Except Failure Instr :=
  match (w.extractLsb' 21 6).toNat with
  | 0x00 => one w 0x0007FFFF#32 (true) (.mcfg q (w.extractLsb' 19 2))
  | 0x01 => two w c 0x0000003B#32 0x000000FF#32 fun c => (true, (.mldw q (w.extractLsb' 18 3) (w.extractLsb' 14 4) (w.extractLsb' 11 3) (w.extractLsb' 9 2) (w.extractLsb' 6 3) (w.extractLsb' 2 1) (c.extractLsb' 19 10) (c.extractLsb' 9 10) (c.extractLsb' 8 1)))
  | 0x02 => two w c 0x00000007#32 0x000000FF#32 fun c => (true, (.mldws q (w.extractLsb' 18 3) (w.extractLsb' 14 4) (w.extractLsb' 11 3) (w.extractLsb' 9 2) (w.extractLsb' 6 3) (w.extractLsb' 3 3) (c.extractLsb' 19 10) (c.extractLsb' 9 10) (c.extractLsb' 8 1)))
  | 0x03 => one w 0x0001FFFF#32 (true) (.mswap q (w.extractLsb' 18 3) (w.extractLsb' 17 1))
  | 0x04 => two w c 0x00000003#32 0x0000003F#32 fun c => (true, (.mmul q (w.extractLsb' 17 4) (w.extractLsb' 14 3) (w.extractLsb' 9 5) (w.extractLsb' 5 4) (w.extractLsb' 4 1) (w.extractLsb' 3 1) (w.extractLsb' 2 1) (c.extractLsb' 26 3) (c.extractLsb' 24 2) (c.extractLsb' 22 2) (c.extractLsb' 6 16)))
  | 0x05 => two w c 0x0000007F#32 0x0000003F#32 fun c => (true, (.mrd q (w.extractLsb' 17 4) (w.extractLsb' 12 5) (w.extractLsb' 7 5) (c.extractLsb' 26 3) (c.extractLsb' 24 2) (c.extractLsb' 22 2) (c.extractLsb' 6 16)))
  | 0x06 => one w 0x0000003F#32 (true) (.mrdv q (w.extractLsb' 17 4) (w.extractLsb' 12 5) (w.extractLsb' 6 6))
  | 0x07 => one w 0x000003FF#32 (true) (.mclr q (w.extractLsb' 17 4) (w.extractLsb' 12 5) (w.extractLsb' 10 2))
  | 0x08 => one w 0x0001FFFF#32 (true) (.mpois q (w.extractLsb' 17 4))
  | 0x09 => one w 0x0000007F#32 (true) (.mrdk q (w.extractLsb' 18 3) (w.extractLsb' 12 6) (w.extractLsb' 7 5))
  | 0x0A => one w 0x0000007F#32 (true) (.mwrk q (w.extractLsb' 18 3) (w.extractLsb' 12 6) (w.extractLsb' 7 5))
  | 0x30 => two w c 0x0000FFFF#32 0x0FFFFFFF#32 fun c => (true, (.mslot q (w.extractLsb' 16 5) (c.extractLsb' 28 1)))
  | _ => .error (fail .unallocated)

/-- Engine-3 words (R30; Tables 1-8 of the quantiser chapter). -/
def decodeQuantiser (q : Itq) (w : Word) (c : Option Word) : Except Failure Instr :=
  match (w.extractLsb' 21 6).toNat with
  | 0x00 => one w 0x000003FF#32 (true) (.qcfg q (w.extractLsb' 17 4) (w.extractLsb' 16 1) (w.extractLsb' 14 2) (w.extractLsb' 13 1) (w.extractLsb' 10 3))
  | 0x01 => one w 0x00000000#32 (true) (.qstv q (w.extractLsb' 18 3) (w.extractLsb' 16 2) (w.extractLsb' 10 6) (w.extractLsb' 6 4) (w.extractLsb' 1 5) (w.extractLsb' 0 1))
  | 0x02 => two w c 0x00000001#32 0x0000000F#32 fun c => (true, (.qstt q (w.extractLsb' 17 4) (w.extractLsb' 12 5) (w.extractLsb' 7 5) (w.extractLsb' 2 5) (w.extractLsb' 1 1) (c.extractLsb' 26 3) (c.extractLsb' 24 2) (c.extractLsb' 20 4) (c.extractLsb' 4 16)))
  | 0x03 => one w 0x000007FF#32 (true) (.qscl q (w.extractLsb' 16 5) (w.extractLsb' 11 5))
  | 0x04 => one w 0x000000F8#32 (true) (.qrld q (w.extractLsb' 20 1) (w.extractLsb' 16 4) (w.extractLsb' 13 3) (w.extractLsb' 11 2) (w.extractLsb' 9 2) (w.extractLsb' 8 1) (w.extractLsb' 0 3))
  | 0x05 => one w 0x000000F8#32 (true) (.qrst q (w.extractLsb' 20 1) (w.extractLsb' 16 4) (w.extractLsb' 13 3) (w.extractLsb' 11 2) (w.extractLsb' 9 2) (w.extractLsb' 8 1) (w.extractLsb' 0 3))
  | 0x06 => one w 0x0000FFFF#32 (true) (.qrclr q (w.extractLsb' 20 1) (w.extractLsb' 16 4))
  | 0x07 => one w 0x00000FFF#32 (true) (.qrmov q (w.extractLsb' 20 1) (w.extractLsb' 16 4) (w.extractLsb' 12 4))
  | 0x08 => one w 0x00007FFF#32 (true) (.qflg q (w.extractLsb' 16 5) (w.extractLsb' 15 1))
  | _ => .error (fail .unallocated)

/-- Engine-4 words (R30; R199 Table 5). -/
def decodeLine (q : Itq) (w : Word) (c : Option Word) : Except Failure Instr :=
  match (w.extractLsb' 21 6).toNat with
  | 0x00 => one w 0x000001FF#32 (true) (.lntol q (w.extractLsb' 14 7) (w.extractLsb' 9 5))
  | 0x01 => two w c 0x0000000F#32 0x01FFFFFF#32 fun c => (true, (.lnfit q (w.extractLsb' 15 6) (w.extractLsb' 12 3) (w.extractLsb' 4 8) (c.extractLsb' 25 4)))
  | 0x02 => one w 0x00000000#32 (true) (.lnld q (w.extractLsb' 16 5) (w.extractLsb' 13 3) (w.extractLsb' 11 2) (w.extractLsb' 4 7) (w.extractLsb' 0 4))
  | 0x03 => match (w.extractLsb' 0 4).toNat with
    | 0 => one w 0x00000000#32 (true) (.lnst q (w.extractLsb' 16 5) (w.extractLsb' 13 3) (w.extractLsb' 11 2) (w.extractLsb' 4 7))
    | _ => one w 0x00000000#32 (decide ((w.extractLsb' 16 5) = 0) && decide ((w.extractLsb' 4 7) = 0)) (.lnstTable q (w.extractLsb' 13 3) (w.extractLsb' 11 2) (w.extractLsb' 0 4))
  | 0x04 => two w c 0x0000000F#32 0x003FFFFF#32 fun c => (true, (.lnchk q (w.extractLsb' 18 3) (w.extractLsb' 14 4) (w.extractLsb' 9 5) (w.extractLsb' 4 5) (c.extractLsb' 22 7)))
  | 0x05 => two w c 0x0000001F#32 0x001FFFFF#32 fun c => (true, (.lnapl q (w.extractLsb' 15 6) (w.extractLsb' 11 4) (w.extractLsb' 6 5) (w.extractLsb' 5 1) (c.extractLsb' 21 8)))
  | 0x06 => two w c 0x0000001F#32 0x001FFFFF#32 fun c => (true, (.lncor q (w.extractLsb' 15 6) (w.extractLsb' 11 4) (w.extractLsb' 6 5) (w.extractLsb' 5 1) (c.extractLsb' 21 8)))
  | 0x07 => one w 0x00000001#32 (true) (.lnrfl q (w.extractLsb' 16 5) (w.extractLsb' 13 3) (w.extractLsb' 11 2) (w.extractLsb' 1 10))
  | 0x08 => one w 0x0000003F#32 (true) (.lncnt q (w.extractLsb' 15 6) (w.extractLsb' 7 8) (w.extractLsb' 6 1))
  | 0x09 => match (w.extractLsb' 19 2).toNat with
    | 0 => one w 0x00000FFF#32 (true) (.lnclrCounts q (w.extractLsb' 12 7))
    | 1 => one w 0x00000FFF#32 (decide ((w.extractLsb' 12 7) = 0)) (.lnclrList q)
    | 2 => one w 0x00000FFF#32 (true) (.lnclrLines q (w.extractLsb' 12 7))
    | _ => bad w 0x00000FFF#32
  | 0x0A => two w c 0x0000000F#32 0x07FFFFFF#32 fun c => (true, (.lnfold q (w.extractLsb' 15 6) (w.extractLsb' 9 6) (w.extractLsb' 4 5) (c.extractLsb' 28 1) (c.extractLsb' 27 1)))
  | _ => .error (fail .unallocated)

/-- A CPYM word: tests 7 and 8 on the word itself, then the two steps of R17 on its follow-on. -/
def cpym (priv : Bool) (q : Itq) (w zm : Word) (fes : Bool) (rest : List Word) (build : Instr → Instr) :
    Except Failure Instr :=
  if w &&& zm ≠ 0 then .error (fail .reservedBit)
  else if !fes then .error (fail .reservedValue)
  else match rest with
    | [] => .error (fail .followOn)
    | f :: more =>
      if f.extractLsb' 29 3 ≠ 2 ∨ f.extractLsb' 21 6 = 0x30 ∨ f.extractLsb' 27 2 ≠ q.bits then
        .error (fail .followOn)
      else if inPrivRange f && !priv then .error ⟨.privileged, true⟩
      else match decodeMatrix q f (contOf more) with
        | .error e => .error ⟨e.reason, true⟩
        | .ok i => .ok (build i)

/-- Engine-5 words (R30; Table 8 of the memory chapter). -/
def decodeCopy (q : Itq) (w : Word) (priv : Bool) (c : Option Word) (rest : List Word) : Except Failure Instr :=
  match (w.extractLsb' 21 6).toNat with
  | 0x00 => one w 0x00000FFF#32 (true) (.srec q (w.extractLsb' 17 4) (w.extractLsb' 14 3) (w.extractLsb' 12 2))
  | 0x01 => match w.getLsbD 20 with
    | false => one w 0x00000001#32 (true) (.cpyLinear q (w.extractLsb' 17 3) (w.extractLsb' 15 2) (w.extractLsb' 12 3) (w.extractLsb' 10 2) (w.extractLsb' 5 5) (w.extractLsb' 3 2) (w.extractLsb' 1 2))
    | true => one w 0x000000E1#32 (true) (.cpyPattern q (w.extractLsb' 16 4) (w.extractLsb' 12 4) (w.extractLsb' 8 4) (w.extractLsb' 3 2) (w.extractLsb' 1 2))
  | 0x02 => match w.getLsbD 20 with
    | false => cpym priv q w 0x00000001#32 (feOk (w.extractLsb' 3 2) && feOk (w.extractLsb' 1 2)) rest fun follow => (.cpymLinear q (w.extractLsb' 17 3) (w.extractLsb' 15 2) (w.extractLsb' 12 3) (w.extractLsb' 10 2) (w.extractLsb' 5 5) (w.extractLsb' 3 2) (w.extractLsb' 1 2) follow)
    | true => cpym priv q w 0x000000E1#32 (feOk (w.extractLsb' 3 2) && feOk (w.extractLsb' 1 2)) rest fun follow => (.cpymPattern q (w.extractLsb' 16 4) (w.extractLsb' 12 4) (w.extractLsb' 8 4) (w.extractLsb' 3 2) (w.extractLsb' 1 2) follow)
  | 0x03 => two w c 0x00000007#32 0x00FFFFFF#32 fun c => (true, (.cwin q (w.extractLsb' 17 4) (w.extractLsb' 14 3) (w.extractLsb' 12 2) (w.extractLsb' 8 4) (w.extractLsb' 3 5) (c.extractLsb' 24 5)))
  | 0x04 => one w 0x0000007F#32 (true) (.cadv q (w.extractLsb' 17 4) (w.extractLsb' 12 5) (w.extractLsb' 8 4) (w.extractLsb' 7 1))
  | 0x05 => two w c 0x00000007#32 0x01FFFFFF#32 fun c => (true, (.cgath q (w.extractLsb' 18 3) (w.extractLsb' 16 2) (w.extractLsb' 13 3) (w.extractLsb' 11 2) (w.extractLsb' 6 5) (w.extractLsb' 3 3) (c.extractLsb' 27 2) (c.extractLsb' 25 2)))
  | 0x06 => two w c 0x00000007#32 0x01FFFFFF#32 fun c => (true, (.cscat q (w.extractLsb' 18 3) (w.extractLsb' 16 2) (w.extractLsb' 13 3) (w.extractLsb' 11 2) (w.extractLsb' 6 5) (w.extractLsb' 3 3) (c.extractLsb' 27 2) (c.extractLsb' 25 2)))
  | 0x07 => two w c 0x0000003F#32 0x001FFFFF#32 fun c => (true, (.cred q (w.extractLsb' 18 3) (w.extractLsb' 16 2) (w.extractLsb' 13 3) (w.extractLsb' 11 2) (w.extractLsb' 6 5) (c.extractLsb' 25 4) (c.extractLsb' 23 2) (c.extractLsb' 21 2)))
  | 0x08 => match w.getLsbD 5 with
    | false => two w c 0x0000001F#32 0x01FFFFFF#32 fun c => (decide ((w.extractLsb' 18 3) = 0) && decide ((w.extractLsb' 16 2) = 0) && decide ((w.extractLsb' 6 5) = 0) && decide ((c.extractLsb' 27 2) = 0), (.cvqxBook q (w.extractLsb' 13 3) (w.extractLsb' 11 2) (c.extractLsb' 25 2)))
    | true => two w c 0x0000001F#32 0x01FFFFFF#32 fun c => (true, (.cvqxExpand q (w.extractLsb' 18 3) (w.extractLsb' 16 2) (w.extractLsb' 13 3) (w.extractLsb' 11 2) (w.extractLsb' 6 5) (c.extractLsb' 27 2) (c.extractLsb' 25 2)))
  | 0x09 => two w c 0x00000007#32 0x0000FFFF#32 fun c => (true, (.sisect q (w.extractLsb' 16 5) (w.extractLsb' 11 5) (w.extractLsb' 6 5) (w.extractLsb' 5 1) (w.extractLsb' 4 1) (w.extractLsb' 3 1) (c.extractLsb' 25 4) (c.extractLsb' 23 2) (c.extractLsb' 21 2) (c.extractLsb' 18 3) (c.extractLsb' 16 2)))
  | 0x0A => one w 0x00003FFF#32 (true) (.cseq q (w.extractLsb' 16 5) (w.extractLsb' 15 1) (w.extractLsb' 14 1))
  | _ => .error (fail .unallocated)

/-- Engine-6 words (R30; Tables of the ordering, trap, dispatch, translation and machine-check chapters). -/
def decodeSync (q : Itq) (w : Word) (c : Option Word) : Except Failure Instr :=
  match (w.extractLsb' 21 6).toNat with
  | 0x00 => one w 0x001FFFF8#32 (true) (.fence q (w.extractLsb' 0 3))
  | 0x01 => one w 0x001FFE00#32 (true) (.xfence q (w.extractLsb' 6 3) (w.extractLsb' 3 3) (w.extractLsb' 0 3))
  | 0x02 => match w.getLsbD 15 with
    | false => one w 0x00000078#32 (true) (.ldaq q (w.extractLsb' 16 5) (w.extractLsb' 14 1) (w.extractLsb' 11 3) (w.extractLsb' 9 2) (w.extractLsb' 7 2) (w.extractLsb' 0 3))
    | true => one w 0x00000018#32 (true) (.ldaqHandle q (w.extractLsb' 16 5) (w.extractLsb' 14 1) (w.extractLsb' 10 4) (w.extractLsb' 5 5) (w.extractLsb' 0 3))
  | 0x03 => match w.getLsbD 15 with
    | false => one w 0x00000078#32 (true) (.strl q (w.extractLsb' 16 5) (w.extractLsb' 14 1) (w.extractLsb' 11 3) (w.extractLsb' 9 2) (w.extractLsb' 7 2) (w.extractLsb' 0 3))
    | true => one w 0x00000018#32 (true) (.strlHandle q (w.extractLsb' 16 5) (w.extractLsb' 14 1) (w.extractLsb' 10 4) (w.extractLsb' 5 5) (w.extractLsb' 0 3))
  | 0x04 => two w c (if w.getLsbD 15 then 0x00000000#32 else 0x000001E0#32) 0x000FFFFF#32 fun c => (true, (.amo q (w.extractLsb' 16 5) (w.extractLsb' 15 1) (w.extractLsb' 14 1) (w.extractLsb' 5 9) (w.extractLsb' 3 2) (w.extractLsb' 0 3) (c.extractLsb' 24 5) (c.extractLsb' 20 4)))
  | 0x05 => two w c (if w.getLsbD 15 then 0x00000000#32 else 0x000001E0#32) 0x0007FFFF#32 fun c => (true, (.cas q (w.extractLsb' 16 5) (w.extractLsb' 15 1) (w.extractLsb' 14 1) (w.extractLsb' 5 9) (w.extractLsb' 3 2) (w.extractLsb' 0 3) (c.extractLsb' 24 5) (c.extractLsb' 19 5)))
  | 0x06 => one w 0x000000F8#32 (true) (.bar q (w.extractLsb' 13 8) (w.extractLsb' 8 5) (w.extractLsb' 0 3))
  | 0x07 => one w 0x000001F8#32 (true) (.waitseq q (w.extractLsb' 16 5) (w.extractLsb' 11 5) (w.extractLsb' 9 2) (w.extractLsb' 0 3))
  | 0x08 => one w 0x001FFFFF#32 (true) (.wfe q)
  | 0x09 => one w 0x000003F8#32 (true) (.sev q (w.extractLsb' 19 2) (w.extractLsb' 17 2) (w.extractLsb' 10 7) (w.extractLsb' 0 3))
  | 0x0A => one w 0x0000FFFF#32 (true) (.slpat q (w.extractLsb' 16 5))
  | 0x0B => one w 0x00000FFF#32 (true) (.trn q (w.extractLsb' 17 4) (w.extractLsb' 12 5))
  | 0x0C => one w 0x000003FF#32 (true) (.probe q (w.extractLsb' 17 4) (w.extractLsb' 12 5) (w.extractLsb' 10 2))
  | 0x0D => one w 0x000001FF#32 (true) (.hvld q (w.extractLsb' 18 3) (w.extractLsb' 14 4) (w.extractLsb' 9 5))
  | 0x0E => one w 0x001FFFFF#32 (true) (.trig q)
  | 0x0F => one w 0x001FFFFF#32 (true) (.exit q)
  | 0x10 => one w 0x001F0000#32 (true) (.trap q (w.extractLsb' 0 16))
  | 0x11 => one w 0x001FFFFF#32 (true) (.eret q)
  | 0x12 => two w c 0x000007FF#32 0x00FFFFFF#32 fun c => (true, (.task q (w.extractLsb' 16 5) (w.extractLsb' 13 3) (w.extractLsb' 11 2) (c.extractLsb' 24 5)))
  | 0x13 => one w 0x0000003F#32 (true) (.tokq q (w.extractLsb' 16 5) (w.extractLsb' 11 5) (w.extractLsb' 6 5))
  | 0x14 => two w c 0x000007FF#32 0x0001FFFF#32 fun c => (true, (.trc q (w.extractLsb' 16 5) (w.extractLsb' 11 5) (c.extractLsb' 17 12)))
  | 0x15 => one w 0x001FFFF8#32 (true) (.drain q (w.extractLsb' 0 3))
  | 0x30 => match w.getLsbD 5 with
    | false => one w 0x0000001F#32 (true) (.invqIssue q (w.extractLsb' 16 5) (w.extractLsb' 11 5) (w.extractLsb' 6 5))
    | true => one w 0x0000001F#32 (decide ((w.extractLsb' 11 5) = 0) && decide ((w.extractLsb' 6 5) = 0)) (.invqAck q (w.extractLsb' 16 5))
  | 0x31 => match (w.extractLsb' 5 2).toNat with
    | 0 => one w 0x00000003#32 (true) (.mchkPop q (w.extractLsb' 16 5) (w.extractLsb' 12 4) (w.extractLsb' 7 5) (w.extractLsb' 2 3))
    | 1 => one w 0x00000003#32 (decide ((w.extractLsb' 16 5) = 0) && decide ((w.extractLsb' 12 4) = 0) && decide ((w.extractLsb' 7 5) = 0)) (.mchkInject q (w.extractLsb' 2 3))
    | _ => bad w 0x00000003#32
  | 0x32 => match w.getLsbD 1 with
    | false => one w 0x00000001#32 (true) (.ctxsvStrand q (w.extractLsb' 16 5) (w.extractLsb' 11 5) (w.extractLsb' 7 4) (w.extractLsb' 2 5))
    | true => one w 0x00000001#32 (true) (.ctxsvCore q (w.extractLsb' 16 5) (w.extractLsb' 11 5) (w.extractLsb' 7 4) (w.extractLsb' 2 5))
  | 0x33 => match w.getLsbD 1 with
    | false => one w 0x00000001#32 (true) (.ctxldStrand q (w.extractLsb' 16 5) (w.extractLsb' 11 5) (w.extractLsb' 7 4) (w.extractLsb' 2 5))
    | true => one w 0x00000001#32 (true) (.ctxldCore q (w.extractLsb' 16 5) (w.extractLsb' 11 5) (w.extractLsb' 7 4) (w.extractLsb' 2 5))
  | _ => .error (fail .unallocated)

/-- The opcodes that R28, R29 and R30 allocate (test 3 of R32). -/
def allocated (w : Word) : Bool :=
  let op := (w.extractLsb' 21 6).toNat
  match (w.extractLsb' 29 3).toNat with
  | 0 => decide (op ≤ 0x35)
  | 1 => !decide (op ∈ [0x0C, 0x0D, 0x0E, 0x0F, 0x1E, 0x1F, 0x2B, 0x35, 0x38])
  | 2 => decide (op ≤ 0x0A) || decide (op = 0x30)
  | 3 => decide (op ≤ 0x08)
  | 4 => decide (op ≤ 0x0A)
  | 5 => decide (op ≤ 0x0A)
  | 6 => decide (op ≤ 0x15) || (decide (0x30 ≤ op) && decide (op ≤ 0x33))
  | _ => false

/-- The decoder over the words at the PC: tests 1, 2, 3, 4, 6, 7, 8 and 9 of R32, Table 15, in their order.
`priv` is the strand's mode; the list is cut at the end of the innermost active loop body (R16). -/
def decode (priv : Bool) : List Word → Except Failure Instr
  | [] => .error (fail .unallocated)
  | w :: rest =>
    if isCont w then .error (fail .strayContinuation)
    else if inPrivRange w && !priv then .error (fail .privileged)
    else if !allocated w then .error (fail .unallocated)
    else match Itq.ofBits (w.extractLsb' 27 2) with
      | none => .error (fail .qualifier)
      | some q =>
        match (w.extractLsb' 29 3).toNat with
        | 0 => decodeControl q w
        | 1 => decodeVector q w (contOf rest)
        | 2 => decodeMatrix q w (contOf rest)
        | 3 => decodeQuantiser q w (contOf rest)
        | 4 => decodeLine q w (contOf rest)
        | 5 => decodeCopy q w priv (contOf rest) rest
        | _ => decodeSync q w (contOf rest)

/-- The words of a well-formed instruction, written from the same encoding tables (R20, R22, R24). -/
def encode : Instr → List Word
  | .nop q => [0#3 ++ q.bits ++ 0x00#6 ++ 0#21]
  | .add q d a b => [0#3 ++ q.bits ++ 0x01#6 ++ d ++ a ++ b ++ 0#6]
  | .sub q d a b => [0#3 ++ q.bits ++ 0x02#6 ++ d ++ a ++ b ++ 0#6]
  | .and q d a b => [0#3 ++ q.bits ++ 0x03#6 ++ d ++ a ++ b ++ 0#6]
  | .or q d a b => [0#3 ++ q.bits ++ 0x04#6 ++ d ++ a ++ b ++ 0#6]
  | .xor q d a b => [0#3 ++ q.bits ++ 0x05#6 ++ d ++ a ++ b ++ 0#6]
  | .shl q d a b => [0#3 ++ q.bits ++ 0x06#6 ++ d ++ a ++ b ++ 0#6]
  | .shr q d a b => [0#3 ++ q.bits ++ 0x07#6 ++ d ++ a ++ b ++ 0#6]
  | .sra q d a b => [0#3 ++ q.bits ++ 0x08#6 ++ d ++ a ++ b ++ 0#6]
  | .mul q d a b => [0#3 ++ q.bits ++ 0x09#6 ++ d ++ a ++ b ++ 0#6]
  | .mulh q d a b => [0#3 ++ q.bits ++ 0x0A#6 ++ d ++ a ++ b ++ 0#6]
  | .mulhu q d a b => [0#3 ++ q.bits ++ 0x0B#6 ++ d ++ a ++ b ++ 0#6]
  | .min q d a b => [0#3 ++ q.bits ++ 0x0C#6 ++ d ++ a ++ b ++ 0#6]
  | .max q d a b => [0#3 ++ q.bits ++ 0x0D#6 ++ d ++ a ++ b ++ 0#6]
  | .minu q d a b => [0#3 ++ q.bits ++ 0x0E#6 ++ d ++ a ++ b ++ 0#6]
  | .maxu q d a b => [0#3 ++ q.bits ++ 0x0F#6 ++ d ++ a ++ b ++ 0#6]
  | .addi q d a imm => [0#3 ++ q.bits ++ 0x10#6 ++ d ++ a ++ imm]
  | .andi q d a imm => [0#3 ++ q.bits ++ 0x11#6 ++ d ++ a ++ imm]
  | .ori q d a imm => [0#3 ++ q.bits ++ 0x12#6 ++ d ++ a ++ imm]
  | .xori q d a imm => [0#3 ++ q.bits ++ 0x13#6 ++ d ++ a ++ imm]
  | .shli q d a imm => [0#3 ++ q.bits ++ 0x14#6 ++ d ++ a ++ imm]
  | .shri q d a imm => [0#3 ++ q.bits ++ 0x15#6 ++ d ++ a ++ imm]
  | .srai q d a imm => [0#3 ++ q.bits ++ 0x16#6 ++ d ++ a ++ imm]
  | .movi q d imm => [0#3 ++ q.bits ++ 0x17#6 ++ d ++ imm]
  | .insh0 q d imm => [0#3 ++ q.bits ++ 0x18#6 ++ d ++ imm]
  | .insh1 q d imm => [0#3 ++ q.bits ++ 0x19#6 ++ d ++ imm]
  | .insh2 q d imm => [0#3 ++ q.bits ++ 0x1A#6 ++ d ++ imm]
  | .insh3 q d imm => [0#3 ++ q.bits ++ 0x1B#6 ++ d ++ imm]
  | .popc q d a => [0#3 ++ q.bits ++ 0x1C#6 ++ d ++ a ++ 0#5 ++ 0#6]
  | .clz q d a => [0#3 ++ q.bits ++ 0x1D#6 ++ d ++ a ++ 0#5 ++ 0#6]
  | .cmp q pd a b cond => [0#3 ++ q.bits ++ 0x1E#6 ++ pd ++ a ++ b ++ cond ++ 0#4]
  | .cmpi q pd a cond imm => [0#3 ++ q.bits ++ 0x1F#6 ++ pd ++ a ++ cond ++ imm]
  | .plog q pd pa pb fn => [0#3 ++ q.bits ++ 0x20#6 ++ pd ++ pa ++ pb ++ fn ++ 0#9]
  | .sel q d a b p => [0#3 ++ q.bits ++ 0x21#6 ++ d ++ a ++ b ++ p ++ 0#3]
  | .pbr q bt imm => [0#3 ++ q.bits ++ 0x22#6 ++ bt ++ imm]
  | .pbrr q bt a => [0#3 ++ q.bits ++ 0x23#6 ++ bt ++ 0#3 ++ a ++ 0#11]
  | .br q bt p neg => [0#3 ++ q.bits ++ 0x24#6 ++ bt ++ p ++ neg ++ 0#15]
  | .call q bt p neg => [0#3 ++ q.bits ++ 0x25#6 ++ bt ++ p ++ neg ++ 0#15]
  | .ret q p neg => [0#3 ++ q.bits ++ 0x26#6 ++ 0#2 ++ p ++ neg ++ 0#15]
  | .loop q level sc len mode => [0#3 ++ q.bits ++ 0x27#6 ++ level ++ sc ++ len ++ mode ++ 0#3]
  | .lstr q level a sb => [0#3 ++ q.bits ++ 0x28#6 ++ level ++ a ++ sb ++ 0#10]
  | .lbrk q p neg => [0#3 ++ q.bits ++ 0x29#6 ++ 0#2 ++ p ++ neg ++ 0#15]
  | .ldsW q r a space fe imm => [0#3 ++ q.bits ++ 0x2A#6 ++ r ++ a ++ space ++ fe ++ imm]
  | .ldsD q r a space fe imm => [0#3 ++ q.bits ++ 0x2B#6 ++ r ++ a ++ space ++ fe ++ imm]
  | .stsW q r a space fe imm => [0#3 ++ q.bits ++ 0x2C#6 ++ r ++ a ++ space ++ fe ++ imm]
  | .stsD q r a space fe imm => [0#3 ++ q.bits ++ 0x2D#6 ++ r ++ a ++ space ++ fe ++ imm]
  | .ldg q r h sb size => [0#3 ++ q.bits ++ 0x2E#6 ++ r ++ h ++ sb ++ size ++ 0#5]
  | .stg q r h sb size => [0#3 ++ q.bits ++ 0x2F#6 ++ r ++ h ++ sb ++ size ++ 0#5]
  | .amov q a sa sb => [0#3 ++ q.bits ++ 0x30#6 ++ a ++ sa ++ sb ++ 0#8]
  | .ainc q a imm => [0#3 ++ q.bits ++ 0x31#6 ++ a ++ imm]
  | .csrr q r csr => [0#3 ++ q.bits ++ 0x32#6 ++ r ++ csr ++ 0#4]
  | .csrw q r csr => [0#3 ++ q.bits ++ 0x33#6 ++ r ++ csr ++ 0#4]
  | .rsbottomRead q r => [0#3 ++ q.bits ++ 0x32#6 ++ r ++ 81#12 ++ 0#4]
  | .rsbottomWrite q r => [0#3 ++ q.bits ++ 0x33#6 ++ r ++ 81#12 ++ 0#4]
  | .getid q d kind => [0#3 ++ q.bits ++ 0x34#6 ++ d ++ kind ++ 0#12]
  | .time q d => [0#3 ++ q.bits ++ 0x35#6 ++ d ++ 0#16]
  | .vfadd q vd va vb => [1#3 ++ q.bits ++ 0x00#6 ++ vd ++ va ++ vb ++ 0#3]
  | .vfsub q vd va vb => [1#3 ++ q.bits ++ 0x01#6 ++ vd ++ va ++ vb ++ 0#3]
  | .vfmul q vd va vb => [1#3 ++ q.bits ++ 0x02#6 ++ vd ++ va ++ vb ++ 0#3]
  | .vfma q vd va vb => [1#3 ++ q.bits ++ 0x03#6 ++ vd ++ va ++ vb ++ 0#3]
  | .vfms q vd va vb => [1#3 ++ q.bits ++ 0x04#6 ++ vd ++ va ++ vb ++ 0#3]
  | .vfnma q vd va vb => [1#3 ++ q.bits ++ 0x05#6 ++ vd ++ va ++ vb ++ 0#3]
  | .vfmin q vd va vb => [1#3 ++ q.bits ++ 0x06#6 ++ vd ++ va ++ vb ++ 0#3]
  | .vfmax q vd va vb => [1#3 ++ q.bits ++ 0x07#6 ++ vd ++ va ++ vb ++ 0#3]
  | .vfsgn q vd va vb fn => [1#3 ++ q.bits ++ 0x08#6 ++ vd ++ va ++ vb ++ fn]
  | .vfdiv q vd va vb => [1#3 ++ q.bits ++ 0x09#6 ++ vd ++ va ++ vb ++ 0#3]
  | .vfsqrt q vd va => [1#3 ++ q.bits ++ 0x0A#6 ++ vd ++ va ++ 0#6 ++ 0#3]
  | .vfun q vd va fn => [1#3 ++ q.bits ++ 0x0B#6 ++ vd ++ va ++ 0#6 ++ fn]
  | .vadd q vd va vb fn => [1#3 ++ q.bits ++ 0x10#6 ++ vd ++ va ++ vb ++ fn]
  | .vsub q vd va vb fn => [1#3 ++ q.bits ++ 0x11#6 ++ vd ++ va ++ vb ++ fn]
  | .vmul q vd va vb => [1#3 ++ q.bits ++ 0x12#6 ++ vd ++ va ++ vb ++ 0#3]
  | .vmulh q vd va vb fn => [1#3 ++ q.bits ++ 0x13#6 ++ vd ++ va ++ vb ++ fn]
  | .vand q vd va vb => [1#3 ++ q.bits ++ 0x14#6 ++ vd ++ va ++ vb ++ 0#3]
  | .vor q vd va vb => [1#3 ++ q.bits ++ 0x15#6 ++ vd ++ va ++ vb ++ 0#3]
  | .vxor q vd va vb => [1#3 ++ q.bits ++ 0x16#6 ++ vd ++ va ++ vb ++ 0#3]
  | .vshl q vd va vb => [1#3 ++ q.bits ++ 0x17#6 ++ vd ++ va ++ vb ++ 0#3]
  | .vshr q vd va vb => [1#3 ++ q.bits ++ 0x18#6 ++ vd ++ va ++ vb ++ 0#3]
  | .vsra q vd va vb => [1#3 ++ q.bits ++ 0x19#6 ++ vd ++ va ++ vb ++ 0#3]
  | .vmin q vd va vb fn => [1#3 ++ q.bits ++ 0x1A#6 ++ vd ++ va ++ vb ++ fn]
  | .vmax q vd va vb fn => [1#3 ++ q.bits ++ 0x1B#6 ++ vd ++ va ++ vb ++ fn]
  | .vfops q vd va sb fn => [1#3 ++ q.bits ++ 0x1C#6 ++ vd ++ va ++ sb ++ fn]
  | .viops q vd va sb fn => [1#3 ++ q.bits ++ 0x1D#6 ++ vd ++ va ++ sb ++ fn]
  | .vfcmp q md va vb cond => [1#3 ++ q.bits ++ 0x20#6 ++ md ++ va ++ vb ++ cond ++ 0#2]
  | .vcmp q md va vb cond => [1#3 ++ q.bits ++ 0x21#6 ++ md ++ va ++ vb ++ cond ++ 0#2]
  | .vmlog q md ma mb fn => [1#3 ++ q.bits ++ 0x22#6 ++ md ++ ma ++ mb ++ fn ++ 0#9]
  | .vact q ma => [1#3 ++ q.bits ++ 0x23#6 ++ ma ++ 0#18]
  | .vany q pd ma => [1#3 ++ q.bits ++ 0x24#6 ++ pd ++ ma ++ 0#15]
  | .vall q pd ma => [1#3 ++ q.bits ++ 0x25#6 ++ pd ++ ma ++ 0#15]
  | .vmpop q d ma => [1#3 ++ q.bits ++ 0x26#6 ++ d ++ ma ++ 0#13]
  | .vsel q vd va vb mk => [1#3 ++ q.bits ++ 0x27#6 ++ vd ++ va ++ vb ++ mk]
  | .vfred q vd va sb fn => [1#3 ++ q.bits ++ 0x28#6 ++ vd ++ va ++ sb ++ fn]
  | .vred q vd va sb fn => [1#3 ++ q.bits ++ 0x29#6 ++ vd ++ va ++ sb ++ fn]
  | .vfscan q vd va fn => [1#3 ++ q.bits ++ 0x2A#6 ++ vd ++ va ++ 0#6 ++ fn]
  | .vbcs q vd sb fn => [1#3 ++ q.bits ++ 0x2C#6 ++ vd ++ 0#6 ++ sb ++ fn]
  | .vbcl q vd va sb => [1#3 ++ q.bits ++ 0x2D#6 ++ vd ++ va ++ sb ++ 0#4]
  | .vperm q vd va vb => [1#3 ++ q.bits ++ 0x2E#6 ++ vd ++ va ++ vb ++ 0#3]
  | .vrot q vd va sb fn => [1#3 ++ q.bits ++ 0x2F#6 ++ vd ++ va ++ sb ++ fn]
  | .vext q vd va sb fn => [1#3 ++ q.bits ++ 0x30#6 ++ vd ++ va ++ sb ++ fn]
  | .vins q vd va sb => [1#3 ++ q.bits ++ 0x31#6 ++ vd ++ va ++ sb ++ 0#4]
  | .vmov q vd va => [1#3 ++ q.bits ++ 0x32#6 ++ vd ++ va ++ 0#6 ++ 0#3]
  | .vmovMaskToReg q vd va => [1#3 ++ q.bits ++ 0x32#6 ++ vd ++ va ++ 0#6 ++ 1#3]
  | .vmovRegToMask q vd va => [1#3 ++ q.bits ++ 0x32#6 ++ vd ++ va ++ 0#6 ++ 2#3]
  | .vmovi q vd imm => [1#3 ++ q.bits ++ 0x33#6 ++ vd ++ imm]
  | .viota q vd fn => [1#3 ++ q.bits ++ 0x34#6 ++ vd ++ 0#6 ++ 0#6 ++ fn]
  | .vcvt q vd va tag sat rnd => [1#3 ++ q.bits ++ 0x36#6 ++ vd ++ va ++ tag ++ sat ++ rnd ++ 0#2]
  | .vtag q vd va tag => [1#3 ++ q.bits ++ 0x37#6 ++ vd ++ va ++ tag ++ 0#1 ++ 0#2 ++ 0#2]
  | .vamo q vd a space fe fmt inc vx op => [1#3 ++ q.bits ++ 0x39#6 ++ vd ++ a ++ space ++ fe ++ fmt ++ inc, 7#3 ++ vx ++ op ++ 0#19]
  | .vld q vd a space fe fmt inc => [1#3 ++ q.bits ++ 0x3A#6 ++ vd ++ a ++ space ++ fe ++ fmt ++ inc]
  | .vst q vd a space fe fmt inc => [1#3 ++ q.bits ++ 0x3B#6 ++ vd ++ a ++ space ++ fe ++ fmt ++ inc]
  | .vldx q vd a space fe fmt inc vx => [1#3 ++ q.bits ++ 0x3C#6 ++ vd ++ a ++ space ++ fe ++ fmt ++ inc, 7#3 ++ vx ++ 0#4 ++ 0#19]
  | .vstx q vd a space fe fmt inc vx => [1#3 ++ q.bits ++ 0x3D#6 ++ vd ++ a ++ space ++ fe ++ fmt ++ inc, 7#3 ++ vx ++ 0#4 ++ 0#19]
  | .vldl q vd a space fe fmt inc => [1#3 ++ q.bits ++ 0x3E#6 ++ vd ++ a ++ space ++ fe ++ fmt ++ inc]
  | .vstl q vd a space fe fmt inc => [1#3 ++ q.bits ++ 0x3F#6 ++ vd ++ a ++ space ++ fe ++ fmt ++ inc]
  | .mcfg q gang => [2#3 ++ q.bits ++ 0x00#6 ++ gang ++ 0#19]
  | .mldw q g fmt a space ae vq k0 n1 whole => [2#3 ++ q.bits ++ 0x01#6 ++ g ++ fmt ++ a ++ space ++ ae ++ 0#3 ++ vq ++ 0#2, 7#3 ++ k0 ++ n1 ++ whole ++ 0#8]
  | .mldws q g fmt a space ae am k0 n1 whole => [2#3 ++ q.bits ++ 0x02#6 ++ g ++ fmt ++ a ++ space ++ ae ++ am ++ 0#3, 7#3 ++ k0 ++ n1 ++ whole ++ 0#8]
  | .mswap q g all => [2#3 ++ q.bits ++ 0x03#6 ++ g ++ all ++ 0#17]
  | .mmul q t g rows1 afmt start fin wide a space fe stride => [2#3 ++ q.bits ++ 0x04#6 ++ t ++ g ++ rows1 ++ afmt ++ start ++ fin ++ wide ++ 0#2, 7#3 ++ a ++ space ++ fe ++ stride ++ 0#6]
  | .mrd q t row0 count1 a space fe stride => [2#3 ++ q.bits ++ 0x05#6 ++ t ++ row0 ++ count1 ++ 0#7, 7#3 ++ a ++ space ++ fe ++ stride ++ 0#6]
  | .mrdv q t row v => [2#3 ++ q.bits ++ 0x06#6 ++ t ++ row ++ v ++ 0#6]
  | .mclr q t d op => [2#3 ++ q.bits ++ 0x07#6 ++ t ++ d ++ op ++ 0#10]
  | .mpois q t => [2#3 ++ q.bits ++ 0x08#6 ++ t ++ 0#17]
  | .mrdk q mac v sk => [2#3 ++ q.bits ++ 0x09#6 ++ mac ++ v ++ sk ++ 0#7]
  | .mwrk q mac v sk => [2#3 ++ q.bits ++ 0x0A#6 ++ mac ++ v ++ sk ++ 0#7]
  | .mslot q sa now => [2#3 ++ q.bits ++ 0x30#6 ++ sa ++ 0#16, 7#3 ++ now ++ 0#28]
  | .qcfg q target axis mode sat dd => [3#3 ++ q.bits ++ 0x00#6 ++ target ++ axis ++ mode ++ sat ++ dd ++ 0#10]
  | .qstv q a space v qr sb axisend => [3#3 ++ q.bits ++ 0x01#6 ++ a ++ space ++ v ++ qr ++ sb ++ axisend]
  | .qstt q t row0 count1 sb axisend a space qr stride => [3#3 ++ q.bits ++ 0x02#6 ++ t ++ row0 ++ count1 ++ sb ++ axisend ++ 0#1, 7#3 ++ a ++ space ++ qr ++ stride ++ 0#4]
  | .qscl q d sa => [3#3 ++ q.bits ++ 0x03#6 ++ d ++ sa ++ 0#11]
  | .qrld q kind qr a space fe ord scope => [3#3 ++ q.bits ++ 0x04#6 ++ kind ++ qr ++ a ++ space ++ fe ++ ord ++ 0#5 ++ scope]
  | .qrst q kind qr a space fe ord scope => [3#3 ++ q.bits ++ 0x05#6 ++ kind ++ qr ++ a ++ space ++ fe ++ ord ++ 0#5 ++ scope]
  | .qrclr q kind qr => [3#3 ++ q.bits ++ 0x06#6 ++ kind ++ qr ++ 0#16]
  | .qrmov q kind qd qa => [3#3 ++ q.bits ++ 0x07#6 ++ kind ++ qd ++ qa ++ 0#12]
  | .qflg q d clr => [3#3 ++ q.bits ++ 0x08#6 ++ d ++ clr ++ 0#15]
  | .lntol q set sb => [4#3 ++ q.bits ++ 0x00#6 ++ set ++ sb ++ 0#9]
  | .lnfit q vp mk fb fn => [4#3 ++ q.bits ++ 0x01#6 ++ vp ++ mk ++ fb ++ 0#4, 7#3 ++ fn ++ 0#25]
  | .lnld q sf a space n1 fn => [4#3 ++ q.bits ++ 0x02#6 ++ sf ++ a ++ space ++ n1 ++ fn]
  | .lnst q sf a space n1 => [4#3 ++ q.bits ++ 0x03#6 ++ sf ++ a ++ space ++ n1 ++ 0#4]
  | .lnstTable q a space kind => [4#3 ++ q.bits ++ 0x03#6 ++ 0#5 ++ a ++ space ++ 0#7 ++ kind]
  | .lnchk q md t row0 count1 fset => [4#3 ++ q.bits ++ 0x04#6 ++ md ++ t ++ row0 ++ count1 ++ 0#4, 7#3 ++ fset ++ 0#22]
  | .lnapl q vd t row fix fb => [4#3 ++ q.bits ++ 0x05#6 ++ vd ++ t ++ row ++ fix ++ 0#5, 7#3 ++ fb ++ 0#21]
  | .lncor q vd t row grad fb => [4#3 ++ q.bits ++ 0x06#6 ++ vd ++ t ++ row ++ grad ++ 0#5, 7#3 ++ fb ++ 0#21]
  | .lnrfl q d a space n1 => [4#3 ++ q.bits ++ 0x07#6 ++ d ++ a ++ space ++ n1 ++ 0#1]
  | .lncnt q vd fb clr => [4#3 ++ q.bits ++ 0x08#6 ++ vd ++ fb ++ clr ++ 0#6]
  | .lnclrCounts q set => [4#3 ++ q.bits ++ 0x09#6 ++ 0#2 ++ set ++ 0#12]
  | .lnclrList q => [4#3 ++ q.bits ++ 0x09#6 ++ 1#2 ++ 0#7 ++ 0#12]
  | .lnclrLines q set => [4#3 ++ q.bits ++ 0x09#6 ++ 2#2 ++ set ++ 0#12]
  | .lnfold q vd va sf col acc => [4#3 ++ q.bits ++ 0x0A#6 ++ vd ++ va ++ sf ++ 0#4, 7#3 ++ col ++ acc ++ 0#27]
  | .srec q slot a space => [5#3 ++ q.bits ++ 0x00#6 ++ slot ++ a ++ space ++ 0#12]
  | .cpyLinear q ad dsp asrc ssp sn dfe sfe => [5#3 ++ q.bits ++ 0x01#6 ++ 0#1 ++ ad ++ dsp ++ asrc ++ ssp ++ sn ++ dfe ++ sfe ++ 0#1]
  | .cpyPattern q dslot sslot h dfe sfe => [5#3 ++ q.bits ++ 0x01#6 ++ 1#1 ++ dslot ++ sslot ++ h ++ 0#3 ++ dfe ++ sfe ++ 0#1]
  | .cpymLinear q ad dsp asrc ssp sn dfe sfe follow => (5#3 ++ q.bits ++ 0x02#6 ++ 0#1 ++ ad ++ dsp ++ asrc ++ ssp ++ sn ++ dfe ++ sfe ++ 0#1) :: encode follow
  | .cpymPattern q dslot sslot h dfe sfe follow => (5#3 ++ q.bits ++ 0x02#6 ++ 1#1 ++ dslot ++ sslot ++ h ++ 0#3 ++ dfe ++ sfe ++ 0#1) :: encode follow
  | .cwin q slot a space h sw sr => [5#3 ++ q.bits ++ 0x03#6 ++ slot ++ a ++ space ++ h ++ sw ++ 0#3, 7#3 ++ sr ++ 0#24]
  | .cadv q slot sn h nh => [5#3 ++ q.bits ++ 0x04#6 ++ slot ++ sn ++ h ++ nh ++ 0#7]
  | .cgath q a space ai ispace sn esz lfe rfe => [5#3 ++ q.bits ++ 0x05#6 ++ a ++ space ++ ai ++ ispace ++ sn ++ esz ++ 0#3, 7#3 ++ lfe ++ rfe ++ 0#25]
  | .cscat q a space ai ispace sn esz lfe rfe => [5#3 ++ q.bits ++ 0x06#6 ++ a ++ space ++ ai ++ ispace ++ sn ++ esz ++ 0#3, 7#3 ++ lfe ++ rfe ++ 0#25]
  | .cred q ad dsp asrc ssp sn fmt dfe sfe => [5#3 ++ q.bits ++ 0x07#6 ++ ad ++ dsp ++ asrc ++ ssp ++ sn ++ 0#6, 7#3 ++ fmt ++ dfe ++ sfe ++ 0#21]
  | .cvqxBook q asrc ssp sfe => [5#3 ++ q.bits ++ 0x08#6 ++ 0#3 ++ 0#2 ++ asrc ++ ssp ++ 0#5 ++ 0#1 ++ 0#5, 7#3 ++ 0#2 ++ sfe ++ 0#25]
  | .cvqxExpand q ad dsp asrc ssp sn dfe sfe => [5#3 ++ q.bits ++ 0x08#6 ++ ad ++ dsp ++ asrc ++ ssp ++ sn ++ 1#1 ++ 0#5, 7#3 ++ dfe ++ sfe ++ 0#25]
  | .sisect q d sp se ka kb out h spa spb ao osp => [5#3 ++ q.bits ++ 0x09#6 ++ d ++ sp ++ se ++ ka ++ kb ++ out ++ 0#3, 7#3 ++ h ++ spa ++ spb ++ ao ++ osp ++ 0#16]
  | .cseq q d cls which => [5#3 ++ q.bits ++ 0x0A#6 ++ d ++ cls ++ which ++ 0#14]
  | .fence q scope => [6#3 ++ q.bits ++ 0x00#6 ++ 0#18 ++ scope]
  | .xfence q ca cb scope => [6#3 ++ q.bits ++ 0x01#6 ++ 0#12 ++ ca ++ cb ++ scope]
  | .ldaq q r size a space fe scope => [6#3 ++ q.bits ++ 0x02#6 ++ r ++ 0#1 ++ size ++ a ++ space ++ fe ++ 0#4 ++ scope]
  | .ldaqHandle q r size h sb scope => [6#3 ++ q.bits ++ 0x02#6 ++ r ++ 1#1 ++ size ++ h ++ sb ++ 0#2 ++ scope]
  | .strl q r size a space fe scope => [6#3 ++ q.bits ++ 0x03#6 ++ r ++ 0#1 ++ size ++ a ++ space ++ fe ++ 0#4 ++ scope]
  | .strlHandle q r size h sb scope => [6#3 ++ q.bits ++ 0x03#6 ++ r ++ 1#1 ++ size ++ h ++ sb ++ 0#2 ++ scope]
  | .amo q d g size loc ord scope sc op => [6#3 ++ q.bits ++ 0x04#6 ++ d ++ g ++ size ++ loc ++ ord ++ scope, 7#3 ++ sc ++ op ++ 0#20]
  | .cas q d g size loc ord scope sc sn => [6#3 ++ q.bits ++ 0x05#6 ++ d ++ g ++ size ++ loc ++ ord ++ scope, 7#3 ++ sc ++ sn ++ 0#19]
  | .bar q group d scope => [6#3 ++ q.bits ++ 0x06#6 ++ group ++ d ++ 0#5 ++ scope]
  | .waitseq q d sa cls scope => [6#3 ++ q.bits ++ 0x07#6 ++ d ++ sa ++ cls ++ 0#6 ++ scope]
  | .wfe q => [6#3 ++ q.bits ++ 0x08#6 ++ 0#21]
  | .sev q kind strand core scope => [6#3 ++ q.bits ++ 0x09#6 ++ kind ++ strand ++ core ++ 0#7 ++ scope]
  | .slpat q sa => [6#3 ++ q.bits ++ 0x0A#6 ++ sa ++ 0#16]
  | .trn q h sa => [6#3 ++ q.bits ++ 0x0B#6 ++ h ++ sa ++ 0#12]
  | .probe q h sa acc => [6#3 ++ q.bits ++ 0x0C#6 ++ h ++ sa ++ acc ++ 0#10]
  | .hvld q pd h d => [6#3 ++ q.bits ++ 0x0D#6 ++ pd ++ h ++ d ++ 0#9]
  | .trig q => [6#3 ++ q.bits ++ 0x0E#6 ++ 0#21]
  | .exit q => [6#3 ++ q.bits ++ 0x0F#6 ++ 0#21]
  | .trap q code => [6#3 ++ q.bits ++ 0x10#6 ++ 0#5 ++ code]
  | .eret q => [6#3 ++ q.bits ++ 0x11#6 ++ 0#21]
  | .task q d a space sq => [6#3 ++ q.bits ++ 0x12#6 ++ d ++ a ++ space ++ 0#11, 7#3 ++ sq ++ 0#24]
  | .tokq q d sq st => [6#3 ++ q.bits ++ 0x13#6 ++ d ++ sq ++ st ++ 0#6]
  | .trc q sa sb code => [6#3 ++ q.bits ++ 0x14#6 ++ sa ++ sb ++ 0#11, 7#3 ++ code ++ 0#17]
  | .drain q scope => [6#3 ++ q.bits ++ 0x15#6 ++ 0#18 ++ scope]
  | .invqIssue q d sa sb => [6#3 ++ q.bits ++ 0x30#6 ++ d ++ sa ++ sb ++ 0#1 ++ 0#5]
  | .invqAck q d => [6#3 ++ q.bits ++ 0x30#6 ++ d ++ 0#5 ++ 0#5 ++ 1#1 ++ 0#5]
  | .mchkPop q d h sb cls => [6#3 ++ q.bits ++ 0x31#6 ++ d ++ h ++ sb ++ 0#2 ++ cls ++ 0#2]
  | .mchkInject q cls => [6#3 ++ q.bits ++ 0x31#6 ++ 0#5 ++ 0#4 ++ 0#5 ++ 1#2 ++ cls ++ 0#2]
  | .ctxsvStrand q d sa h sb => [6#3 ++ q.bits ++ 0x32#6 ++ d ++ sa ++ h ++ sb ++ 0#1 ++ 0#1]
  | .ctxsvCore q d sa h sb => [6#3 ++ q.bits ++ 0x32#6 ++ d ++ sa ++ h ++ sb ++ 1#1 ++ 0#1]
  | .ctxldStrand q d sa h sb => [6#3 ++ q.bits ++ 0x33#6 ++ d ++ sa ++ h ++ sb ++ 0#1 ++ 0#1]
  | .ctxldCore q d sa h sb => [6#3 ++ q.bits ++ 0x33#6 ++ d ++ sa ++ h ++ sb ++ 1#1 ++ 0#1]
  | .slotTableApply => []
  | .slotBoundary => []
  | .sleepDeadline => []
  | .trnResultLands _ _ => []
  | .invalidateBroadcast => []
  | .invalidateAcknowledge => []
  | .trapEntry _ => []
  | .fatalContextError _ _ => []
  | .machineCheck _ => []
  | .fullEmptyWake => []
  | .nearBufferDrain => []
  | .nearBufferForcedDrain => []
  | .remoteRequest _ => []
  | .retryReissue => []
  | .partnerLost _ _ => []
  | .reset _ => []
  | .recoveryImage _ _ => []
  | .launchDoorbell _ _ => []
  | .taskRecordLaunch _ => []
  | .releaseHeldNode _ => []
  | .cancelHeldNode _ => []
  | .configureExpertQueue _ => []
  | .nodePlacement _ => []
  | .nodeCompletion _ => []
  | .expertQueueTimeout _ => []
  | .expertQueueFire _ => []
  | .energyIntegration => []
  | .energyIntervalStart => []
  | .energyConfig _ _ => []
  | .stateSummary _ => []
  | .ptpMessage _ => []
  | .holdoverExpiry => []
  | .traceRecordMove => []
  | .hbmParityAlert _ _ _ _ _ => []
  | .hbmScrub _ => []
  | .criticalTemperature _ => []
  | .selfRefreshExit _ => []
  | .stallReport _ => []
  | .launchQueueBinding _ _ => []
  | .abandonFlitArrival _ _ => []
  | .noBetterClockAnnounced => []
  | .attestationReport => []

/-- The words of an opcode-table row: its low `nbits` bits, the first word lowest, the bits above them 0. -/
def tableWords (nbits w : Nat) : List Word :=
  let v := w % 2 ^ nbits
  [BitVec.ofNat 32 v, BitVec.ofNat 32 (v / 2 ^ 32), BitVec.ofNat 32 (v / 2 ^ 64)]

/-- The instruction the decoder reads from an instruction whose bits are `w`, numbered as the opcode table numbers
them (words are stored lowest first, R3, R12).  The privileged opcodes are read as in privileged mode (R31). -/
def decodeTableWord (nbits w : Nat) : Option Instr := (decode true (tableWords nbits w)).toOption

/-- The length in words that the head fixes (R16): the shape of its opcode, and for a CPYM that of its follow-on. -/
def headLength (w : Word) (rest : List Word) : Nat :=
  let x2 (w : Word) : Bool :=
    let op := (w.extractLsb' 21 6).toNat
    match (w.extractLsb' 29 3).toNat with
    | 1 => decide (op ∈ [0x39, 0x3C, 0x3D])
    | 2 => decide (op ∈ [0x01, 0x02, 0x04, 0x05, 0x30])
    | 3 => decide (op = 0x02)
    | 4 => decide (op ∈ [0x01, 0x04, 0x05, 0x06, 0x0A])
    | 5 => decide (op ∈ [0x03, 0x05, 0x06, 0x07, 0x08, 0x09])
    | 6 => decide (op ∈ [0x04, 0x05, 0x12, 0x14])
    | _ => false
  if w.extractLsb' 29 3 = 5 ∧ w.extractLsb' 21 6 = 2 then
    match rest with
    | f :: _ => 1 + (if x2 f then 2 else 1)
    | [] => 1
  else if x2 w then 2 else 1

end Sys2Proof
end

