-- ==== Sys2Proof/Machine/State.lean ====
section
/-! DEFINITION. The machine's state: one core with its four strands, the memories it reaches, and the dispatch,
time and reliability state of its package (R37, R154, R180, R206-R229, R293-R313, R321, R333-R352).  Plain data. -/

namespace Sys2Proof.Machine

/-! ## Strand registers (R37, Table 1) -/

/-- An address register: address, modulo base and length; length 0 means no modulo (R74). -/
structure AReg where
  addr : BitVec 32
  base : BitVec 32
  len  : BitVec 23
deriving DecidableEq, Repr, Inhabited

/-- The state field of a handle (R229). -/
inductive HState where
  | empty | valid | notFound | late | revoked
deriving DecidableEq, Repr, Inhabited

/-- A handle register (R229, Table 1). -/
structure Handle where
  state : HState
  large : Bool
  kind  : BitVec 2
  w     : Bool
  x     : Bool
  asid  : BitVec 16
  page  : BitVec 40
  ppn   : BitVec 38
deriving DecidableEq, Repr, Inhabited

/-- A vector register with its tag, exponent sidecar and poison bit (R37, R91). -/
structure VReg where
  data   : BitVec 1024
  tag    : BitVec 4
  side   : BitVec 128
  poison : Bool
deriving DecidableEq, Repr, Inhabited

/-- The quantiser configuration of a strand (R106). -/
structure QCfg where
  target : BitVec 4
  axis   : BitVec 1
  mode   : BitVec 2
  sat    : BitVec 1
  dd     : BitVec 3
deriving DecidableEq, Repr, Inhabited

/-- One level of the loop sequencer (R67, R70, R250 Table 3). -/
structure Loop where
  active      : Bool
  start       : BitVec 32
  fin         : BitVec 32
  count       : BitVec 32
  iter        : BitVec 32
  brk         : Bool
  interlocked : Bool
  stride      : Vector (BitVec 32) 8
deriving DecidableEq, Repr, Inhabited

/-- A transfer that still has delay instructions to split (R34, R64): `fall` is the address after them. -/
structure Transfer where
  target : BitVec 32
  fall   : BitVec 32
  left   : Nat
  taken  : Bool
deriving DecidableEq, Repr, Inhabited

/-- The member state of a strand in one group (R286). -/
structure Member where
  arrived : Bool
  done    : Bool
  lost    : Bool
deriving DecidableEq, Repr, Inhabited

/-- The state of a window (R222): its ring, the handle it fetches through, the first row, the held range and the
amount by which later row offsets are reduced (R223). -/
structure Window where
  addr   : BitVec 32
  base   : BitVec 32
  len    : BitVec 23
  space  : BitVec 2
  handle : Handle
  j0     : Nat
  lo     : Nat
  hi     : Nat
  less   : Nat
deriving DecidableEq, Repr, Inhabited

/-- A stream slot: record, valid bit, window (R215). -/
structure StreamSlot where
  record : BitVec 512
  valid  : Bool
  window : Option Window
deriving DecidableEq, Repr, Inhabited

/-- A value captured at split (R41, R250): a scalar, an address, a window's ring, a handle, a time or a counter. -/
inductive Cap where
  | s (v : BitVec 64)
  | a (v : BitVec 32)
  | ring (addr base : BitVec 32) (len : BitVec 23)
  | h (v : Handle)
  | t (v : BitVec 64)
  | n (v : BitVec 32)
deriving DecidableEq, Repr, Inhabited

/-- A translation root: bucket-array base, exponent n and address space (R235). -/
structure Root where
  base : BitVec 54
  n    : BitVec 5
  asid : BitVec 16
deriving DecidableEq, Repr, Inhabited

/-- An engine word that is split and not finished (R42): its instruction, address, captured values, whether it is a
CPYM follow-on (held while its CPYM stands before it, R219), the vector mode and the translation root at its split (R51, R333), the numbers of the invalidate
commands that count it (R241), whether a drain point stands before this vector word since the one before it (R54),
whether a later vector word of the strand has issued, whether the word was split in this step, its sequence number in its
class (R220), and the main-clock cycle of its split. -/
structure QEntry where
  instr       : Instr
  pc          : BitVec 32
  caps        : List Cap
  held        : Bool
  interlocked : Bool
  root        : Root
  counted     : List (BitVec 32)
  drain       : Bool
  passed      : Bool
  fresh       : Bool
  num         : BitVec 32
  since       : Nat
deriving DecidableEq, Repr, Inhabited

/-- A result of a vector word on its way to its register (R52): masked lanes of a vector register (with the sidecar
bytes it writes), a mask, the active-mask number, a scalar or a predicate. -/
inductive VWrite where
  | vec (vd : BitVec 6) (lanes : BitVec 32) (data : BitVec 1024) (tag : BitVec 4) (side sideMask : BitVec 128)
      (poison : Bool)
  | mask (md : BitVec 3) (v : BitVec 32)
  | act (m : BitVec 3)
  | scalar (d : BitVec 5) (v : BitVec 64)
  | pred (d : BitVec 3) (v : Bool)
deriving DecidableEq, Repr, Inhabited

/-- A vector result in flight and the issue slot in which it lands (R52); one result of each word is marked as its first,
so that the marks count the words that have issued and not finished (R247). -/
structure Flight where
  slot  : Nat
  w     : VWrite
  first : Bool
deriving DecidableEq, Repr, Inhabited

/-- Where an element of a copy lies: on chip, or in main memory through a handle (R214). -/
structure Loc where
  main  : Bool
  place : Nat
  handle : Handle
deriving DecidableEq, Repr, Inhabited

/-- A part of a begun word that is still to be performed (R224, R288): a gather element of n bytes by its local and its remote
place, a write that lands, a group of pairs of elements of n bytes that is still to be read, an addition at place `d` of the
granule at place `s` or of bytes that have been read (R225), or the rest of an intersection (R227). -/
inductive Piece where
  | elem (l p n : Nat)
  | put (l : Loc) (bytes : List Byte) (poison : Bool)
  | move (n : Nat) (pairs : List (Loc × Loc))
  | sum (fmt : BitVec 4) (d s : Nat)
  | sumOf (fmt : BitVec 4) (d : Nat) (bytes : List Byte) (poison : Bool)
  | scan (pa pb found steps : Nat)
deriving DecidableEq, Repr, Inhabited

/-- A control word that has passed its tests and waits at the splitter: it, the handle that it captured, and the numbers of the
invalidate commands that count it (R241). -/
structure AtSplit where
  instr   : Instr
  handle  : Option Handle
  counted : List (BitVec 32)
deriving DecidableEq, Repr, Inhabited

/-- A TRN whose result has not landed (R230): the handle, address and root, and the numbers of the invalidate commands
that marked it revoked (R241). -/
structure TrnFlight where
  h       : BitVec 4
  va      : BitVec 56
  root    : Root
  marks   : List (BitVec 32)
deriving DecidableEq, Repr, Inhabited

/-- A placement record (R303, Table 2), with the value of S1 and the groups that it loads, the text's length and the physical address of every 64 KiB of
its virtual pages, from the page of the header on, with whether a large page maps it. -/
structure Placement where
  node   : BitVec 32
  rank   : Nat
  count  : Nat
  queue  : BitVec 6
  codeVa : Nat
  pages  : List (Nat × Bool)
  textLen : Nat
  entry  : BitVec 32
  args   : BitVec 64
  groups : Vector (BitVec 8) 4
deriving DecidableEq, Repr, Inhabited

/-- One strand (R37) and its slot (R303). -/
structure Strand where
  /-- The placement record; none when the slot is free. -/
  placed    : Option Placement
  /-- The model's name of the strand, which it keeps when it moves to another slot (R278, R336). -/
  ident     : Nat
  pc        : BitVec 32
  s         : Vector (BitVec 64) 32
  p         : Vector Bool 8
  b         : Vector (BitVec 32) 4
  a         : Vector AReg 8
  h         : Vector Handle 16
  v         : Vector VReg 64
  m         : Vector (BitVec 32) 8
  act       : BitVec 3
  q         : Vector (BitVec 32) 16
  qv        : Vector (BitVec 1024) 4
  qcfg      : QCfg
  /-- The return stack, newest entry first (R65). -/
  rstack    : List (BitVec 32)
  loops     : Vector Loop 6
  xfer      : Option Transfer
  /-- MODE (R83, Table 6). -/
  exposed   : Bool
  fmttrap   : Bool
  /-- FPFLAGS {FLUSH, NX, UF, OF, NV} and QFLAGS {BREAK, NAN, SAT} (R83, Table 7). -/
  fpflags   : BitVec 5
  qflags    : BitVec 3
  trapvec   : BitVec 64
  trapframe : BitVec 64
  trapcause : BitVec 8
  trapdata  : BitVec 64
  intrap    : Bool
  priv      : Bool
  groups    : Vector (BitVec 8) 4
  members   : Vector Member 4
  root      : Root
  latch     : Bool
  wsat      : Bool
  slots     : Vector StreamSlot 4
  /-- Sequence counters of the copy and network classes: issued and completed (R220). -/
  copyIssued : BitVec 32
  copyDone   : BitVec 32
  netIssued  : BitVec 32
  netDone    : BitVec 32
  /-- Numbers above the completed counters whose words have completed, while an earlier one has not (R220). -/
  copyLate   : List (BitVec 32)
  netLate    : List (BitVec 32)
  /-- Lost flags: copy, network, scalar (R284). -/
  lostCopy  : Bool
  lostNet   : Bool
  lostScalar : Bool
  triggered : Bool
  /-- Engine words split and not finished, in program order across all queues (R42, R247). -/
  queue     : List QEntry
  /-- What is left of the network words and of the copy words that have begun and not ended, by their sequence numbers, and of
  the MRD: they run to their end (R224, R228, R248, R288). -/
  gather    : List (BitVec 32 × List Piece)
  moving    : List (BitVec 32 × List Piece)
  storing   : Option (List Piece)
  /-- Replay entries of an ERET that still wait for a place (R252, step 5). -/
  inject    : List QEntry
  /-- An ERET stands in that step: how many entries it re-injects, its PC and its head word (R252, R345). -/
  returning : Option (Nat × BitVec 32 × BitVec 32)
  /-- Registers held pending for words withdrawn into the trap frame (R249). -/
  heldS     : BitVec 32
  heldP     : BitVec 8
  heldH     : BitVec 16
  trns      : List TrnFlight
  /-- The exposed pipeline: next issue slot, results in flight, and the mode of the word issued last (R52-R55). -/
  vslot     : Nat
  flight    : List Flight
  lastInterlocked : Bool
  /-- A drain point has been split since the last vector word (R54). -/
  drainDue  : Bool
  /-- A PROBE has been split and has not completed: the splitter stands at it (R239). -/
  passing   : Bool
  /-- The deadline of a sleep the sync unit has taken (R340). -/
  sleeping  : Option (BitVec 64)
  /-- The control word that waits at the splitter, once it has passed its tests (R40, R241). -/
  atSplit   : Option AtSplit
  /-- The times that TRC words withdrawn into the trap frame read at split (R343, R345). -/
  trcs      : List (BitVec 64)
deriving DecidableEq, Repr, Inhabited

/-! ## The matrix engine (R154-R178) -/

/-- The format of a weight plane (R154). -/
inductive PlaneFmt where
  | b8 | b4 | int8
deriving DecidableEq, Repr, Inhabited

/-- A weight plane: 128 K-rows of 64 bytes with a stored residue of 3 bits per element, an exponent pair per 32-row
block and column, the sparse selector settings as metadata words per 32-position logical chunk and column, and a poison bit
per K-row (R154, R159, R177). -/
structure Plane where
  fmt    : PlaneFmt
  sparse : Bool
  rows   : Vector (BitVec 512) 128
  res    : Vector (BitVec 384) 128
  exps   : Vector (BitVec 2048) 4
  sel    : Vector (BitVec 4096) 8
  poison : BitVec 128
deriving DecidableEq, Repr, Inhabited

/-- A macro: two planes, and which of them is active (R154). -/
structure Macro where
  plane0 : Plane
  plane1 : Plane
  active : BitVec 1
deriving DecidableEq, Repr, Inhabited

/-- An accumulator tile: 32 rows of 64 entries of 32 bits, tag, poison, OVF (R37, R167). -/
structure Tile where
  rows   : Vector (BitVec 2048) 32
  tag    : BitVec 4
  poison : Bool
  ovf    : Bool
deriving DecidableEq, Repr, Inhabited

/-- The open reduction chain (R170): owner strand, tiles t … t + n − 1, rows, tile format, words taken, poison; and
the cycle at which its owner's slot ends, when the chain was opened in a slot that its owner owns (R51). -/
structure Chain where
  owner  : Fin 4
  t      : Nat
  n      : Nat
  rows   : Nat
  int    : Bool
  count  : Nat
  ends   : Option Nat
  poison : Bool
deriving DecidableEq, Repr, Inhabited

/-- The matrix engine of the core. -/
structure MatrixEngine where
  macros  : Vector Macro 8
  tiles   : Vector Tile 16
  gang    : BitVec 2
  chain   : Option Chain
  /-- The slot table (R50) and a table that waits for the next slot-0 period (R175). -/
  slots   : Vector (BitVec 4) 16
  pendingSlots : Option (Vector (BitVec 4) 16)
  debt    : Vector Nat 4
  /-- Cycles at the start of the present slot that are governed as open (R51). -/
  openFor : Nat
deriving DecidableEq, Repr, Inhabited

/-! ## The line engine (R180) -/

/-- The line engine: sparse tables by feature number or line set, each entry listed only when it differs from the
value R181 gives at reset. -/
structure LineEngine where
  records : List (Nat × BitVec 128)
  fns     : List (Nat × BitVec 3)
  tols    : List (Nat × BitVec 32)
  counts  : List (Nat × BitVec 16)
  /-- The refresh list, oldest first: feature in [15:0], tile row in [31:16]. -/
  refresh : List (BitVec 32)
  ovf     : Bool
deriving DecidableEq, Repr, Inhabited

/-! ## Memories -/

/-- A write that a near-buffer line holds (R276, R278, R289): the strand, engine class and sequence number of its
word, and whether it went through an unordered page. -/
structure Writer where
  strand : Nat
  cls    : BitVec 3
  num    : BitVec 32
  unordered : Bool
deriving DecidableEq, Repr, Inhabited

/-- A buffered byte of a near-buffer line (R276): its offset, its value, and the strand that wrote it last (R323). -/
structure NearByte where
  off    : Nat
  val    : Byte
  strand : Nat
deriving DecidableEq, Repr, Inhabited

/-- A line of the near buffer (R276): line number, its bytes, the writes it holds, the poison of the data, the strands that
pin it. -/
structure NearLine where
  line   : Nat
  bytes  : List NearByte
  writers : List Writer
  poison : Bool
  pins   : List Nat
deriving DecidableEq, Repr, Inhabited

/-- An access that waits on full-empty bits alone (R210): its strand slot, engine class, the number of its network word, when
it began waiting, whether it is a take, and the granules it covers. -/
structure Waiter where
  strand   : Fin 4
  cls      : BitVec 3
  num      : BitVec 32
  since    : Nat
  take     : Bool
  granules : List Nat
deriving DecidableEq, Repr, Inhabited

/-- An access from outside the core that waits: on full-empty bits (R210, R284), or for a stack in self-refresh (R328);
the step and the Encke time at which it began to wait. -/
structure RemoteWait where
  req   : RemoteReq
  since : Nat
  time  : BitVec 64
deriving DecidableEq, Repr, Inhabited

/-- A trace record (R342) with the launch queue whose ring takes it, and the name of its strand. -/
structure TraceRec where
  queue  : BitVec 6
  time   : BitVec 64
  a      : BitVec 64
  b      : BitVec 64
  source : BitVec 64
  strand : Nat
deriving DecidableEq, Repr, Inhabited

/-! ## Dispatch (R293-R314) -/

/-- A launch queue (R293, R295, R344). -/
structure Queue where
  binding  : QueueBinding
  head     : Nat
  tail     : Nat
  compTail : Nat
  /-- Completion records the runtime has consumed. -/
  compHead : Nat
  traceTail : Nat
  /-- The last reading of the trace ring's head word. -/
  traceHead : Nat
  traceLost : Bool
deriving DecidableEq, Repr, Inhabited

/-- The stages of a node (R299). -/
inductive NodeStage where
  | pending | held | eligible | running | finished | tainted
deriving DecidableEq, Repr, Inhabited

/-- A strand of a node that runs on another core of the package (R302): its rank and the core, its groups, how far it has come,
the groups in which it has arrived at a barrier, and those whose episode has ended for it, with the status (R286). -/
structure FarRank where
  rank      : Nat
  core      : Nat
  groups    : Vector (BitVec 8) 4
  triggered : Bool
  exited    : Bool
  /-- It ended without EXIT (R286). -/
  lost      : Bool
  arrived   : List (BitVec 8)
  done      : List (BitVec 8 × Bool)
deriving DecidableEq, Repr, Inhabited

/-- A node of a task graph (R296, R299, R313). -/
structure Node where
  id      : BitVec 32
  queue   : BitVec 6
  record  : BitVec 512
  /-- S1 and S2 at entry when an expert queue fired the node (R305, R310). -/
  batch   : Option (BitVec 64 × BitVec 64)
  stage   : NodeStage
  released : Bool
  /-- Order in which nodes became eligible (R300). -/
  order   : Nat
  unreplayable : Bool
  replays : Nat
  errors  : Nat
  energy  : BitVec 64
  start   : Option (BitVec 64)
  fin     : BitVec 64
  exited  : Nat
  /-- Strands that have executed TRIG or exited (R299). -/
  trigs   : Nat
  /-- Its strands on other cores (R302). -/
  far     : List FarRank
  /-- Nanoseconds of its strand slots on each die since energy was last integrated (R346). -/
  slotTime : Vector Nat 4
  /-- The address of its kernel object, the length of the text and the pages, once it has been placed (R298). -/
  text     : Option (Nat × Nat × List (Nat × Bool))
  /-- The predecessors that had not completed when it was launched early (R301). -/
  earlyOn  : List (BitVec 32)
  /-- The strands of its last attempt, whose buffered writes are dropped once what they had begun has ended (R323). -/
  dropping : List Nat
  /-- Set when a predecessor of the running node was tainted (R301). -/
  predTainted : Bool
  verdict : BitVec 8
  reason  : BitVec 8
  /-- The machine-check and error records that go with its completion record, oldest first (R234, R322). -/
  errRecs : List (BitVec 512)
  storedPoison : Bool
  /-- A member of the node ended without EXIT (R286). -/
  killed  : Bool
deriving DecidableEq, Repr, Inhabited

/-- An expert token queue (R309, R310): configuration, tokens with arrival times, number of firings. -/
structure ExpertQueue where
  via       : BitVec 6
  template  : BitVec 56
  buffer    : BitVec 56
  capacity  : Nat
  threshold : Nat
  timeout   : Nat
  tokens    : List (BitVec 64 × BitVec 64)
  firings   : Nat
deriving DecidableEq, Repr, Inhabited

/-- An invalidate command (R240): number, range, address space, hint, issuing strand, and whether it was broadcast
to the cores. -/
structure InvCmd where
  number : BitVec 32
  start  : BitVec 40
  count  : BitVec 40
  asid   : BitVec 16
  hint   : BitVec 2
  issuer : Fin 4
  sent   : Bool
deriving DecidableEq, Repr, Inhabited

/-- A saved context area (R330): the strand or the core area, as the device encodes it for itself. -/
structure SavedStrand where
  strand : Strand
  lanes  : List (BitVec 8)
  chain  : Option (Chain × List (Nat × Tile))
deriving DecidableEq, Repr, Inhabited

/-- The core state of another core of the package (R331), its memories apart: planes, tiles, arrangement, slot table, line
engine, codebook, core context, the counts of NBRETRY (R280), and the strands placed there as they were last seen. -/
structure FarCore where
  strands  : Vector (Option SavedStrand) 4
  matrix   : MatrixEngine
  line     : LineEngine
  codebook : BitVec 8192
  ctx      : Option Root
  retries  : BitVec 32
  drains   : BitVec 16
deriving DecidableEq, Repr, Inhabited

/-- The core area of a context image (R330, R331): the memories with their full-empty and poison bits, the state of the core,
and the context's root. -/
structure SavedCore where
  scratch  : List (BitVec 8)
  cluster  : List (BitVec 8)
  full     : List Nat × List Nat
  poison   : List Nat × List Nat
  matrix   : MatrixEngine
  line     : LineEngine
  codebook : BitVec 8192
  root     : Option Root
deriving DecidableEq, Repr, Inhabited

/-- What was saved, with the physical address of its area; `n` names the free bytes of its state region, and
`away` says that the strand has not been loaded since. -/
inductive Saved where
  | strand (n : Nat) (away : Bool) (x : SavedStrand)
  | core (n : Nat) (x : SavedCore)
deriving DecidableEq, Repr, Inhabited

/-- The boot state of the module (R348). -/
structure Boot where
  security : Option FlashImage
  ganymede : Option FlashImage
  loader   : Option FlashImage
  recovery : Bool
  /-- For each image loaded, in order, whether it came from slot B. -/
  slotB    : List Bool
deriving DecidableEq, Repr, Inhabited

/-- The discipline of the Encke counter (R338, R339). -/
structure Clock where
  locked      : Bool
  /-- The offset still to be slewed out, in nanoseconds: positive when the counter is behind. -/
  slew        : Int
  grandmaster : Bool
  /-- Firmware places nodes: the first lock or the end of holdover has come (R339). -/
  placing     : Bool
  /-- What is left of a nanosecond of slewing, in units of 1/1,000,000 (R338). -/
  carry       : Nat
  /-- The holdover time in nanoseconds (R339). -/
  holdover    : Nat
  ptp         : PtpSetup
deriving DecidableEq, Repr, Inhabited

/-- Energy accounting (R346, R347). -/
structure EnergyState where
  interval  : Nat
  budget    : Nat
  next      : Option (Nat × Nat)
  remaining : Nat
  /-- The intervals that have begun: of the energy interval, and of 1 microsecond (R346, R347). -/
  begun     : Nat
  taken     : Nat
  /-- Slot time of the running interval, by die, of nodes that have left (R346). -/
  gone      : Vector Nat 4
  /-- The meters of the dies, of the IO dies, the HBM4 stacks and the SerDes. -/
  meter     : Vector Nat 4
  io        : Nat
  hbm       : Nat
  serdes    : Nat
deriving DecidableEq, Repr, Inhabited

/-- What a state summary reports of a launch queue (R352). -/
structure QueueReport where
  queue   : Nat
  binding : QueueBinding
  head    : Nat
  tail    : Nat
  pending : Nat
  held    : Nat
  running : Nat
deriving DecidableEq, Repr, Inhabited

/-- What the per-core section of a state summary reports of a core (R352): its placement records, its hop list, and the counts of
NBRETRY. -/
structure CoreReport where
  placed  : List (Option Placement)
  hops    : List Nat
  retries : BitVec 32
  drains  : BitVec 16
deriving DecidableEq, Repr, Inhabited

/-- The machine-check log of a compute die as far as a state summary reports it (R352): MCLOGN, CECOUNT, and the time of the
oldest record. -/
structure LogReport where
  count   : Nat
  ceCount : BitVec 32
  oldest  : Option (BitVec 64)
deriving DecidableEq, Repr, Inhabited

/-- A state-summary reply (R352): the buffer its command named, and what its sections report; `n` names the items that the
hardware outside the model reports. -/
structure Summary where
  buffer   : Nat
  n        : Nat
  time     : BitVec 64
  device   : Nat
  boot     : Boot
  rollback : Nat
  digest   : List Nat
  clock    : Clock
  queues   : List QueueReport
  /-- By global core. -/
  cores    : List CoreReport
  /-- By die. -/
  logs     : List LogReport
  energy   : EnergyState
  banks    : List (Nat × Nat)
  refresh  : List Nat
  faults   : List Nat
  /-- Temperatures of the stacks, PTP port states, and the states, lane counts and error counts of the links. -/
  outside  : List Nat
deriving DecidableEq, Repr, Inhabited

/-- An attestation report (R348): the measurement of every loaded image, and its signature. -/
structure Attestation where
  measures  : List Nat
  signature : Nat
deriving DecidableEq, Repr, Inhabited

/-- Package, dispatch and reliability state. -/
structure System where
  /-- Device id within the domain, number of devices of the domain, and the global number of the modelled core. -/
  device   : Nat
  devices  : Nat
  gcore    : Nat
  queues   : List (Nat × Queue)
  nodes    : List Node
  nextOrder : Nat
  experts  : List (Nat × ExpertQueue)
  /-- The name that the next strand to be placed takes. -/
  nextStrand : Nat
  /-- The modelled die's machine-check log, oldest record first (R321), and whether a record was dropped. -/
  log      : List (BitVec 512)
  logLost  : Bool
  ceCount  : BitVec 32
  invNext  : BitVec 32
  invs     : List InvCmd
  boot     : Boot
  clock    : Clock
  energy   : EnergyState
  selfRefresh : List Nat
  stalled  : List Nat
  /-- Stacks in self-refresh that hold a request, and since when (R328). -/
  holding  : List (Nat × BitVec 64)
  bankErrors : List (Nat × Nat)
  /-- Channels whose row-remap table failed: their lines are poisoned unless listed otherwise (R327). -/
  deadChannels : List Nat
  keys     : List (Nat × Nat)
  /-- What ciphertexts read as (R349): a 16-byte block of main memory, the number of a ciphertext, a key slot, and the bytes. -/
  ciphers  : List (Nat × Nat × Nat × BitVec 128)
  /-- The logs of the other compute dies, by die. -/
  dieLogs  : List (Nat × LogReport)
  /-- The other cores of the package whose core state is not that of reset, by global core. -/
  cores    : List (Nat × FarCore)
  saved    : List (Nat × Saved)
  remoteWaits : List RemoteWait
  /-- What reads from outside were answered: the bytes, and whether they are poisoned. -/
  replies  : List (List Byte × Bool)
  summaries : List Summary
  attestations : List Attestation
  abandonSent : List Nat
  /-- Error records delivered with completion records: launch queue, node and record (R234, R322). -/
  delivered : List (BitVec 6 × BitVec 32 × BitVec 512)
deriving DecidableEq, Repr, Inhabited

/-- What an uncorrectable soft error poisons (R317): a granule of an on-chip memory, a vector register of a strand slot, a
tile, or a K-row of one of the two planes of a macro. -/
inductive Upset where
  | granule (g : Nat)
  | register (k : Fin 4) (v : BitVec 6)
  | tile (t : BitVec 4)
  | krow (mac : BitVec 3) (side : BitVec 1) (k : BitVec 7)
deriving DecidableEq, Repr, Inhabited

/-- What a strand of a node on another core does: it triggers, exits, arrives at a barrier of a group, or ends without EXIT. -/
inductive FarMove where
  | trig | exit | arrive (g : BitVec 8) | lost
deriving DecidableEq, Repr, Inhabited

/-- What the spec leaves to the environment, to timing and to arbitration, as plain data: events that have arrived,
the order in which strands and engines move, and how far time moves in a step. -/
structure Env where
  /-- Machine events that have happened and are taken before the next word (R293, R326-R352). -/
  inputs : List Instr
  /-- Nanoseconds that each coming step takes; when the list ends, 1. -/
  pace   : List Nat
  /-- Strands in the order in which they move; when the list ends, the strands take turns. -/
  turns  : List (Fin 4)
  /-- Engines that take no word in each coming step (their words stay queued); when the list ends, none. -/
  busy   : List (List Engine)
  /-- Instruction-cache lines that are evicted before the next fetch (R38). -/
  evict  : List Nat
  /-- The addresses at which the accesses of each coming word meet a soft error that is corrected; when the list ends,
  none (R317). -/
  soft   : List (List (BitVec 64))
  /-- The uncorrectable soft errors before each coming step; when the list ends, none (R317). -/
  upsets : List (List Upset)
  /-- The addresses at which accesses that no word made meet a soft error that is corrected, in each coming step; when the list
  ends, none (R317). -/
  stray  : List (List (BitVec 64))
  /-- How many parts of a begun word each coming run of its engine performs; when the list ends, all (R288). -/
  pieces : List Nat
  /-- How many lines on the Casusk links reach their controllers in each coming step; when the list ends, all (R277). -/
  arrive : List Nat
  /-- Completion records that the runtime has consumed by each coming acceptance or completion; when the list ends, all
  of them (R295). -/
  reads  : List Nat
  /-- Staging slices that software has given to the contexts of launch queues (R284). -/
  slices : List (Nat × BitVec 6)
  /-- The devices that each coming event of R284 names as lost; when the list ends, every other device. -/
  partners : List (List Nat)
  /-- The free slots that other cores offer a node's context at each coming placement; when the list ends, none (R302). -/
  offers : List (List (Nat × Nat))
  /-- What strands of nodes on other cores do in each coming step: launch queue, node, and place in the node's list. -/
  away   : List (List (BitVec 6 × BitVec 32 × Nat × FarMove))
  /-- How other cores stand after each coming step, where that has changed. -/
  others : List (List (Nat × FarCore))
  /-- How the logs of other dies stand after each coming step, where that has changed. -/
  dies   : List (List (Nat × LogReport))
  /-- Set while a word whose partner was lost completes: the lost devices answer nothing and take nothing (R284). -/
  silent : Bool
deriving DecidableEq, Repr, Inhabited

/-- A word that had begun when its strand slot was freed, and runs to its end (R228, R323): the slot and the strand as it
was, with the words that had begun. -/
structure Orphan where
  slot   : Fin 4
  strand : Strand
deriving DecidableEq, Repr, Inhabited

/-- The machine. -/
structure State where
  strands  : Vector Strand 4
  /-- The strand whose turn it is. -/
  cur      : Fin 4
  /-- The strand that each engine served last, by engine number (R49, R50). -/
  served   : Vector (Fin 4) 8
  orphans  : List Orphan
  matrix   : MatrixEngine
  line     : LineEngine
  codebook : BitVec 8192
  /-- Every memory, in one address space (`Place`), sorted, no entry equal to 0. -/
  mem      : List Host.Cell
  /-- Full granules (R209), sorted; granule g is places 16g … 16g + 15. -/
  full     : List Nat
  /-- Poisoned on-chip granules (R209), sorted. -/
  poison   : List Nat
  /-- Main-memory lines whose poison differs from that of their channel (R318, R327), sorted. -/
  linePoison : List Nat
  near     : List NearLine
  /-- Lines that have left the near buffer onto a Casusk link and not reached their controller, oldest first (R277). -/
  links    : List NearLine
  /-- Accesses of the core that wait on full-empty bits (R210). -/
  waiters  : List Waiter
  retries  : BitVec 32
  drains   : BitVec 16
  /-- Instruction-cache lines by physical line number (R38, R39). -/
  icache   : List (Nat × BitVec 512)
  trace    : List TraceRec
  traceLost : Bool
  /-- Faults that MCHK armed, by class (R335). -/
  armed    : List (BitVec 3)
  coreCtx  : Option Root
  now      : BitVec 64
  /-- The core's main-clock cycle counter (R50). -/
  cycle    : Nat
  sys      : System
  env      : Env
  /-- Counter of the free values (Config). -/
  nfree    : Nat
  /-- Steps taken: the order in which waiting accesses began to wait (R210). -/
  ticks    : Nat
deriving DecidableEq, Repr, Inhabited

/-- Why the machine stops with a fault. -/
inductive Fault where
  /-- An access reached a main-memory address at or above the 768 GiB that a device holds (R1, R206): the spec says
  no such memory exists and gives no response.  Raised by the main-memory operations.  Safe: the machine stops. -/
  | absentMainMemory
deriving DecidableEq, Repr, Inhabited

/-- Why the machine refuses. -/
inductive Refusal where
  /-- An instruction without a meaning yet.  Raised by `exec` alone.  Safe: the machine stops. -/
  | notModelled (mnemonic : String)
deriving DecidableEq, Repr, Inhabited

/-! ## Reset -/

/-- A handle in state empty with all other fields zero (R229). -/
def Handle.none : Handle := ⟨.empty, false, 0, false, false, 0, 0, 0⟩

/-- The quantiser configuration at launch: E4M3, LANE, RNE, sat 0, D 0 (R106). -/
def QCfg.launch : QCfg := ⟨7, 0, 0, 0, 0⟩

/-- An inactive loop level.  (DESIGN CHOICE: assumption 2.) -/
def Loop.idle : Loop := ⟨false, 0, 0, 0, 0, false, false, Vector.replicate 8 0⟩

/-- A register as R101 gives it at launch: tag NONE, zero data, zero sidecar, clear poison. -/
def VReg.launch : VReg := ⟨0, 0, 0, false⟩

/-- A free strand slot, with the registers at the entry state of R305 for a task of entry 0 and args 0.
(DESIGN CHOICE: assumption 2.) -/
def Strand.launch : Strand where
  placed := none
  ident := 0
  pc := 0
  s := Vector.replicate 32 0
  p := (Vector.replicate 8 false).set 0 true
  b := Vector.replicate 4 0
  a := Vector.replicate 8 ⟨0, 0, 0⟩
  h := Vector.replicate 16 Handle.none
  v := Vector.replicate 64 VReg.launch
  m := (Vector.replicate 8 0).set 0 0xFFFFFFFF
  act := 0
  q := Vector.replicate 16 0
  qv := Vector.replicate 4 0
  qcfg := QCfg.launch
  rstack := []
  loops := Vector.replicate 6 Loop.idle
  xfer := none
  exposed := true
  fmttrap := true
  fpflags := 0
  qflags := 0
  trapvec := 0
  trapframe := 0
  trapcause := 0
  trapdata := 0
  intrap := false
  priv := false
  groups := Vector.replicate 4 0xFF
  members := Vector.replicate 4 ⟨false, false, false⟩
  root := ⟨0, 20, 0⟩
  latch := false
  wsat := false
  slots := Vector.replicate 4 ⟨0, false, none⟩
  copyIssued := 0
  copyDone := 0
  netIssued := 0
  netDone := 0
  copyLate := []
  netLate := []
  lostCopy := false
  lostNet := false
  lostScalar := false
  triggered := false
  queue := []
  gather := []
  moving := []
  storing := none
  inject := []
  returning := none
  heldS := 0
  heldP := 0
  heldH := 0
  trns := []
  vslot := 0
  flight := []
  lastInterlocked := false
  drainDue := false
  passing := false
  sleeping := none
  atSplit := none
  trcs := []

/-- A plane at reset (R154): zero elements with exponents 0, format B8, dense, no poison. -/
def Plane.reset : Plane := ⟨.b8, false, Vector.replicate 128 0, Vector.replicate 128 0, Vector.replicate 4 0, Vector.replicate 8 0, 0⟩

/-- A tile: zero, tag NONE (R174: op 0 gives the same). -/
def Tile.clear : Tile := ⟨Vector.replicate 32 0, 0, false, false⟩

/-- The matrix engine at reset (R154, R155, R175). -/
def MatrixEngine.reset : MatrixEngine :=
  ⟨Vector.replicate 8 ⟨Plane.reset, Plane.reset, 0⟩, Vector.replicate 16 Tile.clear, 0, none,
    Vector.replicate 16 0xF, none, Vector.replicate 4 0, 0⟩

/-- A core at reset, with nothing placed on it. -/
def FarCore.reset : FarCore :=
  ⟨Vector.replicate 4 none, MatrixEngine.reset, ⟨[], [], [], [], [], false⟩, 0, none, 0, 0⟩

/-- The line engine at reset: every record empty, NONE, +0, 0; list empty; OVF clear (R181). -/
def LineEngine.reset : LineEngine := ⟨[], [], [], [], [], false⟩

/-- The package's state at reset, before boot.  (DESIGN CHOICE: assumption 3.) -/
def System.reset : System where
  device := 0
  devices := 1
  gcore := 0
  queues := []
  nodes := []
  nextOrder := 0
  experts := []
  nextStrand := 1
  log := []
  logLost := false
  ceCount := 0
  invNext := 1
  invs := []
  boot := ⟨none, none, none, false, []⟩
  clock := { locked := false, slew := 0, grandmaster := false, placing := false, carry := 0, holdover := 10000000000
             ptp := ⟨0, false, false⟩ }
  energy := { interval := 10000000, budget := 0, next := none, remaining := 0, begun := 0, taken := 0
              gone := Vector.replicate 4 0, meter := Vector.replicate 4 0, io := 0
              hbm := 0, serdes := 0 }
  selfRefresh := []
  stalled := []
  holding := []
  cores := []
  bankErrors := []
  deadChannels := []
  keys := []
  ciphers := []
  dieLogs := []
  saved := []
  remoteWaits := []
  replies := []
  summaries := []
  attestations := []
  abandonSent := []
  delivered := []

/-- The environment with nothing in it. -/
def Env.quiet : Env where
  inputs := []
  pace := []
  turns := []
  busy := []
  evict := []
  soft := []
  upsets := []
  stray := []
  pieces := []
  arrive := []
  reads := []
  slices := []
  partners := []
  offers := []
  away := []
  others := []
  dies := []
  silent := false

/-- The machine right after reset: no strand placed, memories as R209 leaves them, Encke time 0 (R337).
(DESIGN CHOICE: assumption 1, DESIGN CHOICE: assumption 17.) -/
def State.reset : State where
  strands := Vector.replicate 4 Strand.launch
  cur := 0
  served := Vector.replicate 8 3
  orphans := []
  matrix := MatrixEngine.reset
  line := LineEngine.reset
  codebook := 0
  mem := []
  full := []
  poison := []
  linePoison := []
  near := []
  links := []
  waiters := []
  retries := 0
  drains := 0
  icache := []
  trace := []
  traceLost := false
  armed := []
  coreCtx := none
  now := 0
  cycle := 0
  sys := System.reset
  env := Env.quiet
  nfree := 0
  ticks := 0

end Sys2Proof.Machine
end

