-- ==== Sys2Proof/Machine/Operands.lean ====
section
/-! DEFINITION. Operand forms: reading and writing the strand's registers (R37), the Advance operation (R74), the
registers each instruction names (R46), what it captures at split (R41, R250), and its engine class (R26). -/

namespace Sys2Proof.Machine

/-! ## Registers (R37, Table 1) -/

/-- S(r): S0 reads 0 (R37). -/
def Strand.getS (st : Strand) (r : BitVec 5) : BitVec 64 := if r = 0 then 0 else st.s[r.toNat]'r.isLt

/-- A write of S(r); a write of S0 is discarded (R37). -/
def Strand.setS (st : Strand) (r : BitVec 5) (v : BitVec 64) : Strand :=
  if r = 0 then st else { st with s := st.s.set r.toNat v r.isLt }

/-- P(r): P0 reads 1 (R37). -/
def Strand.getP (st : Strand) (r : BitVec 3) : Bool := if r = 0 then true else st.p[r.toNat]'r.isLt

/-- A write of P(r); a write of P0 is discarded (R37, R60). -/
def Strand.setP (st : Strand) (r : BitVec 3) (v : Bool) : Strand :=
  if r = 0 then st else { st with p := st.p.set r.toNat v r.isLt }

/-- B(r). -/
def Strand.getB (st : Strand) (r : BitVec 2) : BitVec 32 := st.b[r.toNat]'r.isLt

/-- A write of B(r). -/
def Strand.setB (st : Strand) (r : BitVec 2) (v : BitVec 32) : Strand := { st with b := st.b.set r.toNat v r.isLt }

/-- A(r). -/
def Strand.getA (st : Strand) (r : BitVec 3) : AReg := st.a[r.toNat]'r.isLt

/-- A write of A(r). -/
def Strand.setA (st : Strand) (r : BitVec 3) (v : AReg) : Strand := { st with a := st.a.set r.toNat v r.isLt }

/-- H(r). -/
def Strand.getH (st : Strand) (r : BitVec 4) : Handle := st.h[r.toNat]'r.isLt

/-- A write of H(r). -/
def Strand.setH (st : Strand) (r : BitVec 4) (v : Handle) : Strand := { st with h := st.h.set r.toNat v r.isLt }

/-- V(r) as a number, below 64. -/
def Strand.getV (st : Strand) (r : BitVec 6) : VReg := st.v[r.toNat]'r.isLt

/-- A write of V(r). -/
def Strand.setV (st : Strand) (r : BitVec 6) (v : VReg) : Strand := { st with v := st.v.set r.toNat v r.isLt }

/-- M(r). -/
def Strand.getM (st : Strand) (r : BitVec 3) : BitVec 32 := st.m[r.toNat]'r.isLt

/-- A write of M(r). -/
def Strand.setM (st : Strand) (r : BitVec 3) (v : BitVec 32) : Strand := { st with m := st.m.set r.toNat v r.isLt }

/-- The number of active loop levels (R66, R83). -/
def Strand.depth (st : Strand) : Nat := (st.loops.toList.filter (·.active)).length

/-- The number of the innermost active loop level, the highest of those that are active (R68). -/
def Strand.innermostLevel (st : Strand) : Option (Fin 6) := (List.finRange 6).reverse.find? fun i => st.loops[i].active

/-- The innermost active loop level. -/
def Strand.innermost (st : Strand) : Option Loop := st.innermostLevel.map fun i => st.loops[i]

/-- The vector timing mode of a word split now: that of the innermost active level, else MODE.exposed (R51). -/
def Strand.interlocked (st : Strand) : Bool :=
  match st.innermost with
  | some l => l.interlocked
  | none => !st.exposed

/-! ## Address registers (R74) -/

/-- The address register advanced by d bytes (R74). -/
def AReg.advance (a : AReg) (d : Int) : AReg :=
  if a.len = 0 then { a with addr := a.addr + BitVec.ofInt 32 d }
  else { a with addr := a.base + BitVec.ofInt 32 ((((a.addr.toNat : Int) - a.base.toNat + d) % a.len.toNat)) }

/-- A(r) ← Advance(A(r), d). -/
def Strand.advA (st : Strand) (r : BitVec 3) (d : Int) : Strand := st.setA r ((st.getA r).advance d)

/-- The ring that CWIN captures: address, base and length (R222, R250). -/
def Strand.ringCap (st : Strand) (r : BitVec 3) : Cap :=
  .ring (st.getA r).addr (st.getA r).base (st.getA r).len

/-! ## Named registers -/

/-- The S, P and H registers an instruction reads and writes. -/
structure Uses where
  sr : List (BitVec 5)
  sw : List (BitVec 5)
  pr : List (BitVec 3)
  pw : List (BitVec 3)
  hr : List (BitVec 4)
  hw : List (BitVec 4)
deriving DecidableEq, Repr, Inhabited

/-- The registers of two words together (a CPYM with its follow-on). -/
def Uses.join (a b : Uses) : Uses :=
  ⟨a.sr ++ b.sr, a.sw ++ b.sw, a.pr ++ b.pr, a.pw ++ b.pw, a.hr ++ b.hr, a.hw ++ b.hw⟩

end Sys2Proof.Machine

namespace Sys2Proof

open Machine

/-! ## Engine classes (R26, R264) -/

/-- The class of a word: 0 scalar (engines 0 and 6), 1 vector, 2 matrix, 3 quantiser, 4 line, 5 copy, 6 network. -/
def Instr.cls : Instr → BitVec 3
  | .cgath .. => 6
  | .cscat .. => 6
  | i => match i.eng with
    | some .vector => 1
    | some .matrix => 2
    | some .quantiser => 3
    | some .line => 4
    | some .copy => 5
    | _ => 0

/-- A word of the copy class, which takes a copy sequence number (R220): neither SREC nor CSEQ. -/
def Instr.copyNumbered (i : Instr) : Bool :=
  decide (i.eng = some .copy) && decide (i.mnemonic ∉ ["CGATH", "CSCAT", "SREC", "CSEQ"])

/-- A word of the network class (R220). -/
def Instr.netNumbered (i : Instr) : Bool := decide (i.mnemonic ∈ ["CGATH", "CSCAT"])

/-- The registers an instruction names (R40, R46, R57-R83 and the layouts of every engine). -/
def Instr.uses : Instr → Uses
  | .nop _ => ⟨[], [], [], [], [], []⟩
  | .add _ d a b => ⟨[a, b], [d], [], [], [], []⟩
  | .sub _ d a b => ⟨[a, b], [d], [], [], [], []⟩
  | .and _ d a b => ⟨[a, b], [d], [], [], [], []⟩
  | .or _ d a b => ⟨[a, b], [d], [], [], [], []⟩
  | .xor _ d a b => ⟨[a, b], [d], [], [], [], []⟩
  | .shl _ d a b => ⟨[a, b], [d], [], [], [], []⟩
  | .shr _ d a b => ⟨[a, b], [d], [], [], [], []⟩
  | .sra _ d a b => ⟨[a, b], [d], [], [], [], []⟩
  | .mul _ d a b => ⟨[a, b], [d], [], [], [], []⟩
  | .mulh _ d a b => ⟨[a, b], [d], [], [], [], []⟩
  | .mulhu _ d a b => ⟨[a, b], [d], [], [], [], []⟩
  | .min _ d a b => ⟨[a, b], [d], [], [], [], []⟩
  | .max _ d a b => ⟨[a, b], [d], [], [], [], []⟩
  | .minu _ d a b => ⟨[a, b], [d], [], [], [], []⟩
  | .maxu _ d a b => ⟨[a, b], [d], [], [], [], []⟩
  | .addi _ d a _ => ⟨[a], [d], [], [], [], []⟩
  | .andi _ d a _ => ⟨[a], [d], [], [], [], []⟩
  | .ori _ d a _ => ⟨[a], [d], [], [], [], []⟩
  | .xori _ d a _ => ⟨[a], [d], [], [], [], []⟩
  | .shli _ d a _ => ⟨[a], [d], [], [], [], []⟩
  | .shri _ d a _ => ⟨[a], [d], [], [], [], []⟩
  | .srai _ d a _ => ⟨[a], [d], [], [], [], []⟩
  | .movi _ d _ => ⟨[], [d], [], [], [], []⟩
  | .insh0 _ d _ => ⟨[d], [d], [], [], [], []⟩
  | .insh1 _ d _ => ⟨[d], [d], [], [], [], []⟩
  | .insh2 _ d _ => ⟨[d], [d], [], [], [], []⟩
  | .insh3 _ d _ => ⟨[d], [d], [], [], [], []⟩
  | .popc _ d a => ⟨[a], [d], [], [], [], []⟩
  | .clz _ d a => ⟨[a], [d], [], [], [], []⟩
  | .cmp _ pd a b _ => ⟨[a, b], [], [], [pd], [], []⟩
  | .cmpi _ pd a _ _ => ⟨[a], [], [], [pd], [], []⟩
  | .plog _ pd pa pb _ => ⟨[], [], [pa, pb], [pd], [], []⟩
  | .sel _ d a b p => ⟨[a, b], [d], [p], [], [], []⟩
  | .pbr _ _ _ => ⟨[], [], [], [], [], []⟩
  | .pbrr _ _ a => ⟨[a], [], [], [], [], []⟩
  | .br _ _ p _ => ⟨[], [], [p], [], [], []⟩
  | .call _ _ p _ => ⟨[], [], [p], [], [], []⟩
  | .ret _ p _ => ⟨[], [], [p], [], [], []⟩
  | .loop _ _ sc _ _ => ⟨[sc], [], [], [], [], []⟩
  | .lstr _ _ _ sb => ⟨[sb], [], [], [], [], []⟩
  | .lbrk _ p _ => ⟨[], [], [p], [], [], []⟩
  | .ldsW _ r _ _ _ _ => ⟨[], [r], [], [], [], []⟩
  | .ldsD _ r _ _ _ _ => ⟨[], [r], [], [], [], []⟩
  | .stsW _ r _ _ _ _ => ⟨[r], [], [], [], [], []⟩
  | .stsD _ r _ _ _ _ => ⟨[r], [], [], [], [], []⟩
  | .ldg _ r h sb _ => ⟨[sb], [r], [], [], [h], []⟩
  | .stg _ r h sb _ => ⟨[r, sb], [], [], [], [h], []⟩
  | .amov _ _ sa sb => ⟨[sa, sb], [], [], [], [], []⟩
  | .ainc _ _ _ => ⟨[], [], [], [], [], []⟩
  | .csrr _ r _ => ⟨[], [r], [], [], [], []⟩
  | .csrw _ r _ => ⟨[r], [], [], [], [], []⟩
  | .rsbottomRead _ r => ⟨[], [r], [], [], [], []⟩
  | .rsbottomWrite _ r => ⟨[r], [], [], [], [], []⟩
  | .getid _ d _ => ⟨[], [d], [], [], [], []⟩
  | .time _ d => ⟨[], [d], [], [], [], []⟩
  | .vfadd _ _ _ _ => ⟨[], [], [], [], [], []⟩
  | .vfsub _ _ _ _ => ⟨[], [], [], [], [], []⟩
  | .vfmul _ _ _ _ => ⟨[], [], [], [], [], []⟩
  | .vfma _ _ _ _ => ⟨[], [], [], [], [], []⟩
  | .vfms _ _ _ _ => ⟨[], [], [], [], [], []⟩
  | .vfnma _ _ _ _ => ⟨[], [], [], [], [], []⟩
  | .vfmin _ _ _ _ => ⟨[], [], [], [], [], []⟩
  | .vfmax _ _ _ _ => ⟨[], [], [], [], [], []⟩
  | .vfsgn _ _ _ _ _ => ⟨[], [], [], [], [], []⟩
  | .vfdiv _ _ _ _ => ⟨[], [], [], [], [], []⟩
  | .vfsqrt _ _ _ => ⟨[], [], [], [], [], []⟩
  | .vfun _ _ _ _ => ⟨[], [], [], [], [], []⟩
  | .vadd _ _ _ _ _ => ⟨[], [], [], [], [], []⟩
  | .vsub _ _ _ _ _ => ⟨[], [], [], [], [], []⟩
  | .vmul _ _ _ _ => ⟨[], [], [], [], [], []⟩
  | .vmulh _ _ _ _ _ => ⟨[], [], [], [], [], []⟩
  | .vand _ _ _ _ => ⟨[], [], [], [], [], []⟩
  | .vor _ _ _ _ => ⟨[], [], [], [], [], []⟩
  | .vxor _ _ _ _ => ⟨[], [], [], [], [], []⟩
  | .vshl _ _ _ _ => ⟨[], [], [], [], [], []⟩
  | .vshr _ _ _ _ => ⟨[], [], [], [], [], []⟩
  | .vsra _ _ _ _ => ⟨[], [], [], [], [], []⟩
  | .vmin _ _ _ _ _ => ⟨[], [], [], [], [], []⟩
  | .vmax _ _ _ _ _ => ⟨[], [], [], [], [], []⟩
  | .vfops _ _ _ sb _ => ⟨[sb], [], [], [], [], []⟩
  | .viops _ _ _ sb _ => ⟨[sb], [], [], [], [], []⟩
  | .vfcmp _ _ _ _ _ => ⟨[], [], [], [], [], []⟩
  | .vcmp _ _ _ _ _ => ⟨[], [], [], [], [], []⟩
  | .vmlog _ _ _ _ _ => ⟨[], [], [], [], [], []⟩
  | .vact _ _ => ⟨[], [], [], [], [], []⟩
  | .vany _ pd _ => ⟨[], [], [], [pd], [], []⟩
  | .vall _ pd _ => ⟨[], [], [], [pd], [], []⟩
  | .vmpop _ d _ => ⟨[], [d], [], [], [], []⟩
  | .vsel _ _ _ _ _ => ⟨[], [], [], [], [], []⟩
  | .vfred _ _ _ sb fn => ⟨[], if fn.getLsbD 3 then [sb] else [], [], [], [], []⟩
  | .vred _ _ _ sb fn => ⟨[], if fn.getLsbD 3 then [sb] else [], [], [], [], []⟩
  | .vfscan _ _ _ _ => ⟨[], [], [], [], [], []⟩
  | .vbcs _ _ sb _ => ⟨[sb], [], [], [], [], []⟩
  | .vbcl _ _ _ sb => ⟨[sb], [], [], [], [], []⟩
  | .vperm _ _ _ _ => ⟨[], [], [], [], [], []⟩
  | .vrot _ _ _ sb _ => ⟨[sb], [], [], [], [], []⟩
  | .vext _ _ _ sb _ => ⟨[], [sb], [], [], [], []⟩
  | .vins _ _ _ sb => ⟨[sb], [], [], [], [], []⟩
  | .vmov _ _ _ => ⟨[], [], [], [], [], []⟩
  | .vmovMaskToReg _ _ _ => ⟨[], [], [], [], [], []⟩
  | .vmovRegToMask _ _ _ => ⟨[], [], [], [], [], []⟩
  | .vmovi _ _ _ => ⟨[], [], [], [], [], []⟩
  | .viota _ _ _ => ⟨[], [], [], [], [], []⟩
  | .vcvt _ _ _ _ _ _ => ⟨[], [], [], [], [], []⟩
  | .vtag _ _ _ _ => ⟨[], [], [], [], [], []⟩
  | .vamo _ _ _ _ _ _ _ _ _ => ⟨[], [], [], [], [], []⟩
  | .vld _ _ _ _ _ _ _ => ⟨[], [], [], [], [], []⟩
  | .vst _ _ _ _ _ _ _ => ⟨[], [], [], [], [], []⟩
  | .vldx _ _ _ _ _ _ _ _ => ⟨[], [], [], [], [], []⟩
  | .vstx _ _ _ _ _ _ _ _ => ⟨[], [], [], [], [], []⟩
  | .vldl _ _ _ _ _ _ _ => ⟨[], [], [], [], [], []⟩
  | .vstl _ _ _ _ _ _ _ => ⟨[], [], [], [], [], []⟩
  | .mcfg _ _ => ⟨[], [], [], [], [], []⟩
  | .mldw _ _ _ _ _ _ _ _ _ _ => ⟨[], [], [], [], [], []⟩
  | .mldws _ _ _ _ _ _ _ _ _ _ => ⟨[], [], [], [], [], []⟩
  | .mswap _ _ _ => ⟨[], [], [], [], [], []⟩
  | .mmul _ _ _ _ _ _ _ _ _ _ _ _ => ⟨[], [], [], [], [], []⟩
  | .mrd _ _ _ _ _ _ _ _ => ⟨[], [], [], [], [], []⟩
  | .mrdv _ _ _ _ => ⟨[], [], [], [], [], []⟩
  | .mclr _ _ d _ => ⟨[], [d], [], [], [], []⟩
  | .mpois _ _ => ⟨[], [], [], [], [], []⟩
  | .mrdk _ _ _ sk => ⟨[sk], [], [], [], [], []⟩
  | .mwrk _ _ _ sk => ⟨[sk], [], [], [], [], []⟩
  | .mslot _ sa _ => ⟨[sa], [], [], [], [], []⟩
  | .qcfg _ _ _ _ _ _ => ⟨[], [], [], [], [], []⟩
  | .qstv _ _ _ _ _ sb _ => ⟨[sb], [], [], [], [], []⟩
  | .qstt _ _ _ _ sb _ _ _ _ _ => ⟨[sb], [], [], [], [], []⟩
  | .qscl _ d sa => ⟨[sa], [d], [], [], [], []⟩
  | .qrld _ _ _ _ _ _ _ _ => ⟨[], [], [], [], [], []⟩
  | .qrst _ _ _ _ _ _ _ _ => ⟨[], [], [], [], [], []⟩
  | .qrclr _ _ _ => ⟨[], [], [], [], [], []⟩
  | .qrmov _ _ _ _ => ⟨[], [], [], [], [], []⟩
  | .qflg _ d _ => ⟨[], [d], [], [], [], []⟩
  | .lntol _ _ sb => ⟨[sb], [], [], [], [], []⟩
  | .lnfit _ _ _ _ _ => ⟨[], [], [], [], [], []⟩
  | .lnld _ sf _ _ _ _ => ⟨[sf], [], [], [], [], []⟩
  | .lnst _ sf _ _ _ => ⟨[sf], [], [], [], [], []⟩
  | .lnstTable _ _ _ _ => ⟨[], [], [], [], [], []⟩
  | .lnchk _ _ _ _ _ _ => ⟨[], [], [], [], [], []⟩
  | .lnapl _ _ _ _ _ _ => ⟨[], [], [], [], [], []⟩
  | .lncor _ _ _ _ _ _ => ⟨[], [], [], [], [], []⟩
  | .lnrfl _ d _ _ _ => ⟨[], [d], [], [], [], []⟩
  | .lncnt _ _ _ _ => ⟨[], [], [], [], [], []⟩
  | .lnclrCounts _ _ => ⟨[], [], [], [], [], []⟩
  | .lnclrList _ => ⟨[], [], [], [], [], []⟩
  | .lnclrLines _ _ => ⟨[], [], [], [], [], []⟩
  | .lnfold _ _ _ sf _ _ => ⟨[sf], [], [], [], [], []⟩
  | .srec _ _ _ _ => ⟨[], [], [], [], [], []⟩
  | .cpyLinear _ _ _ _ _ sn _ _ => ⟨[sn], [], [], [], [], []⟩
  | .cpyPattern _ _ _ h _ _ => ⟨[], [], [], [], [h, h ^^^ 1], []⟩
  | .cpymLinear _ _ _ _ _ sn _ _ follow => Uses.join ⟨[sn], [], [], [], [], []⟩ follow.uses
  | .cpymPattern _ _ _ h _ _ follow => Uses.join ⟨[], [], [], [], [h, h ^^^ 1], []⟩ follow.uses
  | .cwin _ _ _ _ h sw sr => ⟨[sw, sr], [], [], [], [h], []⟩
  | .cadv _ _ sn h nh => ⟨[sn], [], [], [], if nh = 1 then [h] else [], []⟩
  | .cgath _ _ _ _ _ sn _ _ _ => ⟨[sn], [], [], [], [], []⟩
  | .cscat _ _ _ _ _ sn _ _ _ => ⟨[sn], [], [], [], [], []⟩
  | .cred _ _ _ _ _ sn _ _ _ => ⟨[sn], [], [], [], [], []⟩
  | .cvqxBook _ _ _ _ => ⟨[], [], [], [], [], []⟩
  | .cvqxExpand _ _ _ _ _ sn _ _ => ⟨[sn], [], [], [], [], []⟩
  | .sisect _ d sp se _ _ _ h _ _ _ _ => ⟨[sp, sp + 1, se, se + 1], [d, sp, sp + 1], [], [], [h, h ^^^ 1], []⟩
  | .cseq _ d _ _ => ⟨[], [d], [], [], [], []⟩
  | .fence _ _ => ⟨[], [], [], [], [], []⟩
  | .xfence _ _ _ _ => ⟨[], [], [], [], [], []⟩
  | .ldaq _ r _ _ _ _ _ => ⟨[], [r], [], [], [], []⟩
  | .ldaqHandle _ r _ h sb _ => ⟨[sb], [r], [], [], [h], []⟩
  | .strl _ r _ _ _ _ _ => ⟨[r], [], [], [], [], []⟩
  | .strlHandle _ r _ h sb _ => ⟨[r, sb], [], [], [], [h], []⟩
  | .amo _ d g _ loc _ _ sc _ => ⟨(if g = 1 then [loc.extractLsb' 0 5] else []) ++ [sc], [d], [], [], if g = 1 then [loc.extractLsb' 5 4] else [], []⟩
  | .cas _ d g _ loc _ _ sc sn => ⟨(if g = 1 then [loc.extractLsb' 0 5] else []) ++ [sc, sn], [d], [], [], if g = 1 then [loc.extractLsb' 5 4] else [], []⟩
  | .bar _ _ d _ => ⟨[], [d], [], [], [], []⟩
  | .waitseq _ d sa _ _ => ⟨[sa], [d], [], [], [], []⟩
  | .wfe _ => ⟨[], [], [], [], [], []⟩
  | .sev _ _ _ _ _ => ⟨[], [], [], [], [], []⟩
  | .slpat _ sa => ⟨[sa], [], [], [], [], []⟩
  | .trn _ h sa => ⟨[sa], [], [], [], [], [h]⟩
  | .probe _ h sa _ => ⟨[sa], [], [], [], [], [h]⟩
  | .hvld _ pd h d => ⟨[], [d], [], [pd], [h], []⟩
  | .trig _ => ⟨[], [], [], [], [], []⟩
  | .exit _ => ⟨[], [], [], [], [], []⟩
  | .trap _ _ => ⟨[], [], [], [], [], []⟩
  | .eret _ => ⟨[], [], [], [], [], []⟩
  | .task _ d _ _ sq => ⟨[sq], [d], [], [], [], []⟩
  | .tokq _ d sq st => ⟨[sq, st], [d], [], [], [], []⟩
  | .trc _ sa sb _ => ⟨[sa, sb], [], [], [], [], []⟩
  | .drain _ _ => ⟨[], [], [], [], [], []⟩
  | .invqIssue _ d sa sb => ⟨[sa, sb], [d], [], [], [], []⟩
  | .invqAck _ d => ⟨[], [d], [], [], [], []⟩
  | .mchkPop _ d h sb _ => ⟨[sb], [d], [], [], [h], []⟩
  | .mchkInject _ _ => ⟨[], [], [], [], [], []⟩
  | .ctxsvStrand _ d sa h sb => ⟨[sa, sb], [d], [], [], [h], []⟩
  | .ctxsvCore _ d sa h sb => ⟨[sa, sb], [d], [], [], [h], []⟩
  | .ctxldStrand _ d sa h sb => ⟨[sa, sb], [d], [], [], [h], []⟩
  | .ctxldCore _ d sa h sb => ⟨[sa, sb], [d], [], [], [h], []⟩
  | .slotTableApply => ⟨[], [], [], [], [], []⟩
  | .slotBoundary => ⟨[], [], [], [], [], []⟩
  | .sleepDeadline => ⟨[], [], [], [], [], []⟩
  | .trnResultLands _ _ => ⟨[], [], [], [], [], []⟩
  | .invalidateBroadcast => ⟨[], [], [], [], [], []⟩
  | .invalidateAcknowledge => ⟨[], [], [], [], [], []⟩
  | .trapEntry _ => ⟨[], [], [], [], [], []⟩
  | .fatalContextError _ _ => ⟨[], [], [], [], [], []⟩
  | .machineCheck _ => ⟨[], [], [], [], [], []⟩
  | .fullEmptyWake => ⟨[], [], [], [], [], []⟩
  | .nearBufferDrain => ⟨[], [], [], [], [], []⟩
  | .nearBufferForcedDrain => ⟨[], [], [], [], [], []⟩
  | .remoteRequest _ => ⟨[], [], [], [], [], []⟩
  | .retryReissue => ⟨[], [], [], [], [], []⟩
  | .partnerLost _ _ => ⟨[], [], [], [], [], []⟩
  | .reset _ => ⟨[], [], [], [], [], []⟩
  | .recoveryImage _ _ => ⟨[], [], [], [], [], []⟩
  | .launchDoorbell _ _ => ⟨[], [], [], [], [], []⟩
  | .taskRecordLaunch _ => ⟨[], [], [], [], [], []⟩
  | .releaseHeldNode _ => ⟨[], [], [], [], [], []⟩
  | .cancelHeldNode _ => ⟨[], [], [], [], [], []⟩
  | .configureExpertQueue _ => ⟨[], [], [], [], [], []⟩
  | .nodePlacement _ => ⟨[], [], [], [], [], []⟩
  | .nodeCompletion _ => ⟨[], [], [], [], [], []⟩
  | .expertQueueTimeout _ => ⟨[], [], [], [], [], []⟩
  | .expertQueueFire _ => ⟨[], [], [], [], [], []⟩
  | .energyIntegration => ⟨[], [], [], [], [], []⟩
  | .energyIntervalStart => ⟨[], [], [], [], [], []⟩
  | .energyConfig _ _ => ⟨[], [], [], [], [], []⟩
  | .stateSummary _ => ⟨[], [], [], [], [], []⟩
  | .ptpMessage _ => ⟨[], [], [], [], [], []⟩
  | .holdoverExpiry => ⟨[], [], [], [], [], []⟩
  | .traceRecordMove => ⟨[], [], [], [], [], []⟩
  | .hbmParityAlert _ _ _ _ _ => ⟨[], [], [], [], [], []⟩
  | .hbmScrub _ => ⟨[], [], [], [], [], []⟩
  | .criticalTemperature _ => ⟨[], [], [], [], [], []⟩
  | .selfRefreshExit _ => ⟨[], [], [], [], [], []⟩
  | .stallReport _ => ⟨[], [], [], [], [], []⟩
  | .launchQueueBinding _ _ => ⟨[], [], [], [], [], []⟩
  | .abandonFlitArrival _ _ => ⟨[], [], [], [], [], []⟩
  | .noBetterClockAnnounced => ⟨[], [], [], [], [], []⟩
  | .attestationReport => ⟨[], [], [], [], [], []⟩

/-- The values captured at split (R41), in the order of the frame (R250): the fields in layout order, then the
exponent address, the second handle, the time and the issued counter.  `blk` says that the quantiser configuration
under which the word will run has a block target.  (DEDUCED: assumption 50.) -/
def Instr.capture (i : Instr) (str : Strand) (now : BitVec 64) (blk : Bool) : List Cap :=
  match i with
  | .nop _ => []
  | .add _ _ _ _ => []
  | .sub _ _ _ _ => []
  | .and _ _ _ _ => []
  | .or _ _ _ _ => []
  | .xor _ _ _ _ => []
  | .shl _ _ _ _ => []
  | .shr _ _ _ _ => []
  | .sra _ _ _ _ => []
  | .mul _ _ _ _ => []
  | .mulh _ _ _ _ => []
  | .mulhu _ _ _ _ => []
  | .min _ _ _ _ => []
  | .max _ _ _ _ => []
  | .minu _ _ _ _ => []
  | .maxu _ _ _ _ => []
  | .addi _ _ _ _ => []
  | .andi _ _ _ _ => []
  | .ori _ _ _ _ => []
  | .xori _ _ _ _ => []
  | .shli _ _ _ _ => []
  | .shri _ _ _ _ => []
  | .srai _ _ _ _ => []
  | .movi _ _ _ => []
  | .insh0 _ _ _ => []
  | .insh1 _ _ _ => []
  | .insh2 _ _ _ => []
  | .insh3 _ _ _ => []
  | .popc _ _ _ => []
  | .clz _ _ _ => []
  | .cmp _ _ _ _ _ => []
  | .cmpi _ _ _ _ _ => []
  | .plog _ _ _ _ _ => []
  | .sel _ _ _ _ _ => []
  | .pbr _ _ _ => []
  | .pbrr _ _ _ => []
  | .br _ _ _ _ => []
  | .call _ _ _ _ => []
  | .ret _ _ _ => []
  | .loop _ _ _ _ _ => []
  | .lstr _ _ _ _ => []
  | .lbrk _ _ _ => []
  | .ldsW _ _ _ _ _ _ => []
  | .ldsD _ _ _ _ _ _ => []
  | .stsW _ _ _ _ _ _ => []
  | .stsD _ _ _ _ _ _ => []
  | .ldg _ _ _ _ _ => []
  | .stg _ _ _ _ _ => []
  | .amov _ _ _ _ => []
  | .ainc _ _ _ => []
  | .csrr _ _ _ => []
  | .csrw _ _ _ => []
  | .rsbottomRead _ _ => []
  | .rsbottomWrite _ _ => []
  | .getid _ _ _ => []
  | .time _ _ => []
  | .vfadd _ _ _ _ => []
  | .vfsub _ _ _ _ => []
  | .vfmul _ _ _ _ => []
  | .vfma _ _ _ _ => []
  | .vfms _ _ _ _ => []
  | .vfnma _ _ _ _ => []
  | .vfmin _ _ _ _ => []
  | .vfmax _ _ _ _ => []
  | .vfsgn _ _ _ _ _ => []
  | .vfdiv _ _ _ _ => []
  | .vfsqrt _ _ _ => []
  | .vfun _ _ _ _ => []
  | .vadd _ _ _ _ _ => []
  | .vsub _ _ _ _ _ => []
  | .vmul _ _ _ _ => []
  | .vmulh _ _ _ _ _ => []
  | .vand _ _ _ _ => []
  | .vor _ _ _ _ => []
  | .vxor _ _ _ _ => []
  | .vshl _ _ _ _ => []
  | .vshr _ _ _ _ => []
  | .vsra _ _ _ _ => []
  | .vmin _ _ _ _ _ => []
  | .vmax _ _ _ _ _ => []
  | .vfops _ _ _ sb _ => [.s (str.getS sb)]
  | .viops _ _ _ sb _ => [.s (str.getS sb)]
  | .vfcmp _ _ _ _ _ => []
  | .vcmp _ _ _ _ _ => []
  | .vmlog _ _ _ _ _ => []
  | .vact _ _ => []
  | .vany _ _ _ => []
  | .vall _ _ _ => []
  | .vmpop _ _ _ => []
  | .vsel _ _ _ _ _ => []
  | .vfred _ _ _ _ _ => []
  | .vred _ _ _ _ _ => []
  | .vfscan _ _ _ _ => []
  | .vbcs _ _ sb _ => [.s (str.getS sb)]
  | .vbcl _ _ _ sb => [.s (str.getS sb)]
  | .vperm _ _ _ _ => []
  | .vrot _ _ _ sb _ => [.s (str.getS sb)]
  | .vext _ _ _ _ _ => []
  | .vins _ _ _ sb => [.s (str.getS sb)]
  | .vmov _ _ _ => []
  | .vmovMaskToReg _ _ _ => []
  | .vmovRegToMask _ _ _ => []
  | .vmovi _ _ _ => []
  | .viota _ _ _ => []
  | .vcvt _ _ _ _ _ _ => []
  | .vtag _ _ _ _ => []
  | .vamo _ _ a _ _ _ _ _ _ => [.a (str.getA a).addr]
  | .vld _ _ a _ _ fmt _ => [.a (str.getA a).addr] ++ (if isBlockTag fmt then [.a (str.getA (a ^^^ 1)).addr] else [])
  | .vst _ _ a _ _ fmt _ => [.a (str.getA a).addr] ++ (if isBlockTag fmt then [.a (str.getA (a ^^^ 1)).addr] else [])
  | .vldx _ _ a _ _ _ _ _ => [.a (str.getA a).addr]
  | .vstx _ _ a _ _ _ _ _ => [.a (str.getA a).addr]
  | .vldl _ _ a _ _ _ _ => [.a (str.getA a).addr]
  | .vstl _ _ a _ _ _ _ => [.a (str.getA a).addr]
  | .mcfg _ _ => []
  | .mldw _ _ fmt a _ ae _ _ _ _ => [.a (str.getA a).addr] ++ (if isBlockTag fmt then [.a (str.getA ae).addr] else [])
  | .mldws _ _ _ a _ ae am _ _ _ => [.a (str.getA a).addr] ++ [.a (str.getA ae).addr] ++ [.a (str.getA am).addr]
  | .mswap _ _ _ => []
  | .mmul _ _ _ _ afmt _ _ _ a _ _ _ => [.a (str.getA a).addr] ++ (if isBlockTag afmt then [.a (str.getA (a ^^^ 1)).addr] else [])
  | .mrd _ _ _ _ a _ _ _ => [.a (str.getA a).addr]
  | .mrdv _ _ _ _ => []
  | .mclr _ _ _ _ => []
  | .mpois _ _ => []
  | .mrdk _ _ _ sk => [.s (str.getS sk)]
  | .mwrk _ _ _ sk => [.s (str.getS sk)]
  | .mslot _ sa _ => [.s (str.getS sa)]
  | .qcfg _ _ _ _ _ _ => []
  | .qstv _ a _ _ _ sb _ => [.a (str.getA a).addr] ++ [.s (str.getS sb)] ++ (if blk then [.a (str.getA (a ^^^ 1)).addr] else [])
  | .qstt _ _ _ _ sb _ a _ _ _ => [.s (str.getS sb)] ++ [.a (str.getA a).addr] ++ (if blk then [.a (str.getA (a ^^^ 1)).addr] else [])
  | .qscl _ _ sa => [.s (str.getS sa)]
  | .qrld _ _ _ a _ _ _ _ => [.a (str.getA a).addr]
  | .qrst _ _ _ a _ _ _ _ => [.a (str.getA a).addr]
  | .qrclr _ _ _ => []
  | .qrmov _ _ _ _ => []
  | .qflg _ _ _ => []
  | .lntol _ _ sb => [.s (str.getS sb)]
  | .lnfit _ _ _ _ _ => []
  | .lnld _ sf a _ _ _ => [.s (str.getS sf)] ++ [.a (str.getA a).addr]
  | .lnst _ sf a _ _ => [.s (str.getS sf)] ++ [.a (str.getA a).addr]
  | .lnstTable _ a _ _ => [.a (str.getA a).addr]
  | .lnchk _ _ _ _ _ _ => []
  | .lnapl _ _ _ _ _ _ => []
  | .lncor _ _ _ _ _ _ => []
  | .lnrfl _ _ a _ _ => [.a (str.getA a).addr]
  | .lncnt _ _ _ _ => []
  | .lnclrCounts _ _ => []
  | .lnclrList _ => []
  | .lnclrLines _ _ => []
  | .lnfold _ _ _ sf _ _ => [.s (str.getS sf)]
  | .srec _ _ a _ => [.a (str.getA a).addr]
  | .cpyLinear _ ad _ asrc _ sn _ _ => [.a (str.getA ad).addr] ++ [.a (str.getA asrc).addr] ++ [.s (str.getS sn)]
  | .cpyPattern _ _ _ h _ _ => [.h (str.getH h)] ++ [.h (str.getH (h ^^^ 1))]
  | .cpymLinear _ ad _ asrc _ sn _ _ _ => [.a (str.getA ad).addr] ++ [.a (str.getA asrc).addr] ++ [.s (str.getS sn)]
  | .cpymPattern _ _ _ h _ _ _ => [.h (str.getH h)] ++ [.h (str.getH (h ^^^ 1))]
  | .cwin _ _ a _ h sw sr => [str.ringCap a] ++ [.h (str.getH h)] ++ [.s (str.getS sw)] ++ [.s (str.getS sr)]
  | .cadv _ _ sn h nh => [.s (str.getS sn)] ++ (if nh = 1 then [.h (str.getH h)] else [])
  | .cgath _ a _ ai _ sn _ _ _ => [.a (str.getA a).addr] ++ [.a (str.getA ai).addr] ++ [.s (str.getS sn)]
  | .cscat _ a _ ai _ sn _ _ _ => [.a (str.getA a).addr] ++ [.a (str.getA ai).addr] ++ [.s (str.getS sn)]
  | .cred _ ad _ asrc _ sn _ _ _ => [.a (str.getA ad).addr] ++ [.a (str.getA asrc).addr] ++ [.s (str.getS sn)]
  | .cvqxBook _ asrc _ _ => [.a (str.getA asrc).addr]
  | .cvqxExpand _ ad _ asrc _ sn _ _ => [.a (str.getA ad).addr] ++ [.a (str.getA asrc).addr] ++ [.s (str.getS sn)]
  | .sisect _ _ sp se _ _ out h _ _ ao _ => [.s (str.getS sp), .s (str.getS (sp + 1))] ++ [.s (str.getS se), .s (str.getS (se + 1))] ++ [.h (str.getH h)] ++ (if out = 1 then [.a (str.getA ao).addr] else []) ++ [.h (str.getH (h ^^^ 1))]
  | .cseq _ _ cls which => (if which = 1 then [.n (if cls = 0 then str.copyIssued else str.netIssued)] else [])
  | .fence _ _ => []
  | .xfence _ _ _ _ => []
  | .ldaq _ _ _ a _ _ _ => [.a (str.getA a).addr]
  | .ldaqHandle _ _ _ h sb _ => [.h (str.getH h)] ++ [.s (str.getS sb)]
  | .strl _ r _ a _ _ _ => [.s (str.getS r)] ++ [.a (str.getA a).addr]
  | .strlHandle _ r _ h sb _ => [.s (str.getS r)] ++ [.h (str.getH h)] ++ [.s (str.getS sb)]
  | .amo _ _ g _ loc _ _ sc _ => (if g = 1 then [.h (str.getH (loc.extractLsb' 5 4)), .s (str.getS (loc.extractLsb' 0 5))] else [.a (str.getA (loc.extractLsb' 6 3)).addr]) ++ [.s (str.getS sc)]
  | .cas _ _ g _ loc _ _ sc sn => (if g = 1 then [.h (str.getH (loc.extractLsb' 5 4)), .s (str.getS (loc.extractLsb' 0 5))] else [.a (str.getA (loc.extractLsb' 6 3)).addr]) ++ [.s (str.getS sc)] ++ [.s (str.getS sn)]
  | .bar _ _ _ _ => []
  | .waitseq _ _ sa cls _ => [.s (str.getS sa)] ++ [.n (if cls = 0 then str.copyIssued else str.netIssued)]
  | .wfe _ => []
  | .sev _ _ _ _ _ => []
  | .slpat _ sa => [.s (str.getS sa)]
  | .trn _ _ sa => [.s (str.getS sa)]
  | .probe _ _ sa _ => [.s (str.getS sa)]
  | .hvld _ _ h _ => [.h (str.getH h)]
  | .trig _ => []
  | .exit _ => []
  | .trap _ _ => []
  | .eret _ => []
  | .task _ _ a _ sq => [.a (str.getA a).addr] ++ [.s (str.getS sq)]
  | .tokq _ _ sq st => [.s (str.getS sq)] ++ [.s (str.getS st)]
  | .trc _ sa sb _ => [.s (str.getS sa)] ++ [.s (str.getS sb)] ++ [.t now]
  | .drain _ _ => []
  | .invqIssue _ _ sa sb => [.s (str.getS sa)] ++ [.s (str.getS sb)]
  | .invqAck _ _ => []
  | .mchkPop _ _ h sb _ => [.h (str.getH h)] ++ [.s (str.getS sb)]
  | .mchkInject _ _ => []
  | .ctxsvStrand _ _ sa h sb => [.s (str.getS sa)] ++ [.h (str.getH h)] ++ [.s (str.getS sb)]
  | .ctxsvCore _ _ sa h sb => [.s (str.getS sa)] ++ [.h (str.getH h)] ++ [.s (str.getS sb)]
  | .ctxldStrand _ _ sa h sb => [.s (str.getS sa)] ++ [.h (str.getH h)] ++ [.s (str.getS sb)]
  | .ctxldCore _ _ sa h sb => [.s (str.getS sa)] ++ [.h (str.getH h)] ++ [.s (str.getS sb)]
  | .slotTableApply => []
  | .slotBoundary => []
  | .sleepDeadline => []
  | .trnResultLands _ _ => []
  | .invalidateBroadcast => []
  | .invalidateAcknowledge => []
  | .trapEntry _ => []
  | .fatalContextError _ _ => []
  | .machineCheck _ => []
  | .fullEmptyWake => []
  | .nearBufferDrain => []
  | .nearBufferForcedDrain => []
  | .remoteRequest _ => []
  | .retryReissue => []
  | .partnerLost _ _ => []
  | .reset _ => []
  | .recoveryImage _ _ => []
  | .launchDoorbell _ _ => []
  | .taskRecordLaunch _ => []
  | .releaseHeldNode _ => []
  | .cancelHeldNode _ => []
  | .configureExpertQueue _ => []
  | .nodePlacement _ => []
  | .nodeCompletion _ => []
  | .expertQueueTimeout _ => []
  | .expertQueueFire _ => []
  | .energyIntegration => []
  | .energyIntervalStart => []
  | .energyConfig _ _ => []
  | .stateSummary _ => []
  | .ptpMessage _ => []
  | .holdoverExpiry => []
  | .traceRecordMove => []
  | .hbmParityAlert _ _ _ _ _ => []
  | .hbmScrub _ => []
  | .criticalTemperature _ => []
  | .selfRefreshExit _ => []
  | .stallReport _ => []
  | .launchQueueBinding _ _ => []
  | .abandonFlitArrival _ _ => []
  | .noBetterClockAnnounced => []
  | .attestationReport => []

end Sys2Proof

namespace Sys2Proof.Machine

/-! ## Reading captured values -/

/-- The k-th captured value as a scalar.  (DEDUCED: assumption 50.) -/
def QEntry.capS (e : QEntry) (k : Nat) : BitVec 64 :=
  match e.caps[k]? with
  | some (.s v) => v
  | some (.t v) => v
  | some (.n v) => v.setWidth 64
  | _ => 0

/-- The k-th captured value as an address. -/
def QEntry.capA (e : QEntry) (k : Nat) : Nat :=
  match e.caps[k]? with
  | some (.a v) => v.toNat
  | _ => 0

/-- The k-th captured value as a handle. -/
def QEntry.capH (e : QEntry) (k : Nat) : Handle :=
  match e.caps[k]? with
  | some (.h v) => v
  | _ => Handle.none

/-- The handles a word captured. -/
def QEntry.handles (e : QEntry) : List Handle :=
  e.caps.filterMap fun c => match c with
    | .h v => some v
    | _ => none

end Sys2Proof.Machine
end

