-- ==== Sys2Proof/Machine/Memory.lean ====
section
/-! DEFINITION. Memories (R206-R212, R276-R280, R317-R320): cells in one canonical form, sorted sets of granules and
lines, the places of every memory, poison, full-empty bits, the near buffer, and the tests of R207 and R233. -/

namespace Sys2Proof.Machine

/-! ## How an operation ends -/

/-- Where a CIM column check fails (R177, R321): macro, column, plane, rail, bit-plane, A row, P and C mod 7. -/
structure Cim where
  mac    : Nat
  col    : Nat
  plane  : Nat
  rail   : Nat
  bit    : Nat
  row    : Nat
  expect : Nat
  actual : Nat
deriving DecidableEq, Repr, Inhabited

/-- Why an operation does not go on: it waits (with the granules of the full-empty wait, R210), its request is held for a stack
in self-refresh (R328), it raises a user trap, a fatal context error or a machine check (R244), a column check fails (R177), or it reaches main memory that no
device holds. -/
inductive Stop where
  | wait (fe : Option (Bool × List Nat))
  | held (stack : Nat)
  | user (c : UserCause)
  | fatal (c : FatalCause) (addr : BitVec 64)
  | check (c : CheckCause) (addr : BitVec 64)
  | cim (c : Cim)
  | absent
deriving DecidableEq, Repr, Inhabited

/-- The operation waits. -/
def Stop.waits : Stop → Bool
  | .wait _ | .held _ => true
  | _ => false

/-- An operation of the machine: it stops, or it answers a value and the state with every effect.  A stop leaves the
state as it was: a word that traps or waits has written nothing (R11). -/
abbrev M := StateT State (Except Stop)

/-- The operation that stops. -/
def stop {α : Type} (e : Stop) : M α := fun _ => .error e

/-- The operation that waits, on nothing that R210 orders. -/
def stall {α : Type} : M α := stop (.wait none)

/-- The operation that changes the state by `f`. -/
def upd (f : State → State) : M Unit := fun s => .ok ((), f s)

/-- The operation that reads the state. -/
def ask {α : Type} (f : State → α) : M α := fun s => .ok (f s, s)

/-- The user trap of a cause (R244). -/
def trapWith {α : Type} (code : BitVec 8) (data : BitVec 64) : M α := stop (.user ⟨code, data⟩)

/-- Trap 0x0A: the failing address or value, zero-extended (R244). -/
def misaligned {α : Type} (x : Nat) : M α := trapWith 0x0A (BitVec.ofNat 64 x)

/-- Raises trap 0x0A unless x is a multiple of k. -/
def aligned (x k : Nat) : M Unit := if x % k = 0 then pure () else misaligned x

/-- Runs an operation for every element of a list, in order. -/
def each {α : Type} (f : α → M Unit) : List α → M Unit
  | [] => pure ()
  | x :: t => do f x; each f t

/-- Runs an operation for every element of a list, in order, and answers the results. -/
def collect {α β : Type} (f : α → M β) : List α → M (List β)
  | [] => pure []
  | x :: t => do
    let y ← f x
    let ys ← collect f t
    pure (y :: ys)

/-! ## The current strand -/

/-- The strand whose word runs. -/
def State.me (s : State) : Strand := s.strands[s.cur.val]'s.cur.isLt

/-- The state with the current strand changed. -/
def State.setMe (s : State) (st : Strand) : State := { s with strands := s.strands.set s.cur.val st s.cur.isLt }

/-- The state with the current strand changed by `f`. -/
def State.updMe (s : State) (f : Strand → Strand) : State := s.setMe (f s.me)

/-- Reads the current strand. -/
def me : M Strand := ask State.me

/-- Changes the current strand. -/
def updMe (f : Strand → Strand) : M Unit := upd fun s => s.updMe f

/-! ## Bytes -/

/-- The value of bytes, lowest address first (R3). -/
def leNat : List Byte → Nat
  | [] => 0
  | b :: t => b.toNat + 256 * leNat t

/-- The n bytes of a value, lowest address first (R3). -/
def leBytes : Nat → Nat → List Byte
  | 0, _ => []
  | n + 1, v => BitVec.ofNat 8 v :: leBytes n (v / 256)

/-! ## Cells -/

/-- The byte at an address; a byte that nothing has written reads 0.  (DESIGN CHOICE: assumption 1.) -/
def cellGet : List Host.Cell → Nat → Byte
  | [], _ => 0
  | (k, b) :: t, a => if a < k then 0 else if a = k then b else cellGet t a

/-- Memory with one byte written, in the canonical form. -/
def cellSet : List Host.Cell → Nat → Byte → List Host.Cell
  | [], a, b => if b = 0 then [] else [(a, b)]
  | (k, c) :: t, a, b =>
    if a < k then (if b = 0 then (k, c) :: t else (a, b) :: (k, c) :: t)
    else if a = k then (if b = 0 then t else (a, b) :: t)
    else (k, c) :: cellSet t a b

/-- Every entry lies above `lo` (when given), the addresses rise strictly, and no entry is 0. -/
def cellsFrom : Option Nat → List Host.Cell → Bool
  | _, [] => true
  | lo, (k, b) :: t => (match lo with | none => true | some l => decide (l < k)) && decide (b ≠ 0) && cellsFrom (some k) t

/-- The canonical form: addresses strictly rising, no entry equal to what an unlisted address reads as. -/
def Memory.wf (m : List Host.Cell) : Bool := cellsFrom none m

/-- Memory with bytes written from an address upwards. -/
def cellsWrite (m : List Host.Cell) : Nat → List Byte → List Host.Cell
  | _, [] => m
  | a, b :: t => cellsWrite (cellSet m a b) (a + 1) t

/-- n bytes from an address upwards. -/
def cellsRead (m : List Host.Cell) : Nat → Nat → List Byte
  | _, 0 => []
  | a, n + 1 => cellGet m a :: cellsRead m (a + 1) n

/-- Whether a number is in a sorted set. -/
def setHas : List Nat → Nat → Bool
  | [], _ => false
  | k :: t, a => decide (a = k) || (decide (k < a) && setHas t a)

/-- A sorted set with a number added. -/
def setAdd : List Nat → Nat → List Nat
  | [], a => [a]
  | k :: t, a => if a < k then a :: k :: t else if a = k then k :: t else k :: setAdd t a

/-- A sorted set with a number removed. -/
def setDel : List Nat → Nat → List Nat
  | [], _ => []
  | k :: t, a => if a < k then k :: t else if a = k then t else k :: setDel t a

/-- A sorted set with a number added or removed. -/
def setPut (l : List Nat) (a : Nat) (b : Bool) : List Nat := if b then setAdd l a else setDel l a

/-! ## Places: one address space for every memory

Main memory stands at its 54-bit physical address (R233), device id included.  Lane slices (R206) and the on-chip
memories of every device (R207, R224) stand above it. -/

/-- The lane slices of a global strand.  (DEDUCED: assumption 30.) -/
def lanePlace (gstrand off : Nat) : Nat := 2 ^ 56 + gstrand * 2 ^ 17 + off

/-- An on-chip place: kind 0 a core scratchpad (unit a global core), 1 cluster memory (unit its hosting global core),
2 a staging slice (unit the slice). -/
def chipPlace (dev kind unit off : Nat) : Nat := 2 ^ 60 + dev * 2 ^ 34 + kind * 2 ^ 32 + unit * 2 ^ 23 + off

/-- A place of main memory. -/
def isMain (p : Nat) : Bool := decide (p < 2 ^ 54)

/-- The device whose main memory holds a place (R233). -/
def mainDevice (p : Nat) : Nat := p / 2 ^ 40

/-- The address of a place within its device (R302). -/
def mainLocal (p : Nat) : Nat := p % 2 ^ 40

/-- The channel of a place: 4 KiB interleaved over 384 channels (R302). -/
def channelOf (p : Nat) : Nat := mainLocal p / 4096 % 384

/-- The HBM4 stack of a place: 32 channels each (R1). -/
def stackOf (p : Nat) : Nat := channelOf p / 32

/-- The granules (R209) that n bytes from p touch. -/
def granules (p n : Nat) : List Nat := if n = 0 then [] else List.range' (p / 16) ((p + n - 1) / 16 + 1 - p / 16)

/-- The 64-byte lines that n bytes from p touch. -/
def linesOf (p n : Nat) : List Nat := if n = 0 then [] else List.range' (p / 64) ((p + n - 1) / 64 + 1 - p / 64)

/-- The bytes from p cover the whole unit g of size k. -/
def covers (k p n g : Nat) : Bool := decide (p ≤ g * k) && decide (g * k + k ≤ p + n)

/-- The die of the modelled core (R81). -/
def State.die (s : State) : Nat := s.sys.gcore / 96

/-- The core within its die (R81). -/
def State.coreInDie (s : State) : Nat := s.sys.gcore % 96

/-- The global id of a strand slot of the core (R81).  (DESIGN CHOICE: assumption 3.) -/
def State.gstrand (s : State) (k : Nat) : Nat := s.sys.gcore * 4 + k

/-- The place of an access of n bytes at address `ea` of a space, when R207 and Table 2 admit it: every byte within
the unit that the first byte names. -/
def State.resolve (s : State) (space : BitVec 2) (ea n : Nat) : Option Nat :=
  match space.toNat with
  | 0 => if ea + n ≤ 0x300000 then some (chipPlace s.sys.device 0 s.sys.gcore ea) else none
  | 1 =>
    if ea < 2 ^ 23 ∧ ea % 2 ^ 20 + n ≤ 2 ^ 20 then
      some (chipPlace s.sys.device 1 (s.die * 96 + s.coreInDie / 8 * 8 + ea / 2 ^ 20) (ea % 2 ^ 20))
    else none
  | 2 =>
    if ea / 2 ^ 23 < 96 ∧ ea % 2 ^ 23 + n ≤ 2 ^ 23 then
      some (chipPlace s.sys.device 2 (ea / 2 ^ 23) (ea % 2 ^ 23))
    else none
  | _ =>
    if ea / 2 ^ 22 < 96 ∧ ea % 2 ^ 22 + n ≤ 0x300000 then
      some (chipPlace s.sys.device 0 (s.die * 96 + ea / 2 ^ 22) (ea % 2 ^ 22))
    else none

/-- The place of an on-chip access, or fatal context error 0x22 with the address (R207). -/
def place (space : BitVec 2) (ea n : Nat) : M Nat := fun s =>
  match s.resolve space ea n with
  | some p => .ok (p, s)
  | none => .error (.fatal .protection (BitVec.ofNat 64 ea))

/-! ## Poison (R212, R318, R327) -/

/-- A line of the modelled device's main memory whose channel's row-remap table failed (R327). -/
def State.deadLine (s : State) (l : Nat) : Bool :=
  decide (mainDevice (l * 64) = s.sys.device) && decide (channelOf (l * 64) ∈ s.sys.deadChannels)

/-- The poison of an HBM4 line. -/
def State.linePoisoned (s : State) (l : Nat) : Bool := setHas s.linePoison l != s.deadLine l

/-- The poison of a line, set. -/
def State.setLinePoison (s : State) (l : Nat) (b : Bool) : State :=
  { s with linePoison := setPut s.linePoison l (b != s.deadLine l) }

/-- The poison of an on-chip granule. -/
def State.granulePoisoned (s : State) (g : Nat) : Bool := setHas s.poison g

/-- A granule after a write of n bytes at p with poison b: set when covered whole, ORed when not (R212). -/
def State.poisonGranule (p n : Nat) (b : Bool) (s : State) (g : Nat) : State :=
  { s with poison := setPut s.poison g (b || (!covers 16 p n g && setHas s.poison g)) }

/-- The parts in which an element of n bytes carries poison: whole granules, or the element itself within one granule
(R212, R217). -/
def parts (n : Nat) : List (Nat × Nat) :=
  if n ≤ 16 then [(0, n)] else (List.range (n / 16)).map fun k => (16 * k, 16)

/-- Bytes written to an on-chip memory, with their poison (R212).  (DEDUCED: assumption 32.) -/
def State.chipWrite (s : State) (p : Nat) (bytes : List Byte) (poison : Bool) : State :=
  (granules p bytes.length).foldl (State.poisonGranule p bytes.length poison) { s with mem := cellsWrite s.mem p bytes }

/-- A granule after a write of the bytes at some of its places with poison b: set when all 16 are written, ORed when not
(R212). -/
def State.poisonPlaces (ps : List Nat) (b : Bool) (s : State) (g : Nat) : State :=
  let whole := (List.range 16).all fun k => decide (16 * g + k ∈ ps)
  { s with poison := setPut s.poison g (b || (!whole && setHas s.poison g)) }

/-- One write of bytes at places that need not be adjacent, with their poison (R212).  (DEDUCED: assumption 32.) -/
def State.chipScatter (s : State) (cells : List (Nat × Byte)) (poison : Bool) : State :=
  let mem := cells.foldl (fun m c => cellSet m c.1 c.2) s.mem
  let ps := cells.map (·.1)
  (ps.map (· / 16)).dedup.foldl (State.poisonPlaces ps poison) { s with mem := mem }

/-- Bytes read from an on-chip memory, and whether a granule read is poisoned. -/
def State.chipRead (s : State) (p n : Nat) : List Byte × Bool :=
  (cellsRead s.mem p n, (granules p n).any s.granulePoisoned)

/-- An element of n bytes moved from one on-chip place to another, read whole before it is written: the poison travels with
each granule (R212). -/
def State.chipMove (s : State) (p q n : Nat) : State :=
  ((parts n).map fun x => (q + x.1, s.chipRead (p + x.1) x.2)).foldl (fun t w => t.chipWrite w.1 w.2.1 w.2.2) s

/-! ## Full-empty bits (R210) -/

/-- Every granule is full. -/
def State.allFull (s : State) (gs : List Nat) : Bool := gs.all (setHas s.full)

/-- Granules set full or empty. -/
def State.setFull (s : State) (gs : List Nat) (b : Bool) : State :=
  { s with full := gs.foldl (fun l g => setPut l g b) s.full }

/-- A waiting access is one of the current strand in a class, on granules; `num` is the number of a gather's word. -/
def Waiter.is (w : Waiter) (s : State) (cls : BitVec 3) (num : BitVec 32) (gs : List Nat) : Bool :=
  decide (w.strand = s.cur) && decide (w.cls = cls) && decide (w.num = num) && decide (w.granules = gs)

/-- The waiting access of the current strand in a class, on granules. -/
def State.myWaiter (s : State) (cls : BitVec 3) (gs : List Nat) (num : BitVec 32 := 0) : Option Waiter :=
  s.waiters.find? fun w => w.is s cls num gs

/-- The order in which waiting takes are served (R210): earlier start, then lower global strand, then lower class. -/
def takeBefore (a : Nat × Nat × Nat) (b : Nat × Nat × Nat) : Bool :=
  decide (a.1 < b.1) || (decide (a.1 = b.1) &&
    (decide (a.2.1 < b.2.1) || (decide (a.2.1 = b.2.1) && decide (a.2.2 < b.2.2))))

/-- An access that competes for granules (R210): its place in the order of takes, whether it is a take, its granules. -/
structure Rival where
  order    : Nat × Nat × Nat
  take     : Bool
  granules : List Nat

/-- The granules of a request from outside that waits on full-empty bits; none for the others. -/
def RemoteWait.rival (w : RemoteWait) : Option Rival :=
  match w.req with
  | .read p n fe strand cls =>
    if isMain p || decide (fe = 0) then none else some ⟨(w.since, strand, cls.toNat), decide (fe = 2), granules p n⟩
  | .write _ _ _ _ => none

/-- Every access that waits on full-empty bits, from the core's strands and from outside: one order for all (R210). -/
def State.rivals (s : State) : List Rival :=
  (s.waiters.map fun w => ⟨(w.since, s.gstrand w.strand.val, w.cls.toNat), w.take, w.granules⟩) ++
    s.sys.remoteWaits.filterMap RemoteWait.rival

/-- A take in its place of the order may be performed: every other waiting wait-access on its granules that could be
performed has been, and no take on them that comes before it could be performed instead (R210). -/
def State.takeFree (s : State) (order : Nat × Nat × Nat) (gs : List Nat) : Bool :=
  s.rivals.all fun r =>
    decide (r.order.2 = order.2 ∧ r.granules = gs) || !r.granules.any (fun g => decide (g ∈ gs)) ||
    !s.allFull r.granules || (r.take && !takeBefore r.order order)

/-- A take of the current strand has its turn. -/
def State.takeTurn (s : State) (cls : BitVec 3) (gs : List Nat) (num : BitVec 32 := 0) : Bool :=
  let since := match s.myWaiter cls gs num with | some w => w.since | none => s.ticks
  s.takeFree (since, s.gstrand s.cur.val, cls.toNat) gs

/-- The current strand's waiting access of a class on granules, removed. -/
def State.doneWaiting (s : State) (cls : BitVec 3) (gs : List Nat) (num : BitVec 32 := 0) : State :=
  { s with waiters := s.waiters.filter fun w => !w.is s cls num gs }

/-- A load with a qualifier can be performed now: it ignores the bits, or its granules are full and a take has its turn
(R210). -/
def State.feReady (s : State) (cls : BitVec 3) (fe : BitVec 2) (gs : List Nat) (num : BitVec 32 := 0) : Bool :=
  decide (fe = 0) || (s.allFull gs && (decide (fe ≠ 2) || s.takeTurn cls gs num))

/-- The state after a load with a qualifier: it waits no longer, and a take has emptied its granules (R210). -/
def State.feTaken (s : State) (cls : BitVec 3) (fe : BitVec 2) (gs : List Nat) (num : BitVec 32 := 0) : State :=
  if fe = 0 then s
  else
    let t := s.doneWaiting cls gs num
    if fe = 2 then t.setFull gs false else t

/-- A load qualifier applied to granules (R210): ignore, wait, or take. -/
def feLoad (cls : BitVec 3) (fe : BitVec 2) (gs : List Nat) : M Unit := fun s =>
  if s.feReady cls fe gs then .ok ((), s.feTaken cls fe gs) else .error (.wait (some (decide (fe = 2), gs)))

/-- A store qualifier applied to granules (R210): leave, fill, or empty. -/
def State.feStore (s : State) (fe : BitVec 2) (gs : List Nat) : State :=
  if fe = 1 then s.setFull gs true else if fe = 2 then s.setFull gs false else s

/-! ## On-chip accesses -/

/-- Reads n bytes of a space under a load qualifier; answers the bytes and their poison. -/
def spRead (cls : BitVec 3) (space : BitVec 2) (ea n : Nat) (fe : BitVec 2) : M (List Byte × Bool) := do
  let p ← place space ea n
  feLoad cls fe (granules p n)
  ask fun s => s.chipRead p n

/-- Writes bytes to a space under a store qualifier. -/
def spWrite (space : BitVec 2) (ea : Nat) (bytes : List Byte) (poison : Bool) (fe : BitVec 2) : M Unit := do
  let p ← place space ea bytes.length
  upd fun s => (s.chipWrite p bytes poison).feStore fe (granules p bytes.length)

/-- Machine check 0x11 when poison is consumed (R319, R320). -/
def consume (poison : Bool) (addr : Nat) : M Unit :=
  if poison then stop (.check .poison (BitVec.ofNat 64 addr)) else pure ()

/-- Reads n bytes of a space into something that carries no poison (R319, R320). -/
def spReadClean (cls : BitVec 3) (space : BitVec 2) (ea n : Nat) (fe : BitVec 2) : M (List Byte) := do
  let (b, poison) ← spRead cls space ea n fe
  consume poison ea
  pure b

/-! ## The node of the current strand -/

/-- The task-graph node whose strand is `st`. -/
def Strand.ofNode (st : Strand) (n : Node) : Bool :=
  match st.placed with
  | some pl => decide (n.id = pl.node) && decide (n.queue = pl.queue) && decide (n.stage = .running)
  | none => false

/-- The running node of the current strand, changed. -/
def State.updNode (s : State) (f : Node → Node) : State :=
  { s with sys := { s.sys with nodes := s.sys.nodes.map fun n => if s.me.ofNode n then f n else n } }

/-- The node is no longer replayable (R324). -/
def unreplayable : M Unit := upd fun s => s.updNode fun n => { n with unreplayable := true }

/-! ## The near buffer (R276-R280) -/

/-- Who writes (R276, R289): the engine class of the word and its sequence number. -/
structure Who where
  cls : BitVec 3
  num : BitVec 32
deriving DecidableEq, Repr, Inhabited

/-- The byte at a place in the first of a list of lines that has its line. -/
def lineByte (ls : List NearLine) (p : Nat) : Option NearByte :=
  match ls.find? fun l => decide (l.line = p / 64) with
  | some l => l.bytes.find? fun b => decide (b.off = p % 64)
  | none => none

/-- The byte at a place in the near buffer, if any. -/
def State.nearByte (s : State) (p : Nat) : Option NearByte := lineByte s.near p

/-- The byte at a place in the latest line on the Casusk links that has it, if any (R277). -/
def State.linkByte (s : State) (p : Nat) : Option NearByte :=
  s.links.reverse.findSome? fun l => lineByte [l] p

/-- One byte as the core reads it: from the near buffer when it holds the byte (R276), else behind what is still on its
way to another device (R277), else from memory. -/
def State.peek (s : State) (p : Nat) : Byte :=
  if isMain p then
    match s.nearByte p with
    | some b => b.val
    | none =>
      match s.linkByte p with
      | some b => b.val
      | none => cellGet s.mem p
  else cellGet s.mem p

/-- n bytes as the core reads them. -/
def State.peeks (s : State) : Nat → Nat → List Byte
  | _, 0 => []
  | p, n + 1 => s.peek p :: s.peeks (p + 1) n

/-- The poison that a main-memory read of bytes p … p + n − 1 meets in a line: the buffer's when the buffer serves
every byte, else also that of the line. -/
def State.mainPoisoned (s : State) (p n l : Nat) : Bool :=
  let lo := max p (l * 64)
  let hi := min (p + n) (l * 64 + 64)
  let served := (List.range' lo (hi - lo)).all fun a => (s.nearByte a).isSome || (s.linkByte a).isSome
  let near := (s.near ++ s.links).any fun x => decide (x.line = l) && x.poison
  near || (!served && s.linePoisoned l)

/-- A line of the modelled device whose stack is in self-refresh: its requests are held (R328).  (DEDUCED: assumption 81.) -/
def State.stackHeld (s : State) (p : Nat) : Bool :=
  decide (mainDevice p = s.sys.device) && decide (stackOf p ∈ s.sys.selfRefresh)

/-- Bytes of main memory written at their target, with the line's poison (R318). -/
def State.mainWrite (s : State) (p : Nat) (bytes : List Byte) (poison : Bool) : State :=
  (linesOf p bytes.length).foldl
    (fun t l => t.setLinePoison l (poison || (!covers 64 p bytes.length l && t.linePoisoned l)))
    { s with mem := cellsWrite s.mem p bytes }

/-- The bytes of a buffered line written to memory. -/
def drainBytes (m : List Host.Cell) (line : Nat) : List NearByte → List Host.Cell
  | [] => m
  | b :: t => drainBytes (cellSet m (line * 64 + b.off) b.val) line t

/-- The controller of a line's target accepts it (R277), with the line's poison (R318). -/
def State.landLine (s : State) (l : NearLine) : State :=
  ({ s with mem := drainBytes s.mem l.line l.bytes } : State).setLinePoison l.line
    (l.poison || (!decide (l.bytes.length = 64) && s.linePoisoned l.line))

/-- A line that leaves onto a link: its target is another device, or it follows what is still on a link. -/
def State.farLine (s : State) (l : NearLine) : Bool :=
  decide (mainDevice (l.line * 64) ≠ s.sys.device) || s.links.any fun x => decide (x.line = l.line)

/-- One line leaves the near buffer: the own controller accepts it, or it leaves onto a Casusk link (R276, R277). -/
def State.drainLine (s : State) (l : NearLine) : State :=
  let t := { s with near := s.near.filter fun x => decide (x.line ≠ l.line) }
  if s.farLine l then { t with links := s.links ++ [{ l with pins := [] }] } else t.landLine l

/-- The oldest n lines on the Casusk links reach the controllers of their targets (R277). -/
def State.arrive (s : State) (n : Nat) : State :=
  (s.links.take n).foldl State.landLine { s with links := s.links.drop n }

/-- The lines on the links land when one of them is a line of a write to come, which travels behind them. -/
def State.behind (s : State) (p n : Nat) : State :=
  if s.links.any fun l => decide (l.line ∈ linesOf p n) then s.arrive s.links.length else s

/-- Drains the lines that satisfy a test, and waits when the stack of one is in self-refresh (R328). -/
def drainWhere (f : NearLine → Bool) : M Unit := fun s =>
  match s.near.find? (fun l => f l && s.stackHeld (l.line * 64)) with
  | some l => .error (.held (stackOf (l.line * 64)))
  | none => .ok ((), (s.near.filter f).foldl State.drainLine s)

/-- A buffered byte replaced or added. -/
def putByte (b : NearByte) : List NearByte → List NearByte
  | [] => [b]
  | x :: t => if x.off = b.off then b :: t else x :: putByte b t

/-- A line of the near buffer replaced or added at the end. -/
def putLine (l : NearLine) : List NearLine → List NearLine
  | [] => [l]
  | x :: t => if x.line = l.line then l :: t else x :: putLine l t

/-- A write merged into a line (R276), which holds it from then on: a whole line takes the data's poison, a part ORs it. -/
def mergeLine (l : NearLine) (w : Writer) (p : Nat) (bytes : List NearByte) (poison : Bool) (n : Nat) : NearLine :=
  { l with bytes := bytes.foldl (fun acc b => putByte b acc) l.bytes
           writers := if w ∈ l.writers then l.writers else w :: l.writers
           poison := poison || (!covers 64 p n l.line && l.poison) }

/-- Writes bytes of one line into the near buffer.  With the buffer full, the oldest unpinned line drains first; with
every line pinned, the write stalls (R280). -/
def nearWriteLine (who : Who) (unordered : Bool) (p : Nat) (bytes : List Byte) (poison : Bool) (line : Nat) :
    M Unit := fun s =>
  let mine := (bytes.zipIdx p).filterMap fun (b, a) =>
    if a / 64 = line then some ⟨a % 64, b, s.me.ident⟩ else none
  let w : Writer := ⟨s.me.ident, who.cls, who.num, unordered⟩
  let put (t : State) (l : NearLine) : State :=
    { t with near := putLine (mergeLine l w p mine poison bytes.length) t.near }
  match s.near.find? fun l => decide (l.line = line) with
  | some l => .ok ((), put s l)
  | none =>
    if s.near.length < 64 then .ok ((), put s ⟨line, [], [], false, []⟩)
    else match s.near.find? fun l => l.pins.isEmpty with
      | none => .error (.wait none)
      | some old =>
        if s.stackHeld (old.line * 64) then .error (.held (stackOf (old.line * 64)))
        else .ok ((), put (s.drainLine old) ⟨line, [], [], false, []⟩)

/-- The buffered bytes of a range dropped: a strong write supersedes them (R276). -/
def State.dropNear (s : State) (p n : Nat) : State :=
  let keep (l : NearLine) (b : NearByte) : Bool :=
    !(decide (p ≤ l.line * 64 + b.off) && decide (l.line * 64 + b.off < p + n))
  let cut := s.near.map fun l => { l with bytes := l.bytes.filter (keep l) }
  { s with near := cut.filter fun l => !l.bytes.isEmpty }

/-! ## Main memory through handles (R233) -/

/-- The page size of a handle. -/
def Handle.pageSize (h : Handle) : Nat := if h.large then 33554432 else 65536

/-- The virtual address of an offset in a handle's page. -/
def Handle.va (h : Handle) (off : Nat) : BitVec 64 := BitVec.ofNat 64 (h.page.toNat * 65536 + off)

/-- The physical address of an offset in a handle's page (R233). -/
def Handle.phys (h : Handle) (off : Nat) : Nat := h.ppn.toNat * 65536 + off

/-- The tests of R233, in order, on an access of n bytes; answers the physical address. -/
def hPlace (h : Handle) (off n : Nat) (write : Bool) : M Nat :=
  if h.state ≠ .valid then stop (.fatal .invalidHandle (h.va off))
  else if h.pageSize < off + n then stop (.fatal .outOfPage (h.va off))
  else if write && !h.w then stop (.fatal .protection (h.va off))
  else pure (h.phys off)

/-- The device that a place of main memory or of an on-chip memory belongs to. -/
def deviceOf (p : Nat) : Nat := if isMain p then mainDevice p else (p - 2 ^ 60) / 2 ^ 34

/-- A device that the event of R284 at hand names as lost.  (DESIGN CHOICE: assumption 69.) -/
def State.isLost (s : State) (dev : Nat) : Bool :=
  match s.env.partners with
  | [] => decide (dev ≠ s.sys.device)
  | l :: _ => decide (dev ∈ l)

/-- A place on a lost device, while a word whose partner was lost completes (R284). -/
def State.lostAt (s : State) (p : Nat) : Bool := s.env.silent && s.isLost (mainDevice p)

/-- Main memory answers at a place: the device exists (an absent device never answers, R284), its memory holds the
place, and its stack is not in self-refresh (R328).  (DEDUCED: assumption 10, DEDUCED: assumption 81.) -/
def mainReady (p n : Nat) : M Unit := fun s =>
  if s.lostAt p then .ok ((), s)
  else if mainDevice p ≠ s.sys.device ∧ s.sys.devices ≤ mainDevice p then .error (.wait none)
  else if Config.mainBytes < mainLocal p + n then .error .absent
  else if s.stackHeld p then .error (.held (stackOf p))
  else .ok ((), s)

/-- Reads n bytes of main memory at a physical address, with their poison; the bytes of an abandoned read are free
values (R284). -/
def mainRead (p n : Nat) : M (List Byte × Bool) := do
  mainReady p n
  ask fun s =>
    if s.lostAt p then ((List.range n).map fun k => Config.freeByte s.nfree (p + k), false)
    else (s.peeks p n, (linesOf p n).any (s.mainPoisoned p n))

/-- Every line of a full near buffer is pinned: every main-memory write of the core stalls (R280). -/
def State.nearStuck (s : State) : Bool := decide (64 ≤ s.near.length) && s.near.all fun l => !l.pins.isEmpty

/-- Writes bytes of main memory: a strong write at once (R261, R276), any other through the near buffer; an abandoned
write does nothing (R284). -/
def mainStore (who : Who) (strong unordered : Bool) (p : Nat) (bytes : List Byte) (poison : Bool) : M Unit := do
  let s ← ask id
  if s.lostAt p then pure ()
  else if s.nearStuck then stall
  else if strong then
    mainReady p bytes.length
    upd fun s => ((s.behind p bytes.length).dropNear p bytes.length).mainWrite p bytes poison
  else
    if Config.mainBytes < mainLocal p + bytes.length then stop .absent
    else if mainDevice p ≠ s.sys.device ∧ s.sys.devices ≤ mainDevice p then stall
    else each (nearWriteLine who unordered p bytes poison) (linesOf p bytes.length)
  upd fun s => s.updNode fun n =>
    { n with storedPoison := n.storedPoison || poison
             unreplayable := n.unreplayable || decide (mainDevice p ≠ s.sys.device) }

/-- Reads n bytes at an offset of a handle's page. -/
def hRead (h : Handle) (off n : Nat) : M (List Byte × Bool) := do
  let p ← hPlace h off n false
  mainRead p n

/-- Reads n bytes at an offset of a handle's page into something that carries no poison (R320). -/
def hReadClean (h : Handle) (off n : Nat) : M (List Byte) := do
  let (b, poison) ← hRead h off n
  consume poison (h.va off).toNat
  pure b

/-- Writes bytes at an offset of a handle's page. -/
def hWrite (who : Who) (h : Handle) (off : Nat) (bytes : List Byte) (poison : Bool) : M Unit := do
  let p ← hPlace h off bytes.length true
  mainStore who (decide (h.kind = 0)) (decide (h.kind = 2)) p bytes poison

/-! ## Words that land part by part (R217, R218, R224, R288) -/

/-- Reads an element of n bytes at a location, part by part with the poison of each (R212, R217). -/
def locParts (l : Loc) (n : Nat) : M (List (Nat × List Byte × Bool)) :=
  collect (fun x => do
    let (b, po) ← if l.main then mainRead (l.place + x.1) x.2 else ask fun s => s.chipRead (l.place + x.1) x.2
    pure (x.1, b, po)) (parts n)

/-- The writes that put the parts of an element at a location: on chip one for each granule, in main memory one for each
64-byte line, with the poison of the parts that it takes in (R212, R217). -/
def locPuts (l : Loc) (ps : List (Nat × List Byte × Bool)) : List Piece :=
  if l.main then
    let line (x : Nat × List Byte × Bool) : Nat := (l.place + x.1) / 64
    (ps.map line).dedup.map fun g =>
      let mine := ps.filter fun x => decide (line x = g)
      .put { l with place := l.place + (mine.head?.map (·.1)).getD 0 } (mine.flatMap (·.2.1)) (mine.any (·.2.2))
  else ps.map fun x => .put { l with place := l.place + x.1 } x.2.1 x.2.2

/-- One write of a word lands, under a store qualifier. -/
def landPut (who : Who) (fe : BitVec 2) (l : Loc) (bytes : List Byte) (poison : Bool) : M Unit :=
  if l.main then mainStore who (decide (l.handle.kind = 0)) (decide (l.handle.kind = 2)) l.place bytes poison
  else upd fun s => (s.chipWrite l.place bytes poison).feStore fe (granules l.place bytes.length)

/-- How many parts the word that runs performs now; none for all of them (R288).  (DESIGN CHOICE: assumption 91.) -/
def partsNow : M (Option Nat) := fun s =>
  match s.env.pieces with
  | [] => .ok (none, s)
  | n :: t =>
    let env := { s.env with pieces := t }
    .ok (some n, { s with env := env })

/-- An operation tried for its checks alone: it stops as it would, and nothing is done. -/
def dry {α : Type} (m : M α) : M Unit := fun s =>
  match m s with
  | .ok _ => .ok ((), s)
  | .error e => .error e

/-- An operation tried: none, and nothing done, when it waits. -/
def attempt {α : Type} (m : M α) : M (Option α) := fun s =>
  match m s with
  | .ok (x, t) => .ok (some x, t)
  | .error e => if e.waits then .ok (none, s) else .error e

/-- Writes land, as many as `b` allows and until one waits; answers what is left of `b` and of them. -/
def landPuts (who : Who) (fe : BitVec 2) : List Piece → Option Nat → M (Option Nat × List Piece)
  | .put l bytes poison :: t, b => do
    if b = some 0 then pure (b, .put l bytes poison :: t)
    else
      match ← attempt (landPut who fe l bytes poison) with
      | none => pure (some 0, .put l bytes poison :: t)
      | some _ => landPuts who fe t (b.map (· - 1))
  | _, b => pure (b, [])

/-- One element of CRED (R225).  (DEDUCED: assumption 46.) -/
def credElem (fmt a b : Nat) : Nat :=
  match fmt with
  | 1 => (Fmt.f32.round .ne false ((Fmt.f32.decode a).add (Fmt.f32.decode b))).1
  | 2 => (Fmt.bf16.round .ne false ((Fmt.bf16.decode a).add (Fmt.bf16.decode b))).1
  | _ => (a + b) % 2 ^ 32

/-- The elements of one granule added into those of another (R225). -/
def addGranule (fmt : BitVec 4) (x y : List Byte) : List Byte :=
  let w := if fmt = 2 then 2 else 4
  (List.range (16 / w)).flatMap fun k =>
    leBytes w (credElem fmt.toNat (leNat ((x.drop (w * k)).take w)) (leNat ((y.drop (w * k)).take w)))

/-- Bytes added into the granule at a place, in one step with its reading (R225). -/
def State.addAt (s : State) (fmt : BitVec 4) (d : Nat) (x : List Byte × Bool) : State :=
  let (a, pa) := s.chipRead d 16
  s.chipWrite d (addGranule fmt a x.1) (pa || x.2)

/-- Parts are performed in order, as many as `b` allows and until one waits: a group is read whole before any byte of it is
written (R217).  Answers the parts left. -/
def perform (who : Who) (fe : BitVec 2) : List Piece → Option Nat → M (List Piece)
  | [], _ => pure []
  | .move n pairs :: t, b => do
    if b = some 0 then pure (.move n pairs :: t)
    else
      match ← attempt (collect (fun x => do let ps ← locParts x.1 n; pure (locPuts x.2 ps)) pairs) with
      | none => pure (.move n pairs :: t)
      | some puts =>
        let (b, left) ← landPuts who fe puts.flatten b
        if left.isEmpty then perform who fe t b else pure (left ++ t)
  | .put l bytes poison :: t, b => do
    let (b, left) ← landPuts who fe [.put l bytes poison] b
    if left.isEmpty then perform who fe t b else pure (left ++ t)
  | .sum fmt d p :: t, b => do
    if b = some 0 then pure (.sum fmt d p :: t)
    else
      upd fun s => s.addAt fmt d (s.chipRead p 16)
      perform who fe t (b.map (· - 1))
  | .sumOf fmt d bytes poison :: t, b => do
    if b = some 0 then pure (.sumOf fmt d bytes poison :: t)
    else
      upd fun s => s.addAt fmt d (bytes, poison)
      perform who fe t (b.map (· - 1))
  | .elem _ _ _ :: t, b => perform who fe t b
  | .scan _ _ _ _ :: t, b => perform who fe t b

/-- The on-chip granules that a part writes. -/
def Piece.granules : Piece → List Nat
  | .elem .. => []
  | .put l bytes _ => if l.main then [] else Machine.granules l.place bytes.length
  | .move n pairs => pairs.flatMap fun x => if x.2.main then [] else Machine.granules x.2.place n
  | .sum _ d _ => Machine.granules d 16
  | .sumOf _ d _ _ => Machine.granules d 16
  | .scan .. => []

/-- The granules whose last byte has landed: parts `todo` stood before, and `left` stand now (R218). -/
def landed (todo left : List Piece) : List Nat :=
  let gone := left.flatMap Piece.granules
  (todo.flatMap Piece.granules).dedup.filter fun g => decide (g ∉ gone)

/-- Every granule, of main memory too, that a part writes. -/
def Piece.writes : Piece → List Nat
  | .elem l _ n => Machine.granules l n
  | .put l bytes _ => Machine.granules l.place bytes.length
  | .move n pairs => pairs.flatMap fun x => Machine.granules x.2.place n
  | x => x.granules

/-- Every granule that a part still has to read. -/
def Piece.reads : Piece → List Nat
  | .elem _ p n => Machine.granules p n
  | .move n pairs => pairs.flatMap fun x => Machine.granules x.1.place n
  | .sum _ d p => Machine.granules d 16 ++ Machine.granules p 16
  | .sumOf _ d _ _ => Machine.granules d 16
  | _ => []

/-- The begun words of a class, by number: those of the network class, else those of the copy class. -/
def Strand.begunOf (st : Strand) (cls : BitVec 3) : List (BitVec 32 × List Piece) :=
  if cls = 6 then st.gather else if cls = 5 then st.moving else []

/-- What is left of the begun word of a class with a number, or of the MRD that stores rows. -/
def Strand.leftOf (st : Strand) (cls : BitVec 3) (num : BitVec 32) : Option (List Piece) :=
  if cls = 2 then st.storing else ((st.begunOf cls).find? fun x => decide (x.1 = num)).map (·.2)

/-- The entry of a number replaced, or taken out. -/
def putLeft (num : BitVec 32) (x : Option (List Piece)) (l : List (BitVec 32 × List Piece)) : List (BitVec 32 × List Piece) :=
  (l.filter fun y => decide (y.1 ≠ num)) ++ (x.map fun p => (num, p)).toList

/-- What is left of the begun word of a class with a number, replaced. -/
def Strand.setLeft (st : Strand) (cls : BitVec 3) (num : BitVec 32) (x : Option (List Piece)) : Strand :=
  if cls = 6 then { st with gather := putLeft num x st.gather }
  else if cls = 5 then { st with moving := putLeft num x st.moving }
  else { st with storing := x }

/-- The granules of n bytes from an address of a space on, as far as they exist. -/
def State.spanOf (s : State) (space : BitVec 2) (a n : Nat) : List Nat :=
  (granules a n).filterMap fun g => (s.resolve space (16 * g) 16).map (· / 16)

/-- A word that is to begin with parts `todo`, and has read the granules `early` for its checks, meets a write that a begun word
of its class still has to perform: it waits for it, so that what both write lands in program order and it reads what the
earlier one wrote (R228).  With `early` unknown it waits for every begun word of its class.  (DEDUCED: assumption 49.) -/
def Strand.clash (st : Strand) (cls : BitVec 3) (todo : List Piece) (early : Option (List Nat)) : Bool :=
  let open_ := (st.begunOf cls).flatMap fun x => x.2.flatMap Piece.writes
  !(st.begunOf cls).isEmpty && (match early with
    | none => true
    | some gs => (gs ++ todo.flatMap Piece.writes ++ todo.flatMap Piece.reads).any fun g => decide (g ∈ open_))

/-- A word that lands part by part: `plan` makes every check and answers its parts when the word begins; `early` are the granules
that the plan itself reads.  A part's write is under `fe`; `dfe` acts on each granule as its last byte lands (R218).  A word of
which nothing can land yet has not begun, unless its beginning is itself an effect (`starts`).  Answers whether the word has
ended. -/
def partwise (cls : BitVec 3) (who : Who) (fe dfe : BitVec 2) (early : State → Option (List Nat)) (starts : Bool)
    (plan : M (List Piece)) : M Bool := do
  let st ← me
  let gs ← ask early
  let begun := st.leftOf cls who.num
  if begun.isNone && st.clash cls [] gs then stall
  else
    let todo ← match begun with
      | some l => pure l
      | none => plan
    if begun.isNone && st.clash cls todo gs then stall
    else
      let b ← partsNow
      let left ← perform who fe todo b
      if begun.isNone && !starts && decide (left = todo) && decide (b ≠ some 0) && !todo.isEmpty then stall
      else
        upd fun s => s.feStore dfe (landed todo left)
        updMe fun st => st.setLeft cls who.num (if left.isEmpty then none else some left)
        pure left.isEmpty

/-! ## Scopes (R257, R278) -/

/-- A line holds a write that a wait of the current strand covers: one of the strand, of a word that `f` selects. -/
def State.lineOf (s : State) (f : Writer → Bool) (l : NearLine) : Bool :=
  l.writers.any fun w => decide (w.strand = s.me.ident) && f w

/-- The near buffer's part of "performed at scope" (R277, R278): nothing at strand scope, a pin at core scope, a drain
at cluster, die and package scope; at domain and system scope also the lines on the Casusk links must have landed. -/
def performAt (scope : BitVec 3) (f : Writer → Bool) : M Unit := fun s =>
  if scope = 0 then .ok ((), s)
  else if scope = 1 then
    let pin (l : NearLine) : NearLine :=
      if s.lineOf f l && !decide (s.me.ident ∈ l.pins) then { l with pins := s.me.ident :: l.pins } else l
    .ok ((), { s with near := s.near.map pin })
  else if scope.toNat < 5 then drainWhere (s.lineOf f) s
  else if s.links.any (s.lineOf f) then .error (.wait none)
  else match drainWhere (s.lineOf f) s with
    | .ok (_, t) => .ok ((), t.arrive t.links.length)
    | .error e => .error e

/-- The lines that a strand pinned drain (R278: EXIT, or the saving of its context). -/
def unpin (k : Nat) : M Unit := drainWhere fun l => decide (k ∈ l.pins)

end Sys2Proof.Machine
end

