-- ==== Sys2Proof/Machine/Translation.lean ====
section
/-! DEFINITION. The page table and handles (R229-R243): the hash, buckets, the home-bucket lookup of TRN, the walks of
PROBE and of re-translation, and invalidation. -/

namespace Sys2Proof.Machine

/-! ## The table (R235-R238) -/

/-- A translation root that obeys R235: the base a multiple of 64, n from 20 to 28, all buckets on one device. -/
def Root.ok (r : Root) : Bool :=
  decide (r.base.toNat % 64 = 0) && decide (20 ≤ r.n.toNat) && decide (r.n.toNat ≤ 28) &&
  decide (r.base.toNat / 2 ^ 40 = (r.base.toNat + 2 ^ r.n.toNat * 64 - 1) / 2 ^ 40)

/-- The 40-bit key of a virtual address for a page size (R236). -/
def keyOf (va : Nat) (large : Bool) : Nat := if large then va % 2 ^ 56 / 2 ^ 25 else va % 2 ^ 56 / 2 ^ 16

/-- Hash(K) of R236, in 40-bit arithmetic. -/
def pageHash (k : Nat) : Nat :=
  let x := Nat.xor k (k / 2 ^ 17)
  let x := x * 0x9E3779B97 % 2 ^ 40
  Nat.xor x (x / 2 ^ 23)

/-- An entry of a bucket (R237): its 8 bytes as the core reads them. -/
def State.pte (s : State) (base bucket slot : Nat) : Nat := leNat (s.peeks (base + 64 * bucket + 8 * slot) 8)

/-- An entry in use. -/
def pteValid (e : Nat) : Bool := decide (e / 2 ^ 63 % 2 = 1)

/-- The ordering kind of an entry. -/
def pteKind (e : Nat) : Nat := e / 2 ^ 60 % 4

/-- An entry matches a key (R231). -/
def pteMatch (e tag : Nat) (large : Bool) : Bool :=
  pteValid e && decide (pteKind e ≠ 3) && decide ((e / 2 ^ 62 % 2 = 1) = (large = true)) &&
  decide (e / 2 ^ 38 % 2 ^ 20 = tag)

/-- A free entry: V = 0 and no tombstone (R237). -/
def pteFree (e : Nat) : Bool := !pteValid e && decide (pteKind e ≠ 3)

/-- The matching entry of a bucket in the lowest slot. -/
def State.bucketMatch (s : State) (base bucket tag : Nat) (large : Bool) : Option Nat :=
  ((List.range 8).map (s.pte base bucket)).find? fun e => pteMatch e tag large

/-- The home-bucket lookup of one size (R231); a root that breaks R235 finds nothing. -/
def State.home (s : State) (r : Root) (va : Nat) (large : Bool) : Option Nat :=
  if r.ok then
    let h := pageHash (keyOf va large)
    s.bucketMatch r.base.toNat (h % 2 ^ r.n.toNat) (h / 2 ^ r.n.toNat) large
  else none

/-- The buckets of a walk from `bucket` on (R238). -/
def State.walkFrom (s : State) (r : Root) (tag : Nat) (large : Bool) : Nat → Nat → Option Nat
  | 0, _ => none
  | fuel + 1, bucket =>
    match s.bucketMatch r.base.toNat bucket tag large with
    | some e => some e
    | none =>
      if ((List.range 8).map (s.pte r.base.toNat bucket)).any pteFree then none
      else s.walkFrom r tag large fuel ((bucket + 1) % 2 ^ r.n.toNat)

/-- The walk of one size (R238): at most four buckets. -/
def State.walk1 (s : State) (r : Root) (va : Nat) (large : Bool) : Option Nat :=
  if r.ok then
    let h := pageHash (keyOf va large)
    s.walkFrom r (h / 2 ^ r.n.toNat) large 4 (h % 2 ^ r.n.toNat)
  else none

/-- The first stack in self-refresh that a walk from `bucket` on comes to: it reads no bucket behind one that it waits for, nor
behind one that ends it (R238, R328). -/
def State.walkStack (s : State) (r : Root) (tag : Nat) (large : Bool) : Nat → Nat → Option Nat
  | 0, _ => none
  | fuel + 1, bucket =>
    if s.stackHeld (r.base.toNat + 64 * bucket) then some (stackOf (r.base.toNat + 64 * bucket))
    else if (s.bucketMatch r.base.toNat bucket tag large).isSome ||
        ((List.range 8).map (s.pte r.base.toNat bucket)).any pteFree then none
    else s.walkStack r tag large fuel ((bucket + 1) % 2 ^ r.n.toNat)

/-- A stack in self-refresh that holds a bucket which a walk of either size of va reads (R328, R239). -/
def State.walkHeld (s : State) (r : Root) (va : Nat) : Option Nat :=
  let one (large : Bool) : Option Nat :=
    let h := pageHash (keyOf va large)
    s.walkStack r (h / 2 ^ r.n.toNat) large 4 (h % 2 ^ r.n.toNat)
  if r.ok then (one false).or (one true) else none

/-- The entry of both walks; the small-page walk is used when both match (R239).  (DEDUCED: assumption 29.) -/
def State.walk (s : State) (r : Root) (va : Nat) : Option (Nat × Bool) :=
  match s.walk1 r va false with
  | some e => some (e, false)
  | none => (s.walk1 r va true).map fun e => (e, true)

/-! ## Handles (R229, R231) -/

/-- A valid handle from an entry (R231). -/
def handleOf (r : Root) (va e : Nat) (large : Bool) : Handle :=
  { state := .valid, large := large, kind := BitVec.ofNat 2 (pteKind e), w := decide (e / 2 ^ 59 % 2 = 1)
    x := decide (e / 2 ^ 58 % 2 = 1), asid := r.asid
    page := BitVec.ofNat 40 (if large then va % 2 ^ 56 / 2 ^ 25 * 512 else va % 2 ^ 56 / 2 ^ 16)
    ppn := BitVec.ofNat 38 (if large then e % 2 ^ 38 / 512 * 512 else e % 2 ^ 38) }

/-- A handle in state not found, late or revoked: the 64 KiB page and the address space (R229). -/
def handleBad (st : HState) (r : Root) (va : Nat) : Handle :=
  { Handle.none with state := st, asid := r.asid, page := BitVec.ofNat 40 (va % 2 ^ 56 / 2 ^ 16) }

/-- The home bucket of one size lies in a stack in self-refresh: its read is held, and has not returned by the 640th cycle
(R231, R328). -/
def State.bucketHeld (s : State) (r : Root) (va : Nat) (large : Bool) : Bool :=
  s.stackHeld (r.base.toNat + 64 * (pageHash (keyOf va large) % 2 ^ r.n.toNat))

/-- The result of TRN (R231); `smallLate` and `largeLate` say which bucket has not returned by the 640th cycle.  A root that
breaks R235 gives not found for every address. -/
def State.translate (s : State) (r : Root) (va : Nat) (smallLate largeLate : Bool) : Handle :=
  if !r.ok then handleBad .notFound r va
  else match (if smallLate then none else s.home r va false) with
  | some e => handleOf r va e false
  | none =>
    match (if smallLate || largeLate then none else s.home r va true) with
    | some e => handleOf r va e true
    | none => if smallLate || largeLate then handleBad .late r va else handleBad .notFound r va

/-- A stack in self-refresh holds a request from now on (R328). -/
def State.hold (s : State) (stack : Nat) : State :=
  if s.sys.holding.any fun x => decide (x.1 = stack) then s
  else { s with sys := { s.sys with holding := s.sys.holding ++ [(stack, s.now)] } }

/-- The stack of the home bucket of one size holds its read, when it is in self-refresh (R328). -/
def State.holdBucket (s : State) (r : Root) (va : Nat) (large : Bool) : State :=
  let p := r.base.toNat + 64 * (pageHash (keyOf va large) % 2 ^ r.n.toNat)
  if r.ok && s.stackHeld p then s.hold (stackOf p) else s

/-- The translations in flight of the current strand land (R230, R231); one that an invalidate marked lands revoked
(R241).  (DEDUCED: assumption 22.) -/
def State.landTrns (s : State) (smallLate largeLate : Bool) : State :=
  s.me.trns.foldl (fun t f =>
    let t := (t.holdBucket f.root f.va.toNat false).holdBucket f.root f.va.toNat true
    let h := if !f.marks.isEmpty then handleBad .revoked f.root f.va.toNat else s.translate f.root f.va.toNat (smallLate || s.bucketHeld f.root f.va.toNat false)
        (largeLate || s.bucketHeld f.root f.va.toNat true)
    t.updMe fun st => st.setH f.h h) (s.updMe fun st => { st with trns := [] })

/-- Re-translation of a valid handle at restore and ERET (R242): valid from the entry found, or revoked.
(DEDUCED: assumption 29.) -/
def State.retranslate (s : State) (r : Root) (h : Handle) : Handle :=
  if h.state = .valid then
    match s.walk r (h.page.toNat * 65536) with
    | some (e, large) => handleOf r (h.page.toNat * 65536) e large
    | none => handleBad .revoked { r with asid := h.asid } (h.page.toNat * 65536)
  else h

/-! ## Invalidation (R240, R241) -/

/-- A command covers a page of an address space: its asid matches, its hint admits the size, and the ranges overlap
(R241). -/
def InvCmd.covers (c : InvCmd) (asid : BitVec 16) (large : Bool) (page : Nat) : Bool :=
  let n := if large then 512 else 1
  (decide (c.asid = 0xFFFF) || decide (c.asid = asid)) &&
  (match c.hint.toNat with | 1 => !large | 2 => large | _ => true) &&
  (decide (c.count = 0) ||
    (decide (page < c.start.toNat + c.count.toNat) && decide (c.start.toNat < page + n)))

/-- A command covers a handle. -/
def InvCmd.coversHandle (c : InvCmd) (h : Handle) : Bool :=
  decide (h.state = .valid) && c.covers h.asid h.large h.page.toNat

/-- A command covers a translation in flight: its result, of either size, would be covered. -/
def InvCmd.coversTrn (s : State) (c : InvCmd) (f : TrnFlight) : Bool :=
  c.coversHandle (s.translate f.root f.va.toNat false false)

/-- A control word that waits at the splitter and captured a covered handle is counted (R241). -/
def InvCmd.tallyAt (c : InvCmd) (x : AtSplit) : AtSplit :=
  if (x.handle.map c.coversHandle).getD false then { x with counted := c.number :: x.counted } else x

/-- A word that captured a covered handle is counted (R241). -/
def InvCmd.tally (c : InvCmd) (e : QEntry) : QEntry :=
  if e.handles.any c.coversHandle then { e with counted := c.number :: e.counted } else e

/-- A handle that a command covers becomes revoked (R241). -/
def InvCmd.revoked (c : InvCmd) (h : Handle) : Handle :=
  if c.coversHandle h then handleBad .revoked ⟨0, 0, h.asid⟩ (h.page.toNat * 65536) else h

/-- The handle of a slot's window, changed (R222). -/
def StreamSlot.onHandle (f : Handle → Handle) (x : StreamSlot) : StreamSlot :=
  { x with window := x.window.map fun w => { w with handle := f w.handle } }

/-- The broadcast of a command at a core (R241): covered handles, those of windows among them, are revoked, covered translations in flight marked, and
unfinished words that captured a covered handle counted.  (DEDUCED: assumption 95.) -/
def State.revoke (s : State) (c : InvCmd) : State :=
  let strands := s.strands.map fun st =>
    { st with
      h := st.h.map c.revoked
      slots := st.slots.map (StreamSlot.onHandle c.revoked)
      trns := st.trns.map fun f => if InvCmd.coversTrn s c f then { f with marks := c.number :: f.marks } else f
      queue := st.queue.map c.tally
      inject := st.inject.map c.tally
      atSplit := st.atSplit.map c.tallyAt }
  let orphans := s.orphans.map fun o => { o with strand := { o.strand with queue := o.strand.queue.map c.tally } }
  { s with strands := strands, orphans := orphans }

/-- Every word that the command counted has completed, those that wait at the splitter or for re-injection and those that outlive
their strand too, and every translation that it marked has landed (R241). -/
def State.invDone (s : State) (c : InvCmd) : Bool :=
  let free (l : List QEntry) : Bool := l.all fun e => decide (c.number ∉ e.counted)
  (s.strands.toList.all fun st => free st.queue && free st.inject &&
    (st.atSplit.all fun x => decide (c.number ∉ x.counted)) && st.trns.all fun f => decide (c.number ∉ f.marks)) &&
  s.orphans.all fun o => free o.strand.queue

/-- The greatest number n such that every command up to n is acknowledged (R240). -/
def State.acked (s : State) : BitVec 32 :=
  match s.sys.invs with
  | [] => s.sys.invNext - 1
  | c :: _ => c.number - 1

end Sys2Proof.Machine
end

