-- ==== Sys2Proof/Machine/Ops.lean ====
section
/-! DEFINITION. Operations over strands: the pending scoreboard (R46), the loop sequencer and transfers (R64-R72), results
in flight (R52-R54), the error record (R321), and the three ways an exception is taken: a user trap (R248), a fatal
context error (R234) and a machine check (R323). -/

namespace Sys2Proof.Machine

/-- What a meaning answers. -/
abbrev Result := Host.Outcome State Fault Refusal

/-! ## Vector results (R52, R104) -/

/-- The bits of the lanes that a lane mask selects. -/
def laneBits (lanes : BitVec 32) : BitVec 1024 :=
  BitVec.ofNat 1024 ((List.range 32).foldl
    (fun acc l => acc + (if lanes.getLsbD l then 0xFFFFFFFF * 2 ^ (32 * l) else 0)) 0)

/-- A register after a write of some lanes (R104, R124): the unwritten lanes stay when the tags are equal, and are zero
otherwise; so do the unwritten sidecar bytes. -/
def VReg.write (r : VReg) (lanes : BitVec 32) (data : BitVec 1024) (tag : BitVec 4) (side sideMask : BitVec 128)
    (poison : Bool) : VReg :=
  let keep := decide (r.tag = tag)
  let m := laneBits lanes
  { data := (data &&& m) ||| (if keep then r.data &&& ~~~m else 0)
    tag := tag
    side := (side &&& sideMask) ||| (if keep then r.side &&& ~~~sideMask else 0)
    poison := poison || (keep && !decide (lanes = 0xFFFFFFFF) && r.poison) }

/-- A vector result lands (R52). -/
def VWrite.land (w : VWrite) (st : Strand) : Strand :=
  match w with
  | .vec vd lanes data tag side sideMask poison => st.setV vd ((st.getV vd).write lanes data tag side sideMask poison)
  | .mask md v => if md = 0 then st else st.setM md v
  | .act m => { st with act := m }
  | .scalar d v => st.setS d v
  | .pred d v => st.setP d v

/-- A result in flight, kept in the order in which results land: by slot, and in one slot in program order (R52). -/
def insertFlight (f : Flight) : List Flight → List Flight
  | [] => [f]
  | g :: t => if g.slot ≤ f.slot then g :: insertFlight f t else f :: g :: t

/-- The results due at or before a slot land (R52). -/
def Strand.landDue (st : Strand) (slot : Nat) : Strand :=
  (st.flight.takeWhile fun f => decide (f.slot ≤ slot)).foldl (fun t f => f.w.land t)
    { st with flight := st.flight.dropWhile fun f => decide (f.slot ≤ slot) }

/-- The pipeline drains (R54): empty slots issue until every result has landed. -/
def Strand.drainPipe (st : Strand) : Strand :=
  let last := st.flight.foldl (fun m f => max m f.slot) st.vslot
  { st.landDue last with vslot := last }

/-! ## The pending scoreboard (R46, R249) -/

/-- No registers. -/
def noUses : Uses := ⟨[], [], [], [], [], []⟩

/-- The registers a queued word names; a CPYM's follow-on is an entry of its own (R42). -/
def QEntry.uses (e : QEntry) : Uses :=
  match e.instr with
  | .cpymLinear .. => noUses
  | .cpymPattern .. => noUses
  | i => i.uses

/-- The S, P and H registers that the words of a list name. -/
def writesOf : List QEntry → Uses
  | [] => noUses
  | e :: t => e.uses.join (writesOf t)

/-- S(r) is pending: a queued word or a vector result in flight writes it (R46). -/
def Strand.pendS (st : Strand) (r : BitVec 5) : Bool :=
  decide (r ≠ 0) && (decide (r ∈ (writesOf st.queue).sw) || st.flight.any fun f =>
    match f.w with | .scalar d _ => decide (d = r) | _ => false)

/-- P(r) is pending. -/
def Strand.pendP (st : Strand) (r : BitVec 3) : Bool :=
  decide (r ≠ 0) && (decide (r ∈ (writesOf st.queue).pw) || st.flight.any fun f =>
    match f.w with | .pred d _ => decide (d = r) | _ => false)

/-- H(r) is pending: on a queued word, or on a translation in flight (R230). -/
def Strand.pendH (st : Strand) (r : BitVec 4) : Bool :=
  decide (r ∈ (writesOf st.queue).hw) || st.trns.any fun t => decide (t.h = r)

/-- An instruction names a pending register (R40, step 2). -/
def Strand.pends (st : Strand) (u : Uses) : Bool :=
  (u.sr ++ u.sw).any st.pendS || (u.pr ++ u.pw).any st.pendP || (u.hr ++ u.hw).any st.pendH

/-- The first register an instruction names that is pending on a withdrawn word: the detail of cause 0x0C (R244):
[7:0] 1, [9:8] the class, [15:10] the number. -/
def Strand.heldReg (st : Strand) (u : Uses) : Option (BitVec 64) :=
  match (u.sr ++ u.sw).find? fun r => decide (r ≠ 0) && st.heldS.getLsbD r.toNat with
  | some r => some (BitVec.ofNat 64 (1 + r.toNat * 1024))
  | none =>
    match (u.pr ++ u.pw).find? fun r => decide (r ≠ 0) && st.heldP.getLsbD r.toNat with
    | some r => some (BitVec.ofNat 64 (1 + 256 + r.toNat * 1024))
    | none =>
      match (u.hr ++ u.hw).find? fun r => st.heldH.getLsbD r.toNat with
      | some r => some (BitVec.ofNat 64 (1 + 512 + r.toNat * 1024))
      | none => none

/-- The bits of a list of register numbers, register 0 left out when `zero`. -/
def regBits {w : Nat} (n : Nat) (zero : Bool) (rs : List (BitVec w)) : BitVec n :=
  rs.foldl (fun acc r => if zero && decide (r = 0) then acc else acc ||| BitVec.ofNat n (2 ^ r.toNat)) 0

/-! ## Loops and transfers (R64-R72) -/

/-- The levels from `k` on end and lose their strides (R72). -/
def Strand.exitLevels (st : Strand) (k : Nat) : Strand :=
  { st with loops := Vector.ofFn fun (i : Fin 6) => if k ≤ i.val ∧ st.loops[i].active then Loop.idle else st.loops[i] }

/-- The first active level whose body does not contain `target`, and every deeper one, end (R72). -/
def Strand.exitTo (st : Strand) (target : BitVec 32) : Strand :=
  match (List.finRange 6).find? fun i =>
    st.loops[i].active && !(decide (st.loops[i].start ≤ target) && decide (target ≤ st.loops[i].fin)) with
  | some k => st.exitLevels k.val
  | none => st

/-- The strides of a level applied to A0–A7 in ascending order (R69). -/
def Strand.stride (st : Strand) (l : Loop) : Strand :=
  (List.finRange 8).foldl
    (fun t a => if l.stride[a] = 0 then t else t.advA (BitVec.ofFin a) l.stride[a].toInt) st

/-- EndOfIteration (R69) for the levels below `k`, innermost first, whose body ends where the splitter moves on from
`pc` to `next`; a level whose body holds no such end stands as it is.  Answers the next address. -/
def Strand.endLoops : (k : Nat) → k ≤ 6 → BitVec 32 → BitVec 32 → Strand → Strand × BitVec 32
  | 0, _, _, next, st => (st, next)
  | k + 1, h, pc, next, st =>
    let l := st.loops[k]'(by omega)
    if !l.active then Strand.endLoops k (by omega) pc next st
    else if l.start ≤ pc ∧ pc ≤ l.fin ∧ l.fin < next then
      let t := st.stride l
      if l.brk || decide (l.iter = l.count) then
        Strand.endLoops k (by omega) pc next { t with loops := t.loops.set k Loop.idle (by omega) }
      else ({ t with loops := t.loops.set k { l with iter := l.iter + 1 } (by omega) }, l.start)
    else Strand.endLoops k (by omega) pc next st

/-- A change of the strand's vector mode is a drain point (R54): `old` is the strand before it. -/
def Strand.modeDrain (st old : Strand) : Strand :=
  { st with drainDue := st.drainDue || (st.interlocked != old.interlocked) }

/-- The loops, the transfer and the PC after an instruction of `words` words that stood at `pc`, with the transfer `x`
standing before it (R64, R69, R72): loop iterations end, a delay instruction is counted, and after the last one control
passes. -/
def Strand.passWord (st : Strand) (pc : BitVec 32) (words : Nat) (x : Option Transfer) : Strand :=
  let (t, next) := Strand.endLoops 6 (by omega) pc (st.pc + BitVec.ofNat 32 (4 * words)) st
  match x with
  | none => { t with pc := next }
  | some x =>
    if 2 ≤ x.left then { t with pc := next, xfer := some { x with left := x.left - 1 } }
    else if x.taken then { t.exitTo x.target with pc := x.target, xfer := none }
    else { t with pc := next, xfer := none }

/-- The splitter moves past an instruction; the end of a level of the other vector mode is a drain point (R54), and no word
stands at the splitter any longer. -/
def Strand.moveOn (st : Strand) (pc : BitVec 32) (words : Nat) (x : Option Transfer) : Strand :=
  { (st.passWord pc words x).modeDrain st with atSplit := none }

/-- The splitter moves past a PROBE that it has split: the next word, the count of a standing transfer and the end of an
iteration wait until then (R239).  (DEDUCED: assumption 24.) -/
def Strand.passProbe (st : Strand) : Strand :=
  if st.passing then ({ st with passing := false } : Strand).moveOn st.pc 1 st.xfer else st

/-- A PROBE. -/
def QEntry.isProbe (e : QEntry) : Bool :=
  match e.instr with
  | .probe .. => true
  | _ => false

/-- A PROBE at which the splitter stands counts as unsplit when a trap comes first: none of the three things that wait for
it has taken effect, and it is split again where the strand resumes (R239).  (DEDUCED: assumption 24.) -/
def Strand.unsplitProbe (st : Strand) : Strand :=
  if st.passing then { st with passing := false, queue := st.queue.filter fun e => !e.isProbe } else st

/-! ## Sequence numbers (R220) -/

/-- The completed counter and the numbers beyond it, when the numbers that follow the counter without a gap are taken in. -/
def absorb : Nat → BitVec 32 → List (BitVec 32) → BitVec 32 × List (BitVec 32)
  | 0, done, late => (done, late)
  | n + 1, done, late =>
    if done + 1 ∈ late then absorb n (done + 1) (late.erase (done + 1)) else (done, late)

/-- The word of a class with a number has completed: the counter is the greatest number up to which all have (R220). -/
def countUp (done num : BitVec 32) (late : List (BitVec 32)) : BitVec 32 × List (BitVec 32) :=
  absorb (late.length + 1) done (num :: late)

/-- The completed counters after a word has completed with its number (R220). -/
def Strand.completed (st : Strand) (i : Instr) (num : BitVec 32) : Strand :=
  if i.copyNumbered then
    let (d, l) := countUp st.copyDone num st.copyLate
    { st with copyDone := d, copyLate := l }
  else if i.netNumbered then
    let (d, l) := countUp st.netDone num st.netLate
    { st with netDone := d, netLate := l }
  else st

/-! ## Words that have begun (R228, R248, R288) -/

/-- An MRD. -/
def isMrd : Instr → Bool
  | .mrd .. => true
  | _ => false

/-- The parts left of a word that has begun and not ended: of a network or copy word by its number, and of the first MRD of the
strand. -/
def Strand.begun (st : Strand) (before : List QEntry) (e : QEntry) : Option (List Piece) :=
  if e.instr.netNumbered then st.leftOf 6 e.num
  else if e.instr.copyNumbered then st.leftOf 5 e.num
  else if isMrd e.instr then (if before.any fun b => isMrd b.instr then none else st.leftOf 2 e.num)
  else none

/-- The words that have begun and not ended. -/
def Strand.begunWords (st : Strand) : List QEntry → List QEntry → List QEntry
  | _, [] => []
  | before, e :: t => (if (st.begun before e).isSome then [e] else []) ++ st.begunWords (before ++ [e]) t

/-- A word of the strand has begun and not ended. -/
def Strand.busy (st : Strand) : Bool := !st.gather.isEmpty || !st.moving.isEmpty || st.storing.isSome

/-- The strand with one word queued, and of what has begun only that word. -/
def Strand.only (st : Strand) (e : QEntry) : Strand :=
  { st with queue := [e], inject := []
            gather := st.gather.filter fun x => e.instr.netNumbered && decide (x.1 = e.num)
            moving := st.moving.filter fun x => e.instr.copyNumbered && decide (x.1 = e.num)
            storing := if isMrd e.instr then st.storing else none }

/-- The strand without a queued word, and without what has begun of it: the first that `e` is. -/
def Strand.without (st : Strand) (e : QEntry) : Strand :=
  { st with queue := st.queue.erase e
            gather := st.gather.filter fun x => !(e.instr.netNumbered && decide (x.1 = e.num))
            moving := st.moving.filter fun x => !(e.instr.copyNumbered && decide (x.1 = e.num))
            storing := if isMrd e.instr then none else st.storing }

/-! ## Contexts and nodes -/

/-- The binding of a strand's launch queue. -/
def State.binding (s : State) (st : Strand) : Option QueueBinding :=
  match st.placed with
  | none => none
  | some pl => (s.sys.queues.find? fun q => decide (q.1 = pl.queue.toNat)).map fun q => q.2.binding

/-- A record takes its place in the buffer: at its end, but before what the same strand recorded with a later time
(R345).  (DEDUCED: assumption 68.) -/
def insertTrace (r : TraceRec) : List TraceRec → List TraceRec
  | [] => [r]
  | x :: t => if decide (x.strand = r.strand) && decide (r.time < x.time) then r :: x :: t else x :: insertTrace r t

/-- A record of a strand enters the core's trace buffer; after a record that was dropped it carries the mark (R343, R344). -/
def State.putTrace (s : State) (queue : BitVec 6) (time a b : BitVec 64) (source strand : Nat) : State :=
  let r : TraceRec := ⟨queue, time, a, b, BitVec.ofNat 64 (source + (if s.traceLost then 2 ^ 15 else 0)), strand⟩
  { s with trace := insertTrace r s.trace, traceLost := false }

/-- The record of an engine event enters the buffer of 64; one that finds it full is dropped, and the next carries the mark
(R345). -/
def State.pushTrace (s : State) (queue : BitVec 6) (time a b : BitVec 64) (source strand : Nat) : State :=
  if s.trace.length < 64 then s.putTrace queue time a b source strand else { s with traceLost := true }

/-- An engine event (R345, Table 3) of the current strand, which runs for `st`: written when the queue's binding has a
trace ring and its mask enables the class.  (DEDUCED: assumption 68.) -/
def State.traceFor (s : State) (st : Strand) (cls : BitVec 3) (code : Nat) (a b : BitVec 64) : State :=
  match st.placed, s.binding st with
  | some pl, some bd =>
    if bd.trace.isSome && bd.mask.getLsbD cls.toNat then
      s.pushTrace pl.queue s.now a b
        (code + cls.toNat * 2 ^ 12 + s.gstrand s.cur.val * 2 ^ 16 + 2 ^ 27 + pl.node.toNat * 2 ^ 32) st.ident
    else s
  | _, _ => s

/-- An engine event of the current strand. -/
def State.traceEvent (s : State) (cls : BitVec 3) (code : Nat) (a b : BitVec 64) : State := s.traceFor s.me cls code a b

end Sys2Proof.Machine

namespace Sys2Proof

/-- Two bindings name one context: one translation root (R293). -/
def QueueBinding.sameRoot (a b : QueueBinding) : Bool :=
  decide (a.base = b.base) && decide (a.n = b.n) && decide (a.asid = b.asid)

end Sys2Proof

namespace Sys2Proof.Machine

/-- Two placed strands run in one context (R293). -/
def State.sameContext (s : State) (a b : Strand) : Bool :=
  match a.placed, b.placed with
  | some p, some q =>
    decide (p.queue = q.queue) ||
    (match s.binding a, s.binding b with
      | some x, some y => x.sameRoot y
      | _, _ => false)
  | _, _ => false

/-- A node belongs to the context of a placed strand. -/
def State.nodeInContext (s : State) (st : Strand) (n : Node) : Bool :=
  match st.placed with
  | none => false
  | some p =>
    decide (p.queue = n.queue) ||
    (match s.binding st, (s.sys.queues.find? fun q => decide (q.1 = n.queue.toNat)).map fun q => q.2.binding with
      | some x, some y => x.sameRoot y
      | _, _ => false)

/-- A node ends tainted (R234, R323): finished, with verdict 2, a reason and an error record. -/
def Node.taint (n : Node) (now : BitVec 64) (reason : BitVec 8) (err : Option (BitVec 512)) : Node :=
  { n with stage := .finished, verdict := 2, reason := reason, errRecs := n.errRecs ++ err.toList, fin := now, killed := true,
           far := [],
           start := match n.start with | some t => some t | none => some now }

/-- An open chain of a strand is closed; its tiles keep their contents, tag and poison (R308). -/
def MatrixEngine.closeFor (m : MatrixEngine) (k : Fin 4) : MatrixEngine :=
  match m.chain with
  | some c => if c.owner = k then { m with chain := none } else m
  | none => m

/-- The words of a strand that have begun, which run to their end when its slot is freed (R228, R323). -/
def Strand.orphaned (st : Strand) (k : Fin 4) : List Orphan :=
  (st.begunWords [] st.queue).map fun w => ⟨k, { st.only w with flight := [], trns := [], sleeping := none, atSplit := none }⟩

/-- A strand whose slot is free: nothing of it is queued, begun or waits. -/
def Strand.vacated (st : Strand) : Strand :=
  { st with placed := none, queue := [], gather := [], moving := [], storing := none, inject := [], flight := [], trns := []
            sleeping := none, atSplit := none, trcs := [] }

/-- A waiting access of the slot `k` whose word, a network word of `st` that has begun, outlives the slot (R228). -/
def Waiter.outlives (w : Waiter) (st : Strand) : Bool := decide (w.cls = 6) && st.gather.any fun x => decide (x.1 = w.num)

/-- A strand slot is freed: its chain is closed, its words that have not begun are discarded, and so are the accesses with
which they wait. -/
def State.freeSlot (s : State) (k : Fin 4) : State :=
  let st := s.strands[k]
  { s with
    strands := s.strands.set k.val st.vacated k.isLt
    orphans := s.orphans ++ st.orphaned k
    matrix := s.matrix.closeFor k
    waiters := s.waiters.filter fun w => !decide (w.strand = k) || w.outlives st }

/-! ## The machine-check record (R321, Table 2) -/

/-- The fields of a record that vary with what raised it. -/
structure Report where
  cause  : BitVec 8
  kind   : BitVec 8
  flags  : BitVec 8
  engine : BitVec 8
  lane   : BitVec 8
  expect : BitVec 8
  actual : BitVec 8
  addr   : BitVec 64
  detail : BitVec 64
  pc     : BitVec 32
  word   : BitVec 32
  node   : BitVec 32
  core   : BitVec 8
  strand : BitVec 8
  mac    : BitVec 8
  column : BitVec 8
deriving DecidableEq, Repr, Inhabited

/-- The 64 bytes of a record of a die (R321). -/
def State.recordOn (s : State) (die : Nat) (r : Report) : BitVec 512 :=
  BitVec.ofNat 512 (leNat (leBytes 8 s.now.toNat ++ leBytes 4 r.node.toNat ++
    [r.cause, r.kind, r.flags, r.engine, BitVec.ofNat 8 die, r.core, r.strand, r.lane] ++
    leBytes 4 r.pc.toNat ++ leBytes 4 r.word.toNat ++ [r.mac, r.column, r.expect, r.actual] ++
    leBytes 8 r.addr.toNat ++ leBytes 8 r.detail.toNat))

/-- The 64 bytes of a record of the core's die (R321). -/
def State.record (s : State) (r : Report) : BitVec 512 := s.recordOn s.die r

/-- A record in the die's log of 256: when full the oldest is dropped, and the next record written says so (R321). -/
def State.logRecord (s : State) (x : BitVec 512) : State :=
  let x := if s.sys.logLost then x ||| BitVec.ofNat 512 (4 * 2 ^ (8 * 14)) else x
  let full := decide (256 ≤ s.sys.log.length)
  { s with sys := { s.sys with
      log := (if full then s.sys.log.drop 1 else s.sys.log) ++ [x]
      logLost := full } }

/-- A record in the log of a die: the model holds that of the core's own. -/
def State.logOn (s : State) (die : Nat) (x : BitVec 512) : State := if die = s.die then s.logRecord x else s

/-- The node id of a strand, 0 when it is not placed. -/
def Strand.nodeId (st : Strand) : BitVec 32 :=
  match st.placed with
  | some pl => pl.node
  | none => 0

/-- A report about a word of the current strand, of a class and with a head word. -/
def State.headReport (s : State) (cause kind flags : BitVec 8) (cls : BitVec 3) (head : Word) (pc : BitVec 32)
    (addr : BitVec 64) : Report :=
  { cause := cause, kind := kind, flags := flags, engine := cls.setWidth 8, lane := 0xFF, expect := 0xFF
    actual := 0xFF, addr := addr, detail := 0, pc := pc, word := head, node := s.me.nodeId
    core := BitVec.ofNat 8 s.coreInDie, strand := BitVec.ofNat 8 s.cur.val, mac := 0xFF, column := 0xFF }

/-- A report about an instruction of the current strand. -/
def State.wordReport (s : State) (cause kind flags : BitVec 8) (i : Instr) (pc : BitVec 32) (addr : BitVec 64) :
    Report :=
  s.headReport cause kind flags i.cls ((encode i).headD 0) pc addr

/-! ## Soft errors (R317) -/

/-- A record of the controllers: engine 7, no core, strand or word (R321); detail holds stack and channel. -/
def memReport (cause kind flags : BitVec 8) (addr : Nat) (stack channel bank row : Nat) : Report where
  cause := cause
  kind := kind
  flags := flags
  engine := 7
  lane := 0xFF
  expect := 0xFF
  actual := 0xFF
  addr := BitVec.ofNat 64 addr
  detail := BitVec.ofNat 64 (stack % 256 + channel % 256 * 2 ^ 8 + bank % 256 * 2 ^ 16 + row % 2 ^ 24 * 2 ^ 24)
  pc := 0
  word := 0
  node := 0
  core := 0xFF
  strand := 0xFF
  mac := 0xFF
  column := 0xFF

/-- Corrected errors are counted and logged (R317, R326). -/
def State.logCorrected (s : State) (r : Report) : Nat → State
  | 0 => s
  | k + 1 =>
    let n : BitVec 32 := if s.sys.ceCount = 0xFFFFFFFF then s.sys.ceCount else s.sys.ceCount + 1
    (({ s with sys := { s.sys with ceCount := n } } : State).logRecord (s.record r)).logCorrected r k

/-- The node of a strand that runs, whose attempt is being withdrawn, or that waits for its completion record. -/
def Strand.charges (st : Strand) (n : Node) : Bool :=
  match st.placed with
  | some pl => decide (n.id = pl.node) && decide (n.queue = pl.queue) &&
      (decide (n.stage = .running) || !n.dropping.isEmpty || decide (n.stage = .finished))
  | none => false

/-- The error count of the node of the current strand goes up (R313, R317). -/
def State.chargeNode (s : State) : State :=
  let hit (n : Node) : Node := if s.me.charges n then { n with errors := min (n.errors + 1) 0xFFFF } else n
  { s with sys := { s.sys with nodes := s.sys.nodes.map hit } }

/-- A corrected soft error of a word of the current strand: counted, logged and charged to its node (R317). -/
def State.corrected (i : Instr) (pc : BitVec 32) (s : State) (addr : BitVec 64) : State :=
  (s.logCorrected (s.wordReport 0 2 0 i pc addr) 1).chargeNode

/-- A corrected error of an access that no word made: counted and logged, and charged to no node (R317). -/
def State.strayCorrected (s : State) (addr : BitVec 64) : State :=
  let p := addr.toNat
  let r := if isMain p then memReport 0 2 0 p (stackOf p) (channelOf p % 32) (Config.faultPlace s.nfree 9) (Config.faultPlace s.nfree 10)
    else memReport 0 2 0 p 0 0 0 0
  s.logCorrected r 1

/-- The accesses that no word made meet the corrected errors that the environment has for this step (R317).
(DESIGN CHOICE: assumption 8.) -/
def State.strikeStray (s : State) : State :=
  match s.env.stray with
  | [] => s
  | as :: t =>
    let env := { s.env with stray := t }
    as.foldl State.strayCorrected { s with env := env }

/-- The accesses of a word meet the corrected errors that the environment has for it (R317).
(DESIGN CHOICE: assumption 8.) -/
def State.meetSoft (s : State) (i : Instr) (pc : BitVec 32) : State :=
  match s.env.soft with
  | [] => s
  | as :: t =>
    let env := { s.env with soft := t }
    as.foldl (State.corrected i pc) { s with env := env }

/-- An uncorrectable soft error poisons what holds the bytes (R317). -/
def State.upset (s : State) : Upset → State
  | .granule g =>
    let bad := setAdd s.poison g
    { s with poison := bad }
  | .register k v =>
    let st := s.strands[k]
    { s with strands := s.strands.set k.val (st.setV v { st.getV v with poison := true }) k.isLt }
  | .tile t =>
    let x := s.matrix.tiles[t.toNat]'t.isLt
    { s with matrix := { s.matrix with tiles := s.matrix.tiles.set t.toNat { x with poison := true } t.isLt } }
  | .krow mac side k =>
    let m := s.matrix.macros[mac.toNat]'mac.isLt
    let hit (p : Plane) : Plane := { p with poison := p.poison ||| BitVec.ofNat 128 (2 ^ k.toNat) }
    let m := if side = 0 then { m with plane0 := hit m.plane0 } else { m with plane1 := hit m.plane1 }
    { s with matrix := { s.matrix with macros := s.matrix.macros.set mac.toNat m mac.isLt } }

/-- The uncorrectable errors of the environment strike before the next step (R317).  (DESIGN CHOICE: assumption 8.) -/
def State.strikeUpsets (s : State) : State :=
  match s.env.upsets with
  | [] => s
  | us :: t =>
    let env := { s.env with upsets := t }
    us.foldl State.upset { s with env := env }

/-! ## Fatal context errors (R234) -/

/-- A staging slice that software has given to the context of a strand (R284).  (DESIGN CHOICE: assumption 87.) -/
def State.stagingOf (s : State) (st : Strand) (p : Nat) : Bool :=
  match st.placed with
  | none => false
  | some pl => s.env.slices.any fun x =>
    decide (x.2 = pl.queue) && decide (chipPlace s.sys.device 2 x.1 0 ≤ p ∧ p < chipPlace s.sys.device 2 x.1 (2 ^ 23))

/-- A place of the memories of the modelled core: its scratchpad, or the cluster memory it hosts (R331). -/
def State.ofCore (s : State) (p : Nat) : Bool :=
  decide (chipPlace s.sys.device 0 s.sys.gcore 0 ≤ p ∧ p < chipPlace s.sys.device 0 s.sys.gcore Config.scratchBytes) ||
  decide (chipPlace s.sys.device 1 s.sys.gcore 0 ≤ p ∧ p < chipPlace s.sys.device 1 s.sys.gcore (2 ^ 20))

/-- The place of an access from outside. -/
def RemoteWait.place (w : RemoteWait) : Nat :=
  match w.req with
  | .read p _ _ _ _ => p
  | .write p _ _ _ => p

/-- Abandon flits go out for every access of another context that waits on a full-empty bit of the core's memories or of the
staging slices of the killed context, that of `st` (R284). -/
def State.abandonWaits (s : State) (st : Strand) : State :=
  let hit (w : RemoteWait) : Bool := w.rival.isSome && (s.ofCore w.place || s.stagingOf st w.place)
  { s with sys := { s.sys with
      abandonSent := s.sys.abandonSent ++ (s.sys.remoteWaits.filter hit).map RemoteWait.place
      remoteWaits := s.sys.remoteWaits.filter fun w => !hit w } }

/-- The saved strands that `f` selects have ended: their images name no strand of a running node any longer. -/
def State.endSaved (s : State) (f : Strand → Bool) : State :=
  let drop (x : Nat × Saved) : Nat × Saved := match x with
    | (a, .strand n true y) => (a, .strand n (!f y.strand) y)
    | x => x
  { s with sys := { s.sys with saved := s.sys.saved.map drop } }

/-- The strands that `f` selects no longer stand on other cores. -/
def State.endFar (s : State) (f : Strand → Bool) : State :=
  let clear (x : Nat × FarCore) : Nat × FarCore :=
    (x.1, { x.2 with strands := x.2.strands.map fun o => o.filter fun y => !f y.strand })
  { s with sys := { s.sys with cores := s.sys.cores.map clear } }

/-- Every running node of the context of a strand ends tainted: the strand's own with `own`, the others with
reason 0x24, each with the record; every strand of the context is stopped and its slot freed (R234, R323). -/
def State.killContext (s : State) (st : Strand) (own : BitVec 8) (rc : BitVec 512) : State :=
  let nodes := s.sys.nodes.map fun n =>
    if decide (n.stage = .running) && s.nodeInContext st n then
      n.taint s.now (if st.ofNode n then own else 0x24) (some rc)
    else n
  let doomed := (List.finRange 4).filter fun k => s.sameContext st s.strands[k]
  let t := doomed.foldl State.freeSlot { s with sys := { s.sys with nodes := nodes } }
  ((t.endSaved (s.sameContext st)).endFar (s.sameContext st)).abandonWaits st

end Sys2Proof.Machine

namespace Sys2Proof

/-- The code and TRAPDATA-independent detail of a fatal cause (R244).  (DESIGN CHOICE: assumption 14.) -/
def FatalCause.parts : FatalCause → BitVec 8 × BitVec 8 × BitVec 64 × BitVec 8
  | .invalidHandle => (0x20, 0, 0, 0x20)
  | .outOfPage => (0x21, 0, 0, 0x21)
  | .protection => (0x22, 0, 0, 0x22)
  | .userTrap code double => (code, if double then 2 else 0, 0, 0x23)
  | .handlerFault detail => (0x0C, 2, detail, 0x23)

end Sys2Proof

namespace Sys2Proof.Machine

/-- A fatal context error of the current strand, by the class and head word of what raised it (R234): the record goes to
the log and, with the completion records, to the nodes of the context. -/
def State.fatalHead (s : State) (c : FatalCause) (cls : BitVec 3) (head : Word) (pc : BitVec 32) (addr : BitVec 64) :
    State :=
  let (cause, flags, detail, reason) := c.parts
  let rc := s.record { s.headReport cause 1 flags cls head pc addr with detail := detail }
  (s.logRecord rc).killContext s.me reason rc

/-- A fatal context error raised by a word of the current strand (R234). -/
def State.fatalError (s : State) (c : FatalCause) (i : Instr) (pc : BitVec 32) (addr : BitVec 64) : State :=
  s.fatalHead c i.cls ((encode i).headD 0) pc addr

/-! ## Machine checks (R323) -/

/-- The task record's replayable flag (R296). -/
def Node.replayFlag (n : Node) : Bool := n.record.getLsbD 48

/-- Near-buffer bytes whose latest writer is one of the given strands are dropped; a line left empty is freed
(R323). -/
def State.dropWrites (s : State) (strands : List Nat) : State :=
  let cut := s.near.map fun l => { l with
    bytes := l.bytes.filter fun b => !decide (b.strand ∈ strands)
    writers := l.writers.filter fun w => !decide (w.strand ∈ strands) }
  { s with near := cut.filter fun l => !l.bytes.isEmpty }

/-- No word that one of the given strands had begun still runs (R323). -/
def State.ended (s : State) (strands : List Nat) : Bool := s.orphans.all fun o => decide (o.strand.ident ∉ strands)

/-- The buffered writes of the strands of a withdrawn attempt are dropped, once every word that they had begun has ended
(R323). -/
def State.dropDone (s : State) : State :=
  let done (n : Node) : Bool := !n.dropping.isEmpty && s.ended n.dropping
  let t := s.dropWrites ((s.sys.nodes.filter done).flatMap (·.dropping))
  { t with sys := { t.sys with nodes := t.sys.nodes.map fun n => if done n then { n with dropping := [] } else n } }

/-- The report of a column check that failed (R177, R321). -/
def State.cimReport (s : State) (c : Cim) (i : Instr) (pc : BitVec 32) : Report :=
  { s.wordReport 0x10 0 0 i pc 0 with
    mac := BitVec.ofNat 8 c.mac, column := BitVec.ofNat 8 c.col, expect := BitVec.ofNat 8 c.expect
    actual := BitVec.ofNat 8 c.actual
    detail := BitVec.ofNat 64 (c.plane + c.rail * 2 ^ 8 + c.bit * 2 ^ 16 + c.row * 2 ^ 24) }

/-- The node of a strand may still be replayed (R323, R324). -/
def State.replays (s : State) (st : Strand) : Bool := s.sys.nodes.any fun n =>
  st.ofNode n && n.replayFlag && !n.unreplayable && decide (n.replays < 3)

/-- Two strands of one node. -/
def Strand.sameNode (a b : Strand) : Bool :=
  a.placed.isSome && decide (a.placed.map (·.node) = b.placed.map (·.node)) &&
  decide (a.placed.map (·.queue) = b.placed.map (·.queue))

/-- The strands of the node of `st` that were saved away from their slots. -/
def State.savedOf (s : State) (st : Strand) : List Strand :=
  s.sys.saved.filterMap fun x => match x.2 with
    | .strand _ true y => if y.strand.sameNode st then some y.strand else none
    | _ => none

/-- The node of a strand is replayed (R323): its slots are freed, it waits for its place again, and its buffered writes are
dropped when what it had begun has ended; its record goes with its completion record (R322). -/
def State.replayNode (s : State) (st : Strand) (die : Nat) (rc : BitVec 512) : State :=
  let mine := (List.finRange 4).filter fun k => s.strands[k].sameNode st
  let names := mine.map (fun k => s.strands[k].ident) ++ (s.savedOf st).map (·.ident)
  let again (n : Node) : Node :=
    { n with stage := .eligible, replays := n.replays + 1, errors := min (n.errors + 1) 0xFFFF, dropping := names
             exited := 0, trigs := 0, far := [], storedPoison := false, killed := false, errRecs := n.errRecs ++ [rc] }
  let s := s.logOn die rc
  let s := { s with sys := { s.sys with nodes := s.sys.nodes.map fun n => if st.ofNode n then again n else n } }
  (((mine.foldl State.freeSlot s).endSaved (·.sameNode st)).endFar (·.sameNode st)).dropDone

/-- A machine check of a strand on a die, with its report (R323): the node is replayed when it still may be, at most 3 times, and
otherwise its context is killed. -/
def State.checkedFor (s : State) (st : Strand) (die : Nat) (base : Report) : State :=
  if s.replays st then s.replayNode st die (s.recordOn die { base with flags := base.flags ||| 1 })
  else
    let rc := s.recordOn die { base with flags := base.flags ||| 8 }
    let hit (n : Node) : Node := if st.ofNode n then { n with errors := min (n.errors + 1) 0xFFFF } else n
    let s := s.logOn die rc
    ({ s with sys := { s.sys with nodes := s.sys.nodes.map hit } } : State).killContext st base.cause rc

/-- A machine check of the current strand with its report (R323). -/
def State.checked (s : State) (base : Report) : State :=
  let s := ({ s with nfree := s.nfree + 1 }).traceEvent 0 9 (base.pc.setWidth 64) (base.cause.setWidth 64)
  s.checkedFor s.me s.die base

/-! ## The trap frame (R250) -/

/-- A handle in its saved form (R250): page, asid, large, state. -/
def Handle.saved (h : Handle) : Nat :=
  h.page.toNat + h.asid.toNat * 2 ^ 40 + (if h.large then 2 ^ 56 else 0) +
  (match h.state with | .empty => 0 | .valid => 1 | .notFound => 2 | .late => 3 | .revoked => 4) * 2 ^ 57

/-- The bytes of a captured value (R250). -/
def Cap.bytes : Cap → List Byte
  | .s v => leBytes 8 v.toNat
  | .a v => leBytes 4 v.toNat
  | .ring addr base len => leBytes 4 addr.toNat ++ leBytes 4 base.toNat ++ leBytes 4 len.toNat
  | .h v => leBytes 8 v.saved
  | .t v => leBytes 8 v.toNat
  | .n v => leBytes 4 v.toNat

/-- A list of bytes cut or filled with zeros to n. -/
def padTo (n : Nat) (l : List Byte) : List Byte := (l ++ List.replicate n 0).take n

/-- The head and continuation of an entry: a CPYM's follow-on is an entry of its own (R219). -/
def QEntry.wordPair (e : QEntry) : Word × Word :=
  match e.instr with
  | .cpymLinear .. => ((encode e.instr).headD 0, 0)
  | .cpymPattern .. => ((encode e.instr).headD 0, 0)
  | i => ((encode i).headD 0, ((encode i).drop 1).headD 0)

/-- One replay entry (R250, Table 4). -/
def QEntry.bytes (e : QEntry) (fault : Bool) : List Byte :=
  let (head, cont) := e.wordPair
  leBytes 4 head.toNat ++ leBytes 4 cont.toNat ++
  leBytes 4 (e.pc.toNat / 4 * 4 + (if fault then 2 else 0) + (if e.held then 1 else 0)) ++
  padTo 52 (e.caps.flatMap Cap.bytes)

/-- The quantiser configuration as QCFG encodes it, in bits [20:10] (R106, R250). -/
def QCfg.word (c : QCfg) : Nat :=
  c.target.toNat * 2 ^ 17 + c.axis.toNat * 2 ^ 16 + c.mode.toNat * 2 ^ 14 + c.sat.toNat * 2 ^ 13 + c.dd.toNat * 2 ^ 10

/-- One loop level (R250, Table 3). -/
def Loop.bytes (l : Loop) : List Byte :=
  leBytes 4 l.start.toNat ++ leBytes 4 l.fin.toNat ++ leBytes 4 l.count.toNat ++ leBytes 4 l.iter.toNat ++
  leBytes 4 ((if l.active then 1 else 0) + (if l.brk then 2 else 0) + (if l.interlocked then 4 else 0) +
    (List.finRange 8).foldl (fun acc a => acc + (if l.stride[a] = 0 then 0 else 2 ^ (8 + a.val))) 0) ++
  l.stride.toList.flatMap (fun d => leBytes 4 d.toNat) ++ List.replicate 12 0

/-- The address at which a standing transfer passes control (R34): its target, or the address after the delay words, which is
where the end of an iteration leads when the second of them ends a body (R69).  (DEDUCED: assumption 64.) -/
def Strand.frameTarget (st : Strand) (x : Transfer) : BitVec 32 :=
  if x.taken then x.target else (Strand.endLoops 6 (by omega) (x.fall - 4) x.fall st).2

/-- The 4,096 bytes of the frame (R250, Tables 2-4).  (DEDUCED: assumption 27.) -/
def Strand.frame (st : Strand) (resume : BitVec 32) (cause : UserCause) (replay : List (QEntry × Bool)) : List Byte :=
  let w := writesOf (replay.map (·.1))
  let (xt, xl) : BitVec 32 × Nat := match st.xfer with | some x => (st.frameTarget x, x.left) | none => (0, 0)
  leBytes 8 resume.toNat ++ leBytes 8 cause.code.toNat ++ leBytes 8 cause.data.toNat ++
  leBytes 4 xt.toNat ++ leBytes 1 xl ++ leBytes 1 replay.length ++ leBytes 2 0 ++
  leBytes 4 (regBits 32 true w.sw).toNat ++ leBytes 1 (regBits 8 true w.pw).toNat ++ leBytes 1 0 ++
  leBytes 2 (regBits 16 false w.hw).toNat ++ leBytes 4 st.qcfg.word ++ List.replicate 20 0 ++
  st.q.toList.flatMap (fun x => leBytes 4 x.toNat) ++ st.qv.toList.flatMap (fun x => leBytes 128 x.toNat) ++
  st.loops.toList.flatMap Loop.bytes ++
  padTo 3072 (replay.flatMap fun e => e.1.bytes e.2)

/-! ## Taking an exception -/

/-- A queued SLPAT. -/
def QEntry.isSleep (e : QEntry) : Bool :=
  match e.instr with
  | .slpat _ _ => true
  | _ => false

/-- A CPYM. -/
def QEntry.isCpym (e : QEntry) : Bool :=
  match e.instr with
  | .cpymLinear .. => true
  | .cpymPattern .. => true
  | _ => false

/-- A word is the CPYM whose follow-on `e` is. -/
def QEntry.holds (c e : QEntry) : Bool := c.isCpym && decide (c.pc + 4 = e.pc)

/-- A follow-on is held while its CPYM, not finished, stands directly before it (R219). -/
def isHeld (before : List QEntry) (e : QEntry) : Bool := e.held && (before.getLast?.map fun c => c.holds e).getD false

/-- Withdrawn words with the mark of a follow-on that was released removed (R250, Table 4). -/
def markHeld : List QEntry → List (QEntry × Bool) → List (QEntry × Bool)
  | _, [] => []
  | before, (e, f) :: t => ({ e with held := isHeld before e }, f) :: markHeld [e] t

/-- The times that the TRC words among the withdrawn ones read at split (R343). -/
def withdrawnTimes (l : List (QEntry × Bool)) : List (BitVec 64) :=
  l.flatMap fun e => match e.1.instr with
    | .trc .. => e.1.caps.filterMap fun c => match c with | .t v => some v | _ => none
    | _ => []

/-- A user trap of the current strand (R245, R248): `resume` is the resume PC and `replay` the withdrawn words in
program order, the faulting one marked; entries that wait for re-injection follow them.  `i` and `pc` name the word that
raised it.  Words that an engine has begun run to their end first: translations in flight land, and a trap waits for a
network, copy or matrix word that has begun (R228, R248).  The PC is bits [31:0] of TRAPVEC, and the strides of every level
stay.  (DEDUCED: assumption 27, DESIGN CHOICE: assumption 88.) -/
def State.takeTrap (s : State) (cause : UserCause) (i : Instr) (pc resume : BitVec 32)
    (replay : List (QEntry × Bool)) : State :=
  let s := if s.me.busy then s else s.landTrns false false
  let st := s.me
  if st.busy then s
  else if st.intrap || decide (st.trapvec = 0) then
    -- an illegal instruction is no instruction: its head word stands in TRAPDATA
    s.fatalHead (.userTrap cause.code st.intrap) i.cls
      (if cause.code = 0x01 then cause.data.extractLsb' 32 32 else (encode i).headD 0) pc
      (if cause.code = 0x0A ∨ cause.code = 0x07 then cause.data &&& 0x00FFFFFFFFFFFFFF else 0)
  else
    match s.resolve 0 st.trapframe.toNat 4096 with
    | none => s.fatalError .protection i pc st.trapframe
    | some p =>
      let st := st.drainPipe
      -- a sleep that has begun ends (R341)
      let replay := markHeld [] ((if st.sleeping.isSome then replay.filter fun e => !e.1.isSleep else replay) ++
        st.inject.map fun e => (e, false))
      let s := match st.sleeping with
        | some d => s.traceEvent 0 8 d 1
        | none => s
      let s := s.traceEvent 0 3 (resume.setWidth 64) cause.data
      let w := writesOf (replay.map (·.1))
      let s := s.chipWrite p (st.frame resume cause replay) false
      { s.setMe { st with
          loops := st.loops.map fun l =>
            { l with active := false, start := 0, fin := 0, count := 0, iter := 0, brk := false, interlocked := false }
          xfer := none
          queue := []
          inject := []
          drainDue := false
          sleeping := none
          atSplit := none
          trcs := st.trcs ++ withdrawnTimes replay
          heldS := regBits 32 true w.sw
          heldP := regBits 8 true w.pw
          heldH := regBits 16 false w.hw
          trapcause := cause.code
          trapdata := cause.data
          intrap := true
          pc := st.trapvec.setWidth 32 } with
        waiters := s.waiters.filter fun x => !decide (x.strand = s.cur) }

/-- A fault that MCHK armed strikes the first word of its class that begins: one that does not wait, and has not begun
before (R335).  (DESIGN CHOICE: assumption 35.) -/
def struck {α : Type} (begun : Bool) (cls : BitVec 3) (body : M α) : M α := fun s =>
  let r := body s
  let waits := match r with | .error e => e.waits | .ok _ => false
  if waits || begun then r
  else match s.armed.find? fun a => decide (a = 7) || decide (a = cls) with
    | some _ => .error (.check (.residue true) 0)
    | none => r

/-- The state with the armed fault that struck a class removed. -/
def State.disarm (s : State) (cls : BitVec 3) : State :=
  match s.armed.find? fun a => decide (a = 7) || decide (a = cls) with
  | some a => { s with armed := s.armed.erase a }
  | none => s

/-- The state in which an injected fault has struck a word of a class (R335). -/
def State.disarmed (s : State) (cls : BitVec 3) : CheckCause → State
  | .residue true => s.disarm cls
  | _ => s

/-- A word of a class waits: on full-empty bits, it takes its place among the waiting accesses (R210). -/
def State.await (s : State) (cls : BitVec 3) : Option (Bool × List Nat) → State
  | none => s
  | some (take, gs) =>
    match s.myWaiter cls gs with
    | some _ => s
    | none => { s with waiters := s.waiters ++ [⟨s.cur, cls, 0, s.ticks, take, gs⟩] }

end Sys2Proof.Machine
end

