-- ==== Sys2Proof/Machine/Flags.lean ====
section
/-! DEFINITION. Flags and conditions: FPFLAGS and QFLAGS (R83, R97, R98), the conditions of CMP, VFCMP and VCMP (R60, R134),
the logical functions of PLOG and VMLOG (R61, R135), and the format trap's data (R102). -/

namespace Sys2Proof.Machine

/-- Flags raised in FPFLAGS: sticky (R98). -/
def Strand.raiseFp (st : Strand) (f : BitVec 5) : Strand := { st with fpflags := st.fpflags ||| f }

/-- The flags of QFLAGS (R83, Table 7). -/
def qSAT : BitVec 3 := 1
def qNAN : BitVec 3 := 2
def qBREAK : BitVec 3 := 4

/-- Flags raised in QFLAGS: sticky (R98). -/
def Strand.raiseQ (st : Strand) (f : BitVec 3) : Strand := { st with qflags := st.qflags ||| f }

/-- The conditions of CMP and CMPI (R21, R60). -/
def intCond (cond : Nat) (a b : BitVec 64) : Bool :=
  match cond with
  | 0 => decide (a = b)
  | 1 => decide (a ≠ b)
  | 2 => BitVec.slt a b
  | 3 => !BitVec.slt a b
  | 4 => BitVec.ult a b
  | _ => !BitVec.ult a b

/-- The functions of PLOG (R61). -/
def boolFn (fn : Nat) (a b : Bool) : Bool :=
  match fn with
  | 0 => a && b
  | 1 => a || b
  | 2 => a != b
  | 3 => a && !b
  | 4 => a || !b
  | 5 => !a
  | _ => a

/-- The functions of VMLOG, on every bit (R135). -/
def maskFn (fn : Nat) (a b : BitVec 32) : BitVec 32 :=
  match fn with
  | 0 => a &&& b
  | 1 => a ||| b
  | 2 => a ^^^ b
  | 3 => a &&& ~~~b
  | 4 => a ||| ~~~b
  | 5 => ~~~a
  | _ => a

/-- The conditions of VFCMP on FP32 encodings (R134): −0 equals +0, and a NaN satisfies NE and UN alone. -/
def floatCond (cond : Nat) (a b : Nat) : Bool :=
  let un := Fmt.f32.isNaN a || Fmt.f32.isNaN b
  let x := Fmt.f32.valueKey a
  let y := Fmt.f32.valueKey b
  match cond with
  | 0 => !un && decide (x = y)
  | 1 => un || decide (x ≠ y)
  | 2 => !un && decide (x < y)
  | 3 => !un && decide (x ≤ y)
  | 4 => !un && decide (y < x)
  | 5 => !un && decide (y ≤ x)
  | 6 => un
  | _ => !un

/-- The conditions of VCMP on lanes (R134); on IDX32 (`u`) LT and GE compare as unsigned. -/
def laneCond (cond : Nat) (u : Bool) (a b : BitVec 32) : Bool :=
  match cond with
  | 0 => decide (a = b)
  | 1 => decide (a ≠ b)
  | 2 => if u then BitVec.ult a b else BitVec.slt a b
  | 3 => !(if u then BitVec.ult a b else BitVec.slt a b)
  | 4 => BitVec.ult a b
  | 5 => !BitVec.ult a b
  | _ => decide (a &&& b ≠ 0)

/-- TRAPDATA of the format trap (R102, Table 7). -/
def formatData (word : Word) (reg found want operand : Nat) : BitVec 64 :=
  BitVec.ofNat 64 (word.toNat * 2 ^ 32 + reg % 64 * 2 ^ 16 + found % 16 * 2 ^ 8 + want % 16 * 2 ^ 4 + operand % 16)

/-- The head word of a queued word. -/
def QEntry.head (e : QEntry) : Word := e.wordPair.1

end Sys2Proof.Machine
end

