-- ==== Sys2Proof/Machine/VectorCore.lean ====
section
/-! DEFINITION. What every vector word shares: issue in exposed and interlocked mode (R52-R56), tags (R102, R103, R123),
masks (R122), poison (R124), and the elements of a register (R87). -/

namespace Sys2Proof.Machine

/-! ## Tags (R27, R87) -/

/-- Elements per lane of a tag (R87, Table 2). -/
def perLane (tag : Nat) : Nat :=
  if tag ∈ [2, 3, 5] then 2 else if tag ∈ [6, 7, 8, 10] then 4 else if tag ∈ [9, 11] then 8 else 1

/-- The element width of a tag in bits. -/
def elemWidth (tag : Nat) : Nat := 32 / perLane tag

/-- The floating-point format of a tag. -/
def fmtOf (tag : Nat) : Fmt :=
  match tag with
  | 2 => .bf16
  | 3 => .f16
  | 7 => .e4m3
  | 8 => .e5m2
  | 9 => .e2m1
  | _ => .f32

/-- The tags F, I, any, and any but B8 and B4, of R123; the first is the one that R102 reports. -/
def tagsF : List Nat := [1, 2, 3]
def tagsI : List Nat := [4, 5, 6, 12]
def tagsAny : List Nat := [1, 2, 3, 4, 5, 6, 7, 8, 9, 10, 11, 12, 13]
def tagsLanes : List Nat := [1, 2, 3, 4, 5, 6, 7, 8, 9, 12, 13]

/-! ## Lanes and elements -/

/-- Lane l of a register. -/
def lane (data : BitVec 1024) (l : Nat) : BitVec 32 := data.extractLsb' (32 * l) 32

/-- A register whose lane l is `f l`. -/
def ofLanes (f : Nat → BitVec 32) : BitVec 1024 :=
  BitVec.ofNat 1024 ((List.range 32).foldl (fun acc l => acc + (f l).toNat * 2 ^ (32 * l)) 0)

/-- Element k, of width w, of a lane. -/
def elem (w : Nat) (x : Nat) (k : Nat) : Nat := x / 2 ^ (w * k) % 2 ^ w

/-- A lane whose elements are `f k`, with the union of their flags. -/
def mapElems (n w : Nat) (f : Nat → Nat × BitVec 5) : Nat × BitVec 5 :=
  (List.range n).foldl (fun acc k => let (x, g) := f k; (acc.1 + x % 2 ^ w * 2 ^ (w * k), acc.2 ||| g)) (0, 0)

/-- A register whose active lanes are `f l`, with the union of their flags; other lanes are 0. -/
def mapLanes (act : BitVec 32) (f : Nat → Nat × BitVec 5) : BitVec 1024 × BitVec 5 :=
  let (x, g) := (List.range 32).foldl
    (fun acc l => if act.getLsbD l then let (x, g) := f l; (acc.1 + x % 2 ^ 32 * 2 ^ (32 * l), acc.2 ||| g) else acc)
    ((0 : Nat), (0 : BitVec 5))
  (BitVec.ofNat 1024 x, g)

/-- M(r): M0 reads all ones (R122). -/
def Strand.mask (st : Strand) (r : BitVec 3) : BitVec 32 := if r = 0 then 0xFFFFFFFF else st.getM r

/-- The active mask: the value of the register that VACT named (R122). -/
def Strand.active (st : Strand) : BitVec 32 := st.mask st.act

/-- The number of lanes set in a mask. -/
def popLanes (m : BitVec 32) : Nat := ((List.range 32).filter fun l => m.getLsbD l).length

/-! ## Issue (R52-R55) -/

/-- The strand after a vector word of latency `lat` and `slots` issue slots has issued with its results and flags: they
are written at once in interlocked mode (R55), and land `lat` slots on in exposed mode (R52).
(DESIGN CHOICE: assumption 21.) -/
def Strand.issued (st : Strand) (interlocked : Bool) (lat slots : Nat) (ws : List VWrite) (fl : BitVec 5) : Strand :=
  let st := { st.raiseFp fl with lastInterlocked := interlocked }
  if interlocked then ws.foldl (fun t w => w.land t) st
  else { st with
    flight := ws.zipIdx.foldl (fun q w => insertFlight ⟨st.vslot + lat, w.1, decide (w.2 = 0)⟩ q) st.flight
    vslot := st.vslot + slots }

/-- A vector word issues: results due land, `body` reads the strand and answers its results and flags, and the word
issues with them.  A change of mode and a drain point before the word drain the pipeline (R54).  A word that reads a
register whose write is in flight reads its old value, also where a listing of the spec reads as if it did not (R52, R153).
(DEDUCED: assumption 90.) -/
def vecWord (e : QEntry) (lat slots : Nat) (body : M (List VWrite × BitVec 5)) : M Unit := do
  updMe fun st => if e.interlocked || st.lastInterlocked || e.drain then st.drainPipe else st.landDue st.vslot
  let (ws, fl) ← body
  updMe fun st => st.issued e.interlocked lat slots ws fl

/-- Exposed mode flushes subnormals (R56). -/
def QEntry.flush (e : QEntry) : Bool := !e.interlocked

/-! ## Operands (R102, R103, R123) -/

/-- The failures of a group of operands that must carry one tag (R102, R123): register, operand code, tag held and tag
wanted.  The first operand is the reference of the others.  (DEDUCED: assumption 26, DEDUCED: assumption 40.) -/
def tagFailures (st : Strand) (accepted : List Nat) (ops : List (BitVec 6 × Nat)) : List (Nat × Nat × Nat × Nat) :=
  let tag (o : BitVec 6 × Nat) : Nat := (st.getV o.1).tag.toNat
  let ref := (ops.map tag).headD 0
  ops.filterMap fun o =>
    if tag o ∉ accepted then some (o.1.toNat, o.2, tag o, accepted.headD 0)
    else if ref ∈ accepted ∧ tag o ≠ ref then some (o.1.toNat, o.2, tag o, ref)
    else none

/-- The failure with the lowest operand number (R102). -/
def firstFailure : List (Nat × Nat × Nat × Nat) → Option (Nat × Nat × Nat × Nat)
  | [] => none
  | x :: t =>
    match firstFailure t with
    | none => some x
    | some y => if y.2.1 < x.2.1 then some y else some x

/-- Reads a group of operands that must carry one tag (R123): registers with their operand codes, and the accepted
tags.  Answers the tag as which they are read: with MODE.fmttrap clear a failure reads every operand as the first
accepted format (R103).  (DEDUCED: assumption 26.) -/
def tagGroup (word : Word) (accepted : List Nat) (ops : List (BitVec 6 × Nat)) : M Nat := fun s =>
  match firstFailure (tagFailures s.me accepted ops) with
  | none => .ok ((ops.map fun o => (s.me.getV o.1).tag.toNat).headD 0, s)
  | some (r, code, t, want) =>
    if s.me.fmttrap then .error (.user ⟨0x02, formatData word r t want code⟩)
    else .ok (accepted.headD 0, s)

/-- Poison of any of the registers. -/
def Strand.poisoned (st : Strand) (rs : List (BitVec 6)) : Bool := rs.any fun r => (st.getV r).poison

/-- A poisoned register whose value would reach a scalar, predicate, mask or address (R124). -/
def consumeV (rs : List (BitVec 6)) : M Unit := do
  let st ← me
  consume (st.poisoned rs) 0

/-! ## Results -/

/-- The sidecar bits of the blocks of a tag that have a lane in `lanes`; all of them for other tags (R91, R104). -/
def sideBits (tag : Nat) (lanes : BitVec 32) : BitVec 128 :=
  let per := if tag = 10 then 8 else 4
  if tag = 10 ∨ tag = 11 then
    BitVec.ofNat 128 ((List.range 8).foldl (fun acc b =>
      acc + (if (32 ≤ b * per) ∨ (List.range per).any (fun l => lanes.getLsbD (b * per + l)) then 0xFFFF * 2 ^ (16 * b) else 0)) 0)
  else BitVec.allOnes 128

/-- The sidecar as R91 has it for a tag. -/
def sideFor (tag : Nat) (side : BitVec 128) : BitVec 128 :=
  if tag = 11 then side else if tag = 10 then side &&& 0xFFFFFFFFFFFFFFFF else 0

/-- A masked result: nothing with no active lane (R122). -/
def vMasked (vd : BitVec 6) (lanes : BitVec 32) (data : BitVec 1024) (tag : Nat) (side : BitVec 128) (poison : Bool) :
    List VWrite :=
  if lanes = 0 then []
  else [.vec vd lanes data (BitVec.ofNat 4 tag) (sideFor tag side) (sideBits tag lanes) poison]

/-- A result in every lane. -/
def vWhole (vd : BitVec 6) (data : BitVec 1024) (tag : Nat) (side : BitVec 128) (poison : Bool) : List VWrite :=
  vMasked vd 0xFFFFFFFF data tag side poison

end Sys2Proof.Machine
end

