-- ==== Sys2Proof/Machine/VectorArith.lean ====
section
/-! DEFINITION. Vector arithmetic, compares, masks, reductions and moves: what the vector engine does with R128-R146. -/

namespace Sys2Proof.Machine

/-! ## Floating-point elements (R128) -/

/-- The operations of R128 and R133 on exact values. -/
inductive FOp where
  | add | sub | rsub | mul | div | fma | fms | fnma | min | max
deriving DecidableEq, Repr

/-- The operation reads the destination element. -/
def FOp.readsD : FOp → Bool
  | .fma => true | .fms => true | .fnma => true
  | _ => false

/-- The exact value of an operation. -/
def FOp.exact (o : FOp) (a b d : Ex) : Ex :=
  match o with
  | .add => a.add b
  | .sub => a.add b.neg
  | .rsub => b.add a.neg
  | .mul => a.mul b
  | .div => a.div b
  | .fma => (a.mul b).add d
  | .fms => (a.mul b).add d.neg
  | .fnma => d.add (a.mul b).neg
  | _ => a

/-- One element: inputs flushed, one rounding, result flushed (R56, R128). -/
def FOp.elem (o : FOp) (fl : Bool) (f : Fmt) (a b d : Nat) : Nat × BitVec 5 :=
  let (a, fa) := f.flushIn fl a
  let (b, fb) := f.flushIn fl b
  let (d, fd) := if o.readsD then f.flushIn fl d else (d, 0)
  match o with
  | .min => (f.minMax false a b, fa ||| fb)
  | .max => (f.minMax true a b, fa ||| fb)
  | _ =>
    let (x, g) := f.round .ne fl (o.exact (f.decode a) (f.decode b) (f.decode d))
    (x, fa ||| fb ||| fd ||| g)

/-- Every element of every active lane of three registers. -/
def elementwise (act : BitVec 32) (tag : Nat) (a b d : BitVec 1024) (f : Nat → Nat → Nat → Nat × BitVec 5) :
    BitVec 1024 × BitVec 5 :=
  let w := elemWidth tag
  mapLanes act fun l =>
    mapElems (perLane tag) w fun k =>
      f (elem w (lane a l).toNat k) (elem w (lane b l).toNat k) (elem w (lane d l).toNat k)

/-- A three-register floating-point word (R128). -/
def vFloat (e : QEntry) (lat : Nat) (o : FOp) (vd va vb : BitVec 6) : M Unit :=
  vecWord e lat 1 do
    let tag ← tagGroup e.head tagsF ([(va, 1), (vb, 2)] ++ if o.readsD then [(vd, 0)] else [])
    let st ← me
    let (x, fl) := elementwise st.active tag (st.getV va).data (st.getV vb).data (st.getV vd).data
      (o.elem e.flush (fmtOf tag))
    pure (vMasked vd st.active x tag 0 (st.poisoned ([va, vb] ++ if o.readsD then [vd] else [])), fl)

/-- VFADD (R128). -/
def runVfadd (e : QEntry) (vd va vb : BitVec 6) : M Unit := vFloat e 4 .add vd va vb
/-- VFSUB (R128). -/
def runVfsub (e : QEntry) (vd va vb : BitVec 6) : M Unit := vFloat e 4 .sub vd va vb
/-- VFMUL (R128). -/
def runVfmul (e : QEntry) (vd va vb : BitVec 6) : M Unit := vFloat e 4 .mul vd va vb
/-- VFMA (R128). -/
def runVfma (e : QEntry) (vd va vb : BitVec 6) : M Unit := vFloat e 4 .fma vd va vb
/-- VFMS (R128). -/
def runVfms (e : QEntry) (vd va vb : BitVec 6) : M Unit := vFloat e 4 .fms vd va vb
/-- VFNMA (R128). -/
def runVfnma (e : QEntry) (vd va vb : BitVec 6) : M Unit := vFloat e 4 .fnma vd va vb
/-- VFMIN (R128). -/
def runVfmin (e : QEntry) (vd va vb : BitVec 6) : M Unit := vFloat e 2 .min vd va vb
/-- VFMAX (R128). -/
def runVfmax (e : QEntry) (vd va vb : BitVec 6) : M Unit := vFloat e 2 .max vd va vb
/-- VFDIV (R128). -/
def runVfdiv (e : QEntry) (vd va vb : BitVec 6) : M Unit := vFloat e 12 .div vd va vb

/-- One element of VFSGN (R129): no flush and no flag; a NaN gives QNaN. -/
def signElem (fn : Nat) (f : Fmt) (a b : Nat) : Nat :=
  if f.isNaN a then f.nanCode
  else
    let mag := a % f.signBit
    let sa := a / f.signBit % 2
    let sb := b / f.signBit % 2
    mag + f.signBit * (match fn with | 0 => 0 | 1 => 1 - sa | 2 => sb | _ => (sa + sb) % 2)

/-- VFSGN (R129). -/
def runVfsgn (e : QEntry) (vd va vb : BitVec 6) (fn : BitVec 3) : M Unit :=
  vecWord e 2 1 do
    let two := decide (2 ≤ fn.toNat)
    let tag ← tagGroup e.head tagsF ([(va, 1)] ++ if two then [(vb, 2)] else [])
    let st ← me
    let (x, _) := elementwise st.active tag (st.getV va).data (st.getV vb).data 0
      fun a b _ => (signElem fn.toNat (fmtOf tag) a b, 0)
    pure (vMasked vd st.active x tag 0 (st.poisoned ([va] ++ if two then [vb] else [])), 0)

/-- VFSQRT (R130). -/
def runVfsqrt (e : QEntry) (vd va : BitVec 6) : M Unit :=
  vecWord e 12 1 do
    let tag ← tagGroup e.head tagsF [(va, 1)]
    let st ← me
    let f := fmtOf tag
    let (x, fl) := elementwise st.active tag (st.getV va).data 0 0 fun a _ _ =>
      let (a, fa) := f.flushIn e.flush a
      let (r, g) := f.round .ne e.flush (f.decode a).sqrt
      (r, fa ||| g)
    pure (vMasked vd st.active x tag 0 (st.poisoned [va]), fl)

/-- VFUN (R131). -/
def runVfun (e : QEntry) (vd va : BitVec 6) (fn : BitVec 3) : M Unit :=
  vecWord e 12 1 do
    let tag ← tagGroup e.head [1] [(va, 1)]
    let st ← me
    let (x, fl) := mapLanes st.active fun l =>
      let (a, fa) := Fmt.f32.flushIn e.flush (lane (st.getV va).data l).toNat
      let (r, g) := specialFn fn.toNat e.flush a
      (r, fa ||| g)
    pure (vMasked vd st.active x tag 0 (st.poisoned [va]), fl)

/-! ## Integer elements (R132) -/

/-- The operations of R132 and R133 on elements. -/
inductive IOp where
  | add (fn : Nat) | sub (fn : Nat) | rsub | mul | mulh (unsigned : Bool) | and | or | xor | shl | shr | sra
  | min (unsigned : Bool) | max (unsigned : Bool)
deriving DecidableEq, Repr

/-- The signed value of a w-bit element. -/
def sval (w a : Nat) : Int := if 2 ^ (w - 1) ≤ a % 2 ^ w then (a % 2 ^ w : Int) - 2 ^ w else (a % 2 ^ w : Int)

/-- An integer wrapped to w bits. -/
def wrapTo (w : Nat) (x : Int) : Nat := (x % (2 ^ w : Int)).toNat

/-- A sum or difference under its fn: wrapped, or saturated to the signed (2) or unsigned (3) range; on IDX32 (`u`)
every saturation is unsigned (R132). -/
def satSum (w fn : Nat) (u : Bool) (sub : Bool) (a b : Nat) : Nat :=
  let pick (x : Nat) : Int := if fn = 2 ∧ !u then sval w x else (x : Int)
  let x : Int := if sub then pick a - pick b else pick a + pick b
  if fn = 0 then wrapTo w x
  else if fn = 2 ∧ !u then wrapTo w (max (-(2 ^ (w - 1) : Int)) (min (2 ^ (w - 1) - 1) x))
  else wrapTo w (max 0 (min (2 ^ w - 1) x))

/-- One element of an integer word (R132); `u` is set on IDX32. -/
def IOp.elem (o : IOp) (w : Nat) (u : Bool) (a b : Nat) : Nat :=
  match o with
  | .add fn => satSum w fn u false a b
  | .sub fn => satSum w fn u true a b
  | .rsub => satSum w 0 u true b a
  | .mul => a * b % 2 ^ w
  | .mulh un => if un || u then a * b / 2 ^ w % 2 ^ w else wrapTo w (sval w a * sval w b / 2 ^ w)
  | .and => Nat.land a b
  | .or => Nat.lor a b
  | .xor => Nat.xor a b
  | .shl => a * 2 ^ (b % w) % 2 ^ w
  | .shr => a / 2 ^ (b % w)
  | .sra => if u then a / 2 ^ (b % w) else wrapTo w (sval w a / 2 ^ (b % w))
  | .min un => if un || u then (if a ≤ b then a else b) else (if sval w a ≤ sval w b then a else b)
  | .max un => if un || u then (if a ≤ b then b else a) else (if sval w a ≤ sval w b then b else a)

/-- The operation acts on MASK registers as well (R123).  (DEDUCED: assumption 28.) -/
def IOp.logical : IOp → Bool
  | .and => true | .or => true | .xor => true
  | _ => false

/-- A lane of a MASK result (R88).  (DEDUCED: assumption 28.) -/
def boolLane (b : Bool) : Nat := if b then 0xFFFFFFFF else 0

/-- A three-register integer word (R132); on MASK registers truth values combine (R88). -/
def vInt (e : QEntry) (lat : Nat) (o : IOp) (vd va vb : BitVec 6) : M Unit :=
  vecWord e lat 1 do
    let tag ← tagGroup e.head (tagsI ++ if o.logical then [13] else []) [(va, 1), (vb, 2)]
    let st ← me
    let (x, _) := elementwise st.active tag (st.getV va).data (st.getV vb).data 0 fun a b _ =>
      if tag = 13 then (boolLane (o.elem 1 true (if a = 0 then 0 else 1) (if b = 0 then 0 else 1) = 1), 0)
      else (o.elem (elemWidth tag) (decide (tag = 12)) a b, 0)
    pure (vMasked vd st.active x tag 0 (st.poisoned [va, vb]), 0)

/-- VADD (R132). -/
def runVadd (e : QEntry) (vd va vb : BitVec 6) (fn : BitVec 3) : M Unit := vInt e 2 (.add fn.toNat) vd va vb
/-- VSUB (R132). -/
def runVsub (e : QEntry) (vd va vb : BitVec 6) (fn : BitVec 3) : M Unit := vInt e 2 (.sub fn.toNat) vd va vb
/-- VMUL (R132). -/
def runVmul (e : QEntry) (vd va vb : BitVec 6) : M Unit := vInt e 4 .mul vd va vb
/-- VMULH (R132). -/
def runVmulh (e : QEntry) (vd va vb : BitVec 6) (fn : BitVec 3) : M Unit := vInt e 4 (.mulh (fn.getLsbD 0)) vd va vb
/-- VAND (R132). -/
def runVand (e : QEntry) (vd va vb : BitVec 6) : M Unit := vInt e 2 .and vd va vb
/-- VOR (R132). -/
def runVor (e : QEntry) (vd va vb : BitVec 6) : M Unit := vInt e 2 .or vd va vb
/-- VXOR (R132). -/
def runVxor (e : QEntry) (vd va vb : BitVec 6) : M Unit := vInt e 2 .xor vd va vb
/-- VSHL (R132). -/
def runVshl (e : QEntry) (vd va vb : BitVec 6) : M Unit := vInt e 2 .shl vd va vb
/-- VSHR (R132). -/
def runVshr (e : QEntry) (vd va vb : BitVec 6) : M Unit := vInt e 2 .shr vd va vb
/-- VSRA (R132). -/
def runVsra (e : QEntry) (vd va vb : BitVec 6) : M Unit := vInt e 2 .sra vd va vb
/-- VMIN (R132). -/
def runVmin (e : QEntry) (vd va vb : BitVec 6) (fn : BitVec 3) : M Unit := vInt e 2 (.min (fn.getLsbD 0)) vd va vb
/-- VMAX (R132). -/
def runVmax (e : QEntry) (vd va vb : BitVec 6) (fn : BitVec 3) : M Unit := vInt e 2 (.max (fn.getLsbD 0)) vd va vb

/-! ## Scalar-broadcast forms (R133) -/

/-- The floating-point operation of a VFOPS code (R133, Table 4). -/
def fopOf (fn : Nat) : FOp :=
  match fn with
  | 0 => .add | 1 => .sub | 2 => .rsub | 3 => .mul | 4 => .min | 5 => .max | 6 => .fma | _ => .fms

/-- VFOPS (R133): S(sb) was read at split. -/
def runVfops (e : QEntry) (vd va : BitVec 6) (fn : BitVec 4) : M Unit :=
  vecWord e 4 1 do
    let o := fopOf fn.toNat
    let tag ← tagGroup e.head tagsF ([(va, 1)] ++ if o.readsD then [(vd, 0)] else [])
    let st ← me
    let b := (e.capS 0).toNat % 2 ^ elemWidth tag
    let (x, fl) := elementwise st.active tag (st.getV va).data 0 (st.getV vd).data
      fun a _ d => o.elem e.flush (fmtOf tag) a b d
    pure (vMasked vd st.active x tag 0 (st.poisoned ([va] ++ if o.readsD then [vd] else [])), fl)

/-- The integer operation of a VIOPS code (R133, Table 4). -/
def iopOf (fn : Nat) : IOp :=
  match fn with
  | 0 => .add 0 | 1 => .sub 0 | 2 => .rsub | 3 => .mul | 4 => .and | 5 => .or | 6 => .xor | 7 => .shl | 8 => .shr
  | 9 => .sra | 10 => .min false | 11 => .max false | 12 => .min true | _ => .max true

/-- VIOPS (R133). -/
def runViops (e : QEntry) (vd va : BitVec 6) (fn : BitVec 4) : M Unit :=
  vecWord e 2 1 do
    let tag ← tagGroup e.head tagsI [(va, 1)]
    let st ← me
    let b := (e.capS 0).toNat % 2 ^ elemWidth tag
    let (x, _) := elementwise st.active tag (st.getV va).data 0 0
      fun a _ _ => ((iopOf fn.toNat).elem (elemWidth tag) (decide (tag = 12)) a b, 0)
    pure (vMasked vd st.active x tag 0 (st.poisoned [va]), 0)

/-! ## Compares and masks (R134-R137) -/

/-- VFCMP (R134). -/
def runVfcmp (e : QEntry) (md : BitVec 3) (va vb : BitVec 6) (cond : BitVec 4) : M Unit :=
  vecWord e 2 1 do
    let _ ← tagGroup e.head [1] [(va, 1), (vb, 2)]
    consumeV [va, vb]
    let st ← me
    let (x, fl) := mapLanes st.active fun l =>
      let (a, fa) := Fmt.f32.flushIn e.flush (lane (st.getV va).data l).toNat
      let (b, fb) := Fmt.f32.flushIn e.flush (lane (st.getV vb).data l).toNat
      (if floatCond cond.toNat a b then 1 else 0, fa ||| fb)
    pure ([.mask md (BitVec.ofNat 32 ((List.range 32).foldl
      (fun acc l => acc + (lane x l).toNat * 2 ^ l) 0))], fl)

/-- VCMP (R134). -/
def runVcmp (e : QEntry) (md : BitVec 3) (va vb : BitVec 6) (cond : BitVec 4) : M Unit :=
  vecWord e 2 1 do
    let tag ← tagGroup e.head [4, 12] [(va, 1), (vb, 2)]
    consumeV [va, vb]
    let st ← me
    pure ([.mask md (BitVec.ofNat 32 ((List.range 32).foldl (fun acc l =>
      acc + (if st.active.getLsbD l && laneCond cond.toNat (decide (tag = 12)) (lane (st.getV va).data l)
        (lane (st.getV vb).data l) then 2 ^ l else 0)) 0))], 0)

/-- VMLOG (R135). -/
def runVmlog (e : QEntry) (md ma mb fn : BitVec 3) : M Unit :=
  vecWord e 2 1 do
    let st ← me
    pure ([.mask md (maskFn fn.toNat (st.mask ma) (st.mask mb))], 0)

/-- VACT (R135). -/
def runVact (e : QEntry) (ma : BitVec 3) : M Unit := vecWord e 2 1 (pure ([.act ma], 0))

/-- VANY (R136). -/
def runVany (e : QEntry) (pd ma : BitVec 3) : M Unit :=
  vecWord e 8 1 do
    let st ← me
    pure ([.pred pd (decide (st.mask ma &&& st.active ≠ 0))], 0)

/-- VALL (R136). -/
def runVall (e : QEntry) (pd ma : BitVec 3) : M Unit :=
  vecWord e 8 1 do
    let st ← me
    pure ([.pred pd (decide (st.active &&& ~~~(st.mask ma) = 0))], 0)

/-- VMPOP (R136). -/
def runVmpop (e : QEntry) (d : BitVec 5) (ma : BitVec 3) : M Unit :=
  vecWord e 2 1 do
    let st ← me
    pure ([.scalar d (BitVec.ofNat 64 (popLanes (st.mask ma &&& st.active)))], 0)

/-- VSEL (R137). -/
def runVsel (e : QEntry) (vd va vb : BitVec 6) (mk : BitVec 3) : M Unit :=
  vecWord e 2 1 do
    let tag ← tagGroup e.head tagsLanes [(va, 1), (vb, 2)]
    let st ← me
    let x := ofLanes fun l =>
      if (st.mask mk).getLsbD l then lane (st.getV va).data l else lane (st.getV vb).data l
    pure (vWhole vd x tag 0 (st.poisoned [va, vb]), 0)

/-! ## Reductions (R138-R140) -/

/-- The combination of VFRED and VFSCAN on FP32 encodings (R138): 0 SUM, 1 MAX, 2 MIN, 3 AMAX. -/
def comb (op : Nat) (fl : Bool) (x y : Nat) : Nat × BitVec 5 :=
  match op with
  | 0 => Fmt.f32.round .ne fl ((Fmt.f32.decode x).add (Fmt.f32.decode y))
  | 1 => (Fmt.f32.minMax true x y, 0)
  | 2 => (Fmt.f32.minMax false x y, 0)
  | _ => (if Fmt.f32.isNaN x || Fmt.f32.isNaN y then Fmt.f32.nanCode else Fmt.f32.minMax true x y, 0)

/-- The identity of an operation of R138: −0, −∞, +∞, +0. -/
def combId (op : Nat) : Nat :=
  match op with
  | 0 => 0x80000000
  | 1 => 0xFF800000
  | 2 => 0x7F800000
  | _ => 0

/-- An element as an FP32 encoding, flushed in its own format (R138). -/
def widen (fl : Bool) (f : Fmt) (a : Nat) : Nat × BitVec 5 :=
  let (a, fa) := f.flushIn fl a
  if f = .f32 then (a, fa) else ((Fmt.f32.round .ne false (f.decode a)).1, fa)

/-- The leaf of a lane in VFRED (R138). -/
def redLeaf (op : Nat) (fl : Bool) (tag : Nat) (x : Nat) : Nat × BitVec 5 :=
  let f := fmtOf tag
  let absIf (v : Nat) : Nat := if op = 3 then v % 0x80000000 else v
  let (a, fa) := widen fl f (elem (elemWidth tag) x 0)
  if perLane tag = 1 then (absIf a, fa)
  else
    let (b, fb) := widen fl f (elem (elemWidth tag) x 1)
    let (c, fc) := comb op fl (absIf a) (absIf b)
    (c, fa ||| fb ||| fc)

/-- One level of the pairwise tree (R138). -/
def pairUp (op : Nat) (fl : Bool) : List (Nat × BitVec 5) → List (Nat × BitVec 5)
  | (x, f) :: (y, g) :: t => (let (z, h) := comb op fl x y; (z, f ||| g ||| h)) :: pairUp op fl t
  | l => l

/-- VFRED (R138). -/
def runVfred (e : QEntry) (vd va : BitVec 6) (sb : BitVec 5) (fn : BitVec 4) : M Unit :=
  vecWord e 8 1 do
    let tag ← tagGroup e.head tagsF [(va, 1)]
    let scalar := fn.getLsbD 3
    if scalar then consumeV [va] else pure ()
    let st ← me
    let op := fn.toNat % 8
    let leaves := (List.range 32).map fun l =>
      if st.active.getLsbD l then redLeaf op e.flush tag (lane (st.getV va).data l).toNat else (combId op, 0)
    let p := pairUp op e.flush
    let (r, fl) := (p (p (p (p (p leaves))))).headD (0, 0)
    pure (if scalar then [.scalar sb (BitVec.ofNat 64 r)]
      else vWhole vd (ofLanes fun _ => BitVec.ofNat 32 r) 1 0 (st.poisoned [va]), fl)

/-- One combination of VRED on 64-bit values (R139): SUM, MAX, MIN, MAXU, MINU, AND, OR, XOR. -/
def redStep (op : Nat) (x y : BitVec 64) : BitVec 64 :=
  match op with
  | 0 => x + y
  | 1 => if BitVec.slt x y then y else x
  | 2 => if BitVec.slt y x then y else x
  | 3 => if BitVec.ult x y then y else x
  | 4 => if BitVec.ult y x then y else x
  | 5 => x &&& y
  | 6 => x ||| y
  | _ => x ^^^ y

/-- The identity of an operation of R139, on 64 bits. -/
def redId (op : Nat) : BitVec 64 :=
  match op with
  | 1 => 0x8000000000000000
  | 2 => 0x7FFFFFFFFFFFFFFF
  | 4 => 0xFFFFFFFFFFFFFFFF
  | 5 => 0xFFFFFFFFFFFFFFFF
  | _ => 0

/-- VRED (R139). -/
def runVred (e : QEntry) (vd va : BitVec 6) (sb : BitVec 5) (fn : BitVec 4) : M Unit :=
  vecWord e 8 1 do
    let tag ← tagGroup e.head tagsI [(va, 1)]
    let scalar := fn.getLsbD 3
    if scalar then consumeV [va] else pure ()
    let st ← me
    let op := fn.toNat % 8
    let w := elemWidth tag
    let ext (x : Nat) : BitVec 64 :=
      if tag = 12 ∨ op = 3 ∨ op = 4 then BitVec.ofNat 64 x else BitVec.ofInt 64 (sval w x)
    let elems := (List.range 32).flatMap fun l =>
      if st.active.getLsbD l then (List.range (perLane tag)).map fun k => ext (elem w (lane (st.getV va).data l).toNat k)
      else []
    let r := elems.foldl (redStep op) (redId op)
    pure (if scalar then [.scalar sb r]
      else vWhole vd (ofLanes fun _ => r.setWidth 32) (if tag = 12 then 12 else 4) 0 (st.poisoned [va]), 0)

/-- VFSCAN (R140). -/
def runVfscan (e : QEntry) (vd va : BitVec 6) (fn : BitVec 3) : M Unit :=
  vecWord e 8 1 do
    let tag ← tagGroup e.head [1] [(va, 1)]
    let st ← me
    let op := match fn.toNat with | 0 => 0 | 1 => 0 | 2 => 1 | _ => 2
    let (x, _, fl) := (List.range 32).foldl (fun (acc : Nat × Nat × BitVec 5) l =>
      if st.active.getLsbD l then
        let (a, fa) := Fmt.f32.flushIn e.flush (lane (st.getV va).data l).toNat
        let (r, fr) := comb op e.flush acc.2.1 a
        (acc.1 + (if fn = 1 then acc.2.1 else r) * 2 ^ (32 * l), r, acc.2.2 ||| fa ||| fr)
      else acc) (0, combId op, 0)
    pure (vMasked vd st.active (BitVec.ofNat 1024 x) tag 0 (st.poisoned [va]), fl)

/-! ## Moves and permutes (R141-R144) -/

/-- VMOV fn 0 (R141). -/
def runVmov (e : QEntry) (vd va : BitVec 6) : M Unit :=
  vecWord e 2 1 do
    let tag ← tagGroup e.head tagsAny [(va, 1)]
    let st ← me
    pure (vMasked vd st.active (st.getV va).data tag (st.getV va).side (st.poisoned [va]), 0)

/-- VMOV fn 1, a mask to a register (R141). -/
def runVmovMaskToReg (e : QEntry) (vd va : BitVec 6) : M Unit :=
  vecWord e 2 1 do
    let st ← me
    let m := st.mask (va.setWidth 3)
    pure (vMasked vd st.active (ofLanes fun l => BitVec.ofNat 32 (boolLane (m.getLsbD l))) 13 0 false, 0)

/-- VMOV fn 2, a register to a mask (R141). -/
def runVmovRegToMask (e : QEntry) (vd va : BitVec 6) : M Unit :=
  vecWord e 2 1 do
    let _ ← tagGroup e.head [13] [(va, 1)]
    consumeV [va]
    let st ← me
    pure ([.mask (vd.setWidth 3) (BitVec.ofNat 32 ((List.range 32).foldl
      (fun acc l => acc + (if lane (st.getV va).data l = 0 then 0 else 2 ^ l)) 0))], 0)

/-- VMOVI (R141). -/
def runVmovi (e : QEntry) (vd : BitVec 6) (imm : BitVec 15) : M Unit :=
  vecWord e 2 1 do
    let st ← me
    pure (vMasked vd st.active (ofLanes fun _ => imm.signExtend 32) 4 0 false, 0)

/-- VIOTA (R141). -/
def runViota (e : QEntry) (vd : BitVec 6) (fn : BitVec 3) : M Unit :=
  vecWord e 2 1 do
    let st ← me
    let rank (l : Nat) : Nat := ((List.range l).filter fun k => st.active.getLsbD k).length
    pure (vMasked vd st.active (ofLanes fun l => BitVec.ofNat 32 (if fn = 0 then l else rank l)) 12 0 false, 0)

/-- VBCS (R142). -/
def runVbcs (e : QEntry) (vd : BitVec 6) (fn : BitVec 4) : M Unit :=
  vecWord e 2 1 do
    let st ← me
    let tag := fn.toNat
    let w := elemWidth tag
    let x := (mapElems (perLane tag) w fun _ => ((e.capS 0).toNat % 2 ^ w, 0)).1
    pure (vMasked vd st.active (ofLanes fun _ => BitVec.ofNat 32 x) tag 0 false, 0)

/-- VBCL (R142). -/
def runVbcl (e : QEntry) (vd va : BitVec 6) : M Unit :=
  vecWord e 2 1 do
    let tag ← tagGroup e.head tagsLanes [(va, 1)]
    let st ← me
    let x := lane (st.getV va).data ((e.capS 0).toNat % 32)
    pure (vMasked vd st.active (ofLanes fun _ => x) tag 0 (st.poisoned [va]), 0)

/-- VPERM (R143): each active lane takes the lane of V(va) that its index in V(vb) names. -/
def runVperm (e : QEntry) (vd va vb : BitVec 6) : M Unit :=
  vecWord e 2 1 do
    let tag ← tagGroup e.head tagsLanes [(va, 1)]
    let _ ← tagGroup e.head [12] [(vb, 2)]
    let st ← me
    let x := ofLanes fun l => lane (st.getV va).data ((lane (st.getV vb).data l).toNat % 32)
    pure (vMasked vd st.active x tag 0 (st.poisoned [va, vb]), 0)

/-- VROT (R143): rot, shdn, shup. -/
def runVrot (e : QEntry) (vd va : BitVec 6) (fn : BitVec 4) : M Unit :=
  vecWord e 2 1 do
    let tag ← tagGroup e.head tagsLanes [(va, 1)]
    let st ← me
    let src := (st.getV va).data
    let n := if fn = 0 then (e.capS 0).toNat % 32 else min ((e.capS 0).toNat % 64) 32
    let x := ofLanes fun l =>
      match fn.toNat with
      | 0 => lane src ((l + n) % 32)
      | 1 => if l + n < 32 then lane src (l + n) else 0
      | _ => if n ≤ l then lane src (l - n) else 0
    pure (vMasked vd st.active x tag 0 (st.poisoned [va]), 0)

/-- VEXT (R144). -/
def runVext (e : QEntry) (vd va : BitVec 6) (sb : BitVec 5) (fn : BitVec 4) : M Unit :=
  vecWord e 2 1 do
    let _ ← tagGroup e.head tagsAny [(va, 1)]
    consumeV [va]
    let st ← me
    let x := lane (st.getV va).data (vd.toNat % 32)
    pure ([.scalar sb (if fn = 1 then x.signExtend 64 else x.setWidth 64)], 0)

/-- VINS (R144): one lane, whatever the active mask; tag, sidecar and other lanes stay.  A register without a tag takes F32.
(DESIGN CHOICE: assumption 100.) -/
def runVins (e : QEntry) (vd va : BitVec 6) : M Unit :=
  vecWord e 2 1 do
    let tag ← tagGroup e.head tagsAny [(vd, 0)]
    let l := va.toNat % 32
    pure ([.vec vd (BitVec.ofNat 32 (2 ^ l)) (BitVec.ofNat 1024 ((e.capS 0).toNat % 2 ^ 32 * 2 ^ (32 * l)))
      (BitVec.ofNat 4 tag) 0 0 false], 0)

/-! ## Conversion and retagging (R145, R146) -/

/-- The integer range of a tag. -/
def intRange (tag : Nat) : Int × Int :=
  match tag with
  | 4 => (-(2 ^ 31), 2 ^ 31 - 1)
  | 5 => (-(2 ^ 15), 2 ^ 15 - 1)
  | 6 => (-(2 ^ 7), 2 ^ 7 - 1)
  | _ => (0, 2 ^ 32 - 1)

/-- An integer tag. -/
def isIntTag (tag : Nat) : Bool := decide (tag ∈ tagsI)

/-- The value of an element of an integer tag. -/
def intValue (tag a : Nat) : Int := if tag = 12 then (a : Int) else sval (elemWidth tag) a

/-- A widening conversion (R145): every value of floating-point format `a` is a value of the wider format `b`.
(DEDUCED: assumption 61.) -/
def widens (a b : Nat) : Bool :=
  decide (b = 1 ∧ a ∈ [2, 3, 7, 8, 9, 10, 11]) || decide (b = 2 ∧ a ∈ [7, 8, 9]) || decide (b = 3 ∧ a ∈ [7, 8, 9]) ||
  decide (b ∈ [7, 8] ∧ a = 9)

/-- The exact value of element `i` of a register of a floating-point or block tag: an input of the first kind is flushed
under R56, and the FP32 result of decoding a block element is a result under R56 (R89). -/
def elemValue (fl : Bool) (tag : Nat) (r : VReg) (i : Nat) : Ex × BitVec 5 :=
  let w := elemWidth tag
  let a := elem w (lane r.data (i / perLane tag)).toNat (i % perLane tag)
  if tag = 10 ∨ tag = 11 then
    let f := if tag = 10 then BlockFmt.b8 else BlockFmt.b4
    let b := i / 32
    let x := f.decode a (r.side.toNat / 2 ^ (16 * b) % 256) (r.side.toNat / 2 ^ (16 * b + 8) % 256)
    match x with
    | .fin .. =>
      let (c, g) := Fmt.f32.round .ne fl x
      (Fmt.f32.decode c, g)
    | x => (x, 0)
  else
    let (c, g) := (fmtOf tag).flushIn fl a
    ((fmtOf tag).decode c, g)

/-- One converted element (R94-R96, R145).  (DEDUCED: assumption 61.) -/
def convElem (fl : Bool) (src dst : Nat) (sat : Bool) (rnd : Rnd) (r : VReg) (i : Nat) : Nat × BitVec 5 :=
  let (lo, hi) := intRange dst
  if isIntTag src then
    let v := intValue src (elem (elemWidth src) (lane r.data (i / perLane src)).toNat (i % perLane src))
    if isIntTag dst then
      (wrapTo (elemWidth dst) (if sat then max lo (min hi v) else v), 0)
    else (fmtOf dst).convert rnd sat fl (Ex.ofInt v)
  else
    let (x, g) := elemValue fl src r i
    if isIntTag dst then
      let (v, h) := toInteger rnd lo hi x
      (wrapTo (elemWidth dst) v, g ||| h)
    else
      let (c, h) := (fmtOf dst).convert rnd (sat && !widens src dst) fl x
      (c, g ||| h)

/-- The tags that VCVT reads (R145). -/
def tagsCvt : List Nat := [1, 2, 3, 7, 8, 9, 4, 5, 6, 12, 10, 11]

/-- VCVT (R145).  (DEDUCED: assumption 61, DESIGN CHOICE: assumption 99.) -/
def runVcvt (e : QEntry) (vd va : BitVec 6) (tag : BitVec 4) (sat : BitVec 1) (rnd : BitVec 2) : M Unit := do
  -- the group size is known when the tag of V(va) is read
  updMe fun st => if e.interlocked || st.lastInterlocked || e.drain then st.drainPipe else st.landDue st.vslot
  let st ← me
  let dst := tag.toNat
  let held := (st.getV va).tag.toNat
  let nd := 32 * perLane dst
  let group (t : Nat) : Nat := if 32 * perLane t < nd then nd / (32 * perLane t) else 1
  let dgroup (t : Nat) : Nat := if nd < 32 * perLane t then 32 * perLane t / nd else 1
  let ok := decide (held ∈ tagsCvt)
  let src0 := if ok then held else 1
  if !ok && st.fmttrap then stop (.user ⟨0x02, formatData e.head va.toNat held 1 1⟩)
  else if 64 < va.toNat + group src0 then stop (.user ⟨0x02, formatData e.head va.toNat held dst 1⟩)
  else if 64 < vd.toNat + dgroup src0 then stop (.user ⟨0x02, formatData e.head vd.toNat held dst 0⟩)
  else
    let regs (t : Nat) := (List.range (group t)).map fun i => va + BitVec.ofNat 6 i
    let mixed := (regs src0).any fun r => decide ((st.getV r).tag.toNat ≠ held)
    let src1 := if mixed && !st.fmttrap then 1 else src0
    if 64 < va.toNat + group src1 then stop (.user ⟨0x02, formatData e.head va.toNat held dst 1⟩)
    else if 64 < vd.toNat + dgroup src1 then stop (.user ⟨0x02, formatData e.head vd.toNat held dst 0⟩)
    else
    let k := max (group src1) (dgroup src1)
    vecWord e (if k = 1 then 3 else k + 2) k do
      let srcs := regs src1
      let _ ← tagGroup e.head tagsCvt (srcs.map fun r => (r, 1))
      let src := src1
      let st ← me
      let ns := 32 * perLane src
      let regs := srcs.map st.getV
      let out := (List.range (dgroup src1)).map fun j =>
        let (x, fl) := mapLanes st.active fun l =>
          mapElems (perLane dst) (elemWidth dst) fun p =>
            let i := j * nd + l * perLane dst + p
            convElem e.flush src dst (decide (sat = 1)) (Rnd.ofBits rnd) (regs.getD (i / ns) VReg.launch) (i % ns)
        (vMasked (vd + BitVec.ofNat 6 j) st.active x dst 0 (st.poisoned srcs), fl)
      pure (out.flatMap (·.1), out.foldl (fun f o => f ||| o.2) 0)

/-- VTAG (R146). -/
def runVtag (e : QEntry) (vd va : BitVec 6) (tag : BitVec 4) : M Unit :=
  vecWord e 2 1 do
    let st ← me
    let r := st.getV va
    pure (vWhole vd r.data tag.toNat r.side r.poison, 0)

end Sys2Proof.Machine
end

