-- ==== Sys2Proof/Machine/VectorMem.lean ====
section
/-! DEFINITION. Vector memory words (R147-R151): VLD, VST, VLDL, VSTL, VLDX, VSTX and VAMO. -/

namespace Sys2Proof.Machine

/-- The lanes set in a mask, ascending.  (DEDUCED: assumption 31.) -/
def lanesOf (m : BitVec 32) : List Nat := (List.range 32).filter fun l => m.getLsbD l

/-- The span of bytes that the lanes of a contiguous 128-byte access touch: offset and length. -/
def laneSpan (ls : List Nat) : Nat × Nat := (4 * ls.headD 0, 4 * (ls.getLastD 0 + 1 - ls.headD 0))

/-- Blocks of a block tag: their count and the lanes of each. -/
def blockLanes (fmt : Nat) : Nat × Nat := if fmt = 10 then (4, 8) else (8, 4)

/-- The blocks that have a lane in a list. -/
def blocksOf (fmt : Nat) (ls : List Nat) : List Nat :=
  let (n, per) := blockLanes fmt
  (List.range n).filter fun b => ls.any fun l => decide (l / per = b)

/-- The granules that hold lanes of an access at place p.  (DEDUCED: assumption 31.) -/
def laneGranules (p : Nat) (ls : List Nat) : List Nat := (ls.map fun l => (p + 4 * l) / 16).dedup

/-- A fmt that names a block format. -/
def isBlockFmt (fmt : BitVec 4) : Bool := isBlockTag fmt

/-- VLD (R147): ea and, for a block format, the exponent address were captured at split; the exponents of each block are an
access of their own (R207).  (DESIGN CHOICE: assumption 89.) -/
def runVld (e : QEntry) (vd : BitVec 6) (space fe : BitVec 2) (fmt : BitVec 4) : M Unit :=
  vecWord e 6 1 do
    let st ← me
    let ls := lanesOf st.active
    if ls.isEmpty then pure ([], 0)
    else
      let ea := e.capA 0
      let ex := e.capA 1
      aligned ea 16
      if isBlockFmt fmt then aligned ex 2 else pure ()
      let (off, n) := laneSpan ls
      let p ← place space (ea + off) n
      let base := p - off
      let exs ← if isBlockFmt fmt then
          collect (fun b => do let (bs, po) ← spRead 1 space (ex + 2 * b) 2 0; pure (b, leNat bs, po)) (blocksOf fmt.toNat ls)
        else pure []
      feLoad 1 fe (laneGranules base ls)
      let s ← ask id
      let data := ls.foldl (fun acc l => acc + leNat (cellsRead s.mem (base + 4 * l) 4) * 2 ^ (32 * l)) 0
      let side := exs.foldl (fun acc x => acc + x.2.1 * 2 ^ (16 * x.1)) 0
      let poison := (laneGranules base ls).any s.granulePoisoned || exs.any (·.2.2)
      pure (vMasked vd st.active (BitVec.ofNat 1024 data) fmt.toNat (BitVec.ofNat 128 side) poison, 0)

/-- The accepted tags of a stored register under the word's fmt (R23). -/
def storeTags (fmt : BitVec 4) : List Nat := if fmt = 0 then tagsAny else [fmt.toNat]

/-- Bytes with their places, from a place upwards. -/
def placed (p : Nat) (bytes : List Byte) : List (Nat × Byte) := bytes.zipIdx.map fun x => (p + x.2, x.1)

/-- VST (R147): one write of its exponents, each block's an access of its own (R207), and then one of its lanes.
(DESIGN CHOICE: assumption 89, DESIGN CHOICE: assumption 102.) -/
def runVst (e : QEntry) (vd : BitVec 6) (space fe : BitVec 2) (fmt : BitVec 4) : M Unit :=
  vecWord e 0 1 do
    let _ ← tagGroup e.head (storeTags fmt) [(vd, 4)]
    let st ← me
    let ls := lanesOf st.active
    if ls.isEmpty then pure ([], 0)
    else
      let ea := e.capA 0
      let ex := e.capA 1
      aligned ea 16
      if isBlockFmt fmt then aligned ex 2 else pure ()
      let r := st.getV vd
      let (off, n) := laneSpan ls
      let p ← place space (ea + off) n
      let base := p - off
      let exs ← if isBlockFmt fmt then
          collect (fun b => do let q ← place space (ex + 2 * b) 2; pure (placed q (leBytes 2 (r.side.toNat / 2 ^ (16 * b)))))
            (blocksOf fmt.toNat ls)
        else pure []
      let data := ls.flatMap fun l => placed (base + 4 * l) (leBytes 4 (lane r.data l).toNat)
      upd fun s => ((s.chipScatter exs.flatten r.poison).chipScatter data r.poison).feStore fe (laneGranules base ls)
      pure ([], 0)

/-- The place of lane l's word in the strand's lane slices (R148).  (DEDUCED: assumption 30.) -/
def State.slicePlace (s : State) (ea l : Nat) : Nat :=
  lanePlace (s.gstrand s.cur.val) (4096 * l + 4 * (ea % 2 ^ 17 / 128))

/-- VLDL (R148). -/
def runVldl (e : QEntry) (vd : BitVec 6) (fmt : BitVec 4) : M Unit :=
  vecWord e 4 1 do
    let st ← me
    let ls := lanesOf st.active
    if ls.isEmpty then pure ([], 0)
    else
      let ea := e.capA 0 % 2 ^ 17
      aligned ea 128
      let s ← ask id
      let data := ls.foldl (fun acc l => acc + leNat (cellsRead s.mem (s.slicePlace ea l) 4) * 2 ^ (32 * l)) 0
      pure (vMasked vd st.active (BitVec.ofNat 1024 data) fmt.toNat 0 false, 0)

/-- VSTL (R148). -/
def runVstl (e : QEntry) (vd : BitVec 6) (fmt : BitVec 4) : M Unit :=
  vecWord e 0 1 do
    let _ ← tagGroup e.head (if fmt = 0 then tagsLanes else [fmt.toNat]) [(vd, 4)]
    let st ← me
    let ls := lanesOf st.active
    if ls.isEmpty then pure ([], 0)
    else
      let ea := e.capA 0 % 2 ^ 17
      aligned ea 128
      upd fun s =>
        let put (m : List Host.Cell) (l : Nat) := cellsWrite m (s.slicePlace ea l) (leBytes 4 (lane (st.getV vd).data l).toNat)
        let mem := ls.foldl put s.mem
        { s with mem := mem }
      pure ([], 0)

/-- The address of lane l of an indexed word (R149). -/
def laneAddr (a : Nat) (vx : VReg) (l : Nat) : Nat := (a + 4 * (lane vx.data l).toNat) % 2 ^ 32

/-- The lanes of an indexed word with their addresses and places: every address a multiple of 4, tested first, and valid
(R149).  (DEDUCED: assumption 25.) -/
def lanePlaces (space : BitVec 2) (a : Nat) (vx : VReg) (ls : List Nat) : M (List (Nat × Nat)) := do
  match ls.find? fun l => decide (laneAddr a vx l % 4 ≠ 0) with
  | some l => misaligned (laneAddr a vx l)
  | none => collect (fun l => do let p ← place space (laneAddr a vx l) 4; pure (l, p)) ls

/-- VLDX (R149). -/
def runVldx (e : QEntry) (vd : BitVec 6) (space fe : BitVec 2) (fmt : BitVec 4) (vx : BitVec 6) : M Unit :=
  vecWord e 10 1 do
    let _ ← tagGroup e.head [12] [(vx, 3)]
    let st ← me
    let ls := lanesOf st.active
    if ls.isEmpty then pure ([], 0)
    else
      consumeV [vx]
      let ps ← lanePlaces space (e.capA 0) (st.getV vx) ls
      let gs := (ps.map fun x => x.2 / 16).dedup
      feLoad 1 fe gs
      let s ← ask id
      let data := ps.foldl (fun acc x => acc + leNat (cellsRead s.mem x.2 4) * 2 ^ (32 * x.1)) 0
      pure (vMasked vd st.active (BitVec.ofNat 1024 data) fmt.toNat 0 (gs.any s.granulePoisoned), 0)

/-- VSTX (R149): lanes are written in ascending order, so the highest stands. -/
def runVstx (e : QEntry) (vd : BitVec 6) (space fe : BitVec 2) (fmt : BitVec 4) (vx : BitVec 6) : M Unit :=
  vecWord e 0 1 do
    let _ ← tagGroup e.head [12] [(vx, 3)]
    let _ ← tagGroup e.head (storeTags fmt) [(vd, 4)]
    let st ← me
    let ls := lanesOf st.active
    if ls.isEmpty then pure ([], 0)
    else
      consumeV [vx]
      let ps ← lanePlaces space (e.capA 0) (st.getV vx) ls
      let r := st.getV vd
      upd fun s => (ps.foldl (fun t x => t.chipWrite x.2 (leBytes 4 (lane r.data x.1).toNat) r.poison) s).feStore fe
        (ps.map fun x => x.2 / 16).dedup
      pure ([], 0)

/-- The operations at memory on w-bit values (R150, R269, Table 9); fadd is op 9, on FP32, with subnormals honoured
and its flags of R97; MIN and MAX are signed, on IDX32 too.  (DESIGN CHOICE: assumption 101.) -/
def atomicOp (op w old x : Nat) : Nat × BitVec 5 :=
  match op with
  | 0 => ((old + x) % 2 ^ w, 0)
  | 1 => (Nat.land old x, 0)
  | 2 => (Nat.lor old x, 0)
  | 3 => (Nat.xor old x, 0)
  | 4 => (if (if 2 ^ (w - 1) ≤ x then (x : Int) - 2 ^ w else x) < (if 2 ^ (w - 1) ≤ old then (old : Int) - 2 ^ w else old) then x else old, 0)
  | 5 => (if (if 2 ^ (w - 1) ≤ old then (old : Int) - 2 ^ w else old) < (if 2 ^ (w - 1) ≤ x then (x : Int) - 2 ^ w else x) then x else old, 0)
  | 6 => (if x < old then x else old, 0)
  | 7 => (if old < x then x else old, 0)
  | 8 => (x, 0)
  | _ => Fmt.f32.round .ne false ((Fmt.f32.decode old).add (Fmt.f32.decode x))

/-- The opcodes 0-9 of VAMO: as AMO's, but ADD, AND, OR, XOR, MIN, MAX, MINU, MAXU, SWAP, FADD (R150). -/
def vamoLane (op : Nat) (r : VReg) (acc : State × Nat × BitVec 5 × Bool) (x : Nat × Nat) :
    State × Nat × BitVec 5 × Bool :=
  let (s, data, fl, poison) := acc
  let old := leNat (cellsRead s.mem x.2 4)
  let (v, g) := atomicOp op 32 old (lane r.data x.1).toNat
  (s.chipWrite x.2 (leBytes 4 v) r.poison, data + old * 2 ^ (32 * x.1), fl ||| g,
    poison || s.granulePoisoned (x.2 / 16))

/-- VAMO (R150): lanes in ascending order, each read-modify-write indivisible. -/
def runVamo (e : QEntry) (vd : BitVec 6) (space : BitVec 2) (fmt : BitVec 4) (vx : BitVec 6) (op : BitVec 4) :
    M Unit :=
  vecWord e 10 1 do
    let _ ← tagGroup e.head [fmt.toNat] [(vd, 0)]
    let _ ← tagGroup e.head [12] [(vx, 3)]
    let st ← me
    let ls := lanesOf st.active
    if ls.isEmpty then pure ([], 0)
    else
      consumeV [vx]
      let ps ← lanePlaces space (e.capA 0) (st.getV vx) ls
      let s ← ask id
      let (t, data, fl, poison) := ps.foldl (vamoLane op.toNat (st.getV vd)) (s, 0, 0, false)
      upd fun _ => t
      pure (vMasked vd st.active (BitVec.ofNat 1024 data) fmt.toNat 0 (poison || (st.getV vd).poison), fl)

end Sys2Proof.Machine
end

