-- ==== Sys2Proof/Machine/Quantiser.lean ====
section
/-! DEFINITION. The quantiser (R106-R121): the carry step, the stores of vector registers and tile rows, scales, and the
carry registers. -/

namespace Sys2Proof.Machine

/-! ## Targets (R107, Table 2) -/

/-- The largest finite value of a target, for QSCL (R107, Table 2). -/
def qMax (target : Nat) : Ex :=
  if target = 6 then Ex.ofInt 127 else (fmtOf target).decode (fmtOf target).maxCode

/-- A target is a block format. -/
def isBlock (tag : Nat) : Bool := decide (tag = 10) || decide (tag = 11)

/-- D, with the default of the target for a field of 0 (R106). -/
def QCfg.d (c : QCfg) : Nat := if c.dd = 0 then (if c.target = 10 then 4 else 2) else c.dd.toNat

/-- The rounding of a configuration: RTZ in mode 1, RNE otherwise (R108). -/
def QCfg.rnd (c : QCfg) : Rnd := if c.mode = 1 then .tz else .ne

/-- SHAPE mode: carries are read and written (R108). -/
def QCfg.shape (c : QCfg) : Bool := decide (c.mode = 2)

/-- Bytes that 32 elements of a target take (R107, Table 2). -/
def qBytes (target : Nat) : Nat := 4 * elemWidth target

/-! ## The carry step (R108) -/

/-- v of the carry step: x ÷ s + c, rounded once; an exactly zero sum is −0 when both terms are negative zeros and +0
otherwise.  (DESIGN CHOICE: assumption 85.) -/
def stepV (x s c : BitVec 32) : BitVec 32 := rne32 (((val32 x).div (val32 s)).add (val32 c))

/-- The code, the carry and the flags of Step for v (R108), for a target that is no block. -/
def stepCode (c : QCfg) (v : BitVec 32) : Nat × BitVec 32 × BitVec 3 :=
  let t := c.target.toNat
  let x := val32 v
  let sat := decide (c.sat = 1)
  let f := fmtOf t
  match x with
  | .nan _ => (if t = 6 then 0 else (f.convert c.rnd sat false x).1, 0, qNAN)
  | .inf neg =>
    (if t = 6 then (if neg then 0x80 else 0x7F)
     else if sat || decide (t = 9) then f.withSign neg f.maxCode
     else (f.convert c.rnd false false x).1, 0, qSAT)
  | .fin neg n d e =>
    if t = 6 then
      let (k, _) := roundInt c.rnd neg n d e
      if k > 127 ∨ k < -128 then (if neg then 0x80 else 0x7F, 0, qSAT)
      else (wrapTo 8 k, rne32 (x.add (Ex.ofInt (-k))), 0)
    else if (sat || decide (t = 9)) && f.beyond n d e then (f.withSign neg f.maxCode, 0, qSAT)
    else
      let (mag, _) := f.roundMag c.rnd neg n d e
      if f.maxCode < mag then ((f.convert c.rnd false false x).1, 0, qSAT)
      else
        let code := f.withSign neg mag
        (code, rne32 (x.add (f.decode code).neg), 0)

/-- A chain through a list of elements (R109): the codes, the carry left, the flags; without SHAPE the carry stays
+0. -/
def chain (cfg : QCfg) (s : BitVec 32) : BitVec 32 → List (BitVec 32) → List Nat × BitVec 32 × BitVec 3
  | c, [] => ([], c, 0)
  | c, x :: t =>
    let (code, co, fl) := stepCode cfg (stepV x s (if cfg.shape then c else 0))
    let (codes, c', fl') := chain cfg s (if cfg.shape then co else 0) t
    (code :: codes, c', fl ||| fl')

/-- One step of 32 chains (R109): the codes, the carries out, the flags; blocks are encoded whole (R100). -/
def stepAll (cfg : QCfg) (s : BitVec 32) (cs xs : List (BitVec 32)) :
    List Nat × List (BitVec 32) × BitVec 3 × Nat :=
  let vs := (xs.zip cs).map fun x => stepV x.1 s (if cfg.shape then x.2 else 0)
  if isBlock cfg.target.toNat then
    let f := if cfg.target = 10 then BlockFmt.b8 else BlockFmt.b4
    let b := f.encode cfg.rnd cfg.d (vs.map val32)
    let carry (v : BitVec 32) (el : Nat × Bool) : BitVec 32 :=
      if b.nan || el.2 then 0 else rne32 ((val32 v).add (f.decode el.1 b.elo b.ehi).neg)
    (b.elems.map (·.1), (vs.zip b.elems).map fun x => carry x.1 x.2,
      (if b.nan then qNAN else 0) ||| (if b.elems.any (·.2) then qSAT else 0), b.elo + 256 * b.ehi)
  else
    let rs := vs.map (stepCode cfg)
    (rs.map (·.1), rs.map (·.2.1), rs.foldl (fun acc r => acc ||| r.2.2) 0, 0)

/-- Codes packed in element order (R87). -/
def packCodes (w : Nat) (codes : List Nat) : Nat :=
  codes.zipIdx.foldl (fun acc x => acc + x.1 % 2 ^ w * 2 ^ (w * x.2)) 0

/-! ## Carry registers (R37, R109) -/

/-- The lanes of a QV register. -/
def lanesList (x : BitVec 1024) : List (BitVec 32) := (List.range 32).map (lane x)

/-- A QV register from its lanes. -/
def lanesJoin (l : List (BitVec 32)) : BitVec 1024 := ofLanes fun k => l.getD k 0

/-- Q(r). -/
def Strand.getQ (st : Strand) (r : BitVec 4) : BitVec 32 := st.q[r.toNat]'r.isLt

/-- A write of Q(r). -/
def Strand.setQ (st : Strand) (r : BitVec 4) (v : BitVec 32) : Strand := { st with q := st.q.set r.toNat v r.isLt }

/-- QV(r). -/
def Strand.getQV (st : Strand) (r : BitVec 2) : BitVec 1024 := st.qv[r.toNat]'r.isLt

/-- A write of QV(r). -/
def Strand.setQV (st : Strand) (r : BitVec 2) (v : BitVec 1024) : Strand := { st with qv := st.qv.set r.toNat v r.isLt }

/-- The carry register of a kind, set to +0. -/
def Strand.clearCarry (st : Strand) (kind : BitVec 1) (r : BitVec 4) : Strand :=
  if kind = 0 then st.setQ r 0 else st.setQV (r.setWidth 2) 0

/-- Bytes that the spec leaves open.  (DEDUCED: assumption 33.) -/
def freeBytes (n : Nat) : M (List Byte) := do
  let k ← ask State.nfree
  upd fun s => { s with nfree := s.nfree + 1 }
  pure ((List.range n).map (Config.freeByte k))

/-! ## Stores (R112, R113) -/

/-- A quantiser store of poisoned data: the destination granules are poisoned and the data are free (R112).
(DEDUCED: assumption 33.) -/
def storePoisoned (space : BitVec 2) (ea n : Nat) : M Unit := do
  let bs ← freeBytes n
  spWrite space ea bs true 0

/-- QSTV (R112). -/
def runQstv (e : QEntry) (space : BitVec 2) (v : BitVec 6) (qr : BitVec 4) (axisend : BitVec 1) : M Unit := do
  let _ ← tagGroup e.head [1] [(v, 1)]
  let st ← me
  let cfg := st.qcfg
  let t := cfg.target.toNat
  let ea := e.capA 0
  let ex := e.capA 2
  let s : BitVec 32 := (e.capS 1).setWidth 32
  let seq := decide (cfg.axis = 1)
  aligned ea 16
  if isBlock t then aligned ex 2 else pure ()
  if (st.getV v).poison then
    storePoisoned space ea (qBytes t)
    if isBlock t then storePoisoned space ex 2 else pure ()
    updMe fun st => (if cfg.shape then st.clearCarry cfg.axis qr else st).raiseQ qBREAK
  else
    let xs := lanesList (st.getV v).data
    let (codes, carries, c, fl, exps) :=
      if seq || isBlock t then
        let (codes, cs, fl, exps) := stepAll cfg s (lanesList (st.getQV (qr.setWidth 2))) xs
        (codes, cs, (0 : BitVec 32), fl, exps)
      else
        let (codes, c, fl) := chain cfg s (st.getQ qr) xs
        (codes, [], c, fl, 0)
    spWrite space ea (leBytes (qBytes t) (packCodes (elemWidth t) codes)) false 0
    if isBlock t then spWrite space ex (leBytes 2 exps) false 0 else pure ()
    updMe fun st =>
      let last := decide (axisend = 1)
      (if !cfg.shape then st
       else if seq then st.setQV (qr.setWidth 2) (if last then 0 else lanesJoin carries)
       else st.setQ qr (if last then 0 else c)).raiseQ fl

/-- Tile row r as 64 FP32 elements. -/
def Tile.row (t : Tile) (r : Nat) : List (BitVec 32) :=
  (List.range 64).map fun c => (t.rows.getD r 0).extractLsb' (32 * c) 32

/-- One row of QSTT (R113): the 64 codes, the carries of the columns, the flags and the four exponent bytes. -/
def qsttRow (cfg : QCfg) (s : BitVec 32) (cs xs : List (BitVec 32)) :
    List Nat × List (BitVec 32) × BitVec 3 × Nat :=
  if cfg.axis = 1 ∨ isBlock cfg.target.toNat then
    let (c0, k0, f0, e0) := stepAll cfg s (cs.take 32) (xs.take 32)
    let (c1, k1, f1, e1) := stepAll cfg s (cs.drop 32) (xs.drop 32)
    (c0 ++ c1, k0 ++ k1, f0 ||| f1, e0 + 65536 * e1)
  else
    let (codes, _, fl) := chain cfg s 0 xs
    (codes, cs, fl, 0)

/-- The rows of QSTT in order: what each row stores, and the carries and flags left. -/
def qsttRows (cfg : QCfg) (s : BitVec 32) (tile : Tile) :
    List Nat → List (BitVec 32) → List (Nat × Nat) × List (BitVec 32) × BitVec 3
  | [], cs => ([], cs, 0)
  | r :: t, cs =>
    let (codes, cs', fl, ex) := qsttRow cfg s cs (tile.row r)
    let (rows, cs'', fl') := qsttRows cfg s tile t cs'
    ((packCodes (elemWidth cfg.target.toNat) codes, ex) :: rows, cs'', fl ||| fl')

/-- QSTT (R113): a tile of another tag than F32, NONE included, raises the format trap (R102). -/
def runQstt (e : QEntry) (t : BitVec 4) (row0 count1 : BitVec 5) (axisend : BitVec 1) (space : BitVec 2)
    (qr : BitVec 4) (stride : BitVec 16) : M Unit := do
  let tile ← ask fun s => s.matrix.tiles[t.toNat]'t.isLt
  let st ← me
  if tile.tag ≠ 1 ∧ st.fmttrap then stop (.user ⟨0x02, formatData e.head t.toNat tile.tag.toNat 1 5⟩)
  else
    let cfg := st.qcfg
    let tag := cfg.target.toNat
    let ea := e.capA 1
    let ex := e.capA 2
    let s : BitVec 32 := (e.capS 0).setWidth 32
    let n := 2 * qBytes tag
    let rows := (List.range (count1.toNat + 1)).map (row0.toNat + ·)
    let at_ (i : Nat) : Nat := (ea + i * 16 * stride.toNat) % 2 ^ 32
    let exAt (i : Nat) : Nat := (ex + 4 * i) % 2 ^ 32
    let p : Bool := qr.getLsbD 1
    let q0 : BitVec 2 := if p then 2 else 0
    aligned ea 16
    if isBlock tag then aligned ex 4 else pure ()
    if tile.poison then
      each (fun i => do
        storePoisoned space (at_ i) n
        if isBlock tag then storePoisoned space (exAt i) 4 else pure ()) (List.range rows.length)
      updMe fun st =>
        (if cfg.shape && decide (cfg.axis = 1) then (st.setQV q0 0).setQV (q0 + 1) 0 else st).raiseQ qBREAK
    else
      let cs := lanesList (st.getQV q0) ++ lanesList (st.getQV (q0 + 1))
      let (out, cs', fl) := qsttRows cfg s tile rows cs
      each (fun x => do
        spWrite space (at_ x.2) (leBytes n x.1.1) false 0
        if isBlock tag then spWrite space (exAt x.2) (leBytes 4 x.1.2) false 0 else pure ()) out.zipIdx
      updMe fun st =>
        let last := decide (axisend = 1)
        (if cfg.shape && decide (cfg.axis = 1) then
          (st.setQV q0 (if last then 0 else lanesJoin (cs'.take 32))).setQV (q0 + 1)
            (if last then 0 else lanesJoin (cs'.drop 32))
         else st).raiseQ fl

/-! ## The other words (R106, R114-R117) -/

/-- QCFG (R106). -/
def runQcfg (target : BitVec 4) (axis : BitVec 1) (mode : BitVec 2) (sat : BitVec 1) (dd : BitVec 3) : M Unit :=
  updMe fun st => { st with qcfg := ⟨target, axis, mode, sat, dd⟩ }

/-- The scale of QSCL and its flags (R114). -/
def qScale (target : Nat) (x : BitVec 32) : BitVec 32 × BitVec 3 :=
  let m := x &&& 0x7FFFFFFF
  if isBlock target then (0x3F800000, 0)
  else match val32 m with
    | .nan _ => (0x7FC00000, qNAN)
    | .inf _ => (0x7F800000, qSAT)
    | v => if m.toNat < 0x00800000 then (0x3F800000, 0) else (rne32 (v.div (qMax target)), 0)

/-- QSCL (R114). -/
def runQscl (e : QEntry) (d : BitVec 5) : M Unit :=
  updMe fun st =>
    let (v, fl) := qScale st.qcfg.target.toNat ((e.capS 0).setWidth 32)
    (st.setS d (v.setWidth 64)).raiseQ fl

/-- QRLD (R115). -/
def runQrld (e : QEntry) (kind : BitVec 1) (qr : BitVec 4) (space fe : BitVec 2) : M Unit := do
  let ea := e.capA 0
  aligned ea 16
  let n := if kind = 0 then 16 else 128
  let p ← place space ea n
  feLoad 3 fe (granules p n)
  -- kind 0 reads bytes 0-3
  let k := if kind = 0 then 4 else 128
  let (bs, poison) ← ask fun s => s.chipRead p k
  consume poison ea
  updMe fun st =>
    if kind = 0 then st.setQ qr (BitVec.ofNat 32 (leNat bs)) else st.setQV (qr.setWidth 2) (BitVec.ofNat 1024 (leNat bs))

/-- QRST (R115). -/
def runQrst (e : QEntry) (kind : BitVec 1) (qr : BitVec 4) (space fe : BitVec 2) : M Unit := do
  let ea := e.capA 0
  aligned ea 16
  let st ← me
  spWrite space ea (if kind = 0 then leBytes 16 (st.getQ qr).toNat else leBytes 128 (st.getQV (qr.setWidth 2)).toNat)
    false fe
  updMe fun st => st.clearCarry kind qr

/-- QRCLR (R116). -/
def runQrclr (kind : BitVec 1) (qr : BitVec 4) : M Unit := updMe fun st => (st.clearCarry kind qr).raiseQ qBREAK

/-- QRMOV (R116). -/
def runQrmov (kind : BitVec 1) (qd qa : BitVec 4) : M Unit :=
  updMe fun st =>
    if qd = qa then st
    else if kind = 0 then (st.setQ qd (st.getQ qa)).setQ qa 0
    else (st.setQV (qd.setWidth 2) (st.getQV (qa.setWidth 2))).setQV (qa.setWidth 2) 0

/-- QFLG (R117). -/
def runQflg (d : BitVec 5) (clr : BitVec 1) : M Unit :=
  updMe fun st =>
    let t := st.setS d (st.qflags.setWidth 64)
    if clr = 1 then { t with qflags := 0 } else t

end Sys2Proof.Machine
end

