-- ==== Sys2Proof/Machine/Matrix.lean ====
section
/-! DEFINITION. The matrix engine (R154-R179): planes, weight images, single rows, MMUL and its chains, tiles, and the
slot table. -/

namespace Sys2Proof.Machine

/-! ## Gangs and planes (R154-R156) -/

/-- Macros per gang, K, of an arrangement (R155). -/
def gangK (arr : BitVec 2) : Nat := 2 ^ arr.toNat

/-- Gangs, N, of an arrangement (R155). -/
def gangN (arr : BitVec 2) : Nat := 2 ^ (3 - arr.toNat)

/-- The macros of gang g. -/
def gangMacros (arr : BitVec 2) (g : Nat) : List Nat := (List.range (gangK arr)).map (g * gangK arr + ·)

/-- The plane that MMUL reads. -/
def Macro.live (m : Macro) : Plane := if m.active = 0 then m.plane0 else m.plane1

/-- The plane that the loads write. -/
def Macro.shadow (m : Macro) : Plane := if m.active = 0 then m.plane1 else m.plane0

/-- The shadow plane replaced. -/
def Macro.setShadow (m : Macro) (p : Plane) : Macro :=
  if m.active = 0 then { m with plane1 := p } else { m with plane0 := p }

/-- A macro by its number. -/
def MatrixEngine.mac (m : MatrixEngine) (k : Nat) : Macro := m.macros.getD k ⟨Plane.reset, Plane.reset, 0⟩

/-- A macro replaced. -/
def MatrixEngine.setMac (m : MatrixEngine) (k : Nat) (x : Macro) : MatrixEngine :=
  { m with macros := m.macros.setIfInBounds k x }

/-- A tile by its number. -/
def MatrixEngine.tile (m : MatrixEngine) (t : Nat) : Tile := m.tiles.getD t Tile.clear

/-- A tile replaced. -/
def MatrixEngine.setTile (m : MatrixEngine) (t : Nat) (x : Tile) : MatrixEngine :=
  { m with tiles := m.tiles.setIfInBounds t x }

/-- Columns of a plane (R154). -/
def Plane.ncol (p : Plane) : Nat := if p.fmt = .b4 then 128 else 64

/-- Element bits of K-row k and column c. -/
def Plane.bits (p : Plane) (k c : Nat) : Nat :=
  let w := if p.fmt = .b4 then 4 else 8
  (p.rows.getD k 0).toNat / 2 ^ (w * c) % 2 ^ w

/-- The exponent pair of the block of K-row k in column c. -/
def Plane.expPair (p : Plane) (k c : Nat) : Nat × Nat :=
  let x := (p.exps.getD (k / 32) 0).toNat / 2 ^ (16 * c)
  (x % 256, x / 256 % 256)

/-- The block format of a plane. -/
def Plane.blockFmt (p : Plane) : BlockFmt := if p.fmt = .b4 then .b4 else .b8

/-- The exact value of a weight: an integer on INT8 planes, decoded under R89 on the others. -/
def Plane.value (p : Plane) (k c : Nat) : Ex :=
  if p.fmt = .int8 then Ex.ofInt (sval 8 (p.bits k c))
  else
    let (lo, hi) := p.expPair k c
    p.blockFmt.decode (p.bits k c) lo hi

/-! ## Residues of elements (R177) -/

/-- The signed integer value of element bits: ±m, or the INT8 value (R177). -/
def PlaneFmt.signed (f : PlaneFmt) (bits : Nat) : Int :=
  match f with
  | .int8 => sval 8 bits
  | .b8 => if bits / 64 % 2 = 1 then -((bits % 64 : Nat) : Int) else ((bits % 64 : Nat) : Int)
  | .b4 => if bits / 4 % 2 = 1 then -((bits % 4 : Nat) : Int) else ((bits % 4 : Nat) : Int)

/-- The residues of a K-row's elements, 3 bits a column, computed as the row is written (R158, R161, R177). -/
def PlaneFmt.rowRes (f : PlaneFmt) (row : BitVec 512) : BitVec 384 :=
  let (n, w) := if f = .b4 then (128, 4) else (64, 8)
  if row = 0 then 0
  else BitVec.ofNat 384 ((List.range n).foldl
    (fun acc c => acc + residue (f.signed (row.toNat / 2 ^ (w * c) % 2 ^ w)) * 8 ^ c) 0)

/-- The stored residue of the element of K-row k and column c. -/
def Plane.rho (p : Plane) (k c : Nat) : Nat := (p.res.getD k 0).toNat / 8 ^ c % 8

/-- Every stored residue is that of its element. -/
def Plane.sound (p : Plane) : Bool := (List.finRange 128).all fun k => p.fmt.rowRes p.rows[k] == p.res[k]

/-- The metadata nibble of group G of a macro and column c (R159). -/
def Plane.nibble (p : Plane) (g c : Nat) : Nat := (p.sel.getD (g / 8) 0).toNat / 2 ^ (32 * c + 4 * (g % 8)) % 16

/-- pos(k) of R167 within the macro: the logical position that physical row k of column c meets (R159). -/
def Plane.pos (p : Plane) (k c : Nat) : Nat :=
  if p.sparse then 4 * (k / 2) + (if k % 2 = 0 then p.nibble (k / 2) c % 4 else p.nibble (k / 2) c / 4) else k

/-- Logical K-rows of a macro's plane. -/
def Plane.depth (p : Plane) : Nat := if p.sparse then 256 else 128

/-- The planes of macros have one format and sparse attribute (R156). -/
def agreePlanes (ps : List Plane) : Bool :=
  match ps with
  | [] => true
  | p :: t => t.all fun q => decide (q.fmt = p.fmt) && decide (q.sparse = p.sparse)

/-- Trap 0x06: TRAPDATA holds the head word and the reason (R170). -/
def chainTrap {α : Type} (e : QEntry) (reason : Nat) : M α :=
  trapWith 0x06 (BitVec.ofNat 64 (e.head.toNat * 2 ^ 32 + reason))

/-- A tile whose tag the word does not accept raises the format trap with operand 5 (R102); with MODE.fmttrap clear it
is read as the format the word requires (R103).  (DEDUCED: assumption 40.) -/
def tileTrap (e : QEntry) (t : Nat) (found : BitVec 4) (want : Nat) : M Unit := do
  let st ← me
  if st.fmttrap then trapWith 0x02 (formatData e.head t found.toNat want 5) else pure ()

/-- The matrix engine, read. -/
def engine : M MatrixEngine := ask State.matrix

/-- The matrix engine, changed. -/
def updEngine (f : MatrixEngine → MatrixEngine) : M Unit := upd fun s =>
  let m := f s.matrix
  { s with matrix := m }

/-- The strand that owns the present slot; none in an open slot and in the first cycles of a slot that its owner's debt
opens (R50, R51). -/
def State.slotOwner (s : State) : Option (Fin 4) :=
  let v := s.matrix.slots.getD (s.cycle / 256 % 16) 0xF
  if s.cycle % 256 < s.matrix.openFor then none
  else if h : v.toNat < 4 then some ⟨v.toNat, h⟩ else none

/-- The cycles a … b − 1 pass: those past the end of the slot in which an open chain's owner opened it are a debt (R51).
(DEDUCED: assumption 52.) -/
def MatrixEngine.charge (m : MatrixEngine) (a b : Nat) : MatrixEngine :=
  match m.chain with
  | none => m
  | some c =>
    match c.ends with
    | none => m
    | some e => { m with debt := m.debt.set c.owner.val (m.debt[c.owner] + (b - max a e)) c.owner.isLt }

/-- A slot table applies, and every debt is cleared, the one under repayment too (R175); a table that was deferred is
dropped.  (DESIGN CHOICE: assumption 86.) -/
def MatrixEngine.applySlots (m : MatrixEngine) (t : Vector (BitVec 4) 16) : MatrixEngine :=
  { m with slots := t, pendingSlots := none, debt := Vector.replicate 4 0, openFor := 0 }

/-- Slot number `k` (counted from reset) begins: a deferred table applies in slot 0 (R175), and the first
min(debt, 256) cycles of its owner's slot are open and leave the debt (R51). -/
def MatrixEngine.enterSlot (m : MatrixEngine) (k : Nat) : MatrixEngine :=
  let m := match m.pendingSlots with
    | some t => if k % 16 = 0 then m.applySlots t else m
    | none => m
  let v := m.slots.getD (k % 16) 0xF
  if h : v.toNat < 4 then
    let pay := min m.debt[v.toNat] 256
    { m with openFor := pay, debt := m.debt.set v.toNat (m.debt[v.toNat] - pay) h }
  else { m with openFor := 0 }

/-- The core's cycle counter runs to a later cycle (R50): every slot boundary on the way is passed.
(DESIGN CHOICE: assumption 21.) -/
def State.toCycle (s : State) (target : Nat) : State :=
  let slots := List.range' (s.cycle / 256 + 1) (target / 256 - s.cycle / 256)
  let (m, c) := slots.foldl
    (fun (x : MatrixEngine × Nat) k => ((x.1.charge x.2 (256 * k)).enterSlot k, 256 * k)) (s.matrix, s.cycle)
  let m := m.charge c target
  { s with matrix := m, cycle := target }

/-- The current strand owns the open chain. -/
def State.ownsChain (s : State) : Bool :=
  match s.matrix.chain with
  | some c => decide (c.owner = s.cur)
  | none => false

/-! ## Arrangement and planes (R155, R163) -/

/-- A word that waits until no chain is open and traps when its own strand's is (R155, R163). -/
def noChain (e : QEntry) : M Unit := do
  let s ← ask id
  if s.ownsChain then chainTrap e 6
  else if s.matrix.chain.isSome then stall
  else pure ()

/-- MCFG (R155). -/
def runMcfg (e : QEntry) (gang : BitVec 2) : M Unit := do
  noChain e
  updEngine fun m => { m with gang := gang }

/-- MSWAP (R163). -/
def runMswap (e : QEntry) (g : BitVec 3) (all : BitVec 1) : M Unit := do
  noChain e
  let m ← engine
  let swap (x : Macro) : Macro := { x with active := ~~~x.active }
  if all = 1 then updEngine fun m => { m with macros := m.macros.map swap }
  else if gangN m.gang ≤ g.toNat then chainTrap e 4
  else updEngine fun m => (gangMacros m.gang g.toNat).foldl (fun m k => m.setMac k (swap (m.mac k))) m

/-! ## Weight loads (R157-R160) -/

/-- The image of an MLDW or MLDWS: rows, their poison, and for each 32-row block the exponents. -/
structure Image where
  rows   : List (Nat × Bool)
  exps   : List (Nat × Bool)
  qflags : BitVec 3

/-- A plane from a format code: 0xA and 0x7 give B8, 0xB B4, 0x6 INT8 (R158). -/
def planeFmt (fmt : Nat) : PlaneFmt := if fmt = 11 then .b4 else if fmt = 6 then .int8 else .b8

/-- An E4M3 image's 32-row block, column by column, through EncodeBlock with RNE and D = 4 (R158).
(DEDUCED: assumption 36.) -/
def convBlock (rows : List Nat) : Image :=
  let cols := (List.range 64).map fun c =>
    BlockFmt.b8.encode .ne 4 (rows.map fun r => Fmt.e4m3.decode (r / 2 ^ (8 * c) % 256))
  let row (k : Nat) : Nat := cols.zipIdx.foldl (fun acc x => acc + (x.1.elems.getD k (0, false)).1 * 2 ^ (8 * x.2)) 0
  let ex : Nat := cols.zipIdx.foldl (fun acc x => acc + (x.1.elo + 256 * x.1.ehi) * 2 ^ (16 * x.2)) 0
  let fl : BitVec 3 := (if cols.any (·.nan) then qNAN else 0) ||| (if cols.any (fun b => b.elems.any (·.2)) then qSAT else 0)
  ⟨(List.range rows.length).map fun k => (row k, false), [(ex, false)], fl⟩

/-- The rows of an image in 32-row blocks. -/
def blocks32 {α : Type} : Nat → List α → List (List α)
  | 0, _ => []
  | n + 1, l => l.take 32 :: blocks32 n (l.drop 32)

/-- Reads the image (R157, R158): n K-rows from `ea` and, for B8 and B4, the exponents from `ex`.  The element image is one
access of R207; each 32-row block's exponents are another.  (DEDUCED: assumption 36, DESIGN CHOICE: assumption 89.) -/
def readImage (space : BitVec 2) (fmt : Nat) (vq : Bool) (ea ex n : Nat) : M Image := do
  let per := if vq then 16 else 64
  let _ ← place space ea (per * n)
  let ncol := if fmt = 11 then 128 else 64
  let raw ← collect (fun k => do
    let (b, po) ← spRead 2 space (ea + per * k) per 0
    pure (leNat b, po)) (List.range n)
  let book ← ask State.codebook
  let expand (x : Nat) : Nat := (List.range 16).foldl
    (fun acc i => acc + book.toNat / 2 ^ (32 * (x / 2 ^ (8 * i) % 256)) % 2 ^ 32 * 2 ^ (32 * i)) 0
  let rows := if vq then raw.map fun x => (expand x.1, x.2) else raw
  if fmt = 7 then
    let bs := (blocks32 (n / 32) rows).map fun b =>
      let po := b.any (·.2)
      let i := convBlock (b.map (·.1))
      ({ i with rows := i.rows.map fun r => (r.1, po) } : Image)
    pure ⟨bs.flatMap (·.rows), bs.flatMap (·.exps), bs.foldl (fun f i => f ||| i.qflags) 0⟩
  else if fmt = 6 then pure ⟨rows, [], 0⟩
  else
    let exps ← collect (fun b => do
      let (x, po) ← spRead 2 space (ex + 2 * ncol * b) (2 * ncol) 0
      pure (leNat x, po)) (List.range (n / 32))
    pure ⟨rows, exps, 0⟩

/-- A plane after a load (R158): K-rows k0 … k0 + n − 1 of the gang from the image, the others kept, or zeroed when the
format changes or the plane was sparse.  `i` is the macro's index within the gang.  (DEDUCED: assumption 37.) -/
def Plane.load (p : Plane) (fmt : PlaneFmt) (sparse : Bool) (i k0 n : Nat) (img : Image)
    (sel : Vector (BitVec 4096) 8) : Plane :=
  let change := decide (p.fmt ≠ fmt) || p.sparse
  let inside (k : Nat) : Bool := decide (k0 ≤ 128 * i + k) && decide (128 * i + k < k0 + n)
  let row (k : Nat) : Nat × Bool := img.rows.getD (128 * i + k - k0) (0, false)
  let exOf (b : Nat) : Nat × Bool := img.exps.getD ((128 * i + 32 * b - k0) / 32) (0, false)
  { fmt := fmt
    sparse := sparse
    rows := Vector.ofFn fun k =>
      if inside k.val then BitVec.ofNat 512 (row k.val).1 else if change then 0 else p.rows[k]
    res := Vector.ofFn fun k =>
      if inside k.val then fmt.rowRes (BitVec.ofNat 512 (row k.val).1) else if change then 0 else p.res[k]
    exps := Vector.ofFn fun b =>
      if inside (32 * b.val) && decide (fmt ≠ .int8) then BitVec.ofNat 2048 (exOf b.val).1
      else if change then 0 else p.exps[b]
    sel := sel
    poison := (List.finRange 128).foldl (fun acc k =>
      let b := if inside k.val then (row k.val).2 || (decide (fmt ≠ .int8) && (exOf (k.val / 32)).2)
        else !change && p.poison.getLsbD k.val
      if b then acc ||| BitVec.ofNat 128 (2 ^ k.val) else acc) 0 }

/-- The K-rows a load covers (R158); reason 0x04 when the gang or the range does not fit the arrangement. -/
def loadRange (e : QEntry) (g : BitVec 3) (k0 n1 : BitVec 10) (whole : BitVec 1) : M (Nat × Nat) := do
  let m ← engine
  let (k, n) := if whole = 1 then (0, 128 * gangK m.gang) else (k0.toNat, n1.toNat + 1)
  if gangN m.gang ≤ g.toNat ∨ 128 * gangK m.gang < k + n then chainTrap e 4 else pure (k, n)

/-- The planes of a gang loaded.  (DEDUCED: assumption 37.) -/
def MatrixEngine.loadGang (m : MatrixEngine) (g : Nat) (fmt : PlaneFmt) (sparse : Bool) (k0 n : Nat) (img : Image)
    (sel : Nat → Plane → Vector (BitVec 4096) 8) : MatrixEngine :=
  (gangMacros m.gang g).zipIdx.foldl (fun m x =>
    let mac := m.mac x.1
    m.setMac x.1 (mac.setShadow (mac.shadow.load fmt sparse x.2 k0 n img (sel x.2 mac.shadow)))) m

/-- MLDW (R158); the tests of the range come before that of the address.  (DEDUCED: assumption 25.) -/
def runMldw (e : QEntry) (g : BitVec 3) (fmt : BitVec 4) (space : BitVec 2) (vq : BitVec 1) (k0 n1 : BitVec 10)
    (whole : BitVec 1) : M Unit := do
  let (k, n) ← loadRange e g k0 n1 whole
  aligned (e.capA 0) 16
  if isBlock fmt.toNat then aligned (e.capA 1) 2 else pure ()
  let img ← readImage space fmt.toNat (decide (vq = 1)) (e.capA 0) (e.capA 1) n
  updEngine fun m => m.loadGang g.toNat (planeFmt fmt.toNat) false k n img fun _ p => p.sel
  updMe fun st => st.raiseQ img.qflags

/-- A metadata group is legal: idx0 < idx1 (R159).  (DEDUCED: assumption 38.) -/
def groupOk (nib : Nat) : Bool := decide (nib % 4 < nib / 4)

/-- The index of the first illegal group of metadata words, in ascending word index and within a word in ascending j
(R160). -/
def badGroup (words : List Nat) : Option Nat :=
  (List.range (8 * words.length)).find? fun i => !groupOk (words.getD (i / 8) 0 / 2 ^ (4 * (i % 8)) % 16)

/-- MLDWS (R160): the selectors of chunks outside the range stay as the plane last held them.
(DEDUCED: assumption 25, DEDUCED: assumption 38, DESIGN CHOICE: assumption 92.) -/
def runMldws (e : QEntry) (g : BitVec 3) (fmt : BitVec 4) (space : BitVec 2) (k0 n1 : BitVec 10)
    (whole : BitVec 1) : M Unit := do
  let (k, n) ← loadRange e g k0 n1 whole
  let ncol := if fmt = 11 then 128 else 64
  aligned (e.capA 0) 16
  if isBlock fmt.toNat then aligned (e.capA 1) 2 else pure ()
  aligned (e.capA 2) 4
  let h0 := k / 16
  let chunks := (k + n + 15) / 16 - h0
  let words ← collect (fun i => do
    let (b, po) ← spRead 2 space (e.capA 2 + 4 * i) 4 0
    pure (leNat b, po)) (List.range (chunks * ncol))
  match badGroup (words.map (·.1)) with
  | some i => trapWith 0x03 (BitVec.ofNat 64 (e.head.toNat * 2 ^ 32 + i))
  | none =>
    let img ← readImage space fmt.toNat false (e.capA 0) (e.capA 1) n
    let sel (i : Nat) (p : Plane) : Vector (BitVec 4096) 8 := Vector.ofFn fun h =>
      if h0 ≤ 8 * i + h.val ∧ 8 * i + h.val < h0 + chunks then
        BitVec.ofNat 4096 ((List.range ncol).foldl
          (fun acc c => acc + (words.getD ((8 * i + h.val - h0) * ncol + c) (0, false)).1 * 2 ^ (32 * c)) 0)
      else p.sel[h]
    updEngine fun m => m.loadGang g.toNat (planeFmt fmt.toNat) true k n img sel

/-! ## Single rows (R161, R162) -/

/-- The registers of a single row (R161): reason 0x04 when a B4 plane's four do not fit. -/
def rowRegs (e : QEntry) (p : Plane) (v : BitVec 6) : M (List (BitVec 6)) :=
  let n := if p.fmt = .b4 then 4 else 2
  if 64 < v.toNat + n then chainTrap e 4
  else pure ((List.range n).map fun i => v + BitVec.ofNat 6 i)

/-- One element of MWRK and whether it saturates (R161). -/
def wrElem (p : Plane) (k c : Nat) (code : BitVec 32) : Nat × Bool :=
  let x := val32 code
  if p.fmt = .int8 then
    match x with
    | .nan _ => (0, true)
    | .inf neg => (if neg then 0x80 else 0x7F, true)
    | .fin neg n d ex =>
      let (i, _) := roundInt .ne neg n d ex
      if 127 < i then (0x7F, true) else if i < -128 then (0x80, true) else (wrapTo 8 i, false)
  else
    let f := p.blockFmt
    let (lo, hi) := p.expPair k c
    let usable (ex : Nat) : Bool := decide (ex ≠ 0) && decide (ex ≠ 255)
    if x.isNaN then (f.elem false false 0, true)
    else if usable lo && f.fits .ne lo x then (f.elem false x.sign ((f.mag .ne lo x).getD 0), false)
    else if usable hi then
      let m := match f.mag .ne hi x with | some m => m | none => f.mmax + 1
      (f.elem true x.sign (if f.mmax < m then f.mmax else m), decide (f.mmax < m))
    else (f.elem true x.sign 0, decide (code &&& 0x7FFFFFFF ≠ 0))

/-- MWRK (R161). -/
def runMwrk (e : QEntry) (mac : BitVec 3) (v : BitVec 6) : M Unit := do
  let m ← engine
  let p := (m.mac mac.toNat).shadow
  let rs ← rowRegs e p v
  let _ ← tagGroup e.head [1] (rs.map fun r => (r, 1))
  let st ← me
  let k := (e.capS 0).toNat % 128
  let w := if p.fmt = .b4 then 4 else 8
  let xs := rs.flatMap fun r => lanesList (st.getV r).data
  let els := xs.zipIdx.map fun x => wrElem p k x.2 x.1
  let row := BitVec.ofNat 512 (packCodes w (els.map (·.1)))
  let bit := BitVec.ofNat 128 (2 ^ k)
  let poison := if st.poisoned rs then p.poison ||| bit else p.poison &&& ~~~bit
  let q : Plane := { p with
    rows := p.rows.setIfInBounds k row, res := p.res.setIfInBounds k (p.fmt.rowRes row), poison := poison }
  updEngine fun m => m.setMac mac.toNat ((m.mac mac.toNat).setShadow q)
  let sat := els.any (·.2)
  updMe fun st => { st with wsat := st.wsat || sat }

/-- A vector register written whole by another engine (R162, R173). -/
def Strand.putV (st : Strand) (r : BitVec 6) (data : BitVec 1024) (tag : BitVec 4) (poison : Bool) : Strand :=
  st.setV r ⟨data, tag, 0, poison⟩

/-- MRDK (R162). -/
def runMrdk (e : QEntry) (mac : BitVec 3) (v : BitVec 6) : M Unit := do
  let m ← engine
  let p := (m.mac mac.toNat).shadow
  let rs ← rowRegs e p v
  let k := (e.capS 0).toNat % 128
  let el (c : Nat) : BitVec 32 :=
    if p.fmt = .int8 then BitVec.ofInt 32 (sval 8 (p.bits k c)) else rne32 (p.value k c)
  let tag : BitVec 4 := if p.fmt = .int8 then 4 else 1
  updMe fun st => rs.zipIdx.foldl
    (fun st x => st.putV x.1 (ofLanes fun l => el (32 * x.2 + l)) tag (p.poison.getLsbD k)) st

/-! ## The column check (R165, R177) -/

/-- A fixed-point magnitude of an FP8 element: units of 2^−16, which every finite E4M3 and E5M2 value has. -/
def fp8Units (f : Fmt) (code : Nat) : Int :=
  match f.decode code with
  | .fin neg n d e =>
    let m : Int := ((n * 2 ^ (e + 16).toNat / d / 2 ^ (-(e + 16)).toNat : Nat) : Int)
    if neg then -m else m
  | _ => 0

/-- q_b of R165 in those units: the largest power of two that divides every non-zero element of a block. -/
def quantum (l : List Int) : Int :=
  (((List.range 48).reverse.find? fun k => l.all fun x => decide (x % ((2 ^ k : Nat) : Int) = 0)).map
    fun k => ((2 ^ k : Nat) : Int)).getD 1

/-- The selector and the aligned signed integer of every element of a row of A (R165). -/
def aDigits (afmt n : Nat) (data : List Byte) : List (Nat × Int) :=
  let byte (k : Nat) : Nat := (data.getD k 0).toNat
  let nib (k : Nat) : Nat := byte (k / 2) / 2 ^ (4 * (k % 2)) % 16
  match afmt with
  | 11 => (List.range n).map fun i => (nib i / 8, PlaneFmt.b4.signed (nib i))
  | 10 => (List.range n).map fun i => (byte i / 128, PlaneFmt.b8.signed (byte i))
  | 6 => (List.range n).map fun i => (0, sval 8 (byte i))
  | _ =>
    let f := if afmt = 7 then Fmt.e4m3 else Fmt.e5m2
    (List.range n).map fun i =>
      let block := (List.range 32).map fun j => fp8Units f (byte (i / 32 * 32 + j))
      (0, fp8Units f (byte i) / quantum block)

/-- The rail of a product: the pairing of an A selector with a W selector (R165), numbered by the model.
(DESIGN CHOICE: assumption 103.) -/
def railOf (p : Plane) (asel k c : Nat) : Nat :=
  let wsel := match p.fmt with | .int8 => 0 | .b8 => p.bits k c / 128 | .b4 => p.bits k c / 8
  2 * asel + wsel

/-- The column sum C and the sum P of stored residues of one column of a macro, in bit-plane `j` and rail `r` of a row of
A whose elements meet the macro from `off` on (R177). -/
def columnSums (p : Plane) (a : Array (Nat × Int)) (off c j r : Nat) : Int × Nat :=
  (List.range 128).foldl (fun acc k =>
    let x := a.getD (off + p.pos k c) (0, 0)
    if x.2 / ((2 ^ j : Nat) : Int) % 2 = 1 ∧ railOf p x.1 k c = r then
      (acc.1 + p.fmt.signed (p.bits k c), acc.2 + p.rho k c)
    else acc) (0, 0)

/-- The lowest column of a macro, and its lowest rail, that fail the check in the cycle of bit-plane `j` of a row, with P and
C mod 7. -/
def Plane.mismatch (p : Plane) (a : Array (Nat × Int)) (off j : Nat) : Option (Nat × Nat × Nat × Nat) :=
  ((List.range p.ncol).flatMap fun c => (List.range 4).map fun r => (c, r)).findSome? fun (c, r) =>
    let (x, y) := columnSums p a off c j r
    if residue x = y % 7 then none else some (c, r, y % 7, residue x)

/-- A plane that an MMUL reads: its macro, which of the two planes it is, and the first A element that meets it. -/
structure Used where
  mac   : Nat
  side  : BitVec 1
  off   : Nat
  plane : Plane

/-- The planes of gangs, as an MMUL reads them. -/
def MatrixEngine.used (m : MatrixEngine) (gs : List Nat) : List Used :=
  gs.flatMap fun g => (gangMacros m.gang g).zipIdx.map fun x =>
    ⟨x.1, (m.mac x.1).active, x.2 * (m.mac x.1).live.depth, (m.mac x.1).live⟩

/-- The column check of an MMUL over the bytes of its rows: where every stored residue is that of its element no cycle can
fail it, and otherwise the first failing cycle ends the word with machine check 0x10 (R177): row by row, the lowest bit-plane
first, and in one cycle the lowest macro.  (DESIGN CHOICE: assumption 103.) -/
def columnCheck (us : List Used) (afmt n : Nat) (rows : List (List Byte)) : M Unit :=
  if us.all fun u => u.plane.sound then pure ()
  else
    let hit := (rows.map fun b => (aDigits afmt n b).toArray).zipIdx.findSome? fun r =>
      (List.range 40).findSome? fun j => us.findSome? fun u =>
        (u.plane.mismatch r.1 u.off j).map fun (c, rail, want, got) =>
          (⟨u.mac, c, u.side.toNat, rail, j, r.2, want, got⟩ : Cim)
    match hit with
    | some c => stop (.cim c)
    | none => pure ()

/-! ## MMUL (R164-R171, R176) -/

/-- One row of A: its element values by logical position. -/
abbrev ARow := List Ex

/-- The elements of a row from its bytes and exponent pairs (R164). -/
def aRow (afmt : Nat) (n : Nat) (data ex : List Byte) : ARow :=
  let byte (k : Nat) : Nat := (data.getD k 0).toNat
  (List.range n).map fun i =>
    let lo := (ex.getD (i / 32 * 2) 0).toNat
    let hi := (ex.getD (i / 32 * 2 + 1) 0).toNat
    match afmt with
    | 11 => BlockFmt.b4.decode (byte (i / 2) / 2 ^ (4 * (i % 2)) % 16) lo hi
    | 10 => BlockFmt.b8.decode (byte i) lo hi
    | 6 => Ex.ofInt (sval 8 (byte i))
    | 7 => Fmt.e4m3.decode (byte i)
    | _ => Fmt.e5m2.decode (byte i)

/-- S of R167: block b of a macro's plane, column c, against the row's elements from `off` on. -/
def blockSum (p : Plane) (a : Array Ex) (off b c : Nat) : Ex :=
  (List.range 32).foldl (fun acc i =>
    let k := 32 * b + i
    acc.add ((a.getD (off + p.pos k c) (Ex.fin false 0 1 0)).mul (p.value k c))) (Ex.fin false 0 1 0)

/-- RoundNE(S, FP32), +0 for an exactly zero S (R167). -/
def roundS : Ex → BitVec 32
  | .fin _ 0 _ _ => 0
  | x => rne32 x

/-- The integer value of an exact integer. -/
def Ex.int : Ex → Int
  | .fin neg n _ e => if neg then -((n * 2 ^ e.toNat : Nat) : Int) else ((n * 2 ^ e.toNat : Nat) : Int)
  | _ => 0

/-- One accumulation (R167), and whether an INT32 entry wrapped. -/
def accumulate (int : Bool) (acc : BitVec 32 × Bool) (s : Ex) : BitVec 32 × Bool :=
  if int then
    let x := acc.1.toInt + s.int
    (BitVec.ofInt 32 x, acc.2 || decide (x < -(2 ^ 31)) || decide (2 ^ 31 ≤ x))
  else (rne32 ((val32 acc.1).add (val32 (roundS s))), acc.2)

/-- One entry after all blocks of a gang, macro 0 first (R167). -/
def entrySum (int : Bool) (planes : List Plane) (a : Array Ex) (c : Nat) (acc : BitVec 32) : BitVec 32 × Bool :=
  planes.zipIdx.foldl (fun acc x =>
    (List.range 4).foldl (fun acc b => accumulate int acc (blockSum x.1 a (x.2 * x.1.depth) b c)) acc) (acc, false)

/-- A tile after the rows of one MMUL: its columns are columns c0 … c0 + 63 of the gang (R169).  (DEDUCED: assumption 39.) -/
def Tile.accum (t : Tile) (int : Bool) (planes : List Plane) (rows : List (Array Ex)) (c0 : Nat) : Tile :=
  rows.zipIdx.foldl (fun t x =>
    let row := t.rows.getD x.2 0
    let es := (List.range 64).map fun c => entrySum int planes x.1 (c0 + c) (row.extractLsb' (32 * c) 32)
    let new := es.zipIdx.foldl (fun acc y => acc + y.1.1.toNat * 2 ^ (32 * y.2)) 0
    { t with rows := t.rows.setIfInBounds x.2 (BitVec.ofNat 2048 new), ovf := t.ovf || es.any (·.2) }) t

/-- What an MMUL meets when the engine takes it: the planes of each gang, their format, tiles, row elements. -/
structure Plan where
  gangs : List (List Plane)
  n     : Nat
  int   : Bool
  elems : Nat

/-- The gangs that an MMUL uses. -/
def MatrixEngine.gangsOf (m : MatrixEngine) (g : BitVec 3) (wide : BitVec 1) : List Nat :=
  if wide = 1 then List.range (gangN m.gang) else [g.toNat]

/-- The tests of R156, R166 and R169.  (DEDUCED: assumption 34.) -/
def mmulPlan (e : QEntry) (t : BitVec 4) (g : BitVec 3) (afmt : BitVec 4) (wide : BitVec 1) : M Plan := do
  let m ← engine
  let gs := m.gangsOf g wide
  if gangN m.gang ≤ g.toNat then chainTrap e 4
  else
    let gangs := gs.map fun g => (gangMacros m.gang g).map fun k => (m.mac k).live
    match gangs.flatten with
    | [] => chainTrap e 4
    | p :: _ =>
      let int := decide (afmt = 6)
      if !agreePlanes gangs.flatten then chainTrap e 5
      else if (p.fmt = .int8) ≠ (int = true) then chainTrap e 5
      else
        let n := (if p.fmt = .b4 then 2 else 1) * gs.length
        if 16 < t.toNat + n then chainTrap e 4
        else pure ⟨gangs, n, int, p.depth * gangK m.gang⟩

/-- The tests of R170 against the open chain, or the tags of the tiles of a chain that opens.  A word that goes on with an open
chain tests no tag, though its strand may have cleared a tile meanwhile.  (DEDUCED: assumption 34, DESIGN CHOICE:
assumption 98.) -/
def mmulChain (e : QEntry) (t : BitVec 4) (rows : Nat) (start : BitVec 1) (p : Plan) : M Unit := do
  let m ← engine
  match m.chain with
  | some c =>
    if start = 1 then chainTrap e 3
    else if c.t ≠ t.toNat ∨ c.n ≠ p.n ∨ c.rows ≠ rows ∨ c.int ≠ p.int then chainTrap e 2
    else if 256 ≤ c.count then chainTrap e 1
    else pure ()
  | none =>
    let want : BitVec 4 := if p.int then 4 else 1
    if start = 1 then pure ()
    else match (List.range p.n).find? fun i => decide ((m.tile (t.toNat + i)).tag ≠ want) with
      | some i => tileTrap e (t.toNat + i) (m.tile (t.toNat + i)).tag want.toNat
      | none => pure ()

/-- The rows of A that an MMUL reads under its qualifier (R164, R210), with their poison and their bytes. -/
def mmulRows (e : QEntry) (elems rows : Nat) (afmt : BitVec 4) (space fe : BitVec 2) (stride : BitVec 16) :
    M (List (Array Ex × Bool × List Byte)) := do
  let ea := e.capA 0
  let blk := isBlock afmt.toNat
  let len := if afmt = 11 then elems / 2 else elems
  let step := if stride = 0 then (len + 15) / 16 * 16 else 16 * stride.toNat
  let at_ (r : Nat) : Nat := (ea + r * step) % 2 ^ 32
  let exLen := 2 * (elems / 32)
  let ps ← collect (fun r => place space (at_ r) len) (List.range rows)
  feLoad 2 fe (ps.flatMap fun q => granules q len).dedup
  collect (fun r => do
    let (b, po) ← spRead 2 space (at_ r) len 0
    let (x, px) ← if blk then spRead 2 space ((e.capA 1 + r * exLen) % 2 ^ 32) exLen 0 else pure ([], false)
    pure ((aRow afmt.toNat elems b x).toArray, po || px, b)) (List.range rows)

/-- MMUL (R169, R170): the tests of the gang and the planes come before that of the address, and those of the chain after it.
(DEDUCED: assumption 39, DEDUCED: assumption 25.) -/
def runMmul (e : QEntry) (t : BitVec 4) (g : BitVec 3) (rows1 : BitVec 5) (afmt : BitVec 4)
    (start fin wide : BitVec 1) (space fe : BitVec 2) (stride : BitVec 16) : M Unit := do
  let p ← mmulPlan e t g afmt wide
  aligned (e.capA 0) 16
  if isBlock afmt.toNat then aligned (e.capA 1) 2 else pure ()
  let rows := rows1.toNat + 1
  mmulChain e t rows start p
  let data ← mmulRows e p.elems rows afmt space fe stride
  let m ← engine
  columnCheck (m.used (m.gangsOf g wide)) afmt.toNat p.elems (data.map (·.2.2))
  upd fun s =>
    let m := s.matrix
    let fresh : Bool := m.chain.isNone && decide (start = 1)
    let ends : Option Nat :=
      if s.slotOwner = some s.cur then some ((s.cycle / 256 + 1) * 256) else none
    let c : Chain := match m.chain with
      | some c => c
      | none => ⟨s.cur, t.toNat, p.n, rows, p.int, 0, ends, false⟩
    let tile (i : Nat) : Tile :=
      let x := if fresh then Tile.clear else m.tile (t.toNat + i)
      { x with tag := if p.int then 4 else 1 }
    let poison := c.poison || data.any (·.2.1) || p.gangs.flatten.any (fun q => decide (q.poison ≠ 0)) ||
      (List.range p.n).any fun i => (tile i).poison
    let per := p.n / p.gangs.length
    let new (i : Nat) : Tile :=
      let x := (tile i).accum p.int (p.gangs.getD (i / per) []) (data.map (·.1)) (64 * (i % per))
      { x with poison := poison }
    let m := (List.range p.n).foldl (fun m i => m.setTile (t.toNat + i) (new i)) m
    let ch : Option Chain := if fin = 1 then none else some { c with count := c.count + 1, poison := poison }
    let m := { m with chain := ch }
    { s with matrix := m }

/-! ## Tiles (R172-R174) -/

/-- MRD (R172): its rows land one by one (R288); the test of the tag comes before that of the address.
(DEDUCED: assumption 25.) -/
def runMrd (e : QEntry) (t : BitVec 4) (row0 count1 : BitVec 5) (space fe : BitVec 2) (stride : BitVec 16) :
    M Bool :=
  partwise 2 ⟨2, 0⟩ fe 0 (fun _ => some []) false do
    let m ← engine
    let x := m.tile t.toNat
    if x.tag = 0 then tileTrap e t.toNat 0 1 else pure ()
    let ea := e.capA 0
    aligned ea 16
    let step := if stride = 0 then 256 else 16 * stride.toNat
    collect (fun i => do
      let p ← place space ((ea + i * step) % 2 ^ 32) 256
      pure (.put ⟨false, p, Handle.none⟩ (leBytes 256 (x.rows.getD (row0.toNat + i) 0).toNat) x.poison))
      (List.range (count1.toNat + 1))

/-- MRDV (R173). -/
def runMrdv (e : QEntry) (t : BitVec 4) (row : BitVec 5) (v : BitVec 6) : M Unit := do
  let m ← engine
  let x := m.tile t.toNat
  if x.tag = 0 then tileTrap e t.toNat 0 1 else pure ()
  let tag := if x.tag = 0 then 1 else x.tag
  let r := x.rows.getD row.toNat 0
  updMe fun st => (st.putV v (r.extractLsb' 0 1024) tag x.poison).putV (v + 1) (r.extractLsb' 1024 1024) tag x.poison

/-- The status of a tile (R174, Table 7). -/
def State.tileStatus (s : State) (t : Nat) : Nat :=
  let x := s.matrix.tile t
  let isOpen := match s.matrix.chain with
    | some c => decide (c.t ≤ t) && decide (t < c.t + c.n)
    | none => false
  x.tag.toNat * 256 + (if isOpen then 8 else 0) + (if s.me.wsat then 4 else 0) + (if x.ovf then 2 else 0) +
    (if x.poison then 1 else 0)

/-- MCLR (R174). -/
def runMclr (t : BitVec 4) (d : BitVec 5) (op : BitVec 2) : M Unit := do
  let st ← ask fun s => s.tileStatus t.toNat
  updMe fun x => x.setS d (BitVec.ofNat 64 st)
  match op.toNat with
  | 0 => updEngine fun m => m.setTile t.toNat Tile.clear
  | 2 => do
    updEngine fun m => m.setTile t.toNat { m.tile t.toNat with ovf := false }
    updMe fun x => { x with wsat := false }
  | _ => pure ()

/-- MPOIS (R174). -/
def runMpois (t : BitVec 4) : M Unit :=
  updEngine fun m => m.setTile t.toNat { m.tile t.toNat with poison := true }

/-! ## The slot table (R50, R175) -/

/-- A table as a scalar gives it: entry k is bits [4k + 3:4k]. -/
def slotTable (x : BitVec 64) : Vector (BitVec 4) 16 := Vector.ofFn fun k => x.extractLsb' (4 * k.val) 4

/-- Every entry is 0–3 or 0xF (R175).  (DEDUCED: assumption 66.) -/
def slotTableOk (x : BitVec 64) : Bool := (slotTable x).toList.all fun k => decide (k.toNat < 4) || decide (k = 0xF)

/-- MSLOT (R175). -/
def runMslot (e : QEntry) (now : BitVec 1) : M Unit :=
  let t := slotTable (e.capS 0)
  updEngine fun m => if now = 1 then m.applySlots t else { m with pendingSlots := some t }

end Sys2Proof.Machine
end

