-- ==== Sys2Proof/Machine/Line.lean ====
section
/-! DEFINITION. The line engine (R180-R202): the line store, fitting, records, checks, the refresh list and folding. -/

namespace Sys2Proof.Machine

/-! ## Tables that list what differs from reset (R180, R181) -/

/-- The entry of a sorted table; an unlisted key holds `d`. -/
def tabGet {α : Type} (d : α) : List (Nat × α) → Nat → α
  | [], _ => d
  | (k, x) :: t, a => if a < k then d else if a = k then x else tabGet d t a

/-- A sorted table with one entry written; an entry equal to `d` is not listed. -/
def tabPut {α : Type} [DecidableEq α] (d : α) : List (Nat × α) → Nat → α → List (Nat × α)
  | [], a, x => if x = d then [] else [(a, x)]
  | (k, y) :: t, a, x =>
    if a < k then (if x = d then (k, y) :: t else (a, x) :: (k, y) :: t)
    else if a = k then (if x = d then t else (a, x) :: t)
    else (k, y) :: tabPut d t a x

/-- A line (R180): a, c, lo, hi as FP32 patterns. -/
structure LineRec where
  a  : BitVec 32
  c  : BitVec 32
  lo : BitVec 32
  hi : BitVec 32
deriving DecidableEq, Repr, Inhabited

/-- The 128 bits of a record. -/
def LineRec.bits (r : LineRec) : BitVec 128 := r.hi ++ r.lo ++ r.c ++ r.a

/-- A record from its bits. -/
def lineRec (x : BitVec 128) : LineRec :=
  ⟨x.extractLsb' 0 32, x.extractLsb' 32 32, x.extractLsb' 64 32, x.extractLsb' 96 32⟩

/-- The empty line (R181). -/
def emptyLine : LineRec := ⟨0, 0, 0x7F800000, 0xFF800000⟩

/-- The record of a feature. -/
def LineEngine.rec_ (l : LineEngine) (i : Nat) : LineRec := lineRec (tabGet emptyLine.bits l.records i)

/-- The record and function code of a feature, written. -/
def LineEngine.put (l : LineEngine) (i : Nat) (r : LineRec) (fn : BitVec 3) : LineEngine :=
  { l with records := tabPut emptyLine.bits l.records i r.bits, fns := tabPut 0 l.fns i fn }

/-- The function code of a feature. -/
def LineEngine.fn (l : LineEngine) (i : Nat) : BitVec 3 := tabGet 0 l.fns i

/-- The tolerance that LNFIT uses for a line set (R185). -/
def LineEngine.tau (l : LineEngine) (set : Nat) : BitVec 32 :=
  let t := tabGet 0 l.tols set
  match val32 t with
  | .nan _ => 0
  | .inf neg => if neg then 0 else t
  | .fin neg n _ _ => if neg || decide (n = 0) then 0 else t

/-- The counter of a feature. -/
def LineEngine.count (l : LineEngine) (i : Nat) : BitVec 16 := tabGet 0 l.counts i

/-- The line engine, changed. -/
def updLine (f : LineEngine → LineEngine) : M Unit := upd fun s =>
  let l := f s.line
  { s with line := l }

/-- A feature number modulo 8,192 (R180). -/
def feature (n : Nat) : Nat := n % 8192

/-- z is inside a line (R182). -/
def LineRec.inside (r : LineRec) (z : BitVec 32) : Bool :=
  let k (x : BitVec 32) : Int := Fmt.f32.valueKey x.toNat
  !(val32 z).isNaN && !(val32 r.lo).isNaN && !(val32 r.hi).isNaN && decide (k r.lo ≤ k z) && decide (k z ≤ k r.hi)

/-- L(z) of R192: one rounding. -/
def LineRec.at (r : LineRec) (z : BitVec 32) : BitVec 32 := rne32 (((val32 r.a).mul (val32 z)).add (val32 r.c))

/-! ## Fitting (R186-R188) -/

/-- An FP32 pattern is finite. -/
def finite32 (x : BitVec 32) : Bool :=
  match val32 x with
  | .fin .. => true
  | _ => false

/-- A value rounded to FP32 under a mode. -/
def round32 (r : Rnd) (x : Ex) : BitVec 32 := BitVec.ofNat 32 (Fmt.f32.round r false x).1

/-- SqFit (R187) for a finite p.  (DEDUCED: assumption 42.) -/
def sqFit (p tau : BitVec 32) : LineRec :=
  let r := round32 .dn (val32 tau).sqrt
  let k (x : BitVec 32) : Int := Fmt.f32.valueKey x.toNat
  if k p ≤ 0 ∨ k p < k r then ⟨0, 0, 0xFF800000, r⟩
  else
    let x := val32 p
    let a := rne32 ((Ex.ofInt 2).mul x)
    let fp := rne32 (x.mul x)
    let c := rne32 ((val32 fp).add ((val32 a).mul x).neg)
    if finite32 a && finite32 fp && finite32 c then
      ⟨a, c, round32 .up (x.add (val32 r).neg), round32 .dn (x.add (val32 r))⟩
    else emptyLine

/-- ⌊x⌋ of an exact finite value. -/
def floorEx : Ex → Int
  | .fin neg n d e =>
    let (a, b) := scale n d e
    if neg then -(((a + b - 1) / b : Nat) : Int) else ((a / b : Nat) : Int)
  | _ => 0

/-- The segment of the curvature table that holds a value (R188). -/
def segment : Ex → Nat
  | .inf neg => if neg then 0 else 129
  | x =>
    let k := floorEx x
    if k < -64 then 0 else if 64 ≤ k then 129 else (k + 65).toNat

/-- H(κ, τ) (R188). -/
def halfOf (kappa tau : BitVec 32) : BitVec 32 :=
  if kappa &&& 0x7FFFFFFF = 0 then 0x7F800000
  else if kappa = 0x7F800000 ∨ tau = 0 then 0
  else round32 .tz (((Ex.ofInt 2).mul (val32 tau)).div (val32 kappa)).sqrt

/-- The greatest entry of the segments from `lo` to `hi`.  (DESIGN CHOICE: assumption 12.) -/
def kappaMax (fn lo hi : Nat) : BitVec 32 :=
  (List.range' lo (hi + 1 - lo)).foldl (fun m k =>
    let x := Config.curvature fn k
    if Fmt.f32.valueKey m.toNat < Fmt.f32.valueKey x.toNat then x else m) (Config.curvature fn lo)

/-- Half(fn, p, τ) (R188). -/
def half (fn : Nat) (p tau : BitVec 32) : BitVec 32 :=
  let x := val32 p
  let h0 := val32 (halfOf (Config.curvature fn (segment x)) tau)
  halfOf (kappaMax fn (segment (x.add h0.neg)) (segment (x.add h0))) tau

/-- The line that LNFIT writes (R186).  (DEDUCED: assumption 42.) -/
def fitLine (fn : Nat) (p tau : BitVec 32) : LineRec :=
  if !finite32 p then emptyLine
  else if fn = 1 then sqFit p tau
  else
    let x := val32 p
    let a := BitVec.ofNat 32 (lineF' fn p.toNat)
    let fp := BitVec.ofNat 32 (lineF fn p.toNat)
    let c := rne32 ((val32 fp).add ((val32 a).mul x).neg)
    if finite32 a && finite32 fp && finite32 c then
      let h := val32 (half fn p tau)
      ⟨a, c, round32 .up (x.add h.neg), round32 .dn (x.add h)⟩
    else emptyLine

/-- LNTOL (R185). -/
def runLntol (e : QEntry) (set : BitVec 7) : M Unit :=
  updLine fun l => { l with tols := tabPut 0 l.tols set.toNat ((e.capS 0).setWidth 32) }

/-- LNFIT (R186).  (DEDUCED: assumption 41.) -/
def runLnfit (e : QEntry) (vp : BitVec 6) (mk : BitVec 3) (fb : BitVec 8) (fn : BitVec 4) : M Unit := do
  let _ ← tagGroup e.head [1] [(vp, 1)]
  let st ← me
  updLine fun l => (lanesOf (st.mask mk)).foldl (fun l k =>
    let i := feature (32 * fb.toNat + k)
    l.put i (fitLine fn.toNat (lane (st.getV vp).data k) (l.tau (i / 64))) (fn.setWidth 3)) l

/-! ## Records (R190) -/

/-- LNLD (R190). -/
def runLnld (e : QEntry) (space : BitVec 2) (n1 : BitVec 7) (fn : BitVec 4) : M Unit := do
  let ea := e.capA 1
  aligned ea 16
  let bs ← spReadClean 4 space ea (16 * (n1.toNat + 1)) 0
  let x := leNat bs
  updLine fun l => (List.range (n1.toNat + 1)).foldl (fun l k =>
    l.put (feature ((e.capS 0).toNat % 8192 + k)) (lineRec (BitVec.ofNat 128 (x / 2 ^ (128 * k)))) (fn.setWidth 3)) l

/-- LNST kind 0 (R190). -/
def runLnst (e : QEntry) (space : BitVec 2) (n1 : BitVec 7) : M Unit := do
  let ea := e.capA 1
  aligned ea 16
  let l ← ask State.line
  spWrite space ea ((List.range (n1.toNat + 1)).flatMap fun k =>
    leBytes 16 (l.rec_ (feature ((e.capS 0).toNat % 8192 + k))).bits.toNat) false 0

/-- LNST kinds 2-6 (R190): the 130 entries of a curvature table. -/
def runLnstTable (e : QEntry) (space : BitVec 2) (kind : BitVec 4) : M Unit := do
  let ea := e.capA 0
  aligned ea 16
  spWrite space ea ((List.range 130).flatMap fun k => leBytes 4 (Config.curvature kind.toNat k).toNat) false 0

/-! ## Checks and corrections (R191, R192) -/

/-- A tile that a line word reads: format trap unless F32 (R191). -/
def lineTile (e : QEntry) (t : BitVec 4) : M Tile := do
  let m ← engine
  let x := m.tile t.toNat
  if x.tag = 1 then pure x
  else
    tileTrap e t.toNat x.tag 1
    pure x

/-- One escape: listed, or OVF with a full list, and counted (R191). -/
def LineEngine.escape (l : LineEngine) (i r : Nat) : LineEngine :=
  let n := l.count i
  let l := { l with counts := tabPut 0 l.counts i (if n = 0xFFFF then n else n + 1) }
  if 1024 ≤ l.refresh.length then { l with ovf := true }
  else { l with refresh := l.refresh ++ [BitVec.ofNat 32 (i + 65536 * r)] }

/-- One element of LNCHK: the engine and the escape mask of the 64 columns. -/
def checkElem (fset r : Nat) (acc : LineEngine × Nat) (x : BitVec 32 × Nat) : LineEngine × Nat :=
  let i := 64 * fset + x.2
  if (acc.1.rec_ i).inside x.1 then acc else (acc.1.escape i r, Nat.lor acc.2 (2 ^ x.2))

/-- LNCHK (R191). -/
def runLnchk (e : QEntry) (md : BitVec 3) (t : BitVec 4) (row0 count1 : BitVec 5) (fset : BitVec 7) : M Unit := do
  let x ← lineTile e t
  consume x.poison 0
  let l ← ask State.line
  let rows := (List.range (count1.toNat + 1)).map (row0.toNat + ·)
  let (l, esc) := rows.foldl (fun acc r => (x.row r).zipIdx.foldl (checkElem fset.toNat r) acc) (l, 0)
  updLine fun _ => l
  updMe fun st =>
    let st := if md = 0 then st else st.setM md (BitVec.ofNat 32 esc)
    st.setM (md + 1) (BitVec.ofNat 32 (esc / 2 ^ 32))

/-- The correction of an element (R192). -/
def corElem (r : LineRec) (fn : Nat) (grad : Bool) (z : BitVec 32) : BitVec 32 :=
  if r.inside z then 0
  else if fn = 0 then 0x7FC00000
  else if grad then rne32 ((Fmt.f32.decode (lineF' fn z.toNat)).add (val32 r.a).neg)
  else rne32 ((Fmt.f32.decode (lineF fn z.toNat)).add (val32 (r.at z)).neg)

/-- The line applied to an element, or its exact value (R192). -/
def aplElem (r : LineRec) (fn : Nat) (fix : Bool) (z : BitVec 32) : BitVec 32 :=
  if fix && !r.inside z && decide (fn ≠ 0) then BitVec.ofNat 32 (lineF fn z.toNat) else r.at z

/-- A line word that writes 32 lanes from half a tile row (R192). -/
def lineLanes (e : QEntry) (vd : BitVec 6) (t : BitVec 4) (row : BitVec 5) (fb : BitVec 8)
    (f : LineRec → Nat → BitVec 32 → BitVec 32) : M Unit := do
  let x ← lineTile e t
  let l ← ask State.line
  let z (k : Nat) : BitVec 32 := (x.row row.toNat).getD (32 * (fb.toNat % 2) + k) 0
  let data := ofLanes fun k =>
    let i := feature (32 * fb.toNat + k)
    f (l.rec_ i) (l.fn i).toNat (z k)
  updMe fun st => st.putV vd data 1 x.poison

/-- LNAPL (R192). -/
def runLnapl (e : QEntry) (vd : BitVec 6) (t : BitVec 4) (row : BitVec 5) (fix : BitVec 1) (fb : BitVec 8) : M Unit :=
  lineLanes e vd t row fb fun r fn z => aplElem r fn (decide (fix = 1)) z

/-- LNCOR (R192). -/
def runLncor (e : QEntry) (vd : BitVec 6) (t : BitVec 4) (row : BitVec 5) (grad : BitVec 1) (fb : BitVec 8) : M Unit :=
  lineLanes e vd t row fb fun r fn z => corElem r fn (decide (grad = 1)) z

/-! ## The list and the counters (R193, R194) -/

/-- LNRFL (R193).  (DEDUCED: assumption 43.) -/
def runLnrfl (e : QEntry) (d : BitVec 5) (space : BitVec 2) (n1 : BitVec 10) : M Unit := do
  let ea := e.capA 0
  aligned ea 4
  let l ← ask State.line
  let out := l.refresh.take (n1.toNat + 1)
  let rest := l.refresh.drop (n1.toNat + 1)
  if out.isEmpty then pure () else spWrite space ea (out.flatMap fun x => leBytes 4 x.toNat) false 0
  updLine fun l => { l with refresh := rest, ovf := l.ovf && !rest.isEmpty }
  updMe fun st => st.setS d (BitVec.ofNat 64 (out.length + rest.length * 2 ^ 32 + (if l.ovf then 2 ^ 48 else 0)))

/-- Counters set to 0. -/
def LineEngine.zero (l : LineEngine) (fs : List Nat) : LineEngine :=
  let c := fs.foldl (fun c i => tabPut 0 c i 0) l.counts
  { l with counts := c }

/-- LNCNT (R194). -/
def runLncnt (vd : BitVec 6) (fb : BitVec 8) (clr : BitVec 1) : M Unit := do
  let l ← ask State.line
  let f (k : Nat) : Nat := feature (32 * fb.toNat + k)
  updMe fun st => st.putV vd (ofLanes fun k => (l.count (f k)).setWidth 32) 4 false
  if clr = 1 then updLine fun l => l.zero ((List.range 32).map f) else pure ()

/-- LNCLR counts (R194). -/
def runLnclrCounts (set : BitVec 7) : M Unit :=
  updLine fun l => l.zero ((List.range 64).map (64 * set.toNat + ·))

/-- LNCLR list (R194). -/
def runLnclrList : M Unit := updLine fun l => { l with refresh := [], ovf := false }

/-- LNCLR lines (R194). -/
def runLnclrLines (set : BitVec 7) : M Unit :=
  updLine fun l => (List.range 64).foldl (fun l k => l.put (64 * set.toNat + k) emptyLine 0) l

/-! ## Folding (R195) -/

/-- LNFOLD (R195). -/
def runLnfold (e : QEntry) (vd va : BitVec 6) (col acc : BitVec 1) : M Unit := do
  if acc = 1 then let _ ← tagGroup e.head [1] [(vd + 2, 0), (vd + 3, 0)] else pure ()
  let _ ← tagGroup e.head [1] [(va, 1), (va + 1, 1)]
  let st ← me
  let l ← ask State.line
  let two (r : BitVec 6) : List (BitVec 32) := lanesList (st.getV r).data ++ lanesList (st.getV (r + 1)).data
  let u := two va
  let old := two (vd + 2)
  let f0 := (e.capS 0).toNat % 8192
  let line (j : Nat) : LineRec := l.rec_ (if col = 1 then feature (f0 + j) else f0)
  let a (j : Nat) : BitVec 32 := rne32 ((val32 (line j).a).mul (val32 (u.getD j 0)))
  let c (j : Nat) : BitVec 32 :=
    let p := (val32 (line j).c).mul (val32 (u.getD j 0))
    rne32 (if acc = 1 then p.add (val32 (old.getD j 0)) else p)
  let poison := st.poisoned ([va, va + 1] ++ if acc = 1 then [vd + 2, vd + 3] else [])
  updMe fun st => (((st.putV vd (ofLanes a) 1 poison).putV (vd + 1) (ofLanes fun k => a (32 + k)) 1 poison).putV
    (vd + 2) (ofLanes c) 1 poison).putV (vd + 3) (ofLanes fun k => c (32 + k)) 1 poison

end Sys2Proof.Machine
end

