-- ==== Sys2Proof/Machine/Copy.lean ====
section
/-! DEFINITION. The copy engine (R213-R228): stream patterns, copies, windows, gather and scatter, reduce-add, the codebook,
sorted intersection, and the sequence counters. -/

namespace Sys2Proof.Machine

/-! ## Stream pattern records (R213, Table 4) -/

/-- A stream: base, kind, space, element size, indirect level, counts and strides of four dimensions. -/
structure Pattern where
  base    : Nat
  main    : Bool
  space   : BitVec 2
  esize   : Nat
  ind     : Bool
  idim    : Nat
  ispace  : BitVec 2
  ibase   : Nat
  counts  : List Nat
  strides : List Int
deriving DecidableEq, Repr, Inhabited

/-- Bits [hi : lo] of a record as a number. -/
def recBits (x : BitVec 512) (lo n : Nat) : Nat := x.toNat / 2 ^ lo % 2 ^ n

/-- The fields of a record. -/
def patternOf (x : BitVec 512) : Pattern where
  base := recBits x 0 32
  main := decide (recBits x 64 1 = 1)
  space := BitVec.ofNat 2 (recBits x 65 2)
  esize := recBits x 72 3
  ind := decide (recBits x 87 1 = 1)
  idim := recBits x 80 2
  ispace := BitVec.ofNat 2 (recBits x 88 2)
  ibase := recBits x 96 32
  counts := (List.range 4).map fun d => recBits x (128 + 64 * d) 16
  strides := (List.range 4).map fun d => (BitVec.ofNat 32 (recBits x (160 + 64 * d) 32)).toInt

/-- A record obeys R213.  (DEDUCED: assumption 48.) -/
def patternOk (x : BitVec 512) : Bool :=
  decide (recBits x 32 32 = 0) && decide (recBits x 67 5 = 0) && decide (recBits x 75 5 = 0) &&
  decide (recBits x 82 5 = 0) && decide (recBits x 90 6 = 0) && decide (recBits x 384 128 = 0) &&
  ((List.range 4).all fun d => decide (recBits x (144 + 64 * d) 16 = 0)) &&
  (decide (recBits x 64 1 = 0) || decide (recBits x 65 2 = 0)) &&
  (if recBits x 87 1 = 1 then decide (recBits x 96 32 % 4 = 0)
   else decide (recBits x 96 32 = 0) && decide (recBits x 88 2 = 0) && decide (recBits x 80 2 = 0))

/-- A linear stream of n bytes (R217). -/
def linear (space : BitVec 2) (a n : Nat) : Pattern :=
  ⟨a, false, space, 4, false, 0, 0, 0, [n / 16, 1, 1, 1], [16, 0, 0, 0]⟩

/-- The index tuples of the first `k` dimensions, in the order of R214: dimension 0 innermost. -/
def tuples : List Nat → List (List Nat)
  | [] => [[]]
  | c :: t => (tuples t).flatMap fun is => (List.range c).map fun i => i :: is

/-- The term of dimension d (R214): the index is looked up on the indirect dimension, also when its count is 1.
(DESIGN CHOICE: assumption 106.) -/
def patternTerm (p : Pattern) (d i : Nat) : M Int := do
  let k ← if p.ind && decide (d = p.idim) then do
      let b ← spReadClean 5 p.ispace (p.ibase + 4 * i) 4 0
      pure (leNat b)
    else pure i
  pure ((k : Int) * p.strides.getD d 0)

/-- The checks on one element address (R214), for an access of n bytes; `less` is subtracted from it (R223).
(DEDUCED: assumption 48.) -/
def elemLoc (p : Pattern) (h : Handle) (less n : Nat) (write : Bool) (is : List Nat) : M Loc := do
  let ts ← collect (fun x => patternTerm p x.2 x.1) is.zipIdx
  let a : Int := (p.base : Int) + ts.foldl (· + ·) 0 - (less : Int)
  let al := if p.esize < 4 then 2 ^ p.esize else 16
  let bits : BitVec 64 := BitVec.ofInt 64 a
  let loc ← if p.main then do
      let va : BitVec 64 := BitVec.ofInt 64 ((h.page.toNat * 65536 : Int) + a)
      if h.state ≠ .valid then stop (.fatal .invalidHandle va) else pure ()
      if a < 0 then stop (.fatal .outOfPage va) else pure ()
      let q ← hPlace h a.toNat (if n < 2 ^ p.esize then 2 ^ p.esize else n) write
      pure ⟨true, q, h⟩
    else do
      if a < 0 ∨ (2 ^ 32 : Int) ≤ a then stop (.fatal .protection bits) else pure ()
      let q ← place p.space a.toNat n
      pure ⟨false, q, h⟩
  if a % (al : Int) ≠ 0 then trapWith 0x0A bits else pure ()
  pure loc

/-- Every element of a stream, checked in order (R214). -/
def elements (p : Pattern) (h : Handle) (n : Nat) (write : Bool) : M (List Loc) :=
  collect (elemLoc p h 0 n write) (tuples p.counts)

/-! ## Stream slots (R215, R216) -/

/-- The own slot that a slot field names, when the strand owns it (R215). -/
def slotOf (cur : Fin 4) (v : BitVec 4) : Option (Fin 4) :=
  if v.toNat / 4 = 0 ∨ v.toNat / 4 = cur.val then some ⟨v.toNat % 4, by omega⟩ else none

/-- Trap 0x09 (R216, Table 5); `k` is an own slot.  (DEDUCED: assumption 44.) -/
def slotTrap {α : Type} (e : QEntry) (k : Fin 4) (reason : Nat) : M α := fun s =>
  .error (.user ⟨0x09, BitVec.ofNat 64 (e.head.toNat * 2 ^ 32 + (4 * s.cur.val + k.val) * 256 + reason)⟩)

/-- The own slot of a word whose slots were tested at split. -/
def ownSlot (v : BitVec 4) : Fin 4 := ⟨v.toNat % 4, by omega⟩

/-- A slot, written. -/
def Strand.setSlot (st : Strand) (k : Fin 4) (x : StreamSlot) : Strand := { st with slots := st.slots.set k.val x k.isLt }

/-- A word that is no part of a begun word waits for those that write what it reads, or for all (R228). -/
def behindCopies (early : State → Option (List Nat)) : M Unit := do
  let st ← me
  let gs ← ask early
  if st.clash 5 [] gs then stall else pure ()

/-- SREC (R216): the window that its slot holds ends once its fetches have landed. -/
def runSrec (e : QEntry) (slot : BitVec 4) (space : BitVec 2) : M Unit := do
  let ea := e.capA 0
  behindCopies fun s => if s.me.slots[ownSlot slot].window.isSome then none else some (s.spanOf space ea 64)
  aligned ea 64
  let b ← spReadClean 5 space ea 64 0
  let x := BitVec.ofNat 512 (leNat b)
  updMe fun st => st.setSlot (ownSlot slot) ⟨x, patternOk x, none⟩

/-! ## Copies (R217-R219) -/

/-- A stream slot as a copy reads it: valid, and with no qualifier on a main-memory stream (R211, R216). -/
def streamOf (e : QEntry) (v : BitVec 4) (fe : BitVec 2) : M Pattern := do
  let st ← me
  let k := ownSlot v
  let x := st.slots[k]
  if !x.valid then slotTrap e k 2
  else
    let p := patternOf x.record
    if p.main && decide (fe ≠ 0) then slotTrap e k 3 else pure p

/-- Groups of consecutive elements (R217). -/
def groupsOf {α : Type} (g : Nat) : Nat → List α → List (List α)
  | 0, _ => []
  | n + 1, l => if l.isEmpty then [] else l.take g :: groupsOf g n (l.drop g)

/-- The granules of on-chip locations. -/
def locGranules (ls : List Loc) (n : Nat) : List Nat :=
  (ls.flatMap fun l => if l.main then [] else granules l.place n).dedup

/-- The parts of a copy of pairs of elements of `n` bytes (R217, R218): without a source qualifier group by group, each read
whole before it is written; under one, everything is read as the copy begins. -/
def copyPlan (n : Nat) (sfe : BitVec 2) (pairs : List (Loc × Loc)) : M (List Piece) :=
  if sfe = 0 then pure ((groupsOf (if 256 < n then 1 else 256 / n) pairs.length pairs).map (.move n))
  else do
    feLoad 5 sfe (locGranules (pairs.map (·.1)) n)
    let puts ← collect (fun x => do let ps ← locParts x.1 n; pure (locPuts x.2 ps)) pairs
    pure puts.flatten

/-- The checks of a copy between two streams, and its parts (R217). -/
def copyStreams (src dst : Pattern) (hs hd : Handle) (sfe : BitVec 2) : M (List Piece) := do
  let n := 2 ^ dst.esize
  let ss ← elements src hs n false
  let ds ← elements dst hd n true
  copyPlan n sfe (ss.zip ds)

/-- The parts of a CPY, linear form (R217). -/
def linearPlan (e : QEntry) (dsp ssp sfe : BitVec 2) : M (List Piece) := do
  let n := (e.capS 2).toNat % 2 ^ 24
  aligned n 16
  aligned (e.capA 1) 16
  aligned (e.capA 0) 16
  copyStreams (linear ssp (e.capA 1) n) (linear dsp (e.capA 0) n) Handle.none Handle.none sfe

/-- The parts of a CPY, pattern form (R217): the source slot is tested first.  (DESIGN CHOICE: assumption 104.) -/
def patternPlan (e : QEntry) (dslot sslot : BitVec 4) (dfe sfe : BitVec 2) : M (List Piece) := do
  let src ← streamOf e sslot sfe
  let dst ← streamOf e dslot dfe
  copyStreams src dst (e.capH 0) (e.capH 1) sfe

/-- The granules of on-chip streams that a copy reads as it begins: those of its source when a qualifier holds it. -/
def State.sourceSpan (s : State) (sfe : BitVec 2) (space : BitVec 2) (a n : Nat) : List Nat :=
  if sfe = 0 then [] else s.spanOf space a n

/-- What a copy between two stream slots reads as it begins: index arrays and a qualified source, which the model does not
list; nothing otherwise. -/
def Strand.slotsEarly (st : Strand) (vs : List (BitVec 4)) (sfe : BitVec 2) : Option (List Nat) :=
  if sfe ≠ 0 || vs.any fun v => (patternOf st.slots[ownSlot v].record).ind then none else some []

/-- CPY, linear form (R217). -/
def runCpyLinear (e : QEntry) (dsp ssp dfe sfe : BitVec 2) : M Bool :=
  partwise 5 ⟨5, e.num⟩ 0 dfe (fun s => some (s.sourceSpan sfe ssp (e.capA 1) ((e.capS 2).toNat % 2 ^ 24))) false
    (linearPlan e dsp ssp sfe)

/-- CPY, pattern form (R217). -/
def runCpyPattern (e : QEntry) (dslot sslot : BitVec 4) (dfe sfe : BitVec 2) : M Bool :=
  partwise 5 ⟨5, e.num⟩ 0 dfe (fun s => s.me.slotsEarly [sslot, dslot] sfe) false (patternPlan e dslot sslot dfe sfe)

/-! ## Windows (R222, R223) -/

/-- The ring of a CWIN as captured. -/
def QEntry.capRing (e : QEntry) (k : Nat) : Nat × Nat × Nat :=
  match e.caps[k]? with
  | some (.ring a b l) => (a.toNat, b.toNat, l.toNat)
  | _ => (0, 0, 0)

/-- Bytes of a row of a window (R222). -/
def Pattern.rowBytes (p : Pattern) : Nat := (p.counts.take 3).foldl (· * ·) 1 * 2 ^ p.esize

/-- The ring address of row j (R222).  (DEDUCED: assumption 45.) -/
def Window.rowAddr (w : Window) (rb j : Nat) : Nat :=
  let l := w.len.toNat
  let r := l / rb
  w.base.toNat + (((w.addr.toNat : Int) - w.base.toNat + (((j - w.j0) % r * rb : Nat) : Int)) % (l : Int)).toNat

/-- The parts that fetch rows lo … hi − 1 of a window, each row packed, in groups of 256 bytes (R217, R222).
(DEDUCED: assumption 45.) -/
def fetchRows (p : Pattern) (w : Window) (lo hi : Nat) : M (List Piece) := do
  let n := 2 ^ p.esize
  let rows ← collect (fun j =>
    collect (fun x => do
      let l ← elemLoc p w.handle w.less n false (x.1 ++ [j])
      let q ← place w.space (w.rowAddr p.rowBytes j + n * x.2) n
      pure (l, (⟨false, q, Handle.none⟩ : Loc))) (tuples (p.counts.take 3)).zipIdx) (List.range' lo (hi - lo))
  copyPlan n 0 rows.flatten

/-- The tests of CWIN, the window that it opens, and the parts that fetch its rows (R222). -/
def cwinPlan (e : QEntry) (slot : BitVec 4) (space : BitVec 2) : M (List Piece) := do
  let st ← me
  let k := ownSlot slot
  let x := st.slots[k]
  if !x.valid then slotTrap e k 2
  else
    let p := patternOf x.record
    let (addr, base, len) := e.capRing 0
    let rb := p.rowBytes
    if !p.main ∨ rb = 0 ∨ len = 0 ∨ len % rb ≠ 0 ∨ rb % 16 ≠ 0 then slotTrap e k 4
    else
      let n3 := p.counts.getD 3 0
      let j0 := (e.capS 3).toNat % 65536
      let w := (e.capS 2).toNat % 65536
      let hi := min (min (j0 + w) (j0 + len / rb)) n3
      let win : Window :=
        ⟨BitVec.ofNat 32 addr, BitVec.ofNat 32 base, BitVec.ofNat 23 len, space, e.capH 1, j0, j0, hi, 0⟩
      let todo ← fetchRows p win j0 hi
      updMe fun st => st.setSlot k { x with window := some win }
      pure todo

/-- CWIN (R222): its rows land part by part (R288), and every write of a window fills its granules. -/
def runCwin (e : QEntry) (slot : BitVec 4) (space : BitVec 2) : M Bool :=
  partwise 5 ⟨5, e.num⟩ 0 1 (fun s => s.me.slotsEarly [slot] 0) true (cwinPlan e slot space)

/-- The granules of the rows that CADV retires (R223), as far as they exist. -/
def State.retired (s : State) (w : Window) (rb m : Nat) : List Nat :=
  (List.range' w.lo m).flatMap fun j => s.spanOf w.space (w.rowAddr rb j) rb

/-- The tests of CADV, its first two steps, and the parts that fetch its rows (R223).  (DEDUCED: assumption 44.) -/
def cadvPlan (e : QEntry) (slot : BitVec 4) (nh : BitVec 1) : M (List Piece) := do
  let st ← me
  let k := ownSlot slot
  let x := st.slots[k]
  match x.window with
  | none => slotTrap e k 5
  | some w =>
    let p := patternOf x.record
    let rb := p.rowBytes
    let n := (e.capS 0).toNat % 65536
    let m := min n (w.hi - w.lo)
    let old ← collect (fun j => collect (fun i => place w.space (w.rowAddr rb j + 16 * i) 16) (List.range (rb / 16)))
      (List.range' w.lo m)
    let gone := old.flatten.flatMap fun q => granules q 16
    let next : Window :=
      if nh = 1 then { w with lo := w.lo + m, handle := e.capH 1, less := w.less + w.handle.pageSize }
      else { w with lo := w.lo + m }
    let hi := min (min (w.hi + n) (next.lo + w.len.toNat / rb)) (p.counts.getD 3 0)
    upd fun s => s.setFull gone false
    let todo ← fetchRows p next w.hi hi
    updMe fun st => st.setSlot k { x with window := some { next with hi := hi } }
    pure todo

/-- What CADV meets as it begins: it empties the rows that it retires, so that those must have landed, and it reads index
arrays. -/
def State.cadvEarly (s : State) (e : QEntry) (slot : BitVec 4) : Option (List Nat) :=
  let x := s.me.slots[ownSlot slot]
  match x.window with
  | none => some []
  | some w =>
    let p := patternOf x.record
    if p.ind then none else some (s.retired w p.rowBytes (min ((e.capS 0).toNat % 65536) (w.hi - w.lo)))

/-- CADV (R223): its rows land part by part (R288). -/
def runCadv (e : QEntry) (slot : BitVec 4) (nh : BitVec 1) : M Bool :=
  partwise 5 ⟨5, e.num⟩ 0 1 (fun s => s.cadvEarly e slot) true (cadvPlan e slot nh)

/-! ## Gather and scatter (R224) -/

/-- The place a descriptor names, for an element of eb bytes: none when R224 raises fatal context error 0x22.
(DEDUCED: assumption 47.) -/
def State.descPlace (s : State) (d eb : Nat) : Option Nat :=
  let dev := d / 2 ^ 50
  let kind := d / 2 ^ 48 % 4
  let unit := d / 2 ^ 39 % 2 ^ 9
  let off := d % 2 ^ 23
  let lim := match kind with | 0 => 0x300000 | 1 => 2 ^ 20 | _ => 2 ^ 23
  if kind = 3 ∨ (if kind = 2 then 96 else 384) ≤ unit ∨ lim < off + eb ∨ s.sys.devices ≤ dev then none
  else some (chipPlace dev kind unit off)

/-- Reads and checks every descriptor (R224): the places, in index order.  (DEDUCED: assumption 47.) -/
def descriptors (space : BitVec 2) (a eb n : Nat) : M (List Nat) :=
  collect (fun k => do
    let b ← spReadClean 6 space (a + 8 * k) 8 0
    let d := leNat b
    let s ← ask id
    match s.descPlace d eb with
    | none => stop (.fatal .protection (BitVec.ofNat 64 d))
    | some p =>
      if d % 2 ^ 23 % (if eb < 16 then eb else 16) ≠ 0 then misaligned k else pure p) (List.range n)

/-- The place of element k of a local array of elements of eb bytes; every one was tested as the word began. -/
def State.localAt (s : State) (space : BitVec 2) (a eb k : Nat) : Nat := (s.resolve space (a + k * eb) eb).getD 0

/-- The checks of a gather or a scatter (R224): its descriptors, then the elements of its local array (R207).  Answers the
remote places, in index order.  (DEDUCED: assumption 47.) -/
def netChecks (e : QEntry) (space ispace : BitVec 2) (eb n : Nat) : M (List Nat) := do
  aligned (e.capA 0) 16
  aligned (e.capA 1) 8
  let ps ← descriptors ispace (e.capA 1) eb n
  each (fun k => do let _ ← place space (e.capA 0 + k * eb) eb) (List.range n)
  pure ps

/-- The elements of a gather that can be performed are, in ascending order and as many as `b` allows (R224): the state, and
the parts left.  (DEDUCED: assumption 49.) -/
def gatherSome (num : BitVec 32) (rfe : BitVec 2) : List Piece → Option Nat → State → State × List Piece
  | .elem l p n :: t, b, s =>
    let gs := granules p n
    if b ≠ some 0 ∧ s.feReady 6 rfe gs num then
      gatherSome num rfe t (b.map (· - 1)) ((s.feTaken 6 rfe gs num).chipMove p l n)
    else
      let (s, left) := gatherSome num rfe t b s
      (s, .elem l p n :: left)
  | _, _, s => (s, [])

/-- The granules of the remote place of an element that is still to come. -/
def Piece.remote : Piece → Option (List Nat)
  | .elem _ p n => some (Machine.granules p n)
  | _ => none

/-- Every element of a gather that is left waits at its place (R210), from when it began to; `s` is the state before. -/
def State.awaitElems (t s : State) (num : BitVec 32) (rfe : BitVec 2) (gss : List (List Nat)) : State :=
  let others := t.waiters.filter fun w => !(decide (w.strand = t.cur) && decide (w.cls = 6) && decide (w.num = num))
  let mine := gss.dedup.map fun gs =>
    ⟨s.cur, 6, num, (match s.myWaiter 6 gs num with | some w => w.since | none => s.ticks), decide (rfe = 2), gs⟩
  { t with waiters := others ++ (if rfe = 0 then [] else mine) }

/-- The granules of the local places of the elements that are still to come. -/
def nearGranules (l : List Piece) : List Nat :=
  l.flatMap fun x => match x with | .elem q _ n => granules q n | _ => []

/-- Elements of a gather arrive (R224): those that can be performed are, each local granule is filled as its last byte lands,
and the others wait.  Answers whether every element has arrived.  (DEDUCED: assumption 49.) -/
def gatherStep (num : BitVec 32) (rfe : BitVec 2) (todo : List Piece) : M Bool := do
  let b ← partsNow
  let s ← ask id
  let (t, left) := gatherSome num rfe todo b s
  let full := (nearGranules todo).dedup.filter fun g => decide (g ∉ nearGranules left)
  upd fun _ => (t.setFull full true).awaitElems s num rfe (left.filterMap Piece.remote)
  updMe fun st => st.setLeft 6 num (if left.isEmpty then none else some left)
  pure left.isEmpty

/-- The elements of a CGATH, checked (R224): it ends the node's replayability as it begins (R324). -/
def gatherPlan (e : QEntry) (space ispace : BitVec 2) (eb : Nat) : M (List Piece) := do
  let ps ← netChecks e space ispace eb ((e.capS 2).toNat % 2 ^ 20)
  unreplayable
  let s ← ask id
  pure (ps.zipIdx.map fun x => .elem (s.localAt space (e.capA 0) eb x.2) x.1 eb)

/-- The granules of the descriptor array of a network word. -/
def State.descSpan (s : State) (e : QEntry) (ispace : BitVec 2) : List Nat :=
  s.spanOf ispace (e.capA 1) (8 * ((e.capS 2).toNat % 2 ^ 20))

/-- CGATH (R224).  It has begun once its requests have been sent, though no element has arrived.  (DEDUCED: assumption 49.) -/
def runCgath (e : QEntry) (space ispace : BitVec 2) (esz : BitVec 3) (rfe : BitVec 2) : M Bool := do
  let st ← me
  match st.leftOf 6 e.num with
  | some l => gatherStep e.num rfe l
  | none => do
    let gs ← ask fun s => s.descSpan e ispace
    if st.clash 6 [] (some gs) then stall
    else
      let todo ← gatherPlan e space ispace (2 ^ esz.toNat)
      if st.clash 6 todo (some gs) then stall else gatherStep e.num rfe todo

/-- The parts of a CSCAT (R224, R324): its local elements are read under the local qualifier as it begins. -/
def scatterPlan (e : QEntry) (space ispace : BitVec 2) (eb : Nat) (lfe : BitVec 2) : M (List Piece) := do
  let n := (e.capS 2).toNat % 2 ^ 20
  let ps ← netChecks e space ispace eb n
  unreplayable
  let loc ← ask fun s => s.localAt space (e.capA 0) eb
  feLoad 6 lfe ((List.range n).flatMap fun k => granules (loc k) eb).dedup
  let puts ← collect (fun x => do
    let b ← locParts ⟨false, loc x.2, Handle.none⟩ eb
    pure (locPuts ⟨false, x.1, Handle.none⟩ b)) ps.zipIdx
  pure puts.flatten

/-- CSCAT (R224). -/
def runCscat (e : QEntry) (space ispace : BitVec 2) (esz : BitVec 3) (lfe rfe : BitVec 2) : M Bool :=
  let eb := 2 ^ esz.toNat
  partwise 6 ⟨6, e.num⟩ rfe 0
    (fun s => some (s.descSpan e ispace ++ s.spanOf space (e.capA 0) (eb * ((e.capS 2).toNat % 2 ^ 20)))) false
    (scatterPlan e space ispace eb lfe)

/-! ## Reduce-add and the codebook (R225, R226) -/

/-- The checks of a CRED, and its parts, one addition for each granule (R225): without a source qualifier each reads its source
granule as it adds, and under one all are read as the word begins (R218).  (DEDUCED: assumption 46.) -/
def credPlan (e : QEntry) (dsp ssp : BitVec 2) (fmt : BitVec 4) (sfe : BitVec 2) : M (List Piece) := do
  let n := (e.capS 2).toNat % 2 ^ 24
  aligned n 16
  aligned (e.capA 1) 16
  aligned (e.capA 0) 16
  let src ← elements (linear ssp (e.capA 1) n) Handle.none 16 false
  let dst ← elements (linear dsp (e.capA 0) n) Handle.none 16 true
  feLoad 5 sfe (locGranules src 16)
  let s ← ask id
  pure ((src.zip dst).map fun x =>
    if sfe = 0 then .sum fmt x.2.place x.1.place
    else .sumOf fmt x.2.place (s.chipRead x.1.place 16).1 (s.chipRead x.1.place 16).2)

/-- CRED (R225): its granules land one by one (R288). -/
def runCred (e : QEntry) (dsp ssp : BitVec 2) (fmt : BitVec 4) (dfe sfe : BitVec 2) : M Bool :=
  partwise 5 ⟨5, e.num⟩ 0 dfe (fun s => some (s.sourceSpan sfe ssp (e.capA 1) ((e.capS 2).toNat % 2 ^ 24))) false
    (credPlan e dsp ssp fmt sfe)

/-- CVQX op 0 (R226): its source is a stream of 16-byte elements, each an access of its own (R207).
(DEDUCED: assumption 41.) -/
def runCvqxBook (e : QEntry) (ssp sfe : BitVec 2) : M Unit := do
  let a := e.capA 0
  behindCopies fun s => some (s.spanOf ssp a 1024)
  aligned a 16
  let ps ← collect (fun k => place ssp (a + 16 * k) 16) (List.range 64)
  feLoad 5 sfe (ps.flatMap fun p => granules p 16)
  let b ← ask fun s => ps.flatMap fun p => (s.chipRead p 16).1
  upd fun s => { s with codebook := BitVec.ofNat 8192 (leNat b) }

/-- The checks of a CVQX op 1, and its parts: the index bytes are read as the word begins (R226).  (DEDUCED: assumption 41.) -/
def cvqxPlan (e : QEntry) (dsp ssp sfe : BitVec 2) : M (List Piece) := do
  let n := (e.capS 2).toNat % 2 ^ 20
  aligned n 4
  aligned (e.capA 1) 4
  aligned (e.capA 0) 16
  let src ← collect (fun k => place ssp (e.capA 1 + 4 * k) 4) (List.range (n / 4))
  let dst ← collect (fun k => place dsp (e.capA 0 + 16 * k) 16) (List.range (n / 4))
  feLoad 5 sfe (src.flatMap fun p => granules p 4).dedup
  let s ← ask id
  let code (b : Byte) : List Byte := leBytes 4 (s.codebook.toNat / 2 ^ (32 * b.toNat) % 2 ^ 32)
  pure ((dst.zip src).map fun x =>
    .put ⟨false, x.1, Handle.none⟩ ((s.chipRead x.2 4).1.flatMap code) (s.chipRead x.2 4).2)

/-- CVQX op 1 (R226): its granules land one by one (R288). -/
def runCvqxExpand (e : QEntry) (dsp ssp dfe sfe : BitVec 2) : M Bool :=
  partwise 5 ⟨5, e.num⟩ 0 dfe (fun s => some (s.spanOf ssp (e.capA 1) ((e.capS 2).toNat % 2 ^ 20))) false
    (cvqxPlan e dsp ssp sfe)

/-! ## Sorted intersection (R227) -/

/-- A stream of SISECT: in main memory through a handle, or in a space. -/
structure Sorted where
  main  : Bool
  space : BitVec 2
  h     : Handle

/-- The IDX32 at a position. -/
def Sorted.at (x : Sorted) (pos : Nat) : M Nat := do
  aligned pos 4
  let b ← if x.main then hReadClean x.h pos 4 else spReadClean 5 x.space pos 4 0
  pure (leNat b)

/-- An intersection: its streams with their ends, and its output. -/
structure Meet where
  xa  : Sorted
  xb  : Sorted
  ea  : Nat
  eb  : Nat
  out : Bool
  osp : BitVec 2
  ao  : Nat

/-- How far an intersection has come (R227): the positions, the matches and the steps. -/
structure Reach where
  pa    : Nat
  pb    : Nat
  found : Nat
  steps : Nat

/-- The reason of a stop, in the order of R227. -/
def Meet.why (m : Meet) (r : Reach) : Option Nat :=
  if m.ea ≤ r.pa then some 1
  else if m.eb ≤ r.pb then some 2
  else if m.xa.main && decide (m.xa.h.pageSize ≤ r.pa) then some 3
  else if m.xb.main && decide (m.xb.h.pageSize ≤ r.pb) then some 4
  else if r.steps = 65536 then some 5
  else none

/-- One step of R227: a match is written as it is found. -/
def Meet.step (m : Meet) (r : Reach) : M Reach := do
  let x ← m.xa.at r.pa
  let y ← m.xb.at r.pb
  if m.out && decide (x = y) then spWrite m.osp ((m.ao + 4 * r.found) % 2 ^ 32) (leBytes 4 x) false 0 else pure ()
  pure ⟨if x ≤ y then (r.pa + 4) % 2 ^ 64 else r.pa, if y ≤ x then (r.pb + 4) % 2 ^ 64 else r.pb,
    if x = y then r.found + 1 else r.found, r.steps + 1⟩

/-- The loop of R227, for as many steps as `fuel` allows and, where it may halt, until one waits. -/
def Meet.loop (m : Meet) (halt : Bool) : Nat → Reach → M Reach
  | 0, r => pure r
  | fuel + 1, r =>
    if (m.why r).isSome then pure r
    else if halt then do
      match ← attempt (m.step r) with
      | none => pure r
      | some r => m.loop halt fuel r
    else do
      let r ← m.step r
      m.loop halt fuel r

/-- SISECT (R227): it tries all its reads and writes for their checks before it begins (R228), and its matches land one by one
(R288). -/
def runSisect (e : QEntry) (d sp : BitVec 5) (ka kb out : BitVec 1) (spa spb osp : BitVec 2) : M Bool := do
  let pa := (e.capS 0).toNat
  let pb := (e.capS 1).toNat
  let m : Meet := ⟨⟨decide (ka = 1), spa, e.capH 4⟩, ⟨decide (kb = 1), spb, e.capH (if out = 1 then 6 else 5)⟩,
    (e.capS 2).toNat, (e.capS 3).toNat, decide (out = 1), osp, e.capA 5⟩
  let st ← me
  let r ← match st.leftOf 5 e.num with
    | some (.scan a b n k :: _) => pure ⟨a, b, n, k⟩
    | _ => do
      behindCopies fun _ => none
      aligned pa 4
      aligned pb 4
      dry (m.loop false 65536 ⟨pa, pb, 0, 0⟩)
      pure ⟨pa, pb, 0, 0⟩
  let b ← partsNow
  let r ← m.loop true (b.getD 65536) r
  match m.why r with
  | none => do
    updMe fun st => st.setLeft 5 e.num (some [.scan r.pa r.pb r.found r.steps])
    pure false
  | some why => do
    updMe fun st => (((st.setLeft 5 e.num none).setS d (BitVec.ofNat 64 (why * 2 ^ 32 + r.found))).setS sp
      (BitVec.ofNat 64 r.pa)).setS (sp + 1) (BitVec.ofNat 64 r.pb)
    pure true

/-! ## Sequence counters (R220, R221) -/

/-- CSEQ (R221). -/
def runCseq (e : QEntry) (d : BitVec 5) (cls which : BitVec 1) : M Unit :=
  updMe fun st =>
    let done := if cls = 0 then st.copyDone else st.netDone
    st.setS d (if which = 1 then e.capS 0 else done.setWidth 64)

end Sys2Proof.Machine
end

