-- ==== Sys2Proof/Machine/Graph.lean ====
section
/-! DEFINITION. Task graphs (R296, R299-R301, R314): the fields of a task record, the contexts of nodes, eligibility, and the
firmware's view of main memory through a translation root. -/

namespace Sys2Proof.Machine

/-! ## Task records (R296, Table 1) -/

/-- A field of n bits of a record. -/
def taskBits (r : BitVec 512) (lo n : Nat) : Nat := r.toNat / 2 ^ lo % 2 ^ n

/-- The op field. -/
def taskOp (r : BitVec 512) : Nat := taskBits r 54 2

/-- The predecessor ids, of which 0 means none. -/
def taskPreds (r : BitVec 512) : List (BitVec 32) :=
  ((List.range 4).map fun k => BitVec.ofNat 32 (taskBits r (384 + 32 * k) 32)).filter fun p => decide (p ≠ 0)

/-- The early-trigger flag. -/
def Node.early (n : Node) : Bool := n.record.getLsbD 49

/-- The spread flag. -/
def Node.spread (n : Node) : Bool := n.record.getLsbD 50

/-- The strand count. -/
def Node.count (n : Node) : Nat := taskBits n.record 32 16

/-! ## Queues and contexts -/

/-- A launch queue. -/
def State.queue (s : State) (q : BitVec 6) : Option Queue := (s.sys.queues.find? fun x => decide (x.1 = q.toNat)).map (·.2)

/-- A launch queue replaced or added. -/
def putQueue (q : Nat) (x : Queue) : List (Nat × Queue) → List (Nat × Queue)
  | [] => [(q, x)]
  | y :: t => if y.1 = q then (q, x) :: t else y :: putQueue q x t

/-- The state with a launch queue written. -/
def State.setQueue (s : State) (q : BitVec 6) (x : Queue) : State :=
  let qs := putQueue q.toNat x s.sys.queues
  { s with sys := { s.sys with queues := qs } }

/-- Two queues are bound to one context (R293). -/
def State.queuesMeet (s : State) (a b : BitVec 6) : Bool :=
  decide (a = b) ||
  (match s.queue a, s.queue b with
    | some x, some y => x.binding.sameRoot y.binding
    | _, _ => false)

/-- The translation root of a binding. -/
def bindingRoot (b : QueueBinding) : Root := ⟨BitVec.ofNat 54 b.base, BitVec.ofNat 5 b.n, b.asid⟩

/-- The nodes changed by `f`. -/
def State.updNodes (s : State) (f : Node → Node) : State :=
  let ns := s.sys.nodes.map f
  { s with sys := { s.sys with nodes := ns } }

/-! ## Eligibility (R299) -/

/-- A placed strand runs a node. -/
def Node.runs (n : Node) (st : Strand) : Bool :=
  match st.placed with
  | some pl => decide (pl.node = n.id) && decide (pl.queue = n.queue)
  | none => false

/-- Every strand of a node has executed TRIG or exited (R299); a node that was never placed has none that did. -/
def Node.allTriggered (n : Node) : Bool := decide (n.count ≤ n.trigs)

/-- What Eligible(N) answers. -/
inductive Ready where
  | wait | hold | go
deriving DecidableEq, Repr, Inhabited

/-- The worst of two answers, a hold before a wait. -/
def Ready.meet : Ready → Ready → Ready
  | .hold, _ => .hold
  | _, .hold => .hold
  | .wait, _ => .wait
  | _, .wait => .wait
  | .go, .go => .go

/-- A node that the id of a predecessor names (R299). -/
def Node.asPred (n x : Node) : Ready :=
  if x.stage = .held ∨ x.stage = .tainted then .hold
  else if n.early && x.allTriggered then .go
  else .wait

/-- One predecessor of a node (R299): an id that names no node of the context is satisfied. -/
def State.predReady (s : State) (n : Node) (p : BitVec 32) : Ready :=
  (s.sys.nodes.filter fun x => decide (x.id = p) && s.queuesMeet x.queue n.queue).foldl (fun acc x => acc.meet (n.asPred x)) .go

/-- Eligible(N) (R299); a released node has every predecessor clean. -/
def State.eligible (s : State) (n : Node) : Ready :=
  if n.released then .go else (taskPreds n.record).foldl (fun acc p => acc.meet (s.predReady n p)) .go

/-- A node that has not started, as R299 and R314 have it now; `s` is the state before.  One that waits to be replayed has
started (R301, R323). -/
def State.settleNode (s : State) (n : Node) : Node :=
  if (n.stage = .pending ∨ n.stage = .eligible) ∧ n.start.isNone then
    match s.eligible n with
    | .hold => { n with stage := .held }
    | .go => if n.stage = .pending then { n with stage := .eligible, order := s.sys.nextOrder } else n
    | .wait => n
  else n

/-- The nodes are settled one after another; those that become eligible together have one place in the order (R300). -/
def State.settle (s : State) : State :=
  let ns := s.sys.nodes.foldl (fun (acc : List Node × List Node) n =>
    let t : State := { s with sys := { s.sys with nodes := acc.1 ++ acc.2 } }
    (acc.1 ++ [t.settleNode n], acc.2.drop 1)) ([], s.sys.nodes)
  { s with sys := { s.sys with nodes := ns.1, nextOrder := s.sys.nextOrder + 1 } }

/-! ## Main memory from outside the core (R279, R302) -/

/-- Why firmware does not get at memory now: no page maps it, or the request waits, for a pinned line or for a stack in
self-refresh (R279, R328). -/
inductive NoAccess where
  | unmapped
  | waits (stack : Option Nat)
deriving DecidableEq, Repr, Inhabited

/-- A request that waits for a stack is held by it from now on (R328). -/
def State.heldBy (s : State) : NoAccess → State
  | .waits (some k) => s.hold k
  | _ => s

/-- The first stack in self-refresh that n bytes at p need. -/
def State.stackFor (s : State) (p n : Nat) : Option Nat :=
  ((linesOf p n).find? fun l => s.stackHeld (l * 64)).map fun l => stackOf (l * 64)

/-- An access from outside the core to n bytes at p may be performed: no line it touches is pinned, and no stack it needs
is in self-refresh; unpinned lines that it touches drain first (R279). -/
def State.outside (s : State) (p n : Nat) : Except NoAccess State :=
  let hit (l : NearLine) : Bool := decide (l.line ∈ linesOf p n)
  if s.near.any fun l => hit l && !l.pins.isEmpty then .error (.waits none)
  else match s.stackFor p n with
    | some k => .error (.waits (some k))
    | none => .ok ((s.near.filter hit).foldl State.drainLine s)

/-- The physical address of a virtual address under a root, by the walks of R238, with the entry and its size. -/
def State.physOf (s : State) (r : Root) (va : Nat) : Except NoAccess (Nat × Nat × Bool) :=
  match s.walkHeld r va with
  | some k => .error (.waits (some k))
  | none =>
    match s.walk r va with
    | none => .error .unmapped
    | some (e, large) =>
      let h := handleOf r va e large
      .ok (h.phys (va % 2 ^ 56 - h.page.toNat * 65536), e, large)

/-- Firmware reaches k bytes at a virtual address: their place, and the state in which no buffered line holds them. -/
def State.fwReach (s : State) (r : Root) (va k : Nat) : Except NoAccess (Nat × State) :=
  match s.physOf r va with
  | .error e => .error e
  | .ok (p, _) =>
    match s.outside p k with
    | .error e => .error e
    | .ok t => .ok (p, t)

/-- Firmware writes bytes at a virtual address, page by page. -/
def State.fwWrite (s : State) (r : Root) : Nat → Nat → List Byte → Except NoAccess State
  | _, _, [] => .ok s
  | 0, _, _ => .error .unmapped
  | fuel + 1, va, bs =>
    let k := min bs.length (65536 - va % 65536)
    match s.fwReach r va k with
    | .error e => .error e
    | .ok (p, t) => State.fwWrite (t.mainWrite p (bs.take k) false) r fuel (va + k) (bs.drop k)

/-- Firmware reads n bytes at a virtual address, page by page. -/
def State.fwRead (s : State) (r : Root) : Nat → Nat → Nat → Except NoAccess (List Byte × State)
  | _, _, 0 => .ok ([], s)
  | 0, _, _ => .error .unmapped
  | fuel + 1, va, n =>
    let k := min n (65536 - va % 65536)
    match s.fwReach r va k with
    | .error e => .error e
    | .ok (p, t) =>
      match State.fwRead t r fuel (va + k) (n - k) with
      | .error e => .error e
      | .ok (rest, t') => .ok (cellsRead t.mem p k ++ rest, t')

/-- Pages that n bytes may touch, and one more. -/
def pageFuel (n : Nat) : Nat := n / 65536 + 3

end Sys2Proof.Machine
end

