-- ==== Sys2Proof/Machine/Sync.lean ====
section
/-! DEFINITION. Sync words of ordering (R257-R289) and of a strand's end (R306-R308, R340): fences, acquire and release,
atomics, events, barriers, waits on sequence numbers, timed sleep, trigger, drain and exit. -/

namespace Sys2Proof.Machine

/-! ## Fences (R263, R264) -/

/-- FENCE (R263): every earlier word has been performed; the near buffer's part of the scope follows. -/
def runFence (scope : BitVec 3) : M Unit := performAt scope fun _ => true

/-- XFENCE (R264): the writes of class `ca`, or of every class when `ca` is 7.  (DEDUCED: assumption 62.) -/
def runXfence (ca scope : BitVec 3) : M Unit := performAt scope fun b => decide (ca = 7) || decide (b.cls = ca)

/-! ## Acquire and release (R266) -/

/-- The release wait on the near buffer: every write but those to unordered pages (R266). -/
def releaseAt (scope : BitVec 3) : M Unit := performAt scope fun b => !b.unordered

/-- Bytes of a sync access: size 0 a doubleword, size 1 a word (R266). -/
def syncBytes (size : BitVec 1) : Nat := if size = 1 then 4 else 8

/-- The writer of a control or sync word. -/
def scalarWho : Who := ⟨0, 0⟩

/-- LDAQ, address form (R266). -/
def runLdaq (e : QEntry) (r : BitVec 5) (size : BitVec 1) (space fe : BitVec 2) : M Unit := do
  let n := syncBytes size
  aligned (e.capA 0) n
  let b ← spReadClean 0 space (e.capA 0) n fe
  updMe fun st => st.setS r (BitVec.ofNat 64 (leNat b))

/-- LDAQ, handle form (R266). -/
def runLdaqHandle (e : QEntry) (r : BitVec 5) (size : BitVec 1) : M Unit := do
  let n := syncBytes size
  let off := (e.capS 1).toNat
  aligned off n
  let b ← hReadClean (e.capH 0) off n
  updMe fun st => st.setS r (BitVec.ofNat 64 (leNat b))

/-- STRL, address form (R266). -/
def runStrl (e : QEntry) (size : BitVec 1) (space fe : BitVec 2) (scope : BitVec 3) : M Unit := do
  let n := syncBytes size
  aligned (e.capA 1) n
  releaseAt scope
  spWrite space (e.capA 1) (leBytes n (e.capS 0).toNat) false fe

/-- STRL, handle form (R266). -/
def runStrlHandle (e : QEntry) (size : BitVec 1) (scope : BitVec 3) : M Unit := do
  let n := syncBytes size
  let off := (e.capS 2).toNat
  aligned off n
  releaseAt scope
  hWrite scalarWho (e.capH 1) off (leBytes n (e.capS 0).toNat) false

/-! ## Atomics (R269, R283) -/

/-- One indivisible read and write of n bytes at an on-chip place; `f` answers what is written, if anything. -/
def atomicChip (space : BitVec 2) (ea n : Nat) (f : Nat → Option Nat) : M Nat := do
  let p ← place space ea n
  let (b, poison) ← ask fun s => s.chipRead p n
  consume poison ea
  let old := leNat b
  match f old with
  | some v => upd fun s => s.chipWrite p (leBytes n v) false
  | none => pure ()
  pure old

/-- The same in main memory: buffered lines that it touches are drained and unpinned first (R276), it stalls where every line of the buffer is
pinned (R280), and what is on its way to its device has landed (R282). -/
def atomicMain (h : Handle) (off n : Nat) (f : Nat → Option Nat) : M Nat := do
  let p ← hPlace h off n true
  mainReady p n
  drainWhere fun l => decide (l.line ∈ linesOf p n)
  if ← ask State.nearStuck then stall else pure ()
  upd fun s => s.behind p n
  let (b, poison) ← mainRead p n
  consume poison (h.va off).toNat
  let old := leNat b
  match f old with
  | some v => upd fun s => s.mainWrite p (leBytes n v) false
  | none => pure ()
  pure old

/-- What AMO and CAS share: the location, the release part, the access and the old value (R269). -/
def atomicWord (e : QEntry) (d : BitVec 5) (g size : BitVec 1) (space ord : BitVec 2) (scope : BitVec 3)
    (f : Nat → Option Nat) : M Unit := do
  let n := syncBytes size
  let at_ := if g = 1 then (e.capS 1).toNat else e.capA 0
  aligned at_ n
  let unordered := decide (g = 1) && decide ((e.capH 0).kind = 2)
  if (ord = 2 ∨ ord = 3) ∧ unordered = false then releaseAt scope else pure ()
  let old ← if g = 1 then atomicMain (e.capH 0) at_ n f else atomicChip space at_ n f
  unreplayable
  updMe fun st => st.setS d (BitVec.ofNat 64 old)

/-- AMO (R269, Table 9). -/
def runAmo (e : QEntry) (d : BitVec 5) (g size : BitVec 1) (loc : BitVec 9) (ord : BitVec 2) (scope : BitVec 3)
    (op : BitVec 4) : M Unit :=
  let w := 8 * syncBytes size
  let x := (e.capS (if g = 1 then 2 else 1)).toNat % 2 ^ w
  atomicWord e d g size (loc.extractLsb' 4 2) ord scope fun old => some (atomicOp op.toNat w old x).1

/-- CAS (R269). -/
def runCas (e : QEntry) (d : BitVec 5) (g size : BitVec 1) (loc : BitVec 9) (ord : BitVec 2) (scope : BitVec 3) :
    M Unit :=
  let w := 8 * syncBytes size
  let k := if g = 1 then 2 else 1
  let c := (e.capS k).toNat % 2 ^ w
  let v := (e.capS (k + 1)).toNat % 2 ^ w
  atomicWord e d g size (loc.extractLsb' 4 2) ord scope fun old => if old = c then some v else none

/-! ## Events (R271-R273) -/

/-- An event reaches a slot: a slot with no running strand discards it (R271).  (DESIGN CHOICE: assumption 18.) -/
def State.event (s : State) (k : Fin 4) : State :=
  if s.strands[k].placed.isSome then
    let st := s.strands[k]
    { s with strands := s.strands.set k.val { st with latch := true } k.isLt }
  else s

/-- WFE (R272). -/
def runWfe : M Unit := do
  let st ← me
  if st.latch then updMe fun st => { st with latch := false } else stall

/-- SEV (R273); an event for another core of the die leaves this core. -/
def runSev (kind strand : BitVec 2) (core : BitVec 7) (scope : BitVec 3) : M Unit := do
  releaseAt scope
  let s ← ask id
  if kind = 0 then upd fun s => s.event ⟨strand.toNat, by omega⟩
  else if kind = 1 then
    upd fun s => ((List.finRange 4).filter fun k => decide (k ≠ s.cur)).foldl State.event s
  else do
    (if core.toNat = s.coreInDie then upd fun s => (List.finRange 4).foldl State.event s else pure ())
    unreplayable

/-! ## Barriers (R285-R287) -/

/-- The register among GROUP0–GROUP3 that holds a group id. -/
def Strand.groupIndex (st : Strand) (g : BitVec 8) : Option (Fin 4) :=
  if g = 0xFF then none else (List.finRange 4).find? fun k => decide (st.groups[k] = g)

/-- A strand is a member of a group of the current strand's node. -/
def Strand.inGroup (cur st : Strand) (g : BitVec 8) : Bool := cur.sameNode st && (st.groupIndex g).isSome

/-- A member has arrived. -/
def Strand.arrived (st : Strand) (g : BitVec 8) : Bool :=
  match st.groupIndex g with
  | some k => st.members[k].arrived
  | none => true

/-- The strand's member state for a group, changed. -/
def Strand.updMember (st : Strand) (g : BitVec 8) (f : Member → Member) : Strand :=
  match st.groupIndex g with
  | some k => { st with members := st.members.set k.val (f st.members[k]) k.isLt }
  | none => st

/-- The strands whose contexts are saved and not loaded since. -/
def Saved.awayStrand : Nat × Saved → Option Strand
  | (_, .strand _ true x) => some x.strand
  | _ => none

/-- A saved context with its strand changed. -/
def Saved.updStrand (f : Strand → Strand) : Nat × Saved → Nat × Saved
  | (a, .strand n true x) => (a, .strand n true { x with strand := f x.strand })
  | x => x

/-- A strand on another core is a member of a group. -/
def FarRank.inGroup (r : FarRank) (g : BitVec 8) : Bool := r.groups.toList.any fun x => decide (x = g)

/-- The strands of the node of a strand on other cores that are members of a group. -/
def State.farMembers (s : State) (cur : Strand) (g : BitVec 8) : List FarRank :=
  (s.sys.nodes.filter cur.ofNode).flatMap fun n => n.far.filter fun r => r.inGroup g

/-- Some member of a group has ended without EXIT: with its context it would have ended here, so it ran on another core. -/
def State.memberLost (s : State) (cur : Strand) (g : BitVec 8) : Bool := (s.farMembers cur g).any (·.lost)

/-- The members of a group of the node of a strand that run or are saved here. -/
def State.membersOf (s : State) (cur : Strand) (g : BitVec 8) : List Strand :=
  (s.strands.toList ++ s.sys.saved.filterMap Saved.awayStrand).filter fun st => cur.inGroup st g

/-- The end of an episode for a member on another core. -/
def FarRank.endEpisode (r : FarRank) (g : BitVec 8) (lost : Bool) : FarRank :=
  if r.inGroup g then
    { r with arrived := r.arrived.filter fun x => decide (x ≠ g), done := (g, lost) :: r.done.filter fun x => decide (x.1 ≠ g) }
  else r

/-- EPISODE (R286) of a group of the node of a strand, taken whenever it holds: every member has arrived or has exited, or one
ended without EXIT. -/
def State.episode (s : State) (cur : Strand) (g : BitVec 8) : State :=
  let lost := s.memberLost cur g
  if lost || ((s.membersOf cur g).all (·.arrived g) && (s.farMembers cur g).all fun r => r.exited || decide (g ∈ r.arrived)) then
    let f (st : Strand) : Strand :=
      if cur.inGroup st g then st.updMember g fun _ => ⟨false, true, lost⟩ else st
    let far (n : Node) : Node := if cur.ofNode n then { n with far := n.far.map fun r => r.endEpisode g lost } else n
    { s with strands := s.strands.map f
             sys := { s.sys with saved := s.sys.saved.map (Saved.updStrand f), nodes := s.sys.nodes.map far } }
  else s

/-- The episodes of the groups of a strand's node that a list names, taken where they hold. -/
def State.episodes (s : State) (cur : Strand) (gs : List (BitVec 8)) : State :=
  (gs.filter fun g => decide (g ≠ 0xFF)).foldl (fun s g => s.episode cur g) s

/-- BAR (R286); answers whether the episode is done. -/
def runBar (group : BitVec 8) (d : BitVec 5) (scope : BitVec 3) : M Bool := do
  performAt scope fun _ => true
  let isDone (st : Strand) : Bool := match st.groupIndex group with
    | some k => st.members[k].done
    | none => true
  let st ← me
  if isDone st then pure ()
  else
    updMe fun st => st.updMember group fun m => { m with arrived := true }
    upd fun s => s.episode s.me group
  let st ← me
  if isDone st then
    let lost := match st.groupIndex group with
      | some k => st.members[k].lost
      | none => false
    updMe fun st => (st.updMember group fun m => { m with done := false, lost := false }).setS d (if lost then 1 else 0)
    pure true
  else pure false

/-! ## Completion numbers (R289) -/

/-- Number `a` is at or after `b` in the window of 2^31 (R289). -/
def seqReached (a b : BitVec 32) : Bool := decide ((a - b).toNat < 2 ^ 31)

/-- WAITSEQ (R289). -/
def runWaitseq (e : QEntry) (d : BitVec 5) (cls : BitVec 2) (scope : BitVec 3) : M Unit := do
  let n : BitVec 32 := (e.capS 0).setWidth 32
  let issued : BitVec 32 := (e.capS 1).setWidth 32
  let t := if seqReached issued n then n else issued
  let st ← me
  let done := if cls = 0 then st.copyDone else st.netDone
  let code : BitVec 3 := if cls = 0 then 5 else 6
  if seqReached done t then
    performAt scope fun b => decide (b.cls = code) && seqReached t b.num
    let flags := (if st.lostCopy then 2 ^ 32 else 0) + (if st.lostNet then 2 ^ 33 else 0) +
      (if st.lostScalar then 2 ^ 34 else 0)
    updMe fun st =>
      if d = 0 then st
      else { st.setS d (BitVec.ofNat 64 (flags + done.toNat)) with lostCopy := false, lostNet := false, lostScalar := false }
  else stall

/-! ## Timed sleep (R340) -/

/-- SLPAT (R340); answers whether the deadline has come. -/
def runSlpat (e : QEntry) : M Bool := do
  let d := e.capS 0
  let s ← ask id
  if d ≤ s.now then
    upd fun s => (if s.me.sleeping.isSome then s else s.traceEvent 0 7 d 0).traceEvent 0 8 d 0
    updMe fun st => { st with sleeping := none }
    pure true
  else
    upd fun s => if s.me.sleeping.isSome then s else s.traceEvent 0 7 d 0
    updMe fun st => { st with sleeping := some d }
    pure false

/-! ## Trigger, drain, exit (R306-R308) -/

/-- TRIG (R306); the node is no longer replayable (R301). -/
def runTrig : M Unit := do
  performAt 4 fun _ => true
  let st ← me
  if st.triggered then pure ()
  else
    updMe fun st => { st with triggered := true }
    upd fun s => (s.updNode fun n => { n with trigs := n.trigs + 1, unreplayable := true }).settle

/-- DRAIN (R307): every earlier word has completed, so results in flight and translations land, and the writes are
performed at the scope; it pins no line (R278). -/
def runDrain (scope : BitVec 3) : M Unit := do
  if scope = 1 then pure () else performAt scope fun _ => true
  upd fun s => (s.updMe Strand.drainPipe).landTrns false false

/-- A node whose last strand has exited (R308, R313, R301). -/
def Node.finish (n : Node) (now : BitVec 64) : Node :=
  if n.predTainted then { n with stage := .finished, fin := now, verdict := 2, reason := 5 }
  else { n with stage := .finished, fin := now, verdict := if n.replays = 0 ∧ n.errors = 0 then 0 else 1, reason := 0 }

/-- No other strand of the current strand's node runs or is saved. -/
def State.lastOfNode (s : State) : Bool :=
  ((s.sys.nodes.filter s.me.ofNode).all fun n => n.far.all (·.exited)) &&
  ((List.finRange 4).all fun k => decide (k = s.cur) || !s.me.sameNode s.strands[k]) &&
  (s.sys.saved.filterMap Saved.awayStrand).all fun st => !s.me.sameNode st

/-- A strand of the node has exited: it counts among those that have triggered or exited (R299). -/
def Node.countExit (n : Node) (triggered : Bool) : Node :=
  { n with exited := n.exited + 1, trigs := if triggered then n.trigs else n.trigs + 1 }

/-- EXIT (R308).  Poison that the node stored to main memory is consumed at its last word (R319), and a member that exits counts
as arrived (R286). -/
def runExit : M Unit := do
  runDrain 5
  let s ← ask id
  let old := s.me
  unpin old.ident
  if s.lastOfNode then
    if s.sys.nodes.any (fun n => s.me.ofNode n && n.storedPoison) then stop (.check .poison 0)
    else upd fun s => (s.updNode fun n => n.countExit s.me.triggered).updNode fun n => n.finish s.now
  else upd fun s => s.updNode fun n => n.countExit s.me.triggered
  upd fun s => ((s.freeSlot s.cur).episodes old old.groups.toList).settle

/-! ## Strands on other cores (R302) -/

/-- A strand of a node, of which nothing but the node is known. -/
def Node.strand (n : Node) : Strand :=
  { Strand.launch with placed := some ⟨n.id, 0, n.count, n.queue, 0, [], 0, 0, 0, Vector.replicate 4 0xFF⟩ }

/-- A strand of a node on another core moves. -/
def Node.farMove (n : Node) (k : Nat) (m : FarMove) : Node :=
  let on (f : FarRank → FarRank) : List FarRank := n.far.zipIdx.map fun x => if x.2 = k then f x.1 else x.1
  match n.far[k]? with
  | none => n
  | some r =>
    if r.exited || r.lost then n
    else match m with
      | .trig =>
        { n with far := on fun r => { r with triggered := true }, unreplayable := true
                 trigs := if r.triggered then n.trigs else n.trigs + 1 }
      | .exit => { n.countExit r.triggered with far := on fun r => { r with exited := true } }
      | .arrive g => { n with far := on fun r =>
          { r with arrived := g :: r.arrived, done := r.done.filter fun x => decide (x.1 ≠ g) } }
      | .lost => { n with far := on fun r => { r with lost := true } }

/-- The report of the check at the last word of a node, its EXIT on another core, for the poison that the node stored (R319). -/
def farReport (n : Node) (r : FarRank) : Report :=
  { cause := 0x11, kind := 0, flags := 0, engine := 0, lane := 0xFF, expect := 0xFF, actual := 0xFF, addr := 0, detail := 0, pc := 0
    word := (encode (.exit .every)).headD 0, node := n.id, core := BitVec.ofNat 8 (r.core % 96), strand := 0xFF, mac := 0xFF
    column := 0xFF }

/-- A running node whose last strand exited on another core completes; with poison stored, machine check 0x11 is raised there
(R308, R319, R323).  (DESIGN CHOICE: assumption 80.) -/
def State.farEnd (s : State) (n : Node) (r : FarRank) : State :=
  let here := (s.strands.toList ++ s.sys.saved.filterMap Saved.awayStrand).any n.runs
  if here || n.far.isEmpty || !n.far.all (·.exited) then s
  else if n.storedPoison then s.checkedFor n.strand (r.core / 96) (farReport n r)
  else s.updNodes fun x => if n.strand.ofNode x then x.finish s.now else x

/-- One move of a strand on another core, with the episodes that it ends (R286) and the completion of its node. -/
def State.farStep (s : State) (x : BitVec 6 × BitVec 32 × Nat × FarMove) : State :=
  let named (n : Node) : Bool := decide (n.queue = x.1) && decide (n.id = x.2.1) && decide (n.stage = .running)
  let s := s.updNodes fun n => if named n then n.farMove x.2.2.1 x.2.2.2 else n
  match s.sys.nodes.find? named with
  | none => s.settle
  | some n =>
    match n.far[x.2.2.1]? with
    | none => s.settle
    | some r =>
      let s := s.episodes n.strand r.groups.toList
      (match s.sys.nodes.find? named with
        | some n => s.farEnd n r
        | none => s).settle

/-- What the environment says of strands on other cores happens.  (DESIGN CHOICE: assumption 80.) -/
def State.farMoves (s : State) (l : List (BitVec 6 × BitVec 32 × Nat × FarMove)) : State := l.foldl State.farStep s

end Sys2Proof.Machine
end

