-- ==== Sys2Proof/Machine/Handles.lean ====
section
/-! DEFINITION. Words on handles and invalidation (R230-R241): TRN, HVLD, PROBE, INVQ, and the events that land a translation
and carry an invalidate command. -/

namespace Sys2Proof.Machine

/-- TRN (R230): the translation is in flight until its result lands. -/
def runTrn (e : QEntry) (h : BitVec 4) : M Unit :=
  updMe fun st => { st with trns := st.trns ++ [⟨h, (e.capS 0).setWidth 56, e.root, []⟩] }

/-- The status of HVLD (R232). -/
def Handle.status (h : Handle) : BitVec 64 :=
  let st : Nat := match h.state with | .empty => 0 | .valid => 1 | .notFound => 2 | .late => 3 | .revoked => 4
  BitVec.ofNat 64 (st + (if h.large then 8 else 0) + h.kind.toNat * 16 + (if h.w then 64 else 0) + (if h.x then 128 else 0))

/-- HVLD (R232). -/
def runHvld (e : QEntry) (pd : BitVec 3) (d : BitVec 5) : M Unit :=
  updMe fun st => (st.setP pd (decide ((e.capH 0).state = .valid))).setS d (e.capH 0).status

/-- PROBE of an address (R239), once every earlier word of the strand has completed: acc 1 is a write. -/
def runProbe (h : BitVec 4) (x : BitVec 64) (acc : BitVec 2) : M Unit := do
  upd fun s => (s.updMe Strand.drainPipe).landTrns false false
  let s ← ask id
  let va := x.toNat % 2 ^ 56
  match s.walkHeld s.me.root va with
  | some k => stop (.held k)
  | none =>
    match s.walk s.me.root va with
    | some (x, large) =>
      let res := handleOf s.me.root va x large
      if acc = 1 ∧ res.w = false then trapWith 0x07 (BitVec.ofNat 64 (2 ^ 62 + va))
      else updMe fun st => st.setH h res
    | none => trapWith 0x07 (BitVec.ofNat 64 va)

/-! ## Invalidation (R240, R241) -/

/-- INVQ op 0 (R240): a command enters the invalidate queue of 64. -/
def runInvqIssue (e : QEntry) (d : BitVec 5) : M Unit := do
  let s ← ask id
  if 64 ≤ s.sys.invs.length then stall
  else
    let c : InvCmd :=
      { number := s.sys.invNext, start := (e.capS 0).extractLsb' 16 40, count := (e.capS 1).extractLsb' 0 40
        asid := (e.capS 1).extractLsb' 40 16, hint := (e.capS 1).extractLsb' 56 2, issuer := s.cur, sent := false }
    upd fun s => { s with sys := { s.sys with invs := s.sys.invs ++ [c], invNext := s.sys.invNext + 1 } }
    updMe fun st => st.setS d (c.number.setWidth 64)

/-- INVQ op 1 (R240). -/
def runInvqAck (d : BitVec 5) : M Unit := do
  let n ← ask State.acked
  updMe fun st => st.setS d (n.setWidth 64)

/-- A command covers a page of a text of `len` bytes in a kernel object at `va` (R298).  (DEDUCED: assumption 55.) -/
def InvCmd.coversText (c : InvCmd) (asid : BitVec 16) (va len : Nat) (pages : List (Nat × Bool)) : Bool :=
  let lo := (va + 64) / 65536
  let hi := (va + 64 + len - 1) / 65536
  (List.range' lo (hi + 1 - lo)).any fun page =>
    let large := (pages.getD (page - va / 65536) (0, false)).2
    c.covers asid large (if large then page / 512 * 512 else page)

/-- A command covers a page of the text of a placed strand (R298). -/
def State.coversText (s : State) (c : InvCmd) (st : Strand) : Bool :=
  match st.placed, s.binding st with
  | some pl, some b => c.coversText b.asid pl.codeVa pl.textLen pl.pages
  | _, _ => false

/-- A command covers a page of the text of a node (R298). -/
def State.coversNode (s : State) (c : InvCmd) (n : Node) : Bool :=
  match n.text, s.binding n.strand with
  | some (va, len, pages), some b => c.coversText b.asid va len pages
  | _, _ => false

/-- Fatal context error 0x20 in the context of a strand whose text a command covers (R298). -/
def State.killText (c : InvCmd) (s : State) (k : Fin 4) : State :=
  if s.coversText c s.strands[k] then
    let cur := s.cur
    let t := ({ s with cur := k } : State).fatalError .invalidHandle .invalidateBroadcast s.strands[k].pc
      (BitVec.ofNat 64 (c.start.toNat * 65536))
    { t with cur := cur }
  else s

/-- The same for a node that runs on, though no strand of it stands on this core: its strands are saved, or on other cores (R298,
R330).  (DEDUCED: assumption 55.) -/
def State.killNodeText (c : InvCmd) (s : State) (n : Node) : State :=
  if s.coversNode c n && s.sys.nodes.any (fun x => decide (x.stage = .running) && n.strand.ofNode x) then
    let addr : BitVec 64 := BitVec.ofNat 64 (c.start.toNat * 65536)
    let r := s.headReport 0x20 1 0 Instr.invalidateBroadcast.cls 0 0 addr
    let rc := s.record { r with node := n.id, core := 0xFF, strand := 0xFF }
    (s.logRecord rc).killContext n.strand 0x20 rc
  else s

/-- The oldest command that has not been broadcast reaches the core (R241): handles and translations, the instruction cache
(R39), and the texts of running nodes (R298).  (DEDUCED: assumption 55.) -/
def State.broadcast (s : State) : State :=
  match s.sys.invs.find? fun c => !c.sent with
  | none => s
  | some c =>
    let invs := s.sys.invs.map fun x => if x.number = c.number then { x with sent := true } else x
    let s := ({ s with sys := { s.sys with invs := invs }, icache := [] }).revoke c
    s.sys.nodes.foldl (State.killNodeText c) ((List.finRange 4).foldl (State.killText c) s)

/-- The oldest command whose words have completed is acknowledged, and its issuer receives an event (R240, R241). -/
def State.acknowledge (s : State) : State :=
  match s.sys.invs.find? fun c => c.sent && s.invDone c with
  | none => s
  | some c =>
    let invs := s.sys.invs.filter fun x => decide (x.number ≠ c.number)
    ({ s with sys := { s.sys with invs := invs } }).event c.issuer

end Sys2Proof.Machine
end

