-- ==== Sys2Proof/Machine/Launch.lean ====
section
/-! DEFINITION. Launch queues, placement, completion and expert queues (R293-R314): what the firmware and the dispatch
hardware do, and the words TASK and TOKQ. -/

namespace Sys2Proof.Machine

/-! ## Rings (R293, R295) -/

/-- The ring size of a queue. -/
def Queue.size (q : Queue) : Nat := 2 ^ q.binding.k

/-- The runtime has consumed completion records before the firmware looks at the completion ring (R295): as many as the
environment says.  (DESIGN CHOICE: assumption 9.) -/
def State.consumed (s : State) (qn : BitVec 6) : State :=
  match s.queue qn with
  | none => s
  | some q =>
    let n := match s.env.reads with
      | [] => q.compTail - q.compHead
      | k :: _ => min k (q.compTail - q.compHead)
    let rest := s.env.reads.drop 1
    ({ s with env := { s.env with reads := rest } }).setQueue qn { q with compHead := q.compHead + n }

/-- The completion ring has room for a record.  (DESIGN CHOICE: assumption 9.) -/
def Queue.hasRoom (q : Queue) : Bool := decide (q.compTail - q.compHead < q.size)

/-- The record at the head of a queue's ring that the firmware accepts now: there is one, and the completion ring has
room.  (DEDUCED: assumption 72.) -/
def State.headRecord (s : State) (qn : BitVec 6) : Except NoAccess (BitVec 512 × Queue × State) :=
  match s.queue qn with
  | none => .error .unmapped
  | some q =>
    if q.head < q.tail ∧ q.hasRoom = true then
      let va := q.binding.ring.toNat + 64 * (q.head % q.size)
      match s.fwRead (bindingRoot q.binding) (pageFuel 64) va 64 with
      | .error e => .error e
      | .ok (b, t) => .ok (BitVec.ofNat 512 (leNat b), q, t)
    else .error .unmapped

/-- The head of a queue's ring moves on. -/
def State.acceptHead (s : State) (qn : BitVec 6) (q : Queue) : State := s.setQueue qn { q with head := q.head + 1 }

/-- LAUNCH_DOORBELL (R293): the new tail index.  (DEDUCED: assumption 72.) -/
def State.doorbell (s : State) (qn : BitVec 6) (tail : BitVec 64) : State :=
  match s.queue qn with
  | none => s
  | some q => s.setQueue qn { q with tail := tail.toNat }

/-! ## Bindings (R293, R344, R349) -/

/-- The number of 512 KiB regions that a channel's table maps (R349). -/
def regionsPerChannel : Nat := 4096

/-- What R293, R344 and R349 ask of a binding.  (DEDUCED: assumption 72.) -/
def bindingOk (b : QueueBinding) : Bool :=
  decide (4 ≤ b.k) && decide (b.k ≤ 16) && !b.mask.getLsbD 7 &&
  (match b.trace with
    | none => true
    | some (ring, k, pair) =>
      decide (ring.toNat % 4096 = 0) && decide (6 ≤ k) && decide (k ≤ 20) && decide (pair.toNat % 16 = 0)) &&
  b.keys.all fun x => decide (x.1 < 384 * regionsPerChannel) && decide (x.2 < 512)

/-- The line numbers of region r of the module's memory: region i of channel c has number 4,096 × c + i, and a channel's bytes
are the 4 KiB pieces that R302 interleaves.  (DESIGN CHOICE: assumption 77.) -/
def State.regionLines (s : State) (r : Nat) : List Nat :=
  let ch := r / regionsPerChannel
  let first := r % regionsPerChannel * 128
  (List.range 128).flatMap fun k => (List.range 64).map fun j =>
    (s.sys.device * 2 ^ 40 + ((first + k) * 384 + ch) * 4096) / 64 + j

/-- The key slot of a region: slot 0, no encryption, unless the table names one (R349). -/
def State.keySlot (s : State) (r : Nat) : Nat := ((s.sys.keys.find? fun x => decide (x.1 = r)).map (·.2)).getD 0

/-- A block of 16 bytes moves from one key slot to another (R349): its ciphertext stays, and reads as it did before wherever it has
been read under that slot.  (DESIGN CHOICE: assumption 77.) -/
def State.rekey (old slot : Nat) (s : State) (block : Nat) : State :=
  let plain := BitVec.ofNat 128 (leNat (cellsRead s.mem (16 * block) 16))
  let cs := s.sys.ciphers
  let known := cs.find? fun c => decide (c.1 = block) && decide (c.2.2.1 = old) && decide (c.2.2.2 = plain)
  let (num, cs) := match known with
    | some c => (c.2.1, cs)
    | none => (cs.length, cs ++ [(block, cs.length, old, plain)])
  let read := cs.find? fun c => decide (c.1 = block) && decide (c.2.1 = num) && decide (c.2.2.1 = slot)
  let (now, cs) := match read with
    | some c => (c.2.2.2, cs)
    | none => (Config.deciphered s.nfree block, cs ++ [(block, num, slot, Config.deciphered s.nfree block)])
  { s with mem := cellsWrite s.mem (16 * block) (leBytes 16 now.toNat), sys := { s.sys with ciphers := cs } }

/-- A region is mapped to a key slot (R349): what its lines hold then reads as the other key gives it. -/
def State.setKey (s : State) (r slot : Nat) : State :=
  let old := s.keySlot r
  if old = slot then s
  else
    let blocks := (s.regionLines r).flatMap fun l => (List.range 4).map fun k => 4 * l + k
    let t := blocks.foldl (State.rekey old slot) s
    let keys := (t.sys.keys.filter fun x => decide (x.1 ≠ r)) ++ (if slot = 0 then [] else [(r, slot)])
    { t with nfree := t.nfree + 1, sys := { t.sys with keys := keys } }

/-- LAUNCH_QUEUE_BINDING (R293, R294, R344, R349): a binding that breaks them is not made. -/
def State.bindQueue (s : State) (qn : BitVec 6) (b : QueueBinding) : State :=
  if bindingOk b then
    let q : Queue :=
      { binding := b, head := 0, tail := 0, compTail := 0, compHead := 0, traceTail := 0, traceHead := 0, traceLost := false }
    (b.keys.foldl (fun t x => t.setKey x.1 x.2) s).setQueue qn q
  else s

/-! ## The checks of R297 -/

/-- The tests that read the record alone. -/
def recordOk (s : State) (qn : BitVec 6) (r : BitVec 512) : Bool :=
  decide (taskBits r 51 3 = 0) && decide (taskBits r 56 8 = 0) && decide (taskBits r 120 8 = 0) &&
  decide (taskBits r 0 32 ≠ 0) && decide (1 ≤ taskBits r 32 16) && decide (taskBits r 32 16 ≤ 1536) &&
  decide (taskBits r 64 64 % 64 = 0) && decide (taskBits r 128 32 % 4 = 0) && decide (taskBits r 320 64 % 64 = 0) &&
  !(s.sys.nodes.any fun x => decide (x.id.toNat = taskBits r 0 32) && s.queuesMeet x.queue qn)

/-- The groups of a table read as bytes: id and members, present groups only (R304). -/
def groupsOfTable (b : List Byte) (n : Nat) : Option (List (Nat × List Nat)) :=
  let entry (g : Nat) : Nat := leNat ((b.drop (8 * g)).take 8)
  let one (g : Nat) : Option (Nat × List Nat) :=
    let off := entry g % 2 ^ 32
    let cnt := entry g / 2 ^ 32 % 2 ^ 16
    let ms := (List.range cnt).map fun k => leNat ((b.drop (off + 2 * k)).take 2)
    if entry g / 2 ^ 48 = 0 ∧ (cnt = 0 ∨ off + 2 * cnt ≤ b.length) ∧ (g < 255 ∨ cnt = 0) ∧ (ms.all fun m => decide (m < n)) = true ∧
        ms.Nodup then some (g, ms) else none
  let all := (List.range 256).map one
  if all.any Option.isNone then none
  else
    let gs := (all.filterMap id).filter fun x => !x.2.isEmpty
    if (List.range n).all fun r => decide ((gs.filter fun x => decide (r ∈ x.2)).length ≤ 4) then some gs else none

/-- The groups that a table names, read by its entries and then as far as they reach; a table that breaks R304 is refused as one
that no page maps. -/
def State.groupTable (s : State) (r : Root) (va n : Nat) : Except NoAccess (List (Nat × List Nat)) :=
  if va = 0 then .ok []
  else match s.fwRead r (pageFuel 2048) va 2048 with
    | .error e => .error e
    | .ok (b, t) =>
      let ends := (List.range 256).map fun g =>
        let x := leNat ((b.drop (8 * g)).take 8)
        if x / 2 ^ 32 % 2 ^ 16 = 0 then 0 else x % 2 ^ 32 + 2 * (x / 2 ^ 32 % 2 ^ 16)
      let len := ends.foldl max 2048
      match t.fwRead r (pageFuel len) va len with
      | .error e => .error e
      | .ok (b, _) => match groupsOfTable b n with
        | some gs => .ok gs
        | none => .error .unmapped

/-- A kernel object as R298 reads it. -/
structure Kernel where
  textLen  : Nat
  imageLen : Nat
  imageAt  : Nat
  pages    : List (Nat × Bool)
deriving DecidableEq, Repr, Inhabited

/-- The physical addresses of the 64 KiB pages of n bytes at va; `exec` asks for X. -/
def State.pagesOf (s : State) (r : Root) (va n : Nat) (exec : Bool) : Except NoAccess (List (Nat × Bool)) :=
  let first := va / 65536
  let count := if n = 0 then 0 else (va + n - 1) / 65536 + 1 - first
  (List.range count).mapM fun k =>
    match s.physOf r ((first + k) * 65536) with
    | .error e => .error e
    | .ok (p, e, large) => if exec && decide (e / 2 ^ 58 % 2 = 0) then .error .unmapped else .ok (p, large)

/-- The kernel object at a virtual address, when it passes R298. -/
def State.kernel (s : State) (r : Root) (va entry : Nat) : Except NoAccess Kernel :=
  match s.fwRead r (pageFuel 64) va 64 with
  | .error e => .error e
  | .ok (b, t) =>
    let text := leNat (b.take 4)
    let img := leNat ((b.drop 4).take 4)
    let load := leNat ((b.drop 8).take 4)
    if text % 4 = 0 ∧ img % 16 = 0 ∧ load % 16 = 0 ∧ ((b.drop 12).all fun x => decide (x = 0)) = true ∧
        load + img ≤ 0x300000 ∧ entry < text then
      match t.pagesOf r (va + 64) text true, t.pagesOf r va (64 + text) false, t.pagesOf r (va + 64 + text) img false with
      | .ok _, .ok pages, .ok _ => .ok ⟨text, img, load, pages⟩
      | .error e, _, _ | _, .error e, _ | _, _, .error e => .error e
    else .error .unmapped

/-! ## Accepting records (R297, R299, R309) -/

/-- A new node of a record. -/
def Node.fresh (qn : BitVec 6) (r : BitVec 512) (batch : Option (BitVec 64 × BitVec 64)) : Node where
  id := BitVec.ofNat 32 (taskBits r 0 32)
  queue := qn
  record := r
  batch := batch
  stage := .pending
  released := false
  order := 0
  unreplayable := false
  replays := 0
  errors := 0
  energy := 0
  start := none
  fin := 0
  exited := 0
  trigs := 0
  far := []
  slotTime := Vector.replicate 4 0
  text := none
  earlyOn := []
  dropping := []
  predTainted := false
  verdict := 0
  reason := 0
  errRecs := []
  storedPoison := false
  killed := false

/-- A node that is never placed ends tainted (R297, R313): start and end are its completion time. -/
def Node.reject (n : Node) (now : BitVec 64) (reason : BitVec 8) : Node :=
  { n with stage := .finished, verdict := 2, reason := reason, start := some now, fin := now }

/-- The reason with which R297 turns a record away, 0 when it passes; an error while memory that it must read waits. -/
def State.checkRecord (s : State) (qn : BitVec 6) (q : Queue) (r : BitVec 512) : Except NoAccess (BitVec 8) :=
  let root := bindingRoot q.binding
  if !recordOk s qn r then .ok 1
  else match s.groupTable root (taskBits r 320 64) (taskBits r 32 16) with
    | .error (.waits k) => .error (.waits k)
    | .error .unmapped => .ok 2
    | .ok _ => match s.kernel root (taskBits r 64 56) (taskBits r 128 32) with
      | .error (.waits k) => .error (.waits k)
      | .error .unmapped => .ok 3
      | .ok _ => .ok 0

/-- An op-0 record is accepted and checked (R297); an error while its checks wait. -/
def State.acceptNode (s : State) (qn : BitVec 6) (q : Queue) (r : BitVec 512) (batch : Option (BitVec 64 × BitVec 64)) :
    Except NoAccess State :=
  match s.checkRecord qn q r with
  | .error e => .error e
  | .ok why =>
    let n := Node.fresh qn r batch
    let n := if why = 0 then n else n.reject s.now why
    let ns := s.sys.nodes ++ [n]
    .ok ({ s with sys := { s.sys with nodes := ns } } : State).settle

/-- TASK_RECORD_LAUNCH (R297). -/
def State.launch (s : State) (qn : BitVec 6) : State :=
  match (s.consumed qn).headRecord qn with
  | .error e => s.heldBy e
  | .ok (r, q, t) =>
    if taskOp r = 0 then
      match t.acceptNode qn q r none with
      | .error e => s.heldBy e
      | .ok u => u.acceptHead qn q
    else s

/-- A record of op 1 or 2 holds nothing but node and op (R296). -/
def onlyNode (r : BitVec 512) : Bool := decide (r.toNat = taskBits r 0 32 + taskOp r * 2 ^ 54)

/-- RELEASE_HELD_NODE (R299).  (DEDUCED: assumption 57.) -/
def State.release (s : State) (qn : BitVec 6) : State :=
  match (s.consumed qn).headRecord qn with
  | .error e => s.heldBy e
  | .ok (r, q, t) =>
    if taskOp r = 1 then
      let t := t.acceptHead qn q
      if onlyNode r then
        (t.updNodes fun n =>
          if n.stage = .held ∧ n.id.toNat = taskBits r 0 32 ∧ s.queuesMeet n.queue qn = true then
            { n with released := true, stage := .pending }
          else n).settle
      else t
    else s

/-- CANCEL_HELD_NODE (R299, R314).  (DEDUCED: assumption 57.) -/
def State.cancel (s : State) (qn : BitVec 6) : State :=
  match (s.consumed qn).headRecord qn with
  | .error e => s.heldBy e
  | .ok (r, q, t) =>
    if taskOp r = 2 then
      let t := t.acceptHead qn q
      if onlyNode r then
        let named (n : Node) : Bool := decide (n.id.toNat = taskBits r 0 32) && s.queuesMeet n.queue qn
        let t := t.updNodes fun n => if named n && decide (n.stage = .held) then n.reject s.now 4 else n
        let ns := t.sys.nodes.filter fun n => !(named n && decide (n.stage = .tainted))
        ({ t with sys := { t.sys with nodes := ns } }).settle
      else t
    else s

/-- An expert queue replaced or added. -/
def putExpert (q : Nat) (x : ExpertQueue) : List (Nat × ExpertQueue) → List (Nat × ExpertQueue)
  | [] => [(q, x)]
  | y :: t => if y.1 = q then (q, x) :: t else y :: putExpert q x t

/-- An expert-queue record obeys Table 7. -/
def expertOk (r : BitVec 512) : Bool :=
  decide (taskBits r 10 22 = 0) && decide (taskBits r 32 16 = 0) && decide (taskBits r 48 16 = 0xC0) &&
  decide (1 ≤ taskBits r 192 16) && decide (taskBits r 192 16 ≤ 4096) && decide (1 ≤ taskBits r 208 16) &&
  decide (taskBits r 208 16 ≤ taskBits r 192 16) && decide (taskBits r 224 32 = 0) && decide (taskBits r 320 192 = 0)

/-- CONFIGURE_EXPERT_QUEUE (R309). -/
def State.configure (s : State) (qn : BitVec 6) : State :=
  match (s.consumed qn).headRecord qn with
  | .error e => s.heldBy e
  | .ok (r, q, t) =>
    if taskOp r = 3 then
      let t := t.acceptHead qn q
      if expertOk r then
        let x : ExpertQueue :=
          { via := qn, template := BitVec.ofNat 56 (taskBits r 64 56), buffer := BitVec.ofNat 56 (taskBits r 128 56)
            capacity := taskBits r 192 16, threshold := taskBits r 208 16, timeout := taskBits r 256 64, tokens := []
            firings := 0 }
        let es := putExpert (taskBits r 0 10) x t.sys.experts
        { t with sys := { t.sys with experts := es } }
      else t
    else s

/-! ## Placement (R300, R302, R303, R305) -/

/-- The eligible node of a queue that comes first (R300). -/
def firstEligible (qn : BitVec 6) (l : List Node) : Option Node :=
  (l.filter fun n => decide (n.queue = qn) && decide (n.stage = .eligible)).foldl (fun acc n => match acc with
    | none => some n
    | some m => if n.order < m.order then some n else some m) none

/-- The estimate taken from the budget: at most the whole budget (R300). -/
def State.estimate (s : State) (n : Node) : Nat := min (taskBits n.record 160 32) s.sys.energy.budget

/-- The energy budget admits a node; a budget of 0 disables the hold (R300, R347). -/
def State.energyAdmits (s : State) (n : Node) : Bool :=
  decide (s.sys.energy.budget = 0) || decide (s.estimate n ≤ s.sys.energy.remaining)

/-- A slot is free: no strand is placed in it, and every word that had begun there has ended (R228, R323).
(DEDUCED: assumption 49.) -/
def State.slotFree (s : State) (k : Fin 4) : Bool :=
  s.strands[k].placed.isNone && s.orphans.all fun o => decide (o.slot ≠ k)

/-- The free slots of the core, lowest first. -/
def State.freeSlots (s : State) : List (Fin 4) := (List.finRange 4).filter s.slotFree

/-! ### Where a gang goes (R302) -/

/-- The stop of a global core in its die's mesh of 6 columns (R81, R208). -/
def meshStop (c : Nat) : Nat × Nat := (c % 96 / 4 % 6, c % 96 / 4 / 6)

/-- The hop list's measure of core c from home core h: 6 × hops + 160 × D. -/
def hopCost (h c : Nat) : Nat :=
  let (x, y) := meshStop c
  let (u, v) := meshStop h
  6 * ((max x u - min x u) + (max y v - min y v)) + (if c / 96 = h / 96 then 0 else 160)

/-- A core's place in the hop list of a home core, as a number to compare: the home core first, then by measure, then by id. -/
def hopOrder (h c : Nat) : Nat := if c = h then 0 else 1 + 384 * hopCost h c + c

/-- The home core of a node: by its anchor's channel when that is valid and of this device, else by its id. -/
def State.homeCore (s : State) (root : Root) (n : Node) : Except NoAccess Nat :=
  let anchor := taskBits n.record 256 64
  let plain := n.id.toNat % 384
  if anchor = 0 then .ok plain
  else match s.physOf root anchor with
    | .error (.waits k) => .error (.waits k)
    | .error .unmapped => .ok plain
    | .ok (p, _) => .ok (if mainDevice p = s.sys.device then mainLocal p / 4096 % 384 else plain)

/-- The free slots that the core offers a node: none beside strands of another context, and with spread at most one, on a core
with no other strand of the node (R302, R331). -/
def State.offer (s : State) (n : Node) : Nat :=
  let own := s.strands.toList.all fun st => match st.placed with
    | none => true
    | some pl => s.queuesMeet pl.queue n.queue
  if !own then 0
  else if n.spread then (if s.strands.toList.any n.runs then 0 else min 1 s.freeSlots.length)
  else s.freeSlots.length

/-- The free slots that another core offers a node. -/
def offerOf (n : Node) (k : Nat) : Nat := if n.spread then min 1 k else min 4 k

/-- The cores that a node's ranks take, in order of rank: as many slots of each core of the hop list as it offers; none when the
node's slots cannot be taken together now (R302).  What other cores offer comes from the environment.
(DESIGN CHOICE: assumption 80.) -/
def State.gang (s : State) (n : Node) (home : Nat) : Option (List Nat) :=
  let others := (s.env.offers.headD []).filter fun x => decide (x.1 ≠ s.sys.gcore) && decide (x.1 < 384)
  let all := (s.sys.gcore, s.offer n) :: others.map fun x => (x.1, offerOf n x.2)
  let sorted := all.insertionSort fun a b => hopOrder home a.1 ≤ hopOrder home b.1
  let cores := (sorted.flatMap fun x => List.replicate x.2 x.1).take n.count
  if cores.length = n.count then some cores else none

/-- Nothing is placed on the core. -/
def State.idle (s : State) : Bool := s.strands.toList.all fun st => st.placed.isNone

/-- The line engine as R181 restores it when no strand of the core runs (R303). -/
def State.restoreLine (s : State) : State := { s with line := LineEngine.reset }

/-- The instruction-cache lines that hold a text leave the cache (R39). -/
def State.dropText (s : State) (k : Kernel) : State :=
  let ic := s.icache.filter fun l => !(k.pages.any fun p => decide (p.1 ≤ l.1 * 64) && decide (l.1 * 64 < p.1 + 65536))
  { s with icache := ic }

/-- The group ids of a rank, ascending, filled with 0xFF (R304). -/
def rankGroups (gs : List (Nat × List Nat)) (rank : Nat) : Vector (BitVec 8) 4 :=
  let mine := (gs.filter fun x => decide (rank ∈ x.2)).map (·.1)
  Vector.ofFn fun k => BitVec.ofNat 8 (mine.getD k.val 0xFF)

/-- The entry state of a strand (R305, Table 4). -/
def entryStrand (q : Queue) (n : Node) (k : Kernel) (gs : List (Nat × List Nat)) (rank : Nat) : Strand :=
  let entry : BitVec 32 := BitVec.ofNat 32 (taskBits n.record 128 32)
  let (s1, s2) : BitVec 64 × BitVec 64 := match n.batch with
    | some x => x
    | none => (BitVec.ofNat 64 (taskBits n.record 192 64), 0)
  { Strand.launch with
    placed := some
      { node := n.id, rank := rank, count := n.count, queue := n.queue, codeVa := taskBits n.record 64 56
        pages := k.pages, textLen := k.textLen, entry := entry, args := s1, groups := rankGroups gs rank }
    pc := entry
    s := ((Vector.replicate 32 0).set 1 s1).set 2 s2
    priv := q.binding.priv
    groups := rankGroups gs rank
    root := bindingRoot q.binding }

/-- The core image of a node as firmware reads it (R303). -/
def State.image (s : State) (root : Root) (codeVa : Nat) (k : Kernel) : Except NoAccess (List Byte × State) :=
  s.fwRead root (pageFuel k.imageLen) (codeVa + 64 + k.textLen) k.imageLen

/-- A strand of a node on another core, as it is placed there. -/
def FarRank.start (gs : List (Nat × List Nat)) (rank core : Nat) : FarRank :=
  { rank := rank, core := core, groups := rankGroups gs rank, triggered := false, exited := false, lost := false, arrived := []
    done := [] }

/-- The core takes ranks of a node (R303): the core context and the line engine when it is idle, the image with clear
poison and no change to full-empty bits, and the strands on its lowest free slots. -/
def State.takeRanks (s : State) (n : Node) (q : Queue) (k : Kernel) (gs : List (Nat × List Nat)) (image : List Byte)
    (ranks : List Nat) : State :=
  if ranks.isEmpty then s
  else
    let s := if s.idle then ({ s with coreCtx := some (bindingRoot q.binding) } : State).restoreLine else s
    let s := (s.dropText k).chipWrite (chipPlace s.sys.device 0 s.sys.gcore k.imageAt) image false
    let name := s.sys.nextStrand
    let slots := (s.freeSlots.zip ranks).zipIdx
    let strands := slots.foldl
      (fun (v : Vector Strand 4) x =>
        v.set x.1.1.val { entryStrand q n k gs x.1.2 with ident := name + x.2 } x.1.1.isLt) s.strands
    { s with strands := strands, sys := { s.sys with nextStrand := name + ranks.length } }

/-- The predecessors of a node that have not completed (R301); a released node has none. -/
def State.openPreds (s : State) (n : Node) : List (BitVec 32) :=
  if n.released then []
  else (taskPreds n.record).filter fun p =>
    s.sys.nodes.any fun x => decide (x.id = p) && s.queuesMeet x.queue n.queue && decide (x.stage ≠ .tainted)

/-- A node that is placed: it runs from now on. -/
def Node.started (n : Node) (now : BitVec 64) (k : Kernel) (far : List FarRank) (early : List (BitVec 32)) : Node :=
  { n with
    stage := .running
    far := far
    text := some (taskBits n.record 64 56, k.textLen, k.pages)
    earlyOn := if n.start.isSome then n.earlyOn else early
    start := match n.start with | some t => some t | none => some now }

/-- A node's strands take their slots at once (R302, R303), and its estimate leaves the budget (R300).
(DEDUCED: assumption 79.) -/
def State.place (s : State) (n : Node) (q : Queue) (k : Kernel) (gs : List (Nat × List Nat)) (image : List Byte)
    (gang : List Nat) : State :=
  let left := s.sys.energy.remaining - s.estimate n
  let early := s.openPreds n
  let (mine, away) := gang.zipIdx.partition fun x => decide (x.1 = s.sys.gcore)
  let s := s.takeRanks n q k gs image (mine.map (·.2))
  let s := { s with sys := { s.sys with energy := { s.sys.energy with remaining := left } } }
  let far := away.map fun x => FarRank.start gs x.2 x.1
  s.updNodes fun x =>
    if x.id = n.id ∧ x.queue = n.queue ∧ x.stage = .eligible then x.started s.now k far early else x

/-- What firmware reads to place a node (R298, R303, R304). -/
structure Parts where
  kernel : Kernel
  groups : List (Nat × List Nat)
  image  : List Byte
  gang   : List Nat

/-- A node can be placed now (R300, R302): its home core is known, the clock and the budget admit it, the strands of its last
attempt have ended (R323), its slots can be taken together, and its kernel object, group table and image can be read.
Answers what was read, and the state after the reads. -/
def State.placeable (s : State) (q : Queue) (n : Node) : Except NoAccess (Parts × State) :=
  let root := bindingRoot q.binding
  match s.homeCore root n with
  | .error e => .error e
  | .ok home =>
    match (if s.sys.clock.placing && s.energyAdmits n && n.dropping.isEmpty then s.gang n home else none) with
    | none => .error .unmapped
    | some gang =>
      match s.kernel root (taskBits n.record 64 56) (taskBits n.record 128 32) with
      | .error e => .error e
      | .ok k =>
        match s.groupTable root (taskBits n.record 320 64) n.count with
        | .error e => .error e
        | .ok gs =>
          match s.image root (taskBits n.record 64 56) k with
          | .error e => .error e
          | .ok (b, t) => .ok (⟨k, gs, b, gang⟩, t)

/-- No other queue's first eligible node comes before `n` and can be placed: nodes are placed in the order in which they became
eligible, with ties in queue order (R300).  (DEDUCED: assumption 79.) -/
def State.goesFirst (s : State) (n : Node) : Bool :=
  s.sys.queues.all fun x =>
    match firstEligible (BitVec.ofNat 6 x.1) s.sys.nodes with
    | none => true
    | some m =>
      !(s.placeable x.2 m).isOk || decide (n.order < m.order) || (decide (n.order = m.order) && decide (n.queue ≤ m.queue))

/-- NODE_PLACEMENT (R300, R302, R303): the first eligible node of a queue is placed when it can be.
(DEDUCED: assumption 79, DESIGN CHOICE: assumption 80.) -/
def State.placeNext (s : State) (qn : BitVec 6) : State :=
  let s := s.settle
  match firstEligible qn s.sys.nodes, s.queue qn with
  | some n, some q =>
    match s.placeable q n with
    | .error e => s.heldBy e
    | .ok (x, t) =>
      if !s.goesFirst n then s
      else
        let env := { t.env with offers := t.env.offers.drop 1 }
        ({ t with env := env }).place n q x.kernel x.groups x.image x.gang
  | _, _ => s

/-! ## Completion (R295, R313, R314) -/

/-- The finished node of a queue that ended first (R293). -/
def firstFinished (qn : BitVec 6) (l : List Node) : Option Node :=
  (l.filter fun n => decide (n.queue = qn) && decide (n.stage = .finished)).foldl (fun acc n => match acc with
    | none => some n
    | some m => if n.fin < m.fin then some n else some m) none

/-- The 32 bytes of a completion record (R313, Table 9). -/
def Node.completion (n : Node) : List Byte :=
  let start := match n.start with | some t => t | none => n.fin
  leBytes 4 n.id.toNat ++ [n.verdict, n.reason] ++ leBytes 2 n.errors ++ leBytes 8 start.toNat ++ leBytes 8 n.fin.toNat ++
    leBytes 8 n.energy.toNat

/-- Every trace record of a node has left the core's buffer (R344). -/
def State.traced (s : State) (n : Node) : Bool :=
  s.trace.all fun r => !(decide (r.queue = n.queue) && decide (r.source.extractLsb' 32 32 = n.id))

/-- The first node of a list that equals `n`, replaced or taken out. -/
def onNode (n : Node) (f : Option Node) : List Node → List Node
  | [] => []
  | x :: t => if x = n then f.toList ++ t else x :: onNode n f t

/-- A node that has started early learns that a predecessor completed with verdict 2 (R301). -/
def Node.spoiled (x : Node) : Node :=
  if x.stage = .running ∨ (x.stage = .eligible ∧ x.start.isSome) then { x with predTainted := true }
  else if x.stage = .finished ∧ x.verdict ≠ 2 then { x with predTainted := true, verdict := 2, reason := 5 }
  else x

/-- A completed node is no longer one on which another node, launched early, still depends (R301). -/
def Node.settled (x : Node) (id : BitVec 32) : Node := { x with earlyOn := x.earlyOn.filter fun p => decide (p ≠ id) }

/-- A node is complete (R299, R301, R314): it leaves the graph, or stays tainted and taints what was launched early on it; its
records of machine checks and context errors are delivered with it (R234, R322), and the slot time that it had in the running
interval stays counted (R346).  (DESIGN CHOICE: assumption 59.) -/
def State.complete (s : State) (n : Node) : State :=
  let bad := decide (n.verdict = 2)
  let hit (x : Node) : Bool := decide (n.id ∈ x.earlyOn) && s.queuesMeet x.queue n.queue
  let ns := onNode n (if bad then some { n with stage := .tainted } else none)
    (s.sys.nodes.map fun x => if x ≠ n ∧ hit x = true then (if bad then x.spoiled else x).settled n.id else x)
  let del := s.sys.delivered ++ n.errRecs.map fun r => (n.queue, n.id, r)
  let e := s.sys.energy
  let gone := if bad then e.gone else Vector.zipWith (· + ·) e.gone n.slotTime
  ({ s with sys := { s.sys with nodes := ns, delivered := del, energy := { e with gone := gone } } }).settle

/-- NODE_COMPLETION (R295, R313): a completion record is written once the ring has room. -/
def State.completeNext (s : State) (qn : BitVec 6) : State :=
  let s := s.consumed qn
  match firstFinished qn s.sys.nodes, s.queue qn with
  | some n, some q =>
    if q.hasRoom && s.traced n then
      match s.fwWrite (bindingRoot q.binding) (pageFuel 32) (q.binding.compRing.toNat + 32 * (q.compTail % q.size))
          n.completion with
      | .error e => s.heldBy e
      | .ok t => (t.setQueue qn { q with compTail := q.compTail + 1 }).complete n
    else s
  | _, _ => s

/-! ## Expert queues (R309-R311) -/

/-- The id of the node of firing k (R310). -/
def firingId (template : BitVec 512) (k : Nat) : BitVec 32 := BitVec.ofNat 32 (taskBits template 0 32 + k)

/-- The node of a firing has not completed. -/
def State.firingOpen (s : State) (x : ExpertQueue) (template : BitVec 512) (k : Nat) : Bool :=
  s.sys.nodes.any fun n =>
    decide (n.id = firingId template k) && decide (n.queue = x.via) && decide (n.stage ≠ .tainted)

/-- An expert queue fires (R310): the batch is written and the template submitted. -/
def State.fire (s : State) (eq : BitVec 10) (x : ExpertQueue) : State :=
  match (s.consumed x.via).queue x.via with
  | none => s
  | some q =>
    let s := s.consumed x.via
    let root := bindingRoot q.binding
    match s.fwRead root (pageFuel 64) x.template.toNat 64 with
    | .error e => s.heldBy e
    | .ok (b, t) =>
      let r := BitVec.ofNat 512 (leNat b)
      let k := x.firings
      if (2 ≤ k ∧ s.firingOpen x r (k - 2) = true) ∨ q.hasRoom = false then s
      else
        let area := x.buffer.toNat + k % 2 * 8 * x.capacity
        match t.fwWrite root (pageFuel (8 * x.tokens.length)) area (x.tokens.flatMap fun y => leBytes 8 y.1.toNat) with
        | .error e => s.heldBy e
        | .ok t =>
          let es := putExpert eq.toNat { x with tokens := [], firings := k + 1 } t.sys.experts
          let r := BitVec.ofNat 512 (r.toNat / 2 ^ 32 * 2 ^ 32 + (firingId r k).toNat)
          match ({ t with sys := { t.sys with experts := es } }).acceptNode x.via q r
              (some (BitVec.ofNat 64 area, BitVec.ofNat 64 x.tokens.length)) with
          | .error e => s.heldBy e
          | .ok u => u

/-- An expert queue. -/
def State.expert (s : State) (eq : BitVec 10) : Option ExpertQueue :=
  (s.sys.experts.find? fun x => decide (x.1 = eq.toNat)).map (·.2)

/-- EXPERT_QUEUE_FIRE (R310): the token count has reached the threshold. -/
def State.expertFull (s : State) (eq : BitVec 10) : State :=
  match s.expert eq with
  | some x => if x.threshold ≤ x.tokens.length then s.fire eq x else s
  | none => s

/-- EXPERT_QUEUE_TIMEOUT (R310): the oldest token's time has come; a timeout of 0 means no timer (R309). -/
def State.expertLate (s : State) (eq : BitVec 10) : State :=
  match s.expert eq with
  | some x =>
    match x.tokens with
    | [] => s
    | y :: _ => if x.timeout ≠ 0 ∧ y.2.toNat + x.timeout ≤ s.now.toNat then s.fire eq x else s
  | none => s

/-- TOKQ (R311).  (DEDUCED: assumption 58.) -/
def runTokq (e : QEntry) (d : BitVec 5) : M Unit := do
  releaseAt 4
  unreplayable
  let s ← ask id
  let eq : BitVec 10 := (e.capS 0).extractLsb' 0 10
  let mine (x : ExpertQueue) : Bool := match s.me.placed with
    | some pl => s.queuesMeet pl.queue x.via
    | none => false
  match s.expert eq with
  | none => updMe fun st => st.setS d 2
  | some x =>
    if !mine x then updMe fun st => st.setS d 2
    else if x.capacity ≤ x.tokens.length then updMe fun st => st.setS d 1
    else
      let es := putExpert eq.toNat { x with tokens := x.tokens ++ [(e.capS 1, s.now)] } s.sys.experts
      upd fun s => { s with sys := { s.sys with experts := es } }
      updMe fun st => st.setS d 0

/-! ## TASK (R312) -/

/-- TASK (R312): 2 for a queue of another context, or a privileged queue named by a user strand (R294).
(DEDUCED: assumption 58.) -/
def runTask (e : QEntry) (d : BitVec 5) (space : BitVec 2) : M Unit := do
  aligned (e.capA 0) 64
  releaseAt 4
  let b ← spReadClean 0 space (e.capA 0) 64 0
  unreplayable
  let s ← ask id
  let qn : BitVec 6 := (e.capS 1).extractLsb' 0 6
  match s.queue qn, s.me.placed with
  | some q, some pl =>
    if !s.queuesMeet pl.queue qn || (q.binding.priv && !s.me.priv) then updMe fun st => st.setS d 2
    else if taskOp (BitVec.ofNat 512 (leNat b)) ≠ 0 then updMe fun st => st.setS d 3
    else if q.size ≤ q.tail - q.head then updMe fun st => st.setS d 1
    else
      match s.fwWrite (bindingRoot q.binding) (pageFuel 64) (q.binding.ring.toNat + 64 * (q.tail % q.size)) b with
      | .error (.waits (some k)) => stop (.held k)
      | .error _ => stall
      | .ok t =>
        upd fun _ => t.setQueue qn { q with tail := q.tail + 1 }
        updMe fun st => st.setS d 0
  | _, _ => updMe fun st => st.setS d 2

end Sys2Proof.Machine
end

