-- ==== Sys2Proof/Machine/Context.lean ====
section
/-! DEFINITION. The machine-check log and context images (R321, R329-R336): MCHK, CTXSV and CTXLD. -/

namespace Sys2Proof.Machine

/-! ## MCHK (R335) -/

/-- MCHK op 0 (R335).  (DEDUCED: assumption 60.) -/
def runMchkPop (e : QEntry) (d : BitVec 5) : M Unit := do
  let off := (e.capS 1).toNat
  aligned off 64
  let _ ← hPlace (e.capH 0) off 64 true
  let s ← ask id
  match s.sys.log with
  | [] => updMe fun st => st.setS d 0
  | x :: t =>
    hWrite scalarWho (e.capH 0) off (leBytes 64 x.toNat) false
    upd fun s => { s with sys := { s.sys with log := t } }
    updMe fun st => st.setS d (BitVec.ofNat 64 (t.length + 1))

/-- MCHK op 1 (R335). -/
def runMchkInject (cls : BitVec 3) : M Unit := upd fun s => { s with armed := s.armed ++ [cls] }

/-! ## Areas (R330) -/

/-- Bytes of a strand area and of its state region. -/
def strandArea : Nat := 0x28000
def strandStateBytes : Nat := 0x8000

/-- Bytes of a core area, and where its parts begin. -/
def coreArea : Nat := 0x510000
def coreCluster : Nat := 0x300000
def coreBits : Nat := 0x400000

/-- The lane slices of a global strand. -/
def State.laneBytes (s : State) (g : Nat) : List Byte := cellsRead s.mem (lanePlace g 0) 0x20000

/-- The bytes of a state region, which the spec leaves to the device (R330). -/
def stateRegion (n len : Nat) : List Byte := (List.range len).map (Config.freeByte n)

/-- The bytes of a saved area (R330, Table 5). -/
def Saved.bytes : Saved → List Byte
  | .strand n _ x => stateRegion n strandStateBytes ++ x.lanes
  | .core n x => x.scratch ++ x.cluster ++ stateRegion n (coreArea - coreBits)

/-- Bytes from p on, cut at the 64-byte lines: the place and the bytes of each piece.  (The first argument bounds their number.) -/
def lineChunks : Nat → Nat → List Byte → List (Nat × List Byte)
  | 0, _, _ => []
  | n + 1, p, b =>
    let (x, rest) := b.splitAt (64 - p % 64)
    if b.isEmpty then [] else (p, x) :: lineChunks n (p + x.length) rest

/-- Bytes of an area written through a handle at a physical address, line by line through the near buffer as every main-memory
write of the core (R276, R280). -/
def areaWrite (h : Handle) (p : Nat) (b : List Byte) : M Unit :=
  each (fun x => mainStore scalarWho (decide (h.kind = 0)) (decide (h.kind = 2)) x.1 x.2 false) (lineChunks (b.length / 64 + 2) p b)

/-- What was saved is known by its place from then on (R330).  (DESIGN CHOICE: assumption 74.) -/
def State.noteSaved (s : State) (p : Nat) (x : Saved) : State :=
  let sv := (p, x) :: s.sys.saved
  { s with sys := { s.sys with saved := sv }, nfree := s.nfree + 1 }

/-- An area is written and known. -/
def saveAt (h : Handle) (p : Nat) (x : Saved) : M Unit := do
  areaWrite h p x.bytes
  upd fun s => s.noteSaved p x

/-- The area at a physical address, when its check word holds: its bytes are those of an image as it was saved, there or at
another address from which they were copied (R330).  (DESIGN CHOICE: assumption 74.) -/
def State.savedAt (s : State) (p : Nat) : Option Saved :=
  let there := s.sys.saved.filter fun x => decide (x.1 = p)
  let away := s.sys.saved.filter fun x => decide (x.1 ≠ p)
  ((there ++ away).find? fun x => decide (s.peeks p x.2.bytes.length = x.2.bytes)).map (·.2)

/-- A saved strand has been loaded: its image names no strand that is away any longer. -/
def loaded (n : Nat) : Nat × Saved → Nat × Saved
  | (a, .strand m true x) => (a, .strand m (decide (m ≠ n)) x)
  | x => x

/-! ## Other cores (R331) -/

/-- A core of the package other than the modelled one, as it stands. -/
def State.farCore (s : State) (c : Nat) : FarCore := ((s.sys.cores.find? fun x => decide (x.1 = c)).map (·.2)).getD FarCore.reset

/-- Another core, written. -/
def State.setFarCore (s : State) (c : Nat) (x : FarCore) : State :=
  let cs := (s.sys.cores.filter fun y => decide (y.1 ≠ c)) ++ [(c, x)]
  { s with sys := { s.sys with cores := cs } }

/-! ## Saving a strand (R329, R336) -/

/-- The strand as it is saved: its pipeline drained and translations landed, a sleep ended, its unfinished words the
replay queue. -/
def Strand.forSave (st : Strand) : Strand :=
  let q := if st.sleeping.isSome then st.queue.filter fun e => !e.isSleep else st.queue
  { st.drainPipe with queue := [], inject := q ++ st.inject, sleeping := none, drainDue := false }

/-- An open chain of a slot of a core with its tiles (R171). -/
def MatrixEngine.chainOf (m : MatrixEngine) (k : Fin 4) : Option (Chain × List (Nat × Tile)) :=
  match m.chain with
  | some c => if c.owner = k then some (c, (List.range c.n).map fun i => (c.t + i, m.tile (c.t + i))) else none
  | none => none

/-- An open chain of a slot of this core. -/
def State.chainOf (s : State) (k : Fin 4) : Option (Chain × List (Nat × Tile)) := s.matrix.chainOf k

/-- A matrix word is queued that no CPYM holds. -/
def matrixLeft : List QEntry → List QEntry → Bool
  | _, [] => false
  | before, e :: t => (decide (e.instr.eng = some .matrix) && !isHeld before e) || matrixLeft (before ++ [e]) t

/-- A strand that pre-emption cannot stop yet: a word has begun and runs to its end (R228, R329), or its chain is open and matrix
words are queued, which are finished first (R171). -/
def Strand.cannotStop (st : Strand) (chain : Bool) : Bool := st.busy || (chain && matrixLeft [] st.queue)

/-- The same of a strand slot of the core. -/
def State.cannotStop (s : State) (k : Fin 4) : Bool := s.strands[k].cannotStop (s.chainOf k).isSome

/-- A strand slot of the core stops for pre-emption: what its area will hold, and the state (R329). -/
def State.stopFor (s : State) (k : Fin 4) : Saved × State :=
  let cur := s.cur
  let t := ({ s with cur := k } : State)
  let t := match t.me.sleeping with
    | some x => t.traceEvent 0 8 x 1
    | none => t
  let t := (t.landTrns false false).traceEvent 0 5 (t.me.pc.setWidth 64) 0
  (.strand t.nfree true ⟨t.me.unsplitProbe.forSave, t.laneBytes (t.gstrand k.val), t.chainOf k⟩, { t with cur := cur })

/-- A strand slot of the core is pre-empted, its area written and the slot freed (R329, R336). -/
def preempt (k : Fin 4) (h : Handle) (p : Nat) : M Unit := do
  let s ← ask id
  let (x, t) := s.stopFor k
  upd fun _ => t
  saveAt h p x
  upd fun s => s.freeSlot k

/-- The translations of a strand on another core land (R329). -/
def State.landFar (s : State) (st : Strand) : Strand × State :=
  let t := (s.setMe st).landTrns false false
  (t.me, t.setMe s.me)

/-- A strand that comes back from another core: how far it had come there (R286, R306). -/
def Strand.backFrom (st : Strand) (r : FarRank) : Strand :=
  let of (k : Fin 4) : Member :=
    let g := st.groups[k]
    let hit := r.done.find? fun x => decide (x.1 = g)
    ⟨decide (g ∈ r.arrived), hit.isSome, (hit.map (·.2)).getD false⟩
  { st with triggered := st.triggered || r.triggered, members := Vector.ofFn of }

/-- A strand's place in the list of its node's strands on other cores. -/
def FarRank.isOf (r : FarRank) (core : Nat) (st : Strand) : Bool :=
  decide (r.core = core) && decide (some r.rank = st.placed.map (·.rank))

/-- A strand of another core stops for pre-emption, as it stood when it was last seen: what its area will hold, and the state, in
which its slot is free and its chain closed (R171, R329).  (DESIGN CHOICE: assumption 73.) -/
def State.stopFar (s : State) (g : Nat) (x : SavedStrand) : Saved × State :=
  let core := g / 4
  let k : Fin 4 := ⟨g % 4, by omega⟩
  let c := s.farCore core
  let (st, s) := s.landFar x.strand
  let ranks := (s.sys.nodes.filter st.ofNode).flatMap fun n => n.far.filter fun r => r.isOf core st
  let st := match ranks with
    | r :: _ => st.backFrom r
    | [] => st
  let chain := (c.matrix.chainOf k).or x.chain
  let s := s.updNodes fun n => if st.ofNode n then { n with far := n.far.filter fun r => !r.isOf core st } else n
  (.strand s.nfree true ⟨st.unsplitProbe.forSave, s.laneBytes g, chain⟩,
    s.setFarCore core { c with matrix := c.matrix.closeFor k, strands := c.strands.set k.val none k.isLt })

/-- A strand of another core is pre-empted and its area written.  (DESIGN CHOICE: assumption 73.) -/
def preemptFar (g : Nat) (h : Handle) (p : Nat) (x : SavedStrand) : M Unit := do
  let s ← ask id
  let (y, t) := s.stopFar g x
  upd fun _ => t
  saveAt h p y

/-- CTXSV, what = 0 (R336): the status, and the strand saved when it is 0.  (DEDUCED: assumption 73.) -/
def runCtxsvStrand (e : QEntry) (d : BitVec 5) : M Unit := do
  runDrain 4
  let off := (e.capS 2).toNat
  aligned off 4096
  let p ← hPlace (e.capH 1) off strandArea true
  mainReady p strandArea
  let s ← ask id
  let g := (e.capS 0).toNat % 2 ^ 11
  let k : Fin 4 := ⟨g % 4, by omega⟩
  if g / 4 ≠ s.sys.gcore then
    match if g < 1536 then ((s.farCore (g / 4)).strands)[k] else none with
    | none => updMe fun st => st.setS d 1
    | some x =>
      if x.strand.cannotStop (((s.farCore (g / 4)).matrix.chainOf k).or x.chain).isSome then stall
      else do
        preemptFar g (e.capH 1) p x
        updMe fun st => st.setS d 0
  else if k = s.cur then updMe fun st => st.setS d 3
  else if s.strands[k].placed.isNone then updMe fun st => st.setS d 1
  else if s.cannotStop k then stall
  else do
    unpin s.strands[k].ident
    preempt k (e.capH 1) p
    updMe fun st => st.setS d 0

/-! ## Loading a strand (R336) -/

/-- A captured value with its handle re-translated (R242). -/
def State.retranslateCap (s : State) (r : Root) : Cap → Cap
  | .h x => .h (s.retranslate r x)
  | c => c

/-- A withdrawn word as it re-enters (R242, R252): its handles are re-translated. -/
def State.reenter (s : State) (r : Root) (e : QEntry) : QEntry :=
  { e with caps := e.caps.map (s.retranslateCap r), counted := [] }

/-- The context of a strand: the root of its queue's binding (R293). -/
def State.contextOf (s : State) (st : Strand) : Option Root := (s.binding st).map bindingRoot

/-- An open chain reopened for a slot, with its tiles (R171).  It runs up no debt.  (DESIGN CHOICE: assumption 105.) -/
def State.reopen (s : State) (k : Fin 4) : Option (Chain × List (Nat × Tile)) → State
  | none => s
  | some (c, ts) =>
    let m := ts.foldl (fun (m : MatrixEngine) x => m.setTile x.1 x.2) s.matrix
    let m := { m with chain := some { c with owner := k, ends := none } }
    { s with matrix := m }

/-- A saved strand as it stands when it is restored: its handles, those of its windows among them, are re-translated, and its
event latch is set (R242, R271, R336).  Its replay queue is re-translated as it re-enters.  (DEDUCED: assumption 95.) -/
def State.revive (s : State) (st : Strand) : Strand :=
  let r := st.root
  { st with h := st.h.map (s.retranslate r), slots := st.slots.map (StreamSlot.onHandle (s.retranslate r)), latch := true }

/-- A saved strand takes a slot of the core (R336). -/
def State.resume (s : State) (k : Fin 4) (n : Nat) (x : SavedStrand) : State :=
  let st := s.revive x.strand
  let mem := cellsWrite s.mem (lanePlace (s.gstrand k.val) 0) x.lanes
  let t : State := { s with
    strands := s.strands.set k.val st k.isLt, sys := { s.sys with saved := s.sys.saved.map (loaded n) }, mem := mem }
  let cur := t.cur
  let t := ({ t.reopen k x.chain with cur := k } : State).traceEvent 0 6 (st.pc.setWidth 64) 0
  { t with cur := cur }

/-- A strand that goes on on another core. -/
def FarRank.resumed (core : Nat) (st : Strand) : FarRank :=
  let mine (f : Member → Bool) : List (Fin 4) := (List.finRange 4).filter fun k => f st.members[k] && decide (st.groups[k] ≠ 0xFF)
  { rank := ((st.placed.map (·.rank)).getD 0), core := core, groups := st.groups, triggered := st.triggered, exited := false
    lost := false, arrived := (mine (·.arrived)).map fun k => st.groups[k]
    done := (mine (·.done)).map fun k => (st.groups[k], st.members[k].lost) }

/-- A saved strand takes a slot of another core, where it runs on.  (DESIGN CHOICE: assumption 73.) -/
def State.resumeFar (s : State) (g n : Nat) (x : SavedStrand) : State :=
  let c := s.farCore (g / 4)
  let mem := cellsWrite s.mem (lanePlace g 0) x.lanes
  let m := match x.chain with
    | none => c.matrix
    | some (ch, ts) =>
      let m := ts.foldl (fun (m : MatrixEngine) y => m.setTile y.1 y.2) c.matrix
      { m with chain := some { ch with owner := ⟨g % 4, by omega⟩, ends := none } }
  let s := s.updNodes fun n =>
    if x.strand.ofNode n then { n with far := n.far ++ [FarRank.resumed (g / 4) x.strand] } else n
  ({ s with sys := { s.sys with saved := s.sys.saved.map (loaded n) }, mem := mem } : State).setFarCore (g / 4)
    { c with matrix := m, strands := c.strands.setIfInBounds (g % 4) (some { x with strand := s.revive x.strand }) }

/-- CTXLD, what = 0 (R336).  (DEDUCED: assumption 73.) -/
def runCtxldStrand (e : QEntry) (d : BitVec 5) : M Unit := do
  runDrain 4
  let off := (e.capS 2).toNat
  aligned off 4096
  let p ← hPlace (e.capH 1) off strandArea false
  mainReady p strandArea
  let s ← ask id
  let g := (e.capS 0).toNat % 2 ^ 11
  let k : Fin 4 := ⟨g % 4, by omega⟩
  let own := decide (g / 4 = s.sys.gcore)
  let c := s.farCore (g / 4)
  if own && decide (k = s.cur) then updMe fun st => st.setS d 3
  else if 1536 ≤ g ∨ (if own then !s.slotFree k else c.strands[k].isSome) = true then
    updMe fun st => st.setS d 1
  else match s.savedAt p with
    | some (.strand n _ x) => do
      let ctx := if own then s.coreCtx else c.ctx
      let chain := if own then s.matrix.chain else c.matrix.chain
      if ctx.isNone ∨ ctx ≠ s.contextOf x.strand then updMe fun st => st.setS d 5
      else if x.chain.isSome && chain.isSome then stall
      else do
        upd fun s => if own then s.resume k n x else s.resumeFar g n x
        updMe fun st => st.setS d 0
    | _ => updMe fun st => st.setS d 4

/-! ## Core areas (R331, R336) -/

/-- The granules of a global core's scratchpad and of the cluster memory it hosts: the first of each, and how many. -/
def State.scratchGranules (s : State) (c : Nat) : Nat × Nat := (chipPlace s.sys.device 0 c 0 / 16, 0x30000)
def State.clusterGranules (s : State) (c : Nat) : Nat × Nat := (chipPlace s.sys.device 1 c 0 / 16, 0x10000)

/-- The members of a range of a set of granules, counted from its first. -/
def rangeOf (l : List Nat) (r : Nat × Nat) : List Nat :=
  (l.filter fun g => decide (r.1 ≤ g ∧ g < r.1 + r.2)).map fun g => g - r.1

/-- A range of a set of granules replaced. -/
def rangePut (l : List Nat) (r : Nat × Nat) (new : List Nat) : List Nat :=
  new.foldl (fun acc g => setAdd acc (r.1 + g)) (l.filter fun g => !decide (r.1 ≤ g ∧ g < r.1 + r.2))

/-- The core area of another core (R330, R331). -/
def State.coreImage (s : State) (c : Nat) : SavedCore :=
  let x := s.farCore c
  { scratch := cellsRead s.mem (chipPlace s.sys.device 0 c 0) 0x300000
    cluster := cellsRead s.mem (chipPlace s.sys.device 1 c 0) 0x100000
    full := (rangeOf s.full (s.scratchGranules c), rangeOf s.full (s.clusterGranules c))
    poison := (rangeOf s.poison (s.scratchGranules c), rangeOf s.poison (s.clusterGranules c))
    matrix := x.matrix, line := x.line, codebook := x.codebook, root := x.ctx }

/-- CTXSV, what = 1 (R336): the core area of a core with nothing placed is written with its context's root, and the core
context becomes none.  A core number above 383 names no core.  (DESIGN CHOICE: assumption 73.) -/
def runCtxsvCore (e : QEntry) (d : BitVec 5) : M Unit := do
  runDrain 4
  let off := (e.capS 2).toNat
  aligned off 4096
  let p ← hPlace (e.capH 1) off coreArea true
  mainReady p coreArea
  let s ← ask id
  let c := (e.capS 0).toNat % 2 ^ 9
  if c = s.sys.gcore then updMe fun st => st.setS d 3
  else if 384 ≤ c then updMe fun st => st.setS d 1
  else if (s.farCore c).strands.toList.any Option.isSome then updMe fun st => st.setS d 2
  else do
    saveAt (e.capH 1) p (.core s.nfree (s.coreImage c))
    upd fun s => s.setFarCore c { s.farCore c with ctx := none }
    updMe fun st => st.setS d 0

/-- A plane with the residue of every element computed anew (R336). -/
def Plane.reseal (p : Plane) : Plane := { p with res := p.rows.map p.fmt.rowRes }

/-- A core area, loaded into a global core (R336): its memories and bits, its state with residues computed for every plane, and
its context. -/
def State.loadCore (s : State) (c : Nat) (x : SavedCore) : State :=
  let mem := cellsWrite (cellsWrite s.mem (chipPlace s.sys.device 0 c 0) x.scratch) (chipPlace s.sys.device 1 c 0) x.cluster
  let full := rangePut (rangePut s.full (s.scratchGranules c) x.full.1) (s.clusterGranules c) x.full.2
  let poison := rangePut (rangePut s.poison (s.scratchGranules c) x.poison.1) (s.clusterGranules c) x.poison.2
  let macros := x.matrix.macros.map fun m => { m with plane0 := m.plane0.reseal, plane1 := m.plane1.reseal }
  ({ s with mem := mem, full := full, poison := poison } : State).setFarCore c
    { s.farCore c with
      matrix := { x.matrix with macros := macros }, line := x.line, codebook := x.codebook, ctx := x.root }

/-- CTXLD, what = 1 (R336). -/
def runCtxldCore (e : QEntry) (d : BitVec 5) : M Unit := do
  runDrain 4
  let off := (e.capS 2).toNat
  aligned off 4096
  let p ← hPlace (e.capH 1) off coreArea false
  mainReady p coreArea
  let s ← ask id
  let c := (e.capS 0).toNat % 2 ^ 9
  if c = s.sys.gcore then updMe fun st => st.setS d 3
  else if 384 ≤ c then updMe fun st => st.setS d 1
  else match s.savedAt p with
    | some (.core _ x) => do
      upd fun s => s.loadCore c x
      updMe fun st => st.setS d 0
    | _ => updMe fun st => st.setS d 4

end Sys2Proof.Machine
end

