-- ==== Sys2Proof/Machine/Package.lean ====
section
/-! DEFINITION. The package around the core (R276-R284, R326-R352): trace, time, energy, boot, HBM4 reliability, the near
buffer's drains, requests from outside, lost partners, and the state summary. -/

namespace Sys2Proof.Machine

/-! ## Trace (R342-R345) -/

/-- A record waits, outside the buffer of R343, while its strand has a TRC to run that was split before the record's time, so that
the times of a strand never decrease in the ring (R345): one that is queued, waits for re-injection, or stands in the trap frame;
the strand may have been saved meanwhile.  (DEDUCED: assumption 68.) -/
def State.traceWaits (s : State) (r : TraceRec) : Bool :=
  (s.strands.toList.filter (·.placed.isSome) ++ s.sys.saved.filterMap Saved.awayStrand).any fun st =>
    decide (st.ident = r.strand) &&
    ((withdrawnTimes ((st.queue ++ st.inject).map fun e => (e, false))) ++ st.trcs).any fun t => decide (t < r.time)

/-- TRC (R343): waits while the buffer is full; with no ring bound it writes nothing (R344). -/
def runTrc (e : QEntry) (code : BitVec 12) : M Unit := do
  let s ← ask id
  match s.me.placed, s.binding s.me with
  | some pl, some b =>
    if b.trace.isNone then pure ()
    else if 64 ≤ (s.trace.filter fun r => !s.traceWaits r).length then stall
    else upd fun s =>
      let source := code.toNat + s.gstrand s.cur.val * 2 ^ 16 + pl.node.toNat * 2 ^ 32
      s.putTrace pl.queue (e.capS 2) (e.capS 0) (e.capS 1) source s.me.ident
  | _, _ => pure ()

/-- The 32 bytes of a trace record (R342). -/
def TraceRec.bytes (r : TraceRec) (lost : Bool) : List Byte :=
  leBytes 8 r.time.toNat ++ leBytes 8 r.a.toNat ++ leBytes 8 r.b.toNat ++
    leBytes 8 (r.source ||| (if lost then 0x8000 else 0)).toNat

/-- A buffered record leaves the buffer. -/
def State.popTrace (s : State) (r : TraceRec) : State := { s with trace := s.trace.erase r }

/-- TRACE_RECORD_MOVE (R344): the oldest record that the buffer holds goes to its ring, or is dropped when a fresh reading of the
head word shows the ring full: tail − head = 2^k, modulo 2^64. -/
def State.moveTrace (s : State) : State :=
  match s.trace.find? fun r => !s.traceWaits r with
  | none => s
  | some r =>
    match s.queue r.queue with
    | none => s.popTrace r
    | some q =>
      match q.binding.trace with
      | none => s.popTrace r
      | some (ring, k, pair) =>
        let root := bindingRoot q.binding
        let full (head : Nat) : Bool := decide (BitVec.ofNat 64 q.traceTail - BitVec.ofNat 64 head = BitVec.ofNat 64 (2 ^ k))
        let fresh : Except NoAccess (Nat × State) :=
          if !full q.traceHead then .ok (q.traceHead, s)
          else match s.fwRead root (pageFuel 8) pair.toNat 8 with
            | .error e => .error e
            | .ok (b, t) => .ok (leNat b, t)
        match fresh with
        | .error e => s.heldBy e
        | .ok (head, t) =>
          if full head then (t.setQueue r.queue { q with traceHead := head, traceLost := true }).popTrace r
          else
            match t.fwWrite root (pageFuel 32) (ring.toNat + 32 * (q.traceTail % 2 ^ k)) (r.bytes q.traceLost) with
            | .error e => s.heldBy e
            | .ok t =>
              match t.fwWrite root (pageFuel 8) (pair.toNat + 8) (leBytes 8 (q.traceTail + 1)) with
              | .error e => s.heldBy e
              | .ok t =>
                (t.setQueue r.queue { q with traceHead := head, traceTail := q.traceTail + 1, traceLost := false }).popTrace r

/-! ## The Encke counter (R337-R339) -/

/-- The strand slots that a node occupies on a die (R346): those of this core, and those of its strands on other cores. -/
def State.slotsOf (s : State) (n : Node) (die : Nat) : Nat :=
  (if die = s.die then (s.strands.toList.filter n.runs).length else 0) +
  (n.far.filter fun r => !r.exited && !r.lost && decide (r.core / 96 = die)).length

/-- n nanoseconds pass: an offset is slewed out at up to 500 parts per million, what is less than a nanosecond carried on, and
the counter never decreases (R337, R338); the slots' time is charged to their nodes (R346).  (DESIGN CHOICE: assumption 6,
DESIGN CHOICE: assumption 54.) -/
def State.passTime (s : State) (n : Nat) : State :=
  let c := s.sys.clock
  let most : Int := ((n * 500 + c.carry) / 1000000 : Nat)
  let adj := max (-most) (min most c.slew)
  let carry := if c.slew - adj = 0 then 0 else (n * 500 + c.carry) % 1000000
  let now := s.now + BitVec.ofInt 64 ((n : Int) + adj)
  let nodes := s.sys.nodes.map fun x =>
    if x.stage = .running then { x with slotTime := Vector.ofFn fun d => x.slotTime[d] + n * s.slotsOf x d.val } else x
  { s with now := now, sys := { s.sys with nodes := nodes, clock := { c with slew := c.slew - adj, carry := carry } } }

/-- PTP_MESSAGE (R338, R339): `offset` is how far the counter is behind the PTP timescale.  Below 1 ms it is slewed; a
counter behind by more is stepped forward, one ahead by more is slewed.  (DESIGN CHOICE: assumption 54.) -/
def State.ptp (s : State) (offset : Int) : State :=
  let step := decide (1000000 ≤ offset)
  let now := if step then s.now + BitVec.ofInt 64 offset else s.now
  let slew := if step then 0 else offset
  { s with now := now, sys := { s.sys with
      clock := { s.sys.clock with locked := true, slew := slew, carry := 0, placing := true, grandmaster := false } } }

/-- HOLDOVER_EXPIRY (R339): once the holdover time of module flash has passed since reset without a lock, the firmware begins
placing nodes with the counter unlocked. -/
def State.holdover (s : State) : State :=
  let c := s.sys.clock
  if c.locked ∨ s.now.toNat < c.holdover then s else { s with sys := { s.sys with clock := { c with placing := true } } }

/-- NO_BETTER_CLOCK_ANNOUNCED (R338). -/
def State.grandmaster (s : State) : State :=
  { s with sys := { s.sys with clock := { s.sys.clock with grandmaster := true } } }

/-! ## Energy (R346, R347) -/

/-- A node has ended: its ENERGY stands (R313). -/
def Node.over (n : Node) : Bool := decide (n.stage = .finished) || decide (n.stage = .tainted)

/-- The slot time that every node had on a die in the running interval. -/
def State.dieTime (s : State) (d : Fin 4) : Nat := (s.sys.nodes.map fun n => n.slotTime[d]).sum + s.sys.energy.gone[d]

/-- What a node receives of the energy of the running interval: on each die in proportion to its slot time there (R346). -/
def State.energyShare (s : State) (n : Node) : Nat :=
  ((List.finRange 4).map fun d => Config.dieEnergy s.nfree d.val * n.slotTime[d] / max (s.dieTime d) 1).sum

/-- ENERGY_INTEGRATION (R346): once a microsecond has ended, the energy of each die is split in proportion to the time for which
each node occupied its strand slots, and the meters of the package move on.  The ENERGY of a node that has completed stands
(R313).  (DESIGN CHOICE: assumption 13.) -/
def State.integrate (s : State) : State :=
  let e := s.sys.energy
  if s.now.toNat / 1000 ≤ e.taken then s
  else
    let t := s.updNodes fun n =>
      { n with energy := if n.over then n.energy else n.energy + BitVec.ofNat 64 (s.energyShare n), slotTime := Vector.replicate 4 0 }
    let e := { e with
      taken := s.now.toNat / 1000, gone := Vector.replicate 4 0
      meter := Vector.ofFn fun d => e.meter[d] + Config.dieEnergy s.nfree d.val
      io := e.io + Config.packageEnergy s.nfree 0
      hbm := e.hbm + Config.packageEnergy s.nfree 1, serdes := e.serdes + Config.packageEnergy s.nfree 2 }
    { t with nfree := t.nfree + 1, sys := { t.sys with energy := e } }

/-- ENERGY_INTERVAL_START (R347): once the counter has come to a multiple of the interval length, new values apply, and the
whole budget is there (R300). -/
def State.interval (s : State) : State :=
  let e := s.sys.energy
  if s.now.toNat / e.interval ≤ e.begun then s
  else
    let e := match e.next with
      | some (i, b) => { e with interval := i, budget := b, next := none }
      | none => e
    { s with sys := { s.sys with energy := { e with remaining := e.budget, begun := s.now.toNat / e.interval } } }

/-- ENERGY_CONFIG (R347): an interval of 1 ms to 1 s, in nanoseconds, and a budget; they apply from the next interval.  A
command with another interval changes nothing.  (DESIGN CHOICE: assumption 96.) -/
def State.energyCommand (s : State) (interval budget : Nat) : State :=
  if 1000000 ≤ interval ∧ interval ≤ 1000000000 then
    { s with sys := { s.sys with energy := { s.sys.energy with next := some (interval, budget) } } }
  else s

/-! ## Boot (R348) -/

/-- An image may run (R348).  (DESIGN CHOICE: assumption 82.) -/
def imageOk (x : FlashImage) : Bool := x.rsaOk && x.slhOk && decide (Config.rollbackCounter ≤ x.version)

/-- The slot of an image that runs, and whether it is B: A, else B.  (DESIGN CHOICE: assumption 82.) -/
def pickImage (x : FlashImage × FlashImage) : Option (FlashImage × Bool) :=
  if imageOk x.1 then some (x.1, false) else if imageOk x.2 then some (x.2, true) else none

/-- The boot core loads the three images in order; the first that fails in both slots ends in recovery.
(DEDUCED: assumption 78.) -/
def bootFrom (f : FlashImages) : Boot :=
  match pickImage f.security with
  | none => ⟨none, none, none, true, []⟩
  | some a =>
    match pickImage f.ganymede with
    | none => ⟨some a.1, none, none, true, [a.2]⟩
    | some b =>
      match pickImage f.loader with
      | none => ⟨some a.1, some b.1, none, true, [a.2, b.2]⟩
      | some c => ⟨some a.1, some b.1, some c.1, false, [a.2, b.2, c.2]⟩

/-- The clock at reset, with what module flash sets: the holdover time, 10 s unless it names another, and PTP (R338, R339). -/
def clockFrom (f : FlashImages) : Clock :=
  { System.reset.clock with holdover := f.holdover.getD System.reset.clock.holdover, ptp := f.ptp }

/-- RESET (R209, R154, R181, R337) and boot; the environment, the machine's place in the domain, and the counters of
free values and steps go on.  (DEDUCED: assumption 78.) -/
def State.resetBoot (s : State) (f : FlashImages) : State :=
  { State.reset with
    sys := { System.reset with device := s.sys.device, devices := s.sys.devices, gcore := s.sys.gcore, boot := bootFrom f,
                                clock := clockFrom f }
    env := s.env
    nfree := s.nfree
    ticks := s.ticks }

/-- RECOVERY_IMAGE (R348): in recovery an image that verifies is accepted, the first missing one in the loading order. -/
def State.recoveryImage (s : State) (which : ImageKind) (img : FlashImage) : State :=
  let b := s.sys.boot
  if b.recovery && imageOk img then
    let b : Boot := match which, b.security, b.ganymede, b.loader with
      | .security, none, _, _ => { b with security := some img }
      | .ganymede, some _, none, _ => { b with ganymede := some img }
      | .loader, some _, some _, none => { b with loader := some img }
      | _, _, _, _ => b
    let b := { b with recovery := b.security.isNone || b.ganymede.isNone || b.loader.isNone }
    { s with sys := { s.sys with boot := b } }
  else s

/-- ATTESTATION_REPORT (R348): the measurement of every image loaded, signed. -/
def State.attest (s : State) : State :=
  let ms := [s.sys.boot.security, s.sys.boot.ganymede, s.sys.boot.loader].filterMap fun x => x.map FlashImage.measure
  let r : Attestation := ⟨ms, Config.attestationSignature s.nfree⟩
  let rs := s.sys.attestations ++ [r]
  { s with nfree := s.nfree + 1, sys := { s.sys with attestations := rs } }

/-- The dispatch firmware runs: its image has been loaded (R348, R350).  (DEDUCED: assumption 71.) -/
def State.firmware (s : State) : Bool := s.sys.boot.ganymede.isSome

/-! ## HBM4 (R326-R328) -/

/-- A write command of a line has failed four times in a row and is dropped (R326): that of the buffered line, or else one that
has already landed in the model, whose bytes are then free values.  (DEDUCED: assumption 75.) -/
def State.dropWrite (s : State) (line : Nat) : State :=
  if s.near.any fun l => decide (l.line = line) then
    let near := s.near.filter fun l => decide (l.line ≠ line)
    { s with near := near }
  else
    let mem := cellsWrite s.mem (64 * line) ((List.range 64).map (Config.freeByte s.nfree))
    { s with mem := mem, nfree := s.nfree + 1 }

/-- HBM_PARITY_ALERT (R326): each replay is logged; a command that fails four times in a row makes its line
uncorrectable, and a write is dropped.  The bank and row are the device's own.  (DEDUCED: assumption 75.) -/
def State.parityAlert (s : State) (stack channel line : Nat) (write : Bool) (fails : Nat) : State :=
  let r := memReport 0 2 0 (line * 64) stack channel (Config.faultPlace s.nfree 9) (Config.faultPlace s.nfree 10)
  let t := s.logCorrected r (min fails 3)
  if 4 ≤ fails then (if write then t.dropWrite line else t).setLinePoison line true else t

/-- A valid page-table entry maps bytes of a channel of this device (R237, R302). -/
def State.entryOnChannel (s : State) (e ch : Nat) : Bool :=
  let large := decide (e / 2 ^ 62 % 2 = 1)
  let p := (if large then e % 2 ^ 38 / 512 * 512 else e % 2 ^ 38) * 65536
  pteValid e && decide (pteKind e ≠ 3) && decide (mainDevice p = s.sys.device) &&
  (large || decide ((ch + 384 - mainLocal p / 4096 % 384) % 384 < 16))

/-- A root's table, as memory holds it, maps a page onto a channel. -/
def State.rootOnChannel (s : State) (r : Root) (ch : Nat) : Bool :=
  r.ok && s.mem.any fun c =>
    decide (c.1 % 8 = 7) && decide (r.base.toNat ≤ c.1) && decide (c.1 < r.base.toNat + 2 ^ r.n.toNat * 64) &&
    s.entryOnChannel (leNat (cellsRead s.mem (c.1 - 7) 8)) ch

/-- The context of a launch queue has a page on a channel.  (DEDUCED: assumption 76.) -/
def State.contextOnChannel (s : State) (b : QueueBinding) (ch : Nat) : Bool := s.rootOnChannel (bindingRoot b) ch

/-- A strand of no node, placed through a launch queue: it names the queue's context. -/
def ofQueue (q : Nat) : Strand :=
  { Strand.launch with placed := some ⟨0, 0, 0, BitVec.ofNat 6 q, 0, [], 0, 0, 0, Vector.replicate 4 0xFF⟩ }

/-- The context of a launch queue is killed when it has a page on the channel (R327), whether its strands are placed or saved:
the record of the controller goes with its nodes.  (DEDUCED: assumption 76.) -/
def State.killChannel (ch : Nat) (rc : BitVec 512) (s : State) (q : Nat × Queue) : State :=
  if s.contextOnChannel q.2.binding ch then s.killContext (ofQueue q.1) 0x24 rc else s

/-- A bank's error count, one more. -/
def bumpBank (b : Nat) : List (Nat × Nat) → List (Nat × Nat)
  | [] => [(b, 1)]
  | x :: t => if x.1 = b then (b, x.2 + 1) :: t else x :: bumpBank b t

/-- HBM_SCRUB (R327): an error that scrub corrects is counted, logged and charged to no node (R317).  Its channel and row are the
device's own.  (DEDUCED: assumption 75.) -/
def State.scrub (s : State) : ScrubResult → State
  | .clean _ _ => s
  | .corrected stack bank =>
    let bs := bumpBank (stack * 256 + bank) s.sys.bankErrors
    let r := memReport 0 2 0 0 stack (Config.faultPlace s.nfree 11) bank (Config.faultPlace s.nfree 10)
    ({ s with nfree := s.nfree + 1, sys := { s.sys with bankErrors := bs } } : State).logCorrected r 1
  | .remapTable ch =>
    if ch ∈ s.sys.deadChannels ∨ 384 ≤ ch then s
    else
      let rc := s.record (memReport 0x11 0 8 0 (ch / 32) (ch % 32) 0 0)
      let lp := s.linePoison.filter fun l => !(decide (mainDevice (l * 64) = s.sys.device) && decide (channelOf (l * 64) = ch))
      let dead := s.sys.deadChannels ++ [ch]
      let t := ({ s with linePoison := lp, sys := { s.sys with deadChannels := dead } } : State).logRecord rc
      t.sys.queues.foldl (State.killChannel ch rc) t

/-- CRITICAL_TEMPERATURE (R328). -/
def State.selfRefresh (s : State) (stack : Nat) : State :=
  let l := setAdd s.sys.selfRefresh stack
  { s with sys := { s.sys with selfRefresh := l } }

/-- The bytes of a request from outside. -/
def RemoteWait.length (w : RemoteWait) : Nat :=
  match w.req with
  | .read _ n _ _ _ => n
  | .write _ b _ _ => b.length

/-- The stack of a main-memory request from outside that is held for self-refresh, and since when (R328). -/
def State.heldAt (s : State) (w : RemoteWait) : Option (Nat × BitVec 64) :=
  if isMain w.place then (s.stackFor w.place w.length).map fun k => (k, w.time) else none

/-- STALL_REPORT (R328): one report per stack, once a request has been held for 50 ms. -/
def State.stallReport (s : State) (stack : Nat) : State :=
  let held := s.sys.holding ++ s.sys.remoteWaits.filterMap s.heldAt
  if stack ∈ s.sys.selfRefresh ∧ stack ∉ s.sys.stalled ∧
      (held.any fun x => decide (x.1 = stack) && decide (x.2.toNat + 50000000 ≤ s.now.toNat)) = true then
    let m := setAdd s.sys.stalled stack
    ({ s with sys := { s.sys with stalled := m } } : State).logRecord (s.record (memReport 0 3 0 0 stack 0 0 0))
  else s

/-! ## The near buffer's own moves (R276, R279, R280) -/

/-- NEAR_BUFFER_DRAIN (R276): the oldest unpinned line whose stack takes requests leaves; a stack in self-refresh holds the lines
before it (R328). -/
def State.drainOne (s : State) : State :=
  let held (l : NearLine) : Bool := s.stackHeld (l.line * 64)
  let free := s.near.filter fun l => l.pins.isEmpty
  let t := (free.takeWhile held).foldl (fun t l => t.hold (stackOf (l.line * 64))) s
  match free.find? fun l => !held l with
  | some l => t.drainLine l
  | none => t

/-- NEAR_BUFFER_FORCED_DRAIN (R280): with every line pinned, the oldest drains; the count saturates. -/
def State.forcedDrain (s : State) : State :=
  if 64 ≤ s.near.length ∧ s.near.all (fun l => !l.pins.isEmpty) = true then
    match s.near with
    | l :: _ =>
      if s.stackHeld (l.line * 64) then s.hold (stackOf (l.line * 64))
      else
        let t := s.drainLine l
        { t with drains := if t.drains = 0xFFFF then t.drains else t.drains + 1 }
    | [] => s
  else s

/-- RETRY_REISSUE (R279): an access of this core that met a pinned line elsewhere is reissued and counted. -/
def State.retry (s : State) : State := { s with retries := s.retries + 1 }

/-! ## Requests from outside (R210, R279, R282) -/

/-- Bytes from p on, cut at the multiples of k: each piece with its unit, its place and its bytes. -/
def pieces (k p : Nat) (b : List Byte) : List (Nat × Nat × List Byte) :=
  (if b.isEmpty then [] else List.range' (p / k) ((p + b.length - 1) / k + 1 - p / k)).map fun g =>
    let lo := max p (g * k)
    (g, lo, (b.drop (lo - p)).take (min (p + b.length) (g * k + k) - lo))

/-- A request performed now, at its place in the order of takes, or none when it must wait or receives retry.  Poison travels
with it both ways (R212, R318). -/
def State.performRemote (s : State) (since : Nat) : RemoteReq → Option State
  | .read p n fe strand cls =>
    if isMain p then
      (s.outside p n).toOption.map fun t =>
        let rs := t.sys.replies ++ [(cellsRead t.mem p n, (linesOf p n).any t.linePoisoned)]
        { t with sys := { t.sys with replies := rs } }
    else
      let gs := granules p n
      if fe = 0 ∨ (s.allFull gs = true ∧ (fe = 2 → s.takeFree (since, strand, cls.toNat) gs = true)) then
        let rs := s.sys.replies ++ [s.chipRead p n]
        let t : State := { s with sys := { s.sys with replies := rs } }
        some (if fe = 2 then t.setFull gs false else t)
      else none
  | .write p b poison fe =>
    if isMain p then
      (s.outside p b.length).toOption.map fun t => (pieces 64 p b).foldl (fun t x => t.mainWrite x.2.1 x.2.2 (decide (x.1 ∈ poison))) t
    else
      let t := (pieces 16 p b).foldl (fun t x => t.chipWrite x.2.1 x.2.2 (decide (x.1 ∈ poison))) s
      some (t.feStore fe (granules p b.length))

/-- A request that is not performed waits, on full-empty bits or for a stack in self-refresh (R210, R328); any other received
retry, and its own core reissues it (R279). -/
def State.remoteWaitsOn (s : State) (w : RemoteWait) : Bool :=
  w.rival.isSome || (s.heldAt w).isSome

/-- REMOTE_REQUEST (R282): performed, left waiting, or answered with retry (R279). -/
def State.remote (s : State) (r : RemoteReq) : State :=
  match s.performRemote s.ticks r with
  | some t => t
  | none =>
    let w : RemoteWait := ⟨r, s.ticks, s.now⟩
    if s.remoteWaitsOn w then
      let ws := s.sys.remoteWaits ++ [w]
      { s with sys := { s.sys with remoteWaits := ws } }
    else s

/-- A list without its element at a place. -/
def dropAt {α : Type} : Nat → List α → List α
  | _, [] => []
  | 0, _ :: t => t
  | k + 1, x :: t => x :: dropAt k t

/-- The requests from outside that can be performed now are: those whose granules have become full, in their order, and those
whose stack has left self-refresh (R210, R328). -/
def State.serveRemote : Nat → Nat → State → State
  | 0, _, s => s
  | fuel + 1, k, s =>
    match s.sys.remoteWaits[k]? with
    | none => s
    | some w =>
      match s.performRemote w.since w.req with
      | none => State.serveRemote fuel (k + 1) s
      | some t =>
        let ws := dropAt k t.sys.remoteWaits
        State.serveRemote fuel k { t with sys := { t.sys with remoteWaits := ws } }

/-- SELF_REFRESH_EXIT (R328): what the stack held from outside is performed; the core's own words go on by themselves. -/
def State.leaveRefresh (s : State) (stack : Nat) : State :=
  let l := setDel s.sys.selfRefresh stack
  let m := setDel s.sys.stalled stack
  let h := s.sys.holding.filter fun x => decide (x.1 ≠ stack)
  let t : State := { s with sys := { s.sys with selfRefresh := l, stalled := m, holding := h } }
  State.serveRemote t.sys.remoteWaits.length 0 t

/-! ## The state summary (R352) -/

/-- Nodes of a queue in a stage. -/
def State.nodesIn (s : State) (q : Nat) (st : NodeStage) : Nat :=
  (s.sys.nodes.filter fun n => decide (n.queue.toNat = q) && decide (n.stage = st)).length

/-- The per-core section of a core of the package (R352). -/
def State.coreReport (s : State) (c : Nat) : CoreReport :=
  let hops := (List.range 384).mergeSort fun a b => decide (hopOrder c a ≤ hopOrder c b)
  if c = s.sys.gcore then ⟨s.strands.toList.map (·.placed), hops, s.retries, s.drains⟩
  else
    let x := s.farCore c
    ⟨x.strands.toList.map fun y => y.bind (·.strand.placed), hops, x.retries, x.drains⟩

/-- The log section of a compute die (R352): that of another die as it was last seen.  (DESIGN CHOICE: assumption 80.) -/
def State.logReport (s : State) (die : Nat) : LogReport :=
  if die = s.die then ⟨s.sys.log.length, s.sys.ceCount, s.sys.log.head?.map fun x => x.extractLsb' 0 64⟩
  else ((s.sys.dieLogs.find? fun x => decide (x.1 = die)).map (·.2)).getD ⟨0, 0, none⟩

/-- What a state summary reports now (R352, Table 5); what the hardware outside the model reports are free values.
(DESIGN CHOICE: assumption 94.) -/
def State.report (s : State) (buffer : Nat) : Summary where
  buffer := buffer
  n := s.nfree
  time := s.now
  device := s.sys.device
  boot := s.sys.boot
  rollback := Config.rollbackCounter
  digest := [s.sys.boot.security, s.sys.boot.ganymede, s.sys.boot.loader].filterMap fun x => x.map FlashImage.measure
  clock := s.sys.clock
  queues := s.sys.queues.map fun q =>
    { queue := q.1, binding := q.2.binding, head := q.2.head, tail := q.2.tail, pending := s.nodesIn q.1 .pending
      held := s.nodesIn q.1 .held, running := s.nodesIn q.1 .running }
  cores := (List.range 384).map s.coreReport
  logs := (List.range 4).map s.logReport
  energy := s.sys.energy
  banks := s.sys.bankErrors
  refresh := s.sys.selfRefresh
  faults := s.sys.deadChannels
  outside := (List.range 1024).map (Config.summaryItem s.nfree)

/-- A request of the firmware: performed, or left waiting until it can be. -/
def State.sendLater (s : State) (r : RemoteReq) : State :=
  match s.performRemote s.ticks r with
  | some t => t
  | none =>
    let ws := s.sys.remoteWaits ++ [⟨r, s.ticks, s.now⟩]
    { s with sys := { s.sys with remoteWaits := ws } }

/-- STATE_SUMMARY (R352): the sections, read together, are written into the buffer that the command names, in the layout that
the firmware gives them: how many bytes they take, at least one, and which, are free values.  (DESIGN CHOICE: assumption 94.) -/
def State.summary (s : State) (buffer : Nat) : State :=
  let xs := s.sys.summaries ++ [s.report buffer]
  let bytes := (List.range (Config.summaryItem s.nfree 1024 + 1)).map fun k => BitVec.ofNat 8 (Config.summaryItem s.nfree (1025 + k))
  ({ s with nfree := s.nfree + 1, sys := { s.sys with summaries := xs } } : State).sendLater (.write buffer bytes [] 0)

end Sys2Proof.Machine
end

