-- ==== Sys2Proof/Machine/Footprint.lean ====
section
/-! DEFINITION. What holds a word of a strand behind earlier words of the same strand (R43-R48, R261-R266): the range
checker's footprints, the registers and tiles of shared-engine words, kinds of pages, acquires and releases. -/

namespace Sys2Proof.Machine

/-! ## Footprints (R44) -/

/-- A run of granules lo … hi − 1 of a covered region: 0 the own core scratchpad, 1 the lane slices, 2 cluster memory. -/
structure Foot where
  region : Nat
  lo     : Nat
  hi     : Nat
  write  : Bool
deriving DecidableEq, Repr, Inhabited

/-- Two footprints hold each other (R45). -/
def Foot.meets (a b : Foot) : Bool :=
  decide (a.region = b.region) && decide (a.lo < b.hi) && decide (b.lo < a.hi) && (a.write || b.write)

/-- The covered region and offset of an address of a space; `core` is the strand's core in its die. -/
def coveredAt (core : Nat) (space : BitVec 2) (a : Nat) : Option (Nat × Nat) :=
  match space.toNat with
  | 0 => some (0, a)
  | 1 => some (2, a)
  | 3 => if a / 2 ^ 22 = core then some (0, a % 2 ^ 22) else none
  | _ => none

/-- The footprint of n bytes.  (DEDUCED: assumption 51.) -/
def footOf (core : Nat) (space : BitVec 2) (a n : Nat) (write : Bool) : List Foot :=
  if n = 0 then []
  else match coveredAt core space a with
    | some (r, off) => [⟨r, off / 16, (off + n - 1) / 16 + 1, write⟩]
    | none => []

/-- The whole region that a space names. -/
def footWhole (space : BitVec 2) (write : Bool) : List Foot :=
  match space.toNat with
  | 0 => [⟨0, 0, 0x30000, write⟩]
  | 1 => [⟨2, 0, 0x80000, write⟩]
  | 3 => [⟨0, 0, 0x30000, write⟩]
  | _ => []

/-- Both regions whole: the streams of a pattern-form copy, and the elements that descriptors name.  (DEDUCED: assumption 51.) -/
def footAll (write : Bool) : List Foot := [⟨0, 0, 0x30000, write⟩, ⟨2, 0, 0x80000, write⟩]

/-- One footprint per region: the smallest run that contains the parts. -/
def mergeFoot (f : Foot) : List Foot → List Foot
  | [] => [f]
  | g :: t =>
    if g.region = f.region then { g with lo := min g.lo f.lo, hi := max g.hi f.hi, write := g.write || f.write } :: t
    else g :: mergeFoot f t

/-- The parts of one access merged. -/
def mergeFeet (l : List Foot) : List Foot := l.foldl (fun acc f => mergeFoot f acc) []

/-- Rows of `len` bytes at a step. -/
def footRows (core : Nat) (space : BitVec 2) (a rows step len : Nat) (write : Bool) : List Foot :=
  if rows = 0 then [] else footOf core space a ((rows - 1) * step + len) write

/-- The footprints of a queued word (R44); `cfg` is the quantiser configuration under which it will run. -/
def QEntry.feet (core : Nat) (cfg : QCfg) (e : QEntry) : List Foot :=
  let f := footOf core
  match e.instr with
  | .vld _ _ _ sp _ fmt _ => mergeFeet (f sp (e.capA 0) 128 false ++
      (if isBlockTag fmt then f sp (e.capA 1) (if fmt = 10 then 8 else 16) false else []))
  | .vst _ _ _ sp _ fmt _ => mergeFeet (f sp (e.capA 0) 128 true ++
      (if isBlockTag fmt then f sp (e.capA 1) (if fmt = 10 then 8 else 16) true else []))
  | .vldl .. => [⟨1, e.capA 0 % 2 ^ 17 / 16, e.capA 0 % 2 ^ 17 / 16 + 8, false⟩]
  | .vstl .. => [⟨1, e.capA 0 % 2 ^ 17 / 16, e.capA 0 % 2 ^ 17 / 16 + 8, true⟩]
  | .vldx _ _ _ sp _ _ _ _ => footWhole sp false
  | .vstx _ _ _ sp _ _ _ _ => footWhole sp true
  | .vamo _ _ _ sp _ _ _ _ _ => footWhole sp true
  | .mldw _ _ fmt _ sp _ vq _ n1 whole =>
    let n := if whole = 1 then 1024 else n1.toNat + 1
    let ncol := if fmt = 11 then 128 else 64
    mergeFeet (f sp (e.capA 0) ((if vq = 1 then 16 else 64) * n) false ++
      (if isBlockTag fmt then f sp (e.capA 1) (n / 16 * ncol) false else []))
  | .mldws _ _ fmt _ sp _ _ k0 n1 whole =>
    let n := if whole = 1 then 1024 else n1.toNat + 1
    let k := if whole = 1 then 0 else k0.toNat
    let ncol := if fmt = 11 then 128 else 64
    mergeFeet (f sp (e.capA 0) (64 * n) false ++
      (if isBlockTag fmt then f sp (e.capA 1) (n / 16 * ncol) false else []) ++
      f sp (e.capA 2) (4 * (((k + n + 15) / 16 - k / 16) * ncol)) false)
  | .mmul _ _ _ rows1 afmt _ _ _ _ sp _ stride =>
    let len := if afmt = 11 then 1024 else 2048
    mergeFeet (footRows core sp (e.capA 0) (rows1.toNat + 1) (if stride = 0 then len else 16 * stride.toNat) len false ++
      (if isBlockTag afmt then f sp (e.capA 1) (128 * (rows1.toNat + 1)) false else []))
  | .mrd _ _ _ count1 _ sp _ stride =>
    footRows core sp (e.capA 0) (count1.toNat + 1) (if stride = 0 then 256 else 16 * stride.toNat) 256 true
  | .qstv _ _ sp _ _ _ _ =>
    mergeFeet (f sp (e.capA 0) (qBytes cfg.target.toNat) true ++
      (if isBlockTag cfg.target then f sp (e.capA 2) 2 true else []))
  | .qstt _ _ _ count1 _ _ _ sp _ stride =>
    mergeFeet (footRows core sp (e.capA 1) (count1.toNat + 1) (16 * stride.toNat) (2 * qBytes cfg.target.toNat) true ++
      (if isBlockTag cfg.target then f sp (e.capA 2) (4 * (count1.toNat + 1)) true else []))
  | .qrld _ kind _ _ sp _ _ _ => f sp (e.capA 0) (if kind = 0 then 16 else 128) false
  | .qrst _ kind _ _ sp _ _ _ => f sp (e.capA 0) (if kind = 0 then 16 else 128) true
  | .lnld _ _ _ sp n1 _ => f sp (e.capA 1) (16 * (n1.toNat + 1)) false
  | .lnst _ _ _ sp n1 => f sp (e.capA 1) (16 * (n1.toNat + 1)) true
  | .lnstTable _ _ sp _ => f sp (e.capA 0) 520 true
  | .lnrfl _ _ _ sp n1 => f sp (e.capA 0) (4 * (n1.toNat + 1)) true
  | .srec _ _ _ sp => f sp (e.capA 0) 64 false
  | .cpyLinear _ _ dsp _ ssp _ _ _ =>
    let n := (e.capS 2).toNat % 2 ^ 24
    f ssp (e.capA 1) n false ++ f dsp (e.capA 0) n true
  | .cpymLinear _ _ dsp _ ssp _ _ _ _ =>
    let n := (e.capS 2).toNat % 2 ^ 24
    f ssp (e.capA 1) n false ++ f dsp (e.capA 0) n true
  | .cpyPattern .. => footAll true
  | .cpymPattern .. => footAll true
  | .cwin _ _ _ sp _ _ _ =>
    let (_, base, len) := e.capRing 0
    footAll false ++ f sp base len true
  | .cadv .. => footAll true
  | .cgath _ _ sp _ isp _ esz _ _ =>
    let n := (e.capS 2).toNat % 2 ^ 20
    f isp (e.capA 1) (8 * n) false ++ footAll false ++ f sp (e.capA 0) (2 ^ esz.toNat * n) true
  | .cscat _ _ sp _ isp _ esz _ _ =>
    let n := (e.capS 2).toNat % 2 ^ 20
    mergeFeet (f isp (e.capA 1) (8 * n) false ++ f sp (e.capA 0) (2 ^ esz.toNat * n) false) ++ footAll true
  | .cred _ _ dsp _ ssp _ _ _ _ =>
    let n := (e.capS 2).toNat % 2 ^ 24
    f ssp (e.capA 1) n false ++ f dsp (e.capA 0) n true
  | .cvqxBook _ _ ssp _ => f ssp (e.capA 0) 1024 false
  | .cvqxExpand _ _ dsp _ ssp _ _ _ =>
    let n := (e.capS 2).toNat % 2 ^ 20
    f ssp (e.capA 1) n false ++ f dsp (e.capA 0) (4 * n) true
  | .sisect _ _ _ _ ka kb out _ spa spb _ osp =>
    let pa := (e.capS 0).toNat
    let pb := (e.capS 1).toNat
    (if ka = 0 then f spa pa (min (e.capS 2).toNat (2 ^ 32) - pa) false else []) ++
    (if kb = 0 then f spb pb (min (e.capS 3).toNat (2 ^ 32) - pb) false else []) ++
    (if out = 1 then footWhole osp true else [])
  | .ldaq _ _ size _ sp _ _ => f sp (e.capA 0) (syncBytes size) false
  | .strl _ _ size _ sp _ _ => f sp (e.capA 1) (syncBytes size) true
  | .amo _ _ g size loc _ _ _ _ => if g = 0 then f (loc.extractLsb' 4 2) (e.capA 0) (syncBytes size) true else []
  | .cas _ _ g size loc _ _ _ _ => if g = 0 then f (loc.extractLsb' 4 2) (e.capA 0) (syncBytes size) true else []
  | .task _ _ _ sp _ => f sp (e.capA 0) 64 false
  | _ => []

/-- The quantiser configuration after the QCFG words of a list (R44). -/
def cfgAfter (c : QCfg) (l : List QEntry) : QCfg :=
  l.foldl (fun c e => match e.instr with
    | .qcfg _ t a m sat dd => ⟨t, a, m, sat, dd⟩
    | _ => c) c

/-- The footprints of a list of words of the strand, in program order.  (DEDUCED: assumption 51.) -/
def feetOf (core : Nat) : QCfg → List QEntry → List Foot
  | _, [] => []
  | c, e :: t => e.feet core c ++ feetOf core (cfgAfter c [e]) t

/-- The range checker holds an access behind the earlier words (R45). -/
def rangeHeld (core : Nat) (cfg : QCfg) (before : List QEntry) (feet : List Foot) : Bool :=
  (feetOf core cfg before).any fun a => feet.any a.meets

/-! ## Vector registers, masks and tiles of shared-engine words (R48) -/

/-- Vector registers that a shared-engine word reads and writes.  Where the plane's format decides, all that it may touch. -/
def sharedRegs : Instr → List (BitVec 6) × List (BitVec 6)
  | .qstv _ _ _ v _ _ _ => ([v], [])
  | .mrdv _ _ _ v => ([], [v, v + 1])
  | .mwrk _ _ v _ => ([v, v + 1, v + 2, v + 3], [])
  | .mrdk _ _ v _ => ([], [v, v + 1, v + 2, v + 3])
  | .lnfit _ vp _ _ _ => ([vp], [])
  | .lnapl _ vd _ _ _ _ => ([], [vd])
  | .lncor _ vd _ _ _ _ => ([], [vd])
  | .lncnt _ vd _ _ => ([], [vd])
  | .lnfold _ vd va _ _ acc => ([va, va + 1] ++ (if acc = 1 then [vd + 2, vd + 3] else []), [vd, vd + 1, vd + 2, vd + 3])
  | _ => ([], [])

/-- The masks that a shared-engine word reads or writes; M0 never changes (R122). -/
def sharedMasks : Instr → List (BitVec 3)
  | .lnfit _ _ mk _ _ => [mk].filter (· ≠ 0)
  | .lnchk _ md _ _ _ _ => [md, md + 1].filter (· ≠ 0)
  | _ => []

/-- A shared-engine word covered by R48: it names a vector register or a mask. -/
def isCovered (i : Instr) : Bool :=
  !(sharedRegs i).1.isEmpty || !(sharedRegs i).2.isEmpty ||
  (match i with | .lnfit .. | .lnchk .. => true | _ => false)

/-- A vector word that does not read the active mask (R122). -/
def unmasked : Instr → Bool
  | .vmlog .. | .vact .. | .vsel .. | .vext .. | .vins .. | .vtag .. => true
  | _ => false

/-- The masks that a vector word reads or writes, `act` being the number of the active one as it issues. -/
def vectorMasks (act : BitVec 3) (i : Instr) : List (BitVec 3) :=
  (match i with
    | .vfcmp _ md _ _ _ => [md]
    | .vcmp _ md _ _ _ => [md]
    | .vmlog _ md ma mb _ => [md, ma, mb]
    | .vany _ _ ma => [ma]
    | .vall _ _ ma => [ma]
    | .vmpop _ _ ma => [ma]
    | .vsel _ _ _ _ mk => [mk]
    | .vmovMaskToReg _ _ va => [va.setWidth 3]
    | .vmovRegToMask _ vd _ => [vd.setWidth 3]
    | _ => []) ++ (if unmasked i then [] else [act])

/-- The number of the active mask when the words `before` have issued and landed: of the last VACT among them, else of one in
flight. -/
def Strand.actAfter (st : Strand) (before : List QEntry) : BitVec 3 :=
  let flying := st.flight.filterMap fun f => match f.w with | .act m => some m | _ => none
  let queued := before.filterMap fun e => match e.instr with | .vact _ ma => some ma | _ => none
  (flying ++ queued).getLastD st.act

/-- The vector registers that a vector word names, and those that it writes: the fields of its head word and of its
continuation (R22); of a VCVT, all that its groups may touch (R145). -/
def vectorRegs (i : Instr) : List (BitVec 6) × List (BitVec 6) :=
  let w := (encode i).headD 0
  let c := ((encode i).drop 1).headD 0
  let vd := w.extractLsb' 15 6
  let va := w.extractLsb' 9 6
  let vb := w.extractLsb' 3 6
  match i with
  | .vfcmp _ _ va vb _ => ([va, vb], [])
  | .vcmp _ _ va vb _ => ([va, vb], [])
  | .vmlog .. => ([], [])
  | .vact .. => ([], [])
  | .vany .. => ([], [])
  | .vall .. => ([], [])
  | .vmpop .. => ([], [])
  | .vmovi _ vd _ => ([vd], [vd])
  | .viota _ vd _ => ([vd], [vd])
  | .vbcs _ vd _ _ => ([vd], [vd])
  | .vld .. => ([vd], [vd])
  | .vldl .. => ([vd], [vd])
  | .vst .. => ([vd], [])
  | .vstl .. => ([vd], [])
  | .vldx .. => ([vd, c.extractLsb' 23 6], [vd])
  | .vamo .. => ([vd, c.extractLsb' 23 6], [vd])
  | .vstx .. => ([vd, c.extractLsb' 23 6], [])
  | .vfsqrt .. => ([vd, va], [vd])
  | .vfun .. => ([vd, va], [vd])
  | .vfops .. => ([vd, va], [vd])
  | .viops .. => ([vd, va], [vd])
  | .vfred .. => ([vd, va], [vd])
  | .vred .. => ([vd, va], [vd])
  | .vfscan .. => ([vd, va], [vd])
  | .vbcl .. => ([vd, va], [vd])
  | .vrot .. => ([vd, va], [vd])
  | .vext .. => ([vd, va], [vd])
  | .vins .. => ([vd, va], [vd])
  | .vmov .. => ([vd, va], [vd])
  | .vmovMaskToReg .. => ([vd, va], [vd])
  | .vmovRegToMask .. => ([vd, va], [vd])
  | .vcvt .. =>
    let g (r : BitVec 6) : List (BitVec 6) := (List.range 8).map fun i => r + BitVec.ofNat 6 i
    (g vd ++ g va, g vd)
  | .vtag .. => ([vd, va], [vd])
  | _ => ([vd, va, vb], [vd])

/-- Two lists share a register. -/
def meet {n : Nat} (a b : List (BitVec n)) : Bool := a.any fun x => decide (x ∈ b)

/-- R48 holds word `i` behind the earlier word `e`: a vector word behind a shared-engine word that accesses a register or a mask
that it names, and a shared-engine word behind one of another engine when one of the two writes what the other names; `act` is
the number of the active mask at `i`.  (DEDUCED: assumption 93.) -/
def regHeld (act : BitVec 3) (e i : Instr) : Bool :=
  let (r, w) := sharedRegs e
  match e.eng, i.eng with
  | some .vector, _ => false
  | a, some .vector =>
    a.isSome && isCovered e && (meet (r ++ w) (vectorRegs i).1 || meet (sharedMasks e) (vectorMasks act i))
  | a, b =>
    let (r', w') := sharedRegs i
    decide (a ≠ b) && (meet w (r' ++ w') || meet r w')

/-- A word that changes which planes an MMUL meets. -/
def changesPlanes : Instr → Bool
  | .mcfg .. | .mswap .. => true
  | _ => false

/-- The tiles of an MMUL (R169), as many as the planes that it meets call for; all from `t` on, where an earlier word of the strand
still decides which planes these are. -/
def MatrixEngine.tilesAt (m : MatrixEngine) (sure : Bool) (t : BitVec 4) (g : BitVec 3) (wide : BitVec 1) : List Nat :=
  let gs := m.gangsOf g wide
  let b4 := ((gs.flatMap (gangMacros m.gang)).head?.map fun k => decide ((m.mac k).live.fmt = .b4)).getD false
  (List.range (if sure then (if b4 then 2 else 1) * gs.length else 16)).map (t.toNat + ·)

/-- The tiles that a word reads or writes, and whether it writes them.  (DEDUCED: assumption 93.) -/
def MatrixEngine.tilesOf (m : MatrixEngine) (sure : Bool) : Instr → List Nat × Bool
  | .mmul _ t g _ _ _ _ wide _ _ _ _ => (m.tilesAt sure t g wide, true)
  | .mrd _ t _ _ _ _ _ _ => ([t.toNat], false)
  | .mrdv _ t _ _ => ([t.toNat], false)
  | .mclr _ t _ _ => ([t.toNat], true)
  | .mpois _ t => ([t.toNat], true)
  | .qstt _ t _ _ _ _ _ _ _ _ => ([t.toNat], false)
  | .lnchk _ _ t _ _ _ => ([t.toNat], false)
  | .lnapl _ _ t _ _ _ => ([t.toNat], false)
  | .lncor _ _ t _ _ _ => ([t.toNat], false)
  | _ => ([], false)

/-- R48 holds a word with its tiles behind an earlier word, among `rest`, that shares one of them with it, where one of the two
writes it; `pre` are the words before those. -/
def MatrixEngine.tileHeld (m : MatrixEngine) (mine : List Nat × Bool) : (pre rest : List QEntry) → Bool
  | _, [] => false
  | pre, b :: t =>
    let x := m.tilesOf (!pre.any fun c => changesPlanes c.instr) b.instr
    ((mine.2 || x.2) && mine.1.any fun k => decide (k ∈ x.1)) || m.tileHeld mine (pre ++ [b]) t

/-! ## Kinds of accesses (R261, R262) -/

/-- A word accesses memory: engine by engine, the words that name an address, a handle or a stream. -/
def accesses (i : Instr) : Bool :=
  match i.eng with
  | some .vector =>
    (match i with | .vld .. | .vst .. | .vldl .. | .vstl .. | .vldx .. | .vstx .. | .vamo .. => true | _ => false)
  | some .matrix => (match i with | .mldw .. | .mldws .. | .mmul .. | .mrd .. => true | _ => false)
  | some .quantiser => (match i with | .qstv .. | .qstt .. | .qrld .. | .qrst .. => true | _ => false)
  | some .line => (match i with | .lnld .. | .lnst .. | .lnstTable .. | .lnrfl .. => true | _ => false)
  | some .copy => (match i with | .cseq .. => false | _ => true)
  | _ =>
    (match i with
      | .ldsW .. | .ldsD .. | .stsW .. | .stsD .. | .ldg .. | .stg .. => true
      | .ldaq .. | .ldaqHandle .. | .strl .. | .strlHandle .. | .amo .. | .cas .. => true
      | .task .. | .tokq .. | .mchkPop .. => true
      | .ctxsvStrand .. | .ctxsvCore .. | .ctxldStrand .. | .ctxldCore .. => true
      | _ => false)

/-- A slot of the strand holds a main-memory stream. -/
def Strand.slotMain (st : Strand) (v : BitVec 4) : Bool :=
  let x := st.slots[v.toNat % 4]!
  x.valid && (patternOf x.record).main

/-- The handles through which a queued word accesses main memory, as far as its operands and its slots tell (R262). -/
def QEntry.usedHandles (st : Strand) (e : QEntry) : List Handle :=
  match e.instr with
  | .cpyPattern _ d s _ _ _ => (if st.slotMain s then [e.capH 0] else []) ++ (if st.slotMain d then [e.capH 1] else [])
  | .cpymPattern _ d s _ _ _ _ => (if st.slotMain s then [e.capH 0] else []) ++ (if st.slotMain d then [e.capH 1] else [])
  | .sisect _ _ _ _ ka kb out _ _ _ _ _ =>
    (if ka = 1 then [e.capH 4] else []) ++ (if kb = 1 then [e.capH (if out = 1 then 6 else 5)] else [])
  | .cadv _ slot _ _ nh => if nh = 1 then e.handles else ((st.slots[slot.toNat % 4]!).window.map (·.handle)).toList
  | .hvld .. => []
  | _ => e.handles

/-- A word takes the unordered kind as a whole: the weakest of its kinds (R262). -/
def QEntry.unordered (st : Strand) (e : QEntry) : Bool :=
  (e.usedHandles st).any fun h => decide (h.state = .valid) && decide (h.kind = 2)

/-- A handle of a strong page. -/
def Handle.strong (h : Handle) : Bool := decide (h.state = .valid) && decide (h.kind = 0)

/-- A word makes strong element accesses, which wait for every earlier strong access (R261, R262). -/
def QEntry.strongly (st : Strand) (e : QEntry) : Bool := (e.usedHandles st).any Handle.strong

/-- A word counts as a strong access until it has completed: it captured a valid strong handle in any of its handle operands,
or it accesses a strong page through the handle of its window (R262). -/
def QEntry.strong (st : Strand) (e : QEntry) : Bool := e.handles.any Handle.strong || e.strongly st

/-- A word is an acquire: later accesses are held until it has completed (R266, R267, R115).  (DEDUCED: assumption 53.) -/
def QEntry.acquire (st : Strand) (e : QEntry) : Bool :=
  match e.instr with
  | .ldaq .. => true
  | .ldaqHandle .. => true
  | .qrld _ _ _ _ _ _ ord _ => decide (ord = 1)
  | .amo _ _ _ _ _ ord _ _ _ => (decide (ord = 1) || decide (ord = 3)) && !e.unordered st
  | .cas _ _ _ _ _ ord _ _ _ => (decide (ord = 1) || decide (ord = 3)) && !e.unordered st
  | _ => false

/-- A word is a release: it waits for every earlier access but those to unordered pages (R266, R267).
(DEDUCED: assumption 53.) -/
def QEntry.releases (st : Strand) (e : QEntry) : Bool :=
  match e.instr with
  | .strl .. => true
  | .strlHandle .. => true
  | .qrst _ _ _ _ _ _ ord _ => decide (ord = 1)
  | .amo _ _ _ _ _ ord _ _ _ => (decide (ord = 2) || decide (ord = 3)) && !e.unordered st
  | .cas _ _ _ _ _ ord _ _ _ => (decide (ord = 2) || decide (ord = 3)) && !e.unordered st
  | .sev .. => true
  | .task .. => true
  | .tokq .. => true
  | _ => false

/-- A word stalls the splitter at the next instruction until it completes. -/
def blocksSplitter : Instr → Bool
  | .xfence _ _ cb _ => decide (cb = 0) || decide (cb = 7)
  | .fence .. | .bar .. | .waitseq .. | .wfe .. | .slpat .. | .trig .. | .exit .. | .trap .. | .drain .. | .probe .. => true
  | _ => false

end Sys2Proof.Machine
end

