-- ==== Sys2Proof/Machine/Fetch.lean ====
section
/-! DEFINITION. Fetch (R37-R39, R298): code addresses are byte offsets in the text, the instruction cache holds lines by
physical address and is not coherent, and a fetch outside the text is an error. -/

namespace Sys2Proof.Machine

/-- The physical address of a code address, when it lies inside the text (R37, R298). -/
def Placement.phys (pl : Placement) (a : Nat) : Option Nat :=
  if a + 4 ≤ pl.textLen then
    let va := pl.codeVa + 64 + a
    match pl.pages[va / 65536 - pl.codeVa / 65536]? with
    | some p => some (p.1 + va % 65536)
    | none => none
  else none

/-- The value of a line as the core reads it. -/
def State.lineValue (s : State) (l : Nat) : BitVec 512 := BitVec.ofNat 512 (leNat (s.peeks (l * 64) 64))

/-- The word at a place of main memory, as the instruction cache delivers it: from a line it holds, which may be older
than memory, else from memory (R38). -/
def State.codeWord (s : State) (p : Nat) : Word :=
  let x := match s.icache.find? fun l => decide (l.1 = p / 64) with
    | some l => l.2
    | none => s.lineValue (p / 64)
  x.extractLsb' (8 * (p % 64)) 32

/-- The word at a code address of the current strand; none outside the text. -/
def State.textWord (s : State) (a : Nat) : Option Word :=
  match s.me.placed with
  | some pl => (pl.phys a).map s.codeWord
  | none => none

/-- The words of an instruction that may stand at a code address: up to three, up to `last` bytes in, and as far as the text
goes.  (DEDUCED: assumption 67.) -/
def State.textWords (s : State) (a last : Nat) : Nat → List Word
  | 0 => []
  | n + 1 =>
    if a ≤ last then
      match s.textWord a with
      | some w => w :: s.textWords (a + 4) last n
      | none => []
    else []

/-- The length in words of the instruction at a code address, as its head fixes it (R16). -/
def State.lengthAt (s : State) (a : Nat) : Nat :=
  match s.textWords a (2 ^ 32) 2 with
  | w :: rest => headLength w rest
  | [] => 1

/-- The address of the first word after the two delay instructions of the transfer at `pc` (R64). -/
def State.afterDelays (s : State) (pc : BitVec 32) : BitVec 32 :=
  let a := pc.toNat + 4
  let b := a + 4 * s.lengthAt a
  BitVec.ofNat 32 (b + 4 * s.lengthAt b)

/-- Lines evicted from the instruction cache before a fetch: which a program cannot tell (R38).
(DESIGN CHOICE: assumption 7.) -/
def State.evictLines (s : State) : State :=
  let ic := s.icache.filter fun l => !decide (l.1 ∈ s.env.evict)
  { s with icache := ic, env := { s.env with evict := [] } }

/-- The line of a place enters the instruction cache of 1,024 lines; the oldest leaves a full one.
(DESIGN CHOICE: assumption 7.) -/
def State.cacheLine (s : State) (p : Nat) : State :=
  if s.icache.any fun l => decide (l.1 = p / 64) then s
  else
    let x := s.lineValue (p / 64)
    { s with icache := s.icache.drop (s.icache.length - 1023) ++ [(p / 64, x)] }

/-- The lines of the words at a code address enter the cache, as far as the text goes. -/
def State.cacheText (s : State) (a : Nat) : Nat → State
  | 0 => s
  | n + 1 =>
    match s.me.placed with
    | some pl =>
      match pl.phys a with
      | some p => (s.cacheLine p).cacheText (a + 4) n
      | none => s
    | none => s

end Sys2Proof.Machine
end

