-- ==== Sys2Proof/Machine/Scalar.lean ====
section
/-! DEFINITION. What engine-0 words do at split (R57-R84): integer and logical operations, predicates, branches, loops,
address registers, scalar memory accesses, identity, time and the control registers. -/

namespace Sys2Proof.Machine

/-! ## Integer and logical operations (R57-R59, Table 1) -/

/-- A three-register operation (R57). -/
def runArith (d a b : BitVec 5) (f : BitVec 64 → BitVec 64 → BitVec 64) : M Unit :=
  updMe fun st => st.setS d (f (st.getS a) (st.getS b))

/-- An immediate operation (R58). -/
def runArithImm (d a : BitVec 5) (imm : BitVec 11) (f : BitVec 64 → BitVec 64 → BitVec 64) : M Unit :=
  updMe fun st => st.setS d (f (st.getS a) (imm.signExtend 64))

/-- The shift amount of R57: bits [5:0]. -/
def shiftAmount (b : BitVec 64) : Nat := (b.extractLsb' 0 6).toNat

def opAdd (a b : BitVec 64) : BitVec 64 := a + b
def opSub (a b : BitVec 64) : BitVec 64 := a - b
def opAnd (a b : BitVec 64) : BitVec 64 := a &&& b
def opOr (a b : BitVec 64) : BitVec 64 := a ||| b
def opXor (a b : BitVec 64) : BitVec 64 := a ^^^ b
def opShl (a b : BitVec 64) : BitVec 64 := a <<< shiftAmount b
def opShr (a b : BitVec 64) : BitVec 64 := a >>> shiftAmount b
def opSra (a b : BitVec 64) : BitVec 64 := a.sshiftRight (shiftAmount b)
def opMul (a b : BitVec 64) : BitVec 64 := a * b
def opMulh (a b : BitVec 64) : BitVec 64 := BitVec.ofInt 64 (a.toInt * b.toInt / 2 ^ 64)
def opMulhu (a b : BitVec 64) : BitVec 64 := BitVec.ofNat 64 (a.toNat * b.toNat / 2 ^ 64)
def opMin (a b : BitVec 64) : BitVec 64 := if BitVec.slt b a then b else a
def opMax (a b : BitVec 64) : BitVec 64 := if BitVec.slt a b then b else a
def opMinu (a b : BitVec 64) : BitVec 64 := if BitVec.ult b a then b else a
def opMaxu (a b : BitVec 64) : BitVec 64 := if BitVec.ult a b then b else a

/-- The number of 1 bits (R57). -/
def popCount (a : BitVec 64) : Nat := ((List.range 64).filter fun i => a.getLsbD i).length

/-- The number of leading 0 bits; 64 for 0 (R57). -/
def leadingZeros (a : BitVec 64) : Nat := 64 - ((List.range 64).foldl (fun n i => if a.getLsbD i then i + 1 else n) 0)

/-- POPC and CLZ (R57). -/
def runUnary (d a : BitVec 5) (f : BitVec 64 → Nat) : M Unit :=
  updMe fun st => st.setS d (BitVec.ofNat 64 (f (st.getS a)))

/-- MOVI (R59). -/
def runMovi (d : BitVec 5) (imm : BitVec 16) : M Unit := updMe fun st => st.setS d (imm.signExtend 64)

/-- A doubleword with bits [16k + 15 : 16k] replaced (R59). -/
def insertHalf (x : BitVec 64) (k : Nat) (imm : BitVec 16) : BitVec 64 :=
  (x &&& ~~~((0xFFFF : BitVec 64) <<< (16 * k))) ||| (imm.setWidth 64 <<< (16 * k))

/-- INSH.k (R59). -/
def runInsh (k : Nat) (d : BitVec 5) (imm : BitVec 16) : M Unit :=
  updMe fun st => st.setS d (insertHalf (st.getS d) k imm)

/-! ## Predicates (R60-R62) -/

/-- CMP (R60). -/
def runCmp (pd : BitVec 3) (a b : BitVec 5) (cond : BitVec 4) : M Unit :=
  updMe fun st => st.setP pd (intCond cond.toNat (st.getS a) (st.getS b))

/-- CMPI (R60). -/
def runCmpi (pd : BitVec 3) (a : BitVec 5) (cond : BitVec 3) (imm : BitVec 10) : M Unit :=
  updMe fun st => st.setP pd (intCond cond.toNat (st.getS a) (imm.signExtend 64))

/-- PLOG (R61). -/
def runPlog (pd pa pb fn : BitVec 3) : M Unit :=
  updMe fun st => st.setP pd (boolFn fn.toNat (st.getP pa) (st.getP pb))

/-- SEL (R62). -/
def runSel (d a b : BitVec 5) (p : BitVec 3) : M Unit :=
  updMe fun st => st.setS d (if st.getP p then st.getS a else st.getS b)

/-! ## Branches (R63-R65) -/

/-- PBR (R63). -/
def runPbr (bt : BitVec 2) (imm : BitVec 19) : M Unit :=
  updMe fun st => st.setB bt (st.pc + 4 * imm.signExtend 32)

/-- PBRR (R63). -/
def runPbrr (bt : BitVec 2) (a : BitVec 5) : M Unit := do
  let st ← me
  let v : BitVec 32 := (st.getS a).setWidth 32
  aligned v.toNat 4
  updMe fun st => st.setB bt v

/-- A transfer is taken (R64). -/
def Strand.takes (st : Strand) (p : BitVec 3) (neg : BitVec 1) : Bool := st.getP p != decide (neg = 1)

/-- The transfer that a BR, CALL or RET at the PC begins: two delay instructions follow (R64). -/
def beginTransfer (target : BitVec 32) (taken : Bool) : M Unit := upd fun s =>
  let x : Transfer := ⟨target, s.afterDelays s.me.pc, 2, taken⟩
  s.updMe fun st => { st with xfer := some x }

/-- BR (R64). -/
def runBr (bt : BitVec 2) (p : BitVec 3) (neg : BitVec 1) : M Unit := do
  let st ← me
  beginTransfer (st.getB bt) (st.takes p neg)

/-- TRAPDATA of traps 0x04 and 0x05 (R244). -/
def stackData (i : Instr) (st : Strand) : BitVec 64 :=
  BitVec.ofNat 64 (((encode i).headD 0).toNat * 2 ^ 32 + st.rstack.length)

/-- CALL (R64, R65). -/
def runCall (i : Instr) (bt : BitVec 2) (p : BitVec 3) (neg : BitVec 1) : M Unit := do
  let st ← me
  if st.takes p neg then
    if 16 ≤ st.rstack.length then trapWith 0x04 (stackData i st)
    else upd fun s =>
      let ret := s.afterDelays s.me.pc
      s.updMe fun st => { st with rstack := ret :: st.rstack }
  else pure ()
  beginTransfer (st.getB bt) (st.takes p neg)

/-- RET (R64, R65). -/
def runRet (i : Instr) (p : BitVec 3) (neg : BitVec 1) : M Unit := do
  let st ← me
  if st.takes p neg then
    match st.rstack with
    | [] => trapWith 0x05 (stackData i st)
    | r :: t => do
      updMe fun st => { st with rstack := t }
      beginTransfer r true
  else beginTransfer 0 false

/-! ## Loops (R67-R71) -/

/-- A level changed. -/
def Strand.updLoop (st : Strand) (level : BitVec 3) (f : Loop → Loop) : Strand :=
  if h : level.toNat < 6 then { st with loops := st.loops.set level.toNat (f (st.loops[level.toNat]'h)) h } else st

/-- LOOP (R67): with a count of 0 the splitter goes on after the body; a level of the other vector mode is a drain point
(R54). -/
def runLoop (level : BitVec 3) (sc : BitVec 5) (len : BitVec 9) (mode : BitVec 1) : M Unit := updMe fun st =>
  let n : BitVec 32 := (st.getS sc).setWidth 32
  let fin := st.pc + 4 * len.setWidth 32
  if n = 0 then { st.updLoop level fun l => { l with stride := Vector.replicate 8 0 } with pc := fin }
  else
    let t := st.updLoop level fun l =>
      { active := true, start := st.pc + 4, fin := fin, count := n, iter := 1, brk := false
        interlocked := decide (mode = 1), stride := l.stride }
    t.modeDrain st

/-- LSTR (R70). -/
def runLstr (level a : BitVec 3) (sb : BitVec 5) : M Unit := updMe fun st =>
  let d : BitVec 32 := (st.getS sb).setWidth 32
  st.updLoop level fun l => { l with stride := l.stride.set a.toNat d a.isLt }

/-- LBRK (R71): the innermost active level is marked. -/
def runLbrk (p : BitVec 3) (neg : BitVec 1) : M Unit := updMe fun st =>
  match st.innermostLevel with
  | some i => if st.takes p neg then st.updLoop (BitVec.ofNat 3 i.val) fun l => { l with brk := true } else st
  | none => st

/-! ## Address registers (R75) -/

/-- AMOV (R75). -/
def runAmov (a : BitVec 3) (sa sb : BitVec 5) : M Unit := updMe fun st =>
  let x : BitVec 32 := (st.getS sa).setWidth 32
  st.setA a ⟨x, x, (st.getS sb).setWidth 23 &&& ~~~3⟩

/-- AINC (R75). -/
def runAinc (a : BitVec 3) (imm : BitVec 18) : M Unit := updMe fun st => st.advA a imm.toInt

/-! ## Scalar memory accesses (R76-R79) -/

/-- The address of an LDS or STS of n bytes (R76). -/
def Strand.ldsAddr (st : Strand) (a : BitVec 3) (imm : BitVec 9) (n : Nat) : Nat :=
  ((st.getA a).addr + BitVec.ofNat 32 n * imm.signExtend 32).toNat

/-- LDS (R76, R77, R320): the alignment test comes before the test of the address.  (DEDUCED: assumption 25.) -/
def runLds (n : Nat) (r : BitVec 5) (a : BitVec 3) (space fe : BitVec 2) (imm : BitVec 9) : M Unit := do
  let st ← me
  let ea := st.ldsAddr a imm n
  aligned ea n
  let b ← spReadClean 0 space ea n fe
  updMe fun st => st.setS r (BitVec.ofNat 64 (leNat b))

/-- STS (R76, R77).  (DEDUCED: assumption 25.) -/
def runSts (n : Nat) (r : BitVec 5) (a : BitVec 3) (space fe : BitVec 2) (imm : BitVec 9) : M Unit := do
  let st ← me
  let ea := st.ldsAddr a imm n
  aligned ea n
  spWrite space ea (leBytes n (st.getS r).toNat) false fe

/-- Bytes of an LDG or STG (R21). -/
def ldgBytes (size : BitVec 2) : Nat := if size = 1 then 8 else 4

/-- H(h) as an LDG or STG reads it: captured, when the word has passed its tests and stands at the splitter (R241). -/
def Strand.handleAt (st : Strand) (h : BitVec 4) : Handle := (st.atSplit.bind (·.handle)).getD (st.getH h)

/-- LDG (R79, R320).  (DEDUCED: assumption 25.) -/
def runLdg (r : BitVec 5) (h : BitVec 4) (sb : BitVec 5) (size : BitVec 2) : M Unit := do
  let st ← me
  let off := (st.getS sb).toNat
  aligned off (ldgBytes size)
  let b ← hReadClean (st.handleAt h) off (ldgBytes size)
  updMe fun st => st.setS r (BitVec.ofNat 64 (leNat b))

/-- STG (R79).  (DEDUCED: assumption 25.) -/
def runStg (r : BitVec 5) (h : BitVec 4) (sb : BitVec 5) (size : BitVec 2) : M Unit := do
  let st ← me
  let off := (st.getS sb).toNat
  aligned off (ldgBytes size)
  hWrite scalarWho (st.handleAt h) off (leBytes (ldgBytes size) (st.getS r).toNat) false

/-! ## Identity and time (R81, R82) -/

/-- The values of GETID (R81, Table 3). -/
def State.identity (s : State) (kind : BitVec 4) : Nat :=
  match kind.toNat with
  | 0 => s.gstrand s.cur.val
  | 1 => s.cur.val
  | 2 => s.coreInDie
  | 3 => s.sys.gcore
  | 4 => s.coreInDie / 8
  | 5 => s.die
  | 6 => s.sys.device
  | 7 => s.me.nodeId.toNat
  | 8 => match s.me.placed with | some pl => pl.rank | none => 0
  | _ => match s.me.placed with | some pl => pl.count | none => 0

/-- GETID (R81). -/
def runGetid (d : BitVec 5) (kind : BitVec 4) : M Unit := upd fun s =>
  let v := BitVec.ofNat 64 (s.identity kind)
  s.updMe fun st => st.setS d v

/-- TIME (R82). -/
def runTime (d : BitVec 5) : M Unit := upd fun s => s.updMe fun st => st.setS d s.now

/-! ## Control registers (R83, R84, R333) -/

/-- The energy of the current strand's node (R346). -/
def State.myEnergy (s : State) : BitVec 64 :=
  match s.sys.nodes.find? s.me.ofNode with
  | some n => n.energy
  | none => 0

/-- What CSRR reads (R83 Tables 4 to 7, R333 Table 6). -/
def State.csr (s : State) (csr : BitVec 12) : BitVec 64 :=
  let st := s.me
  let one (b : Bool) : Nat := if b then 1 else 0
  match csr.toNat with
  | 0x000 => BitVec.ofNat 64 (st.depth * 4 + one st.intrap * 2 + one st.priv)
  | 0x001 => BitVec.ofNat 64 (one (st.fmttrap || !st.priv) * 2 + one st.exposed)
  | 0x002 => st.fpflags.setWidth 64
  | 0x003 => st.qflags.setWidth 64
  | 0x010 => st.trapvec
  | 0x011 => st.trapframe
  | 0x012 => st.trapcause.setWidth 64
  | 0x013 => st.trapdata
  | 0x020 => st.groups[0].setWidth 64
  | 0x021 => st.groups[1].setWidth 64
  | 0x022 => st.groups[2].setWidth 64
  | 0x023 => st.groups[3].setWidth 64
  | 0x030 => BitVec.ofNat 64 s.cur.val
  | 0x031 => BitVec.ofNat 64 s.sys.gcore
  | 0x032 => st.nodeId.setWidth 64
  | 0x040 => s.myEnergy
  | 0x050 => BitVec.ofNat 64 st.rstack.length
  | 0x800 => st.root.base.setWidth 64
  | 0x801 => BitVec.ofNat 64 (st.root.n.toNat * 65536 + st.root.asid.toNat)
  | 0x810 => BitVec.ofNat 64 (s.drains.toNat * 2 ^ 32 + s.retries.toNat)
  | 0x820 => BitVec.ofNat 64 s.sys.log.length
  | 0x821 => s.sys.ceCount.setWidth 64
  | _ => 0

/-- CSRR and CSRW of FPFLAGS are drain points (R54): every vector word has issued by then (R47).  (DEDUCED: assumption 23.) -/
def State.flagsDrain (s : State) (csr : BitVec 12) : State :=
  if csr = 0x002 then s.updMe Strand.drainPipe else s

/-- CSRR (R83).  (DEDUCED: assumption 23.) -/
def runCsrr (r : BitVec 5) (csr : BitVec 12) : M Unit := upd fun s =>
  let s := s.flagsDrain csr
  let v := s.csr csr
  s.updMe fun st => st.setS r v

/-- The strand after a CSRW of one of its registers (R83, R333): the bits of fields that are RO or RZ are ignored.  A
write of MODE that changes `exposed` is a drain point (R54). -/
def Strand.csrSet (st : Strand) (csr : BitVec 12) (v : BitVec 64) : Strand :=
  match csr.toNat with
  | 0x001 =>
    let x := v.getLsbD 0
    { st with exposed := x, fmttrap := if st.priv then v.getLsbD 1 else st.fmttrap
              drainDue := st.drainDue || (x != st.exposed) }
  | 0x002 => { st with fpflags := v.setWidth 5 }
  | 0x003 => { st with qflags := v.setWidth 3 }
  | 0x010 => { st with trapvec := v &&& ~~~3 }
  | 0x011 => { st with trapframe := v &&& ~~~0xFFF }
  | 0x800 => { st with root := { st.root with base := v.setWidth 54 &&& ~~~0x3F } }
  | 0x801 => { st with root := { st.root with n := v.extractLsb' 16 5, asid := v.extractLsb' 0 16 } }
  | _ => st

/-- CSRW (R83). -/
def runCsrw (r : BitVec 5) (csr : BitVec 12) : M Unit := upd fun s =>
  let s := s.flagsDrain csr
  let v := s.me.getS r
  if csr = 0x821 then { s with sys := { s.sys with ceCount := v.setWidth 32 } }
  else s.updMe fun st => st.csrSet csr v

/-- CSRR of RSBOTTOM (R84). -/
def runRsbottomRead (r : BitVec 5) : M Unit := updMe fun st =>
  match st.rstack.getLast? with
  | none => st.setS r 0
  | some x => { st.setS r (x.setWidth 64) with rstack := st.rstack.dropLast }

/-- CSRW of RSBOTTOM (R84). -/
def runRsbottomWrite (r : BitVec 5) : M Unit := updMe fun st =>
  if 16 ≤ st.rstack.length then st
  else { st with rstack := st.rstack ++ [(st.getS r).setWidth 32 &&& ~~~3] }

end Sys2Proof.Machine
end

