-- ==== Sys2Proof/Machine/Residue.lean ====
section
/-! DEFINITION. The residues of the datapaths (R315, R316): what Table 1 predicts for each operation, which operations a word
makes, and the machine check of a result that does not meet its prediction. -/

namespace Sys2Proof.Machine

/-! ## Predictions (R315, Table 1) -/

/-- An operation of a checked datapath, over its operands as the datapath aligns them: an addition (of the negated operand, in a
subtraction), a product, the pair a AND b and a OR b of a logical result, a shift left by k, and a rounding with its increment. -/
inductive DataOp where
  | add (a b : Int)
  | mul (a b : Int)
  | logic (a b : Nat)
  | shl (a k : Nat)
  | round (sig inc : Nat)
deriving DecidableEq, Repr, Inhabited

/-- The value that is checked, where no fault has struck: with the bits that are shifted out, over the full product, and of a
logical result the sum of the pair. -/
def DataOp.formed : DataOp → Int
  | .add a b => a + b
  | .mul a b => a * b
  | .logic a b => (Nat.land a b : Int) + (Nat.lor a b : Int)
  | .shl a k => (a : Int) * 2 ^ k
  | .round sig inc => (sig : Int) + inc

/-- The residue that the operands predict (R315, Table 1). -/
def DataOp.predicted : DataOp → Nat
  | .add a b => (residue a + residue b) % 7
  | .mul a b => residue a * residue b % 7
  | .logic a b => (residue a + residue b) % 7
  | .shl a k => residue a * 2 ^ (k % 3) % 7
  | .round sig inc => (residue sig + inc) % 7

/-- The check of a result that was formed as `x` (R315). -/
def DataOp.passes (o : DataOp) (x : Int) : Bool := decide (residue x = o.predicted)

/-! ## Floating-point datapaths -/

/-- The signed significand and the exponent of a finite value. -/
def Ex.sig : Ex → Option (Int × Int)
  | .fin neg n _ e => some (if neg then -(n : Int) else n, e)
  | _ => none

/-- The addition of two significands, aligned to the lesser exponent. -/
def Ex.addOps (a b : Ex) : List DataOp :=
  match a.sig, b.sig with
  | some (m, e), some (n, f) => [.add (m * 2 ^ (e - min e f).toNat) (n * 2 ^ (f - min e f).toNat)]
  | _, _ => []

/-- The product of two significands. -/
def Ex.mulOps (a b : Ex) : List DataOp :=
  match a.sig, b.sig with
  | some (m, _), some (n, _) => [.mul m n]
  | _, _ => []

/-- The rounding of a value to a format: the truncated magnitude, and the increment applied. -/
def Fmt.roundOps (f : Fmt) (r : Rnd) : Ex → List DataOp
  | .fin neg n d e =>
    let t := (f.roundMag .tz neg n d e).1
    [.round t ((f.roundMag r neg n d e).1 - t)]
  | _ => []

/-- The operations of one floating-point element (R128). -/
def FOp.ops (o : FOp) (f : Fmt) (a b d : Nat) : List DataOp :=
  let (x, y, z) := (f.decode a, f.decode b, f.decode d)
  (match o with
    | .add => x.addOps y
    | .sub => x.addOps y.neg
    | .rsub => y.addOps x.neg
    | .mul => x.mulOps y
    | .fma => x.mulOps y ++ (x.mul y).addOps z
    | .fms => x.mulOps y ++ (x.mul y).addOps z.neg
    | .fnma => x.mulOps y ++ z.addOps (x.mul y).neg
    | _ => []) ++
  (match o with
    | .min | .max => []
    | o => f.roundOps .ne (o.exact x y z))

/-- a·x + c with one rounding, as lines are applied (R192). -/
def fmaOps (a x c : BitVec 32) : List DataOp := FOp.ops .fma Fmt.f32 a.toNat x.toNat c.toNat

/-! ## Integer datapaths -/

/-- The operations of AND, OR and XOR: the pair, and of XOR the difference of the pair. -/
def logicOps (xor : Bool) (a b : Nat) : List DataOp :=
  .logic a b :: if xor then [.add (Nat.lor a b) (-(Nat.land a b : Int))] else []

/-- The operations of one integer element (R132). -/
def IOp.ops (o : IOp) (w : Nat) (u : Bool) (a b : Nat) : List DataOp :=
  match o with
  | .add _ => [.add a b]
  | .sub _ => [.add a (-(b : Int))]
  | .rsub => [.add b (-(a : Int))]
  | .mul => [.mul a b]
  | .mulh un => if un || u then [.mul a b] else [.mul (sval w a) (sval w b)]
  | .and => logicOps false a b
  | .or => logicOps false a b
  | .xor => logicOps true a b
  | .shl => [.shl a (b % w)]
  | _ => []

/-- The operations of one element of CRED (R225). -/
def credOps (fmt a b : Nat) : List DataOp :=
  match fmt with
  | 1 => FOp.ops .add Fmt.f32 a b 0
  | 2 => FOp.ops .add Fmt.bf16 a b 0
  | _ => [.add a b]

/-! ## The operations of a word -/

/-- An operation of a word, with the lane in which it is made (0xFF where there are no lanes). -/
structure Site where
  lane : BitVec 8
  op   : DataOp
deriving DecidableEq, Repr, Inhabited

/-- Operations outside the lanes. -/
def noLane (l : List DataOp) : List Site := l.map fun o => ⟨0xFF, o⟩

/-- The operations of the elements of the active lanes. -/
def laneSites (act : BitVec 32) (tag : Nat) (a b d : BitVec 1024) (f : Nat → Nat → Nat → List DataOp) : List Site :=
  let w := elemWidth tag
  ((List.range 32).filter fun l => act.getLsbD l).flatMap fun l =>
    (List.range (perLane tag)).flatMap fun k =>
      (f (elem w (lane a l).toNat k) (elem w (lane b l).toNat k) (elem w (lane d l).toNat k)).map fun o =>
        ⟨BitVec.ofNat 8 l, o⟩

/-- The operations of a floating-point vector word. -/
def Strand.floatSites (st : Strand) (o : FOp) (vd va vb : BitVec 6) : List Site :=
  let tag := (st.getV va).tag.toNat
  laneSites st.active tag (st.getV va).data (st.getV vb).data (st.getV vd).data (o.ops (fmtOf tag))

/-- The operations of an integer vector word. -/
def Strand.intSites (st : Strand) (o : IOp) (va vb : BitVec 6) : List Site :=
  let tag := (st.getV va).tag.toNat
  laneSites st.active tag (st.getV va).data (st.getV vb).data 0 fun a b _ => o.ops (elemWidth tag) (decide (tag = 12)) a b

/-- The operations of the form of a vector word that takes a scalar (R133). -/
def Strand.scalarSites (st : Strand) (va vd : BitVec 6) (x : BitVec 64) (f : Nat → Nat → Nat → Nat → List DataOp) :
    List Site :=
  let tag := (st.getV va).tag.toNat
  laneSites st.active tag (st.getV va).data 0 (st.getV vd).data fun a _ d => f tag a (x.toNat % 2 ^ elemWidth tag) d

/-- The operations of a control word, which reads its registers at split (R57-R59, R63, R75, R76, R79). -/
def Strand.controlOps (st : Strand) (pc : BitVec 32) (i : Instr) : List DataOp :=
  let u (r : BitVec 5) : Nat := (st.getS r).toNat
  let t (r : BitVec 5) : Int := (st.getS r).toInt
  let lds (a : BitVec 3) (imm : BitVec 9) (n : Nat) : List DataOp := [.add (st.getA a).addr.toNat (n * imm.toInt)]
  let page (h : BitVec 4) (sb : BitVec 5) : List DataOp := [.add ((st.handleAt h).phys 0) (u sb)]
  let low (imm : BitVec 11) : Nat := (imm.signExtend 64).toNat
  match i with
  | .add _ _ a b => [.add (u a) (u b)]
  | .sub _ _ a b => [.add (u a) (-(u b : Int))]
  | .and _ _ a b => logicOps false (u a) (u b)
  | .or _ _ a b => logicOps false (u a) (u b)
  | .xor _ _ a b => logicOps true (u a) (u b)
  | .shl _ _ a b => [.shl (u a) (u b % 64)]
  | .mul _ _ a b => [.mul (u a) (u b)]
  | .mulh _ _ a b => [.mul (t a) (t b)]
  | .mulhu _ _ a b => [.mul (u a) (u b)]
  | .addi _ _ a imm => [.add (t a) imm.toInt]
  | .andi _ _ a imm => logicOps false (u a) (low imm)
  | .ori _ _ a imm => logicOps false (u a) (low imm)
  | .xori _ _ a imm => logicOps true (u a) (low imm)
  | .shli _ _ a imm => [.shl (u a) (low imm % 64)]
  | .pbr _ _ imm => [.add pc.toNat (4 * imm.toInt)]
  | .ainc _ a imm => [.add (st.getA a).addr.toNat imm.toInt]
  | .ldsW _ _ a _ _ imm => lds a imm 4
  | .ldsD _ _ a _ _ imm => lds a imm 8
  | .stsW _ _ a _ _ imm => lds a imm 4
  | .stsD _ _ a _ _ imm => lds a imm 8
  | .ldg _ _ h sb _ => page h sb
  | .stg _ _ h sb _ => page h sb
  | _ => []

/-- The address adds of vector memory words: their post-increments, and of the indexed forms a lane's address (R147-R150). -/
def Strand.addressSites (st : Strand) (e : QEntry) : List Site :=
  let inc (n : Int) : List Site := noLane [.add (e.capA 0) (128 * n)]
  let lanes (vx : BitVec 6) : List Site :=
    ((List.range 32).filter fun l => st.active.getLsbD l).map fun l =>
      ⟨BitVec.ofNat 8 l, .add (e.capA 0) (4 * (lane (st.getV vx).data l).toNat)⟩
  match e.instr with
  | .vld _ _ _ _ _ _ n => inc n.toInt
  | .vst _ _ _ _ _ _ n => inc n.toInt
  | .vldl _ _ _ _ _ _ n => inc n.toInt
  | .vstl _ _ _ _ _ _ n => inc n.toInt
  | .vldx _ _ _ _ _ _ n vx => inc n.toInt ++ lanes vx
  | .vstx _ _ _ _ _ _ n vx => inc n.toInt ++ lanes vx
  | .vamo _ _ _ _ _ _ n vx _ => inc n.toInt ++ lanes vx
  | _ => []

/-- The operations of the lanes of a vector word. -/
def Strand.vectorSites (st : Strand) (e : QEntry) : List Site :=
  match e.instr with
  | .vfadd _ vd va vb => st.floatSites .add vd va vb
  | .vfsub _ vd va vb => st.floatSites .sub vd va vb
  | .vfmul _ vd va vb => st.floatSites .mul vd va vb
  | .vfma _ vd va vb => st.floatSites .fma vd va vb
  | .vfms _ vd va vb => st.floatSites .fms vd va vb
  | .vfnma _ vd va vb => st.floatSites .fnma vd va vb
  | .vfdiv _ vd va vb => st.floatSites .div vd va vb
  | .vfops _ vd va _ fn => st.scalarSites va vd (e.capS 0) fun tag a b d => (fopOf fn.toNat).ops (fmtOf tag) a b d
  | .vadd _ _ va vb fn => st.intSites (.add fn.toNat) va vb
  | .vsub _ _ va vb fn => st.intSites (.sub fn.toNat) va vb
  | .vmul _ _ va vb => st.intSites .mul va vb
  | .vmulh _ _ va vb fn => st.intSites (.mulh (fn.getLsbD 0)) va vb
  | .vand _ _ va vb => st.intSites .and va vb
  | .vor _ _ va vb => st.intSites .or va vb
  | .vxor _ _ va vb => st.intSites .xor va vb
  | .vshl _ _ va vb => st.intSites .shl va vb
  | .viops _ vd va _ fn => st.scalarSites va vd (e.capS 0) fun tag a b _ =>
      (iopOf fn.toNat).ops (elemWidth tag) (decide (tag = 12)) a b
  | _ => st.addressSites e

/-- The carry step of the quantiser (R108): the quotient as it is rounded with the carry, and the rounding to the target. -/
def QCfg.stepOps (c : QCfg) (x s k : BitVec 32) : List DataOp :=
  let q := (val32 x).div (val32 s)
  Fmt.f32.roundOps .ne (q.add (val32 k)) ++ (fmtOf c.target.toNat).roundOps c.rnd (val32 (stepV x s k))

/-- The operations of the words of the other engines: of an element, a row or a granule that free value 3 selects. -/
def State.engineOps (s : State) (e : QEntry) : List DataOp :=
  let st := s.me
  let pick (n : Nat) : Nat := Config.faultPlace s.nfree 3 % max 1 n
  let rows (t : BitVec 4) (row : BitVec 5) (half : Nat) : BitVec 32 :=
    ((s.matrix.tile t.toNat).row row.toNat).getD (32 * half + pick 32) 0
  let apply (t : BitVec 4) (row : BitVec 5) (fb : BitVec 8) : List DataOp :=
    let r := s.line.rec_ (feature (32 * fb.toNat + pick 32))
    fmaOps r.a (rows t row (fb.toNat % 2)) r.c
  let streams (n eb : Nat) : List DataOp :=
    [.add (e.capA 0) (eb * pick (n / eb) : Nat), .add (e.capA 1) (eb * pick (n / eb) : Nat)]
  match e.instr with
  | .qstv _ _ _ v qr _ _ =>
    let k := pick 32
    st.qcfg.stepOps (lane (st.getV v).data k) ((e.capS 1).setWidth 32)
      (if st.qcfg.axis = 1 then lane (st.getQV (qr.setWidth 2)) k else st.getQ qr)
  | .qstt _ t row0 _ _ _ _ _ qr _ =>
    st.qcfg.stepOps (rows t row0 0) ((e.capS 0).setWidth 32) (lane (st.getQV (qr.setWidth 2 &&& 2)) (pick 32))
  | .lnapl _ _ t row _ fb => apply t row fb
  | .lncor _ _ t row _ fb => apply t row fb
  | .lnfold _ _ va _ col _ =>
    let k := pick 32
    let f0 := (e.capS 0).toNat % 8192
    let r := s.line.rec_ (if col = 1 then feature (f0 + k) else f0)
    (val32 r.a).mulOps (val32 (lane (st.getV va).data k)) ++ (val32 r.c).mulOps (val32 (lane (st.getV va).data k))
  | .cpyLinear .. => streams ((e.capS 2).toNat % 2 ^ 24) 16
  | .cpymLinear .. => streams ((e.capS 2).toNat % 2 ^ 24) 16
  | .cvqxExpand .. => streams ((e.capS 2).toNat % 2 ^ 20) 4
  | .cred _ _ dsp _ ssp _ fmt _ _ =>
    let n := (e.capS 2).toNat % 2 ^ 24
    let k := pick (n / 4)
    let word (sp : BitVec 2) (a : Nat) : Nat := leNat (s.chipRead (s.localAt sp a 4 k) 4).1
    streams n 16 ++ credOps fmt.toNat (word dsp (e.capA 0)) (word ssp (e.capA 1))
  | .ldaqHandle .. => [.add ((e.capH 0).phys 0) (e.capS 1).toNat]
  | _ => []

/-- The checked operations of a word at `pc`: those of its own datapath, and where Table 1 predicts none of them the address add
of its PC.  (DESIGN CHOICE: assumption 35.) -/
def State.sites (s : State) (i : Instr) (pc : BitVec 32) (e : Option QEntry) : List Site :=
  let own := match e with
    | some e => if i.cls = 1 then s.me.vectorSites e else noLane (s.engineOps e)
    | none => noLane (s.me.controlOps pc i)
  if own.isEmpty then noLane [.add pc.toNat (4 * i.words : Nat)] else own

/-! ## Mismatches (R316, R321) -/

/-- The residue of a result from which a single bit has been struck: it differs by 1, 2 or 4 (R316). -/
def State.struckResidue (s : State) (want : Nat) : BitVec 8 :=
  BitVec.ofNat 8 ((want + 2 ^ (Config.faultPlace s.nfree 1 % 3)) % 7)

/-- The report of a mismatch at one of the operations of a word. -/
def State.siteReport (s : State) (r : Report) (sites : List Site) : Report :=
  let x := sites.getD (Config.faultPlace s.nfree 0 % sites.length) ⟨0xFF, .add 0 0⟩
  { r with lane := x.lane, expect := BitVec.ofNat 8 x.op.predicted, actual := s.struckResidue x.op.predicted }

/-- The rows of A that an MMUL broadcasts, the planes that it reads, and the elements of a row; none where it stops before. -/
def State.broadcastOf (s : State) (e : QEntry) : Option (List (List Byte) × List Used × Nat) :=
  match e.instr with
  | .mmul _ t g rows1 afmt _ _ wide _ space _ stride =>
    match (do
      let p ← mmulPlan e t g afmt wide
      let d ← mmulRows e p.elems (rows1.toNat + 1) afmt space 0 stride
      pure (p.elems, d.map (·.2.2)) : M (Nat × List (List Byte))) s with
    | .ok ((n, d), _) => some (d, s.matrix.used (s.matrix.gangsOf g wide), n)
    | .error _ => none
  | _ => none

/-- The bit-planes in which a row of A is sent (R165): S + L of its aligned magnitudes. -/
def planesSent (xs : List (Nat × Int)) : Nat :=
  max 1 ((if xs.any fun x => decide (x.2 < 0) then 1 else 0) +
    xs.foldl (fun m x => max m (if x.2 = 0 then 0 else Nat.log2 x.2.natAbs + 1)) 0)

/-- A mismatch in a column of an MMUL, in a cycle that it makes, with P from the stored residues (R177). -/
def State.columnReport (s : State) (r : Report) (afmt : BitVec 4) (rows : List (List Byte)) (us : List Used) (n : Nat) :
    Report :=
  let f (k m : Nat) : Nat := Config.faultPlace s.nfree k % max 1 m
  let row := f 8 rows.length
  let xs := aDigits afmt.toNat n (rows.getD row [])
  let u := us.getD (f 3 us.length) ⟨0, 0, 0, Plane.reset⟩
  let (col, rail, bit) := (f 4 u.plane.ncol, f 6 4, f 7 (planesSent xs))
  let want := (columnSums u.plane xs.toArray u.off col bit rail).2 % 7
  { r with
    mac := BitVec.ofNat 8 u.mac, column := BitVec.ofNat 8 col
    expect := BitVec.ofNat 8 want, actual := s.struckResidue want
    detail := BitVec.ofNat 64 (u.side.toNat + rail * 2 ^ 8 + bit * 2 ^ 16 + row * 2 ^ 24) }

/-- The report of a residue mismatch in the datapath of a word (R316, R321, R335): an injected fault strikes lane 0; an MMUL's
mismatch is one of a column.  (DESIGN CHOICE: assumption 14.) -/
def State.residueReport (s : State) (injected : Bool) (i : Instr) (pc : BitVec 32) (addr : BitVec 64) (e : Option QEntry) :
    Report :=
  let r := s.wordReport 0x10 0 (if injected then 0x10 else 0) i pc addr
  let sites := s.sites i pc e
  if injected then
    let zero := sites.filter fun x => decide (x.lane = 0)
    { s.siteReport r (if zero.isEmpty then sites else zero) with lane := 0 }
  else match e.bind s.broadcastOf, i with
    | some (rows, us, n), .mmul _ _ _ _ afmt _ _ _ _ _ _ _ => s.columnReport r afmt rows us n
    | _, _ => s.siteReport r sites

/-- A machine check raised by a word of the current strand (R316, R323): a queued word goes, with what it had begun, and writes
nothing more. -/
def State.machineCheck (s : State) (c : CheckCause) (i : Instr) (pc : BitVec 32) (addr : BitVec 64)
    (e : Option QEntry := none) : State :=
  let r := match c with
    | .residue injected => s.residueReport injected i pc addr e
    | .poison => s.wordReport 0x11 0 0 i pc addr
  (match e with
    | some e => s.updMe fun st => st.without e
    | none => s).checked r

/-! ## Stops at the splitter -/

/-- A control word that has passed its tests and waits stands at the splitter with the handle that it captured (R40, R241). -/
def State.standAt (s : State) (i : Instr) : State := s.updMe fun st =>
  match st.atSplit with
  | some _ => st
  | none =>
    let h := match i with
      | .ldg _ _ h _ _ => some (st.getH h)
      | .stg _ _ h _ _ => some (st.getH h)
      | _ => none
    { st with atSplit := some ⟨i, h, []⟩ }

/-- What the machine does with a stop of a control word (R210, R234, R246, R320, R323). -/
def State.stopAtSplit (s : State) (i : Instr) : Stop → Result
  | .wait w => .next ((s.standAt i).await 0 w)
  | .held k => .next ((s.standAt i).hold k)
  | .user c => .next (s.takeTrap c i s.me.pc s.me.pc (s.me.queue.map fun e => (e, false)))
  | .fatal c addr => .next (s.fatalError c i s.me.pc addr)
  | .check c addr => .next ((s.disarmed 0 c).machineCheck c i s.me.pc addr)
  | .cim c => .next (s.checked (s.cimReport c i s.me.pc))
  | .absent => .fault .absentMainMemory

end Sys2Proof.Machine
end

