-- ==== Sys2Proof/Machine/Splitter.lean ====
section
/-! DEFINITION. The splitter's waits and what splitting does (R40-R48, R54, R215, R220, R247, R249): a control word runs at
split, an engine word is queued with its captured operands. -/

namespace Sys2Proof.Machine

/-! ## Waits (R40, R46, R249) -/

/-- A queued word stalls the splitter until it has completed. -/
def Strand.blocked (st : Strand) : Bool := st.queue.any fun e => blocksSplitter e.instr

/-- A vector word is queued. -/
def Strand.vectorQueued (st : Strand) : Bool := st.queue.any fun e => decide (e.instr.eng = some .vector)

/-- A word that names a pending register waits: a translation it names lands, and a register pending on a vector word is a
drain point once every vector word has issued (R46, R54, R230).  (DEDUCED: assumption 22.) -/
def State.settlePending (s : State) (u : Uses) : State :=
  let s := if (u.hr ++ u.hw).any fun h => s.me.trns.any fun t => decide (t.h = h) then s.landTrns false false else s
  s.updMe fun st =>
    if !st.vectorQueued && ({ st with queue := [], trns := [] } : Strand).pends u then st.drainPipe else st

/-- Accesses of a control word through a handle wait: behind an acquire unless the page is unordered, and on a strong page
behind every earlier strong access (R261, R262, R266). -/
def Strand.handleWaits (st : Strand) (h : Handle) : Bool :=
  (!(decide (h.state = .valid) && decide (h.kind = 2)) && st.queue.any (·.acquire st)) ||
  (h.strong && st.queue.any (·.strong st))

/-- An LDS or STS waits: for the range checker (R45) and behind an acquire (R266). -/
def State.ldsWaits (s : State) (a : BitVec 3) (space : BitVec 2) (imm : BitVec 9) (n : Nat) (write : Bool) : Bool :=
  let st := s.me
  rangeHeld s.coreInDie st.qcfg st.queue (footOf s.coreInDie space (st.ldsAddr a imm n) n write) ||
  st.queue.any (·.acquire st)

/-- CSRR and CSRW of FPFLAGS and QFLAGS wait for the vector and quantiser words (R47). -/
def Strand.flagsWait (st : Strand) (csr : BitVec 12) : Bool :=
  (decide (csr = 0x002) && st.vectorQueued) ||
  (decide (csr = 0x003) && st.queue.any fun e => decide (e.instr.eng = some .quantiser))

/-- What a control word waits for beyond its registers; ERET waits for every earlier word (R252). -/
def State.splitWaits (s : State) (i : Instr) : Bool :=
  let st := s.me
  match i with
  | .ldsW _ _ a space _ imm => s.ldsWaits a space imm 4 false
  | .ldsD _ _ a space _ imm => s.ldsWaits a space imm 8 false
  | .stsW _ _ a space _ imm => s.ldsWaits a space imm 4 true
  | .stsD _ _ a space _ imm => s.ldsWaits a space imm 8 true
  | .ldg _ _ h _ _ => st.handleWaits (st.handleAt h)
  | .stg _ _ h _ _ => st.handleWaits (st.handleAt h)
  | .csrr _ _ csr => st.flagsWait csr
  | .csrw _ _ csr => st.flagsWait csr
  | .eret _ => !st.queue.isEmpty
  | _ => false

/-! ## Control words (R40) -/

/-- The engine events of a control word of the strand `st`, which begins and completes at split; one that stops there has had no
effect and has not begun (R335, R345).  (DEDUCED: assumption 68.) -/
def State.traceWord (s : State) (st : Strand) (i : Instr) : State :=
  if i.eng = some .control then
    let head := ((encode i).headD 0).setWidth 64
    (s.traceFor st 0 1 (st.pc.setWidth 64) head).traceFor st 0 2 (st.pc.setWidth 64) head
  else s

/-- A word that is performed at split: its waits, its effect, and the splitter moves on. -/
def control (i : Instr) (body : M Unit) (s : State) : Result :=
  let st := s.me
  if st.blocked then .next s
  else match st.heldReg i.uses with
  | some d => .next (s.fatalError (.handlerFault d) i st.pc 0)
  | none =>
    if st.pends i.uses then .next (s.settlePending i.uses)
    else if s.splitWaits i then .next s
    else match struck false 0 body (s.meetSoft i st.pc) with
      | .ok (_, t) => .next ((t.traceWord st i).updMe fun u => u.moveOn st.pc i.words st.xfer)
      | .error e => (if e.waits then s else s.meetSoft i st.pc).stopAtSplit i e

/-! ## Queueing (R41, R42, R220, R247) -/

/-- The drain points of R54 that are queued and do not stop the splitter.  (DEDUCED: assumption 62.) -/
def drainsPipe : Instr → Bool
  | .fence _ _ => true
  | .xfence _ ca cb _ => decide (ca = 1) || decide (ca = 7) || decide (cb = 1) || decide (cb = 7)
  | i => isCovered i

/-- A word enters the tail of its queue; a vector word takes with it the drain point that stands before it (R54). -/
def Strand.enqueue (st : Strand) (e : QEntry) : Strand :=
  if e.instr.eng = some .vector then { st with queue := st.queue ++ [{ e with drain := st.drainDue }], drainDue := false }
  else { st with queue := st.queue ++ [e], drainDue := st.drainDue || drainsPipe e.instr }

/-- The depth of a queue (R42, Table 2).  (DEDUCED: assumption 83.) -/
def queueDepth : Engine → Nat
  | .vector => 32
  | _ => 16

/-- Words of an engine that are queued and that it has not begun: the places taken in its queue (R42). -/
def Strand.queued (st : Strand) (g : Engine) : Nat :=
  ((st.queue.filter fun e => decide (e.instr.eng = some g)).length -
    ((st.begunWords [] st.queue).filter fun e => decide (e.instr.eng = some g)).length)

/-- Engine instructions that are split and not finished (R247): the queued ones, translations whose results have not landed,
and vector words whose results have not. -/
def Strand.outstanding (st : Strand) : Nat := st.queue.length + st.trns.length + (st.flight.filter (·.first)).length

/-- There is room for a word of an engine, and for n more outstanding words (R42, R247).  (DEDUCED: assumption 83.) -/
def Strand.room (st : Strand) (i : Instr) (n : Nat) : Bool :=
  (match i.eng with
    | some g => decide (st.queued g < queueDepth g)
    | none => true) &&
  decide (st.outstanding + n ≤ 48)

/-- The follow-on of a CPYM (R17). -/
def followOf : Instr → Option Instr
  | .cpymLinear _ _ _ _ _ _ _ _ f => some f
  | .cpymPattern _ _ _ _ _ _ f => some f
  | _ => none

/-- There is room for an instruction with its follow-on. -/
def Strand.roomFor (st : Strand) (i : Instr) : Bool :=
  match followOf i with
  | none => st.room i 1
  | some f => st.room i 2 && st.room f 2

/-- The stream slots that a copy word names (R215). -/
def slotFields : Instr → List (BitVec 4)
  | .srec _ slot _ _ => [slot]
  | .cpyPattern _ d s _ _ _ => [s, d]
  | .cpymPattern _ d s _ _ _ _ => [s, d]
  | .cwin _ slot _ _ _ _ _ => [slot]
  | .cadv _ slot _ _ _ => [slot]
  | _ => []

/-- The slot of a copy word that another strand owns: trap 0x09 with reason 1 at split (R215, R216 Table 5). -/
def foreignSlot (cur : Fin 4) (i : Instr) : Option (BitVec 64) :=
  ((slotFields i).find? fun v => (slotOf cur v).isNone).map fun v =>
    BitVec.ofNat 64 (((encode i).headD 0).toNat * 2 ^ 32 + v.toNat * 256 + 1)

/-- The traps that an engine word raises at split, once its registers are read: a slot of another strand (R215), and an MSLOT
whose register holds no slot table, which is a reserved field value (R175, R32).  (DEDUCED: assumption 66.) -/
def State.splitTrap (s : State) (i : Instr) : Option UserCause :=
  match i with
  | .mslot _ sa _ =>
    if slotTableOk (s.me.getS sa) then none
    else some ⟨0x01, BitVec.ofNat 64 (((encode i).headD 0).toNat * 2 ^ 32 + 0x06)⟩
  | i => (foreignSlot s.cur i).map fun d => ⟨0x09, d⟩

/-- Post-increments of a vector memory word, at split (R23, R147). -/
def Strand.postInc (st : Strand) : Instr → Strand
  | .vamo _ _ a _ _ _ inc _ _ => st.advA a (128 * inc.toInt)
  | .vld _ _ a _ _ fmt inc =>
    let t := st.advA a (128 * inc.toInt)
    if isBlockTag fmt then t.advA (a ^^^ 1) ((if fmt = 10 then 8 else 16) * inc.toInt) else t
  | .vst _ _ a _ _ fmt inc =>
    let t := st.advA a (128 * inc.toInt)
    if isBlockTag fmt then t.advA (a ^^^ 1) ((if fmt = 10 then 8 else 16) * inc.toInt) else t
  | .vldx _ _ a _ _ _ inc _ => st.advA a (128 * inc.toInt)
  | .vstx _ _ a _ _ _ inc _ => st.advA a (128 * inc.toInt)
  | .vldl _ _ a _ _ _ inc => st.advA a (128 * inc.toInt)
  | .vstl _ _ a _ _ _ inc => st.advA a (128 * inc.toInt)
  | _ => st

/-- A word takes its sequence number (R220). -/
def Strand.number (st : Strand) (i : Instr) : Strand :=
  if i.copyNumbered then { st with copyIssued := st.copyIssued + 1 }
  else if i.netNumbered then { st with netIssued := st.netIssued + 1 }
  else st

/-- The queue entry of a word split now (R41). -/
def State.entryOf (s : State) (st : Strand) (i : Instr) (pc : BitVec 32) (held : Bool) : QEntry :=
  { instr := i, pc := pc, held := held, interlocked := st.interlocked, root := st.root, counted := []
    caps := i.capture st s.now (isBlockTag (cfgAfter st.qcfg st.queue).target), drain := false, passed := false, fresh := true
    num := if i.copyNumbered then st.copyIssued + 1 else if i.netNumbered then st.netIssued + 1 else 0
    since := s.cycle }

/-- The splitter leaves a word that it has split; it stands at a PROBE until that completes (R239). -/
def Strand.leave (t : Strand) (i : Instr) (pc : BitVec 32) (x : Option Transfer) : Strand :=
  match i with
  | .probe .. => { t with passing := true }
  | _ => t.moveOn pc i.words x

/-- The current strand after the split of an engine word. -/
def State.split (s : State) (i : Instr) : State :=
  let st := s.me
  let t := ((st.enqueue (s.entryOf st i st.pc false)).postInc i).number i
  let t := match followOf i with
    | none => t
    | some f => t.enqueue (s.entryOf st f (st.pc + 4) true)
  s.setMe (t.leave i st.pc st.xfer)

end Sys2Proof.Machine
end

