-- ==== Sys2Proof/Machine/Engines.lean ====
section
/-! DEFINITION. The engines (R42-R55, R219, R220, R228, R246): which queued words are ready, what a word does in its engine,
and one pass of the engines over a strand's queues. -/

namespace Sys2Proof.Machine

/-! ## Readiness (R43-R50, R119, R228, R261-R266) -/

/-- A queued word has begun: parts of it are left, it sleeps, or it has arrived at its barrier.  It holds no place in its queue
(R42), and a trap does not withdraw what has begun (R248). -/
def Strand.hasBegun (st : Strand) (before : List QEntry) (e : QEntry) : Bool :=
  (st.begun before e).isSome ||
  (match e.instr with
    | .slpat .. => st.sleeping.isSome
    | .bar _ g _ _ => (match st.groupIndex g with
      | some k => st.members[k].arrived || st.members[k].done
      | none => false)
    | _ => false)

/-- An earlier word of the same queue that has not begun holds a word back: words of one queue begin in order (R43, R228). -/
def queueHolds (st : Strand) : List QEntry → List QEntry → QEntry → Bool
  | _, [], _ => false
  | before, b :: t, e =>
    (decide (b.instr.eng = e.instr.eng) && (st.begun before b).isNone) || queueHolds st (before ++ [b]) t e

/-- An XFENCE that has not completed holds the words of its later class (R264). -/
def fenceHolds (before : List QEntry) (e : QEntry) : Bool :=
  before.any fun b => match b.instr with
    | .xfence _ _ cb _ => decide (cb = e.instr.cls)
    | _ => false

/-- A vector word stands among the words. -/
def anyVector (l : List QEntry) : Bool := l.any fun e => decide (e.instr.eng = some .vector)

/-- What a sync word waits for among the earlier words of the strand (R263, R264, R251, R286, R306-R308, R336). -/
def syncHolds (before : List QEntry) (i : Instr) : Bool :=
  match i with
  | .fence _ _ => (before.any fun b => accesses b.instr) || anyVector before
  | .xfence _ ca _ _ =>
    (before.any fun b => accesses b.instr && (decide (ca = 7) || decide (b.instr.cls = ca))) ||
    (drainsPipe i && anyVector before)
  | .bar .. => before.any fun b => accesses b.instr
  | .trig _ => before.any fun b => accesses b.instr
  | .drain _ _ => !before.isEmpty
  | .exit _ => !before.isEmpty
  | .trap _ _ => !before.isEmpty
  | .probe .. => !before.isEmpty
  | .ctxsvStrand .. => !before.isEmpty
  | .ctxsvCore .. => !before.isEmpty
  | .ctxldStrand .. => !before.isEmpty
  | .ctxldCore .. => !before.isEmpty
  | _ => false

/-- A word is ready as far as its own strand decides: every hold but the turns of the matrix engine (R50).
(DESIGN CHOICE: assumption 5.) -/
def State.readyIn (s : State) (before : List QEntry) (e : QEntry) : Bool :=
  let st := s.me
  let i := e.instr
  !isHeld before e &&
  !(match i.eng with | some g => decide (g ∈ s.env.busy.headD []) | none => false) &&
  !queueHolds st [] before e &&
  !rangeHeld s.coreInDie st.qcfg before (e.feet s.coreInDie (cfgAfter st.qcfg before)) &&
  !(before.any fun b => regHeld (st.actAfter before) b.instr i) &&
  !(isCovered i && anyVector before) &&
  !s.matrix.tileHeld (s.matrix.tilesOf (!before.any fun b => changesPlanes b.instr) i) [] before &&
  !fenceHolds before e &&
  !(accesses i && !e.unordered st && before.any (·.acquire st)) &&
  !(e.releases st && before.any fun b => accesses b.instr && !b.unordered st) &&
  !(e.strongly st && before.any (·.strong st)) &&
  !syncHolds before i

/-! ## Turns of the shared engines (R49, R50) -/

/-- The number of an engine (R26). -/
def engineNumber : Engine → Fin 8
  | .control => 0 | .vector => 1 | .matrix => 2 | .quantiser => 3 | .line => 4 | .copy => 5 | .sync => 6

/-- The head word of an engine's queue: the first that has not begun, with the words before it (R42). -/
def Strand.head (st : Strand) (g : Engine) : List QEntry → List QEntry → Option (List QEntry × QEntry)
  | _, [] => none
  | before, e :: t =>
    if e.instr.eng = some g ∧ st.hasBegun before e = false then some (before, e) else st.head g (before ++ [e]) t

/-- An MMUL that opens a chain. -/
def startsChain : Instr → Bool
  | .mmul _ _ _ _ _ start _ _ _ _ _ _ => decide (start = 1)
  | _ => false

/-- An MRD still stores rows: the engine executes one word at a time (R178). -/
def State.matrixStores (s : State) : Bool :=
  s.strands.toList.any (·.storing.isSome) || s.orphans.any (·.strand.storing.isSome)

/-! ## What a word does in its engine -/

/-- A word that finishes when its effect is done. -/
def completes (m : M Unit) : M Bool := do
  m
  pure true

/-- TRAP (R251, R244): trap 0x08 once every earlier word has finished. -/
def runTrap (e : QEntry) (code : BitVec 16) : M Unit :=
  trapWith 0x08 (BitVec.ofNat 64 (e.head.toNat * 2 ^ 32 + code.toNat))

/-- PROBE in the sync unit: when it has completed, the splitter moves past it (R239).  (DEDUCED: assumption 24.) -/
def runProbeWord (e : QEntry) (h : BitVec 4) (acc : BitVec 2) : M Unit := do
  runProbe h (e.capS 0) acc
  updMe Strand.passProbe

/-- QRLD and QRST with their order (R115): the release of QRST waits on the near buffer. -/
def runQrstOrd (e : QEntry) (kind : BitVec 1) (qr : BitVec 4) (space fe : BitVec 2) (ord : BitVec 1) (scope : BitVec 3) :
    M Unit := do
  if ord = 1 then releaseAt scope else pure ()
  runQrst e kind qr space fe

/-- The effect of a queued word in its engine; false means that the word keeps its place with what it has done so far. -/
def runWord (i : Instr) (e : QEntry) : M Bool :=
  match i with
  | .nop _ => pure true
  | .add _ _ _ _ => pure true
  | .sub _ _ _ _ => pure true
  | .and _ _ _ _ => pure true
  | .or _ _ _ _ => pure true
  | .xor _ _ _ _ => pure true
  | .shl _ _ _ _ => pure true
  | .shr _ _ _ _ => pure true
  | .sra _ _ _ _ => pure true
  | .mul _ _ _ _ => pure true
  | .mulh _ _ _ _ => pure true
  | .mulhu _ _ _ _ => pure true
  | .min _ _ _ _ => pure true
  | .max _ _ _ _ => pure true
  | .minu _ _ _ _ => pure true
  | .maxu _ _ _ _ => pure true
  | .addi _ _ _ _ => pure true
  | .andi _ _ _ _ => pure true
  | .ori _ _ _ _ => pure true
  | .xori _ _ _ _ => pure true
  | .shli _ _ _ _ => pure true
  | .shri _ _ _ _ => pure true
  | .srai _ _ _ _ => pure true
  | .movi _ _ _ => pure true
  | .insh0 _ _ _ => pure true
  | .insh1 _ _ _ => pure true
  | .insh2 _ _ _ => pure true
  | .insh3 _ _ _ => pure true
  | .popc _ _ _ => pure true
  | .clz _ _ _ => pure true
  | .cmp _ _ _ _ _ => pure true
  | .cmpi _ _ _ _ _ => pure true
  | .plog _ _ _ _ _ => pure true
  | .sel _ _ _ _ _ => pure true
  | .pbr _ _ _ => pure true
  | .pbrr _ _ _ => pure true
  | .br _ _ _ _ => pure true
  | .call _ _ _ _ => pure true
  | .ret _ _ _ => pure true
  | .loop _ _ _ _ _ => pure true
  | .lstr _ _ _ _ => pure true
  | .lbrk _ _ _ => pure true
  | .ldsW _ _ _ _ _ _ => pure true
  | .ldsD _ _ _ _ _ _ => pure true
  | .stsW _ _ _ _ _ _ => pure true
  | .stsD _ _ _ _ _ _ => pure true
  | .ldg _ _ _ _ _ => pure true
  | .stg _ _ _ _ _ => pure true
  | .amov _ _ _ _ => pure true
  | .ainc _ _ _ => pure true
  | .csrr _ _ _ => pure true
  | .csrw _ _ _ => pure true
  | .rsbottomRead _ _ => pure true
  | .rsbottomWrite _ _ => pure true
  | .getid _ _ _ => pure true
  | .time _ _ => pure true
  | .vfadd _ vd va vb => completes (runVfadd e vd va vb)
  | .vfsub _ vd va vb => completes (runVfsub e vd va vb)
  | .vfmul _ vd va vb => completes (runVfmul e vd va vb)
  | .vfma _ vd va vb => completes (runVfma e vd va vb)
  | .vfms _ vd va vb => completes (runVfms e vd va vb)
  | .vfnma _ vd va vb => completes (runVfnma e vd va vb)
  | .vfmin _ vd va vb => completes (runVfmin e vd va vb)
  | .vfmax _ vd va vb => completes (runVfmax e vd va vb)
  | .vfsgn _ vd va vb fn => completes (runVfsgn e vd va vb fn)
  | .vfdiv _ vd va vb => completes (runVfdiv e vd va vb)
  | .vfsqrt _ vd va => completes (runVfsqrt e vd va)
  | .vfun _ vd va fn => completes (runVfun e vd va fn)
  | .vadd _ vd va vb fn => completes (runVadd e vd va vb fn)
  | .vsub _ vd va vb fn => completes (runVsub e vd va vb fn)
  | .vmul _ vd va vb => completes (runVmul e vd va vb)
  | .vmulh _ vd va vb fn => completes (runVmulh e vd va vb fn)
  | .vand _ vd va vb => completes (runVand e vd va vb)
  | .vor _ vd va vb => completes (runVor e vd va vb)
  | .vxor _ vd va vb => completes (runVxor e vd va vb)
  | .vshl _ vd va vb => completes (runVshl e vd va vb)
  | .vshr _ vd va vb => completes (runVshr e vd va vb)
  | .vsra _ vd va vb => completes (runVsra e vd va vb)
  | .vmin _ vd va vb fn => completes (runVmin e vd va vb fn)
  | .vmax _ vd va vb fn => completes (runVmax e vd va vb fn)
  | .vfops _ vd va _ fn => completes (runVfops e vd va fn)
  | .viops _ vd va _ fn => completes (runViops e vd va fn)
  | .vfcmp _ md va vb cond => completes (runVfcmp e md va vb cond)
  | .vcmp _ md va vb cond => completes (runVcmp e md va vb cond)
  | .vmlog _ md ma mb fn => completes (runVmlog e md ma mb fn)
  | .vact _ ma => completes (runVact e ma)
  | .vany _ pd ma => completes (runVany e pd ma)
  | .vall _ pd ma => completes (runVall e pd ma)
  | .vmpop _ d ma => completes (runVmpop e d ma)
  | .vsel _ vd va vb mk => completes (runVsel e vd va vb mk)
  | .vfred _ vd va sb fn => completes (runVfred e vd va sb fn)
  | .vred _ vd va sb fn => completes (runVred e vd va sb fn)
  | .vfscan _ vd va fn => completes (runVfscan e vd va fn)
  | .vbcs _ vd _ fn => completes (runVbcs e vd fn)
  | .vbcl _ vd va _ => completes (runVbcl e vd va)
  | .vperm _ vd va vb => completes (runVperm e vd va vb)
  | .vrot _ vd va _ fn => completes (runVrot e vd va fn)
  | .vext _ vd va sb fn => completes (runVext e vd va sb fn)
  | .vins _ vd va _ => completes (runVins e vd va)
  | .vmov _ vd va => completes (runVmov e vd va)
  | .vmovMaskToReg _ vd va => completes (runVmovMaskToReg e vd va)
  | .vmovRegToMask _ vd va => completes (runVmovRegToMask e vd va)
  | .vmovi _ vd imm => completes (runVmovi e vd imm)
  | .viota _ vd fn => completes (runViota e vd fn)
  | .vcvt _ vd va tag sat rnd => completes (runVcvt e vd va tag sat rnd)
  | .vtag _ vd va tag => completes (runVtag e vd va tag)
  | .vamo _ vd _ space _ fmt _ vx op => completes (runVamo e vd space fmt vx op)
  | .vld _ vd _ space fe fmt _ => completes (runVld e vd space fe fmt)
  | .vst _ vd _ space fe fmt _ => completes (runVst e vd space fe fmt)
  | .vldx _ vd _ space fe fmt _ vx => completes (runVldx e vd space fe fmt vx)
  | .vstx _ vd _ space fe fmt _ vx => completes (runVstx e vd space fe fmt vx)
  | .vldl _ vd _ _ _ fmt _ => completes (runVldl e vd fmt)
  | .vstl _ vd _ _ _ fmt _ => completes (runVstl e vd fmt)
  | .mcfg _ gang => completes (runMcfg e gang)
  | .mldw _ g fmt _ space _ vq k0 n1 whole => completes (runMldw e g fmt space vq k0 n1 whole)
  | .mldws _ g fmt _ space _ _ k0 n1 whole => completes (runMldws e g fmt space k0 n1 whole)
  | .mswap _ g all => completes (runMswap e g all)
  | .mmul _ t g rows1 afmt start fin wide _ space fe stride => completes (runMmul e t g rows1 afmt start fin wide space fe stride)
  | .mrd _ t row0 count1 _ space fe stride => runMrd e t row0 count1 space fe stride
  | .mrdv _ t row v => completes (runMrdv e t row v)
  | .mclr _ t d op => completes (runMclr t d op)
  | .mpois _ t => completes (runMpois t)
  | .mrdk _ mac v _ => completes (runMrdk e mac v)
  | .mwrk _ mac v _ => completes (runMwrk e mac v)
  | .mslot _ _ now => completes (runMslot e now)
  | .qcfg _ target axis mode sat dd => completes (runQcfg target axis mode sat dd)
  | .qstv _ _ space v qr _ axisend => completes (runQstv e space v qr axisend)
  | .qstt _ t row0 count1 _ axisend _ space qr stride => completes (runQstt e t row0 count1 axisend space qr stride)
  | .qscl _ d _ => completes (runQscl e d)
  | .qrld _ kind qr _ space fe _ _ => completes (runQrld e kind qr space fe)
  | .qrst _ kind qr _ space fe ord scope => completes (runQrstOrd e kind qr space fe ord scope)
  | .qrclr _ kind qr => completes (runQrclr kind qr)
  | .qrmov _ kind qd qa => completes (runQrmov kind qd qa)
  | .qflg _ d clr => completes (runQflg d clr)
  | .lntol _ set _ => completes (runLntol e set)
  | .lnfit _ vp mk fb fn => completes (runLnfit e vp mk fb fn)
  | .lnld _ _ _ space n1 fn => completes (runLnld e space n1 fn)
  | .lnst _ _ _ space n1 => completes (runLnst e space n1)
  | .lnstTable _ _ space kind => completes (runLnstTable e space kind)
  | .lnchk _ md t row0 count1 fset => completes (runLnchk e md t row0 count1 fset)
  | .lnapl _ vd t row fix fb => completes (runLnapl e vd t row fix fb)
  | .lncor _ vd t row grad fb => completes (runLncor e vd t row grad fb)
  | .lnrfl _ d _ space n1 => completes (runLnrfl e d space n1)
  | .lncnt _ vd fb clr => completes (runLncnt vd fb clr)
  | .lnclrCounts _ set => completes (runLnclrCounts set)
  | .lnclrList _ => completes runLnclrList
  | .lnclrLines _ set => completes (runLnclrLines set)
  | .lnfold _ vd va _ col acc => completes (runLnfold e vd va col acc)
  | .srec _ slot _ space => completes (runSrec e slot space)
  | .cpyLinear _ _ dsp _ ssp _ dfe sfe => runCpyLinear e dsp ssp dfe sfe
  | .cpyPattern _ dslot sslot _ dfe sfe => runCpyPattern e dslot sslot dfe sfe
  | .cpymLinear _ _ dsp _ ssp _ dfe sfe _ => runCpyLinear e dsp ssp dfe sfe
  | .cpymPattern _ dslot sslot _ dfe sfe _ => runCpyPattern e dslot sslot dfe sfe
  | .cwin _ slot _ space _ _ _ => runCwin e slot space
  | .cadv _ slot _ _ nh => runCadv e slot nh
  | .cgath _ _ space _ ispace _ esz _ rfe => runCgath e space ispace esz rfe
  | .cscat _ _ space _ ispace _ esz lfe rfe => runCscat e space ispace esz lfe rfe
  | .cred _ _ dsp _ ssp _ fmt dfe sfe => runCred e dsp ssp fmt dfe sfe
  | .cvqxBook _ _ ssp sfe => completes (runCvqxBook e ssp sfe)
  | .cvqxExpand _ _ dsp _ ssp _ dfe sfe => runCvqxExpand e dsp ssp dfe sfe
  | .sisect _ d sp _ ka kb out _ spa spb _ osp => runSisect e d sp ka kb out spa spb osp
  | .cseq _ d cls which => completes (runCseq e d cls which)
  | .fence _ scope => completes (runFence scope)
  | .xfence _ ca _ scope => completes (runXfence ca scope)
  | .ldaq _ r size _ space fe _ => completes (runLdaq e r size space fe)
  | .ldaqHandle _ r size _ _ _ => completes (runLdaqHandle e r size)
  | .strl _ _ size _ space fe scope => completes (runStrl e size space fe scope)
  | .strlHandle _ _ size _ _ scope => completes (runStrlHandle e size scope)
  | .amo _ d g size loc ord scope _ op => completes (runAmo e d g size loc ord scope op)
  | .cas _ d g size loc ord scope _ _ => completes (runCas e d g size loc ord scope)
  | .bar _ group d scope => runBar group d scope
  | .waitseq _ d _ cls scope => completes (runWaitseq e d cls scope)
  | .wfe _ => completes runWfe
  | .sev _ kind strand core scope => completes (runSev kind strand core scope)
  | .slpat _ _ => runSlpat e
  | .trn _ h _ => completes (runTrn e h)
  | .probe _ h _ acc => completes (runProbeWord e h acc)
  | .hvld _ pd _ d => completes (runHvld e pd d)
  | .trig _ => completes runTrig
  | .exit _ => completes runExit
  | .trap _ code => completes (runTrap e code)
  | .eret _ => pure true
  | .task _ d _ space _ => completes (runTask e d space)
  | .tokq _ d _ _ => completes (runTokq e d)
  | .trc _ _ _ code => completes (runTrc e code)
  | .drain _ scope => completes (runDrain scope)
  | .invqIssue _ d _ _ => completes (runInvqIssue e d)
  | .invqAck _ d => completes (runInvqAck d)
  | .mchkPop _ d _ _ _ => completes (runMchkPop e d)
  | .mchkInject _ cls => completes (runMchkInject cls)
  | .ctxsvStrand _ d _ _ _ => completes (runCtxsvStrand e d)
  | .ctxsvCore _ d _ _ _ => completes (runCtxsvCore e d)
  | .ctxldStrand _ d _ _ _ => completes (runCtxldStrand e d)
  | .ctxldCore _ d _ _ _ => completes (runCtxldCore e d)
  | .slotTableApply => pure true
  | .slotBoundary => pure true
  | .sleepDeadline => pure true
  | .trnResultLands _ _ => pure true
  | .invalidateBroadcast => pure true
  | .invalidateAcknowledge => pure true
  | .trapEntry _ => pure true
  | .fatalContextError _ _ => pure true
  | .machineCheck _ => pure true
  | .fullEmptyWake => pure true
  | .nearBufferDrain => pure true
  | .nearBufferForcedDrain => pure true
  | .remoteRequest _ => pure true
  | .retryReissue => pure true
  | .partnerLost _ _ => pure true
  | .reset _ => pure true
  | .recoveryImage _ _ => pure true
  | .launchDoorbell _ _ => pure true
  | .taskRecordLaunch _ => pure true
  | .releaseHeldNode _ => pure true
  | .cancelHeldNode _ => pure true
  | .configureExpertQueue _ => pure true
  | .nodePlacement _ => pure true
  | .nodeCompletion _ => pure true
  | .expertQueueTimeout _ => pure true
  | .expertQueueFire _ => pure true
  | .energyIntegration => pure true
  | .energyIntervalStart => pure true
  | .energyConfig _ _ => pure true
  | .stateSummary _ => pure true
  | .ptpMessage _ => pure true
  | .holdoverExpiry => pure true
  | .traceRecordMove => pure true
  | .hbmParityAlert _ _ _ _ _ => pure true
  | .hbmScrub _ => pure true
  | .criticalTemperature _ => pure true
  | .selfRefreshExit _ => pure true
  | .stallReport _ => pure true
  | .launchQueueBinding _ _ => pure true
  | .abandonFlitArrival _ _ => pure true
  | .noBetterClockAnnounced => pure true
  | .attestationReport => pure true

/-! ## Who is next (R49, R50) -/

/-- The head word of a strand for an engine is ready: nothing holds it, and it does not wait (R49).  Answers it. -/
def State.readyHead (s : State) (k : Fin 4) (g : Engine) : Option QEntry :=
  let t : State := { s with cur := k }
  match t.me.head g [] t.me.queue with
  | none => none
  | some (before, e) =>
    if t.me.placed.isSome && t.readyIn before e &&
        (match runWord e.instr e t with | .error x => !x.waits | .ok _ => true) then some e
    else none

/-- No strand that comes before the current one, counted from the strand that engine `g` served last, has a ready head that
`f` admits (R49). -/
def State.turn (s : State) (g : Engine) (f : Instr → Bool) : Bool :=
  let last := s.served[engineNumber g]
  (List.finRange 4).all fun k =>
    decide ((s.cur - last - 1).val ≤ (k - last - 1).val) || !((s.readyHead k g).map fun e => f e.instr).getD false

/-- The matrix engine takes a word of the current strand in this cycle (R50): an open chain's owner first; in an owned slot its
owner, else another strand's word that opens no chain; in an open slot the strands in turn. -/
def State.matrixTurn (s : State) (i : Instr) : Bool :=
  if s.matrixStores then false
  else match s.matrix.chain with
  | some c => decide (c.owner = s.cur)
  | none =>
    match s.slotOwner with
    | none => s.turn .matrix fun _ => true
    | some k =>
      decide (k = s.cur) ||
      ((s.readyHead k .matrix).isNone && !startsChain i && s.turn .matrix fun j => !startsChain j)

/-- The words that the core's copy engine has in flight, those that outlive their slots among them (R228). -/
def State.copiesInFlight (s : State) : Nat :=
  ((s.strands.toList ++ s.orphans.map (·.strand)).map fun st => st.gather.length + st.moving.length).sum

/-- An engine takes a word of the current strand in this cycle: the vector engine is the strand's own, a word that has begun
has been taken, the shared engines serve the strands in turn (R49, R50), and the copy engine has up to 8 words in flight (R228). -/
def State.takes (s : State) (before : List QEntry) (e : QEntry) : Bool :=
  match e.instr.eng with
  | some .vector => true
  | none => true
  | some g => s.me.hasBegun before e ||
      (if g = .matrix then s.matrixTurn e.instr
       else s.turn g (fun _ => true) && (decide (g ≠ .copy) || decide (s.copiesInFlight < 8)))

/-- A queued word of the current strand, behind the unfinished words `before`, is ready, and its engine takes it. -/
def State.ready (s : State) (before : List QEntry) (e : QEntry) : Bool := s.readyIn before e && s.takes before e

/-- A shared engine has served the current strand (R49). -/
def State.serve (s : State) (i : Instr) : State :=
  match i.eng with
  | none | some .control | some .vector => s
  | some g => { s with served := s.served.set (engineNumber g).val s.cur (engineNumber g).isLt }

/-- The same for a word that its engine has just taken: one that it had begun before holds no turn (R49). -/
def State.serveNew (s : State) (begun : Bool) (i : Instr) : State := if begun then s else s.serve i

/-! ## One pass over the queues -/

/-- The trace record of a word that begins, unless it has begun before (R345). -/
def State.traceBegin (s : State) (st : Strand) (begun : Bool) (e : QEntry) : State :=
  if begun then s else s.traceFor st e.instr.cls 1 (e.pc.setWidth 64) (e.head.setWidth 64)

/-- A word has finished: the counters of its class (R220) and its trace record (R345); `st` is the strand as it was.
(DEDUCED: assumption 68.) -/
def State.finished (s : State) (st : Strand) (e : QEntry) : State :=
  (s.updMe fun u => u.completed e.instr e.num).traceFor st e.instr.cls 2 (e.pc.setWidth 64) (e.head.setWidth 64)

/-- The state with the current strand's queue replaced. -/
def State.setQueued (s : State) (q : List QEntry) : State := s.updMe fun st => { st with queue := q }

/-- The pipeline at a word: a shared-engine word of R48 is a drain point, unless a later vector word that issued already has
drained the pipeline before itself (R54).  (DEDUCED: assumption 63.) -/
def State.drainFor (s : State) (e : QEntry) : State :=
  if (isCovered e.instr || drainsPipe e.instr) && !e.passed then s.updMe Strand.drainPipe else s

/-- The words behind which a word has issued: a vector word is marked as having passed them. -/
def passBy (e : QEntry) (before : List QEntry) : List QEntry :=
  if e.instr.eng = some .vector then before.map fun b => { b with passed := true } else before

/-- A TRAP or a PROBE: its own trap is precise, and it is no entry of the frame (R251, R239). -/
def preciseTrap : Instr → Bool
  | .trap _ _ => true
  | .probe .. => true
  | _ => false

/-- The words that a trap withdraws (R246, R248): the faulting one marked.  A PROBE at which the splitter stands is not among
them; one that came from a frame is, unless it faults itself (R239). -/
def withdrawn (passing : Bool) (before : List QEntry) (e : QEntry) (rest : List QEntry) : List (QEntry × Bool) :=
  let mark (l : List QEntry) : List (QEntry × Bool) := (l.filter fun b => !(passing && b.isProbe)).map fun b => (b, false)
  mark before ++ (if preciseTrap e.instr then [] else [(e, true)]) ++ mark rest

/-- Where the strand resumes after the trap of a queued word (R246): where the splitter stands, but at a PROBE of a frame that
faults (R239).  (DEDUCED: assumption 24.) -/
def Strand.resumeAfter (st : Strand) (e : QEntry) : BitVec 32 := if e.isProbe && !st.passing then e.pc else st.pc

/-- The trap of a queued word (R246, R248).  The splitter stands at a PROBE until it completes: whether it faults itself or an
earlier word traps, it is where the strand resumes, and its iteration and transfer stand (R239).
(DEDUCED: assumption 24.) -/
def State.trapQueued (s : State) (c : UserCause) (before : List QEntry) (e : QEntry) (rest : List QEntry) : State :=
  let st := s.me
  (s.updMe Strand.unsplitProbe).takeTrap c e.instr e.pc (st.resumeAfter e) (withdrawn st.passing before e rest)

/-- What the machine does with a stop of a queued word (R210, R234, R246, R320, R323); none when the word waits, and when a trap
waits for a word that has begun (R248). -/
def State.stopInEngine (s : State) (before : List QEntry) (e : QEntry) (rest : List QEntry) : Stop → Option Result
  | .wait _ | .held _ => none
  | .user c => if s.me.busy then none else some (.next (s.trapQueued c before e rest))
  | .fatal c addr => some (.next (s.fatalError c e.instr e.pc addr))
  | .check c addr => some (.next ((s.disarmed e.instr.cls c).machineCheck c e.instr e.pc addr (some e)))
  | .cim c => some (.next ((s.updMe fun st => st.without e).checked (s.cimReport c e.instr e.pc)))
  | .absent => some (.fault .absentMainMemory)

/-- The cycles of Table 9 that a load of planes takes before it has checked its metadata, without the access time of its space
(R178).  (DEDUCED: assumption 4.) -/
def loadCycles (arr : BitVec 2) : Instr → Nat
  | .mldw _ _ _ _ _ _ vq _ n1 whole =>
    let n := if whole = 1 then 128 * gangK arr else n1.toNat + 1
    ((if vq = 1 then 16 else 64) * n + 255) / 256
  | .mldws _ _ fmt _ _ _ _ _ n1 whole =>
    let n := if whole = 1 then 128 * gangK arr else n1.toNat + 1
    (64 * n + 255) / 256 + ((n + 15) / 16 * (if fmt = 11 then 128 else 64) + 63) / 64
  | _ => 0

/-- A word that stops in the step of its split stops in its strand's next step, as the word after it is split: it begins
after the cycle of its split (R42).  The words that stop the splitter are performed at once, a load of planes takes its
cycles, and a fault that MCHK armed strikes a word as it begins, before the next word of its strand (R335).
(DEDUCED: assumption 4.) -/
def QEntry.defers (e : QEntry) (arr : BitVec 2) (cycle : Nat) (x : Stop) : Bool :=
  let struck := match x with | .check (.residue true) _ => true | _ => false
  !x.waits && !struck && ((e.fresh && !blocksSplitter e.instr) || decide (cycle < e.since + loadCycles arr e.instr))

/-- A waiting word takes its place among the waiting accesses (R210), and its stack holds its request (R328). -/
def State.waitFor (s : State) (e : QEntry) : Stop → State
  | .wait w => s.await e.instr.cls w
  | .held k => s.hold k
  | _ => s

/-- A word that its engine takes is run: what it answers, before its faults and waits are dealt with (R317, R335, R345). -/
def State.attemptWord (s : State) (begun : Bool) (e : QEntry) : Except Stop (Bool × State) :=
  struck begun e.instr.cls (runWord e.instr e) (((s.drainFor e).meetSoft e.instr e.pc).traceBegin s.me begun e)

/-- The state in which a word has stopped: its engine has begun it, unless its class checks before it begins (R228). -/
def State.begunStop (s : State) (begun : Bool) (e : QEntry) : State :=
  let s := s.meetSoft e.instr e.pc
  if e.instr.copyNumbered || e.instr.netNumbered then s else s.traceBegin s.me begun e

/-- What an attempt to run a queued word comes to: it ends, it stays queued, or it ends the pass. -/
inductive Tried where
  | ends (t : State)
  | stays (t : State)
  | over (r : Result)

/-- A word that its engine takes: it runs, and its faults and waits are dealt with. -/
def State.tryWord (s : State) (before : List QEntry) (e : QEntry) (rest : List QEntry) : Tried :=
  let begun := s.me.hasBegun before e
  match s.attemptWord begun e with
  | .ok (true, t) => .ends ((t.finished s.me e).serveNew begun e.instr)
  | .ok (false, t) => .stays (t.serveNew begun e.instr)
  | .error x =>
    if e.defers s.matrix.gang s.cycle x then .stays s
    else match (if x.waits then s else s.begunStop begun e).stopInEngine before e rest x with
      | some r => .over r
      | none => .stays (s.waitFor e x)

/-- An access that waits on full-empty bits could be performed now, in the order of R210. -/
def State.wakes (s : State) : Bool :=
  s.rivals.any fun r => !r.granules.isEmpty && s.allFull r.granules && (!r.take || s.takeFree r.order r.granules)

/-- One pass of the engines over the current strand's unfinished words, in program order: `before` are those that stay.  When a word
has filled granules for which an access waits, the pass ends, and that access is performed first (R210).
(DEDUCED: assumption 4, DESIGN CHOICE: assumption 5.) -/
def sweep : (before rest : List QEntry) → State → Result
  | before, [], s => .next (s.setQueued before)
  | before, e :: rest, s =>
    let s := s.setQueued (before ++ e :: rest)
    if s.ready before e then
      match s.tryWord before e rest with
      | .ends t =>
        let left := passBy e before
        if t.me.placed.isNone then .next t
        else if t.wakes then .next (t.setQueued (left ++ rest))
        else sweep left rest t
      | .stays t => if t.wakes then .next (t.setQueued (before ++ e :: rest)) else sweep (before ++ [e]) rest t
      | .over r => r
    else sweep (before ++ [e]) rest s

/-- The engines take every ready word of the current strand. -/
def State.runEngines (s : State) : Result := sweep [] s.me.queue s

/-! ## Waking (R210) -/

/-- The effect of a control word that can wait on full-empty bits. -/
def splitBody : Instr → Option (M Unit)
  | .ldsW _ r a space fe imm => some (runLds 4 r a space fe imm)
  | .ldsD _ r a space fe imm => some (runLds 8 r a space fe imm)
  | _ => none

/-- A queued word is the one that waits: of a network word by its number, else the first of its class that has not begun. -/
def Waiter.waitsFor (w : Waiter) (e : QEntry) : Bool :=
  decide (e.instr.cls = w.cls) && (decide (w.cls ≠ 6) || decide (w.num = 0) || decide (e.num = w.num))

/-- The queued word that waits, with the words before and after it. -/
def Strand.waiting (st : Strand) (w : Waiter) : (before rest : List QEntry) → Option (List QEntry × QEntry × List QEntry)
  | _, [] => none
  | before, e :: t =>
    if w.waitsFor e && (decide (w.num ≠ 0) || !st.hasBegun before e) then some (before, e, t)
    else st.waiting w (before ++ [e]) t

/-- A waiting access of the core is tried (R210): that of a queued word, else of the control word at the splitter. -/
def State.wakeOne (s : State) (w : Waiter) : Result :=
  let t : State := { s with cur := w.strand }
  let back (r : Result) : Result := match r with
    | .next u => .next { u with cur := s.cur }
    | r => r
  match t.me.waiting w [] t.me.queue with
  | some (before, e, rest) =>
    back (match t.tryWord before e rest with
      | .ends u => if u.me.placed.isNone then .next u else .next (u.setQueued (passBy e before ++ rest))
      | .stays u => .next u
      | .over r => r)
  | none =>
    match t.me.atSplit.bind fun x => (splitBody x.instr).map fun m => (x.instr, m) with
    | some (i, m) => back (control i m t)
    | none => .next s

/-- One round of waking: the wait-accesses first, from outside too, then the takes in their order. -/
def State.wakeRound (s : State) : Result :=
  let due (take : Bool) (s : State) : List Waiter := s.waiters.filter fun w => (w.take == take) && s.allFull w.granules
  let all (ws : List Waiter) (r : Result) : Result :=
    ws.foldl (fun r w => match r with | .next u => u.wakeOne w | r => r) r
  match all (due false s) (.next s) with
  | .next t =>
    let t := State.serveRemote t.sys.remoteWaits.length 0 t
    all (due true t) (.next t)
  | r => r

/-- When granules become full, the accesses that wait for them are performed, before anything else can empty them (R210). -/
def State.wake : Nat → State → Result
  | 0, s => .next s
  | n + 1, s =>
    if s.wakes then
      match s.wakeRound with
      | .next t => State.wake n t
      | r => r
    else .next s

/-! ## Engine words at the splitter (R40, R41) -/

/-- An engine word: its waits, its split, and the engines' pass in the same step. -/
def issue (i : Instr) (s : State) : Result :=
  let st := s.me
  if st.blocked then .next s
  else match st.heldReg i.uses with
  | some d => .next (s.fatalError (.handlerFault d) i st.pc 0)
  | none =>
    if st.pends i.uses then .next (s.settlePending i.uses)
    else if !st.roomFor i then .next s
    else match s.splitTrap i with
      | some c => .next (s.takeTrap c i st.pc st.pc (st.queue.map fun e => (e, false)))
      | none => (s.split i).runEngines

end Sys2Proof.Machine
end

