-- ==== Sys2Proof/Machine/Return.lean ====
section
/-! DEFINITION. Return from a trap (R242, R252, R253): the frame is read, checked, and restored, and its entries re-enter their
queues one at a time. -/

namespace Sys2Proof.Machine

/-! ## Reading the frame (R250) -/

/-- n bytes of a frame at an offset, as a number. -/
def field (f : List Byte) (off n : Nat) : Nat := leNat ((f.drop off).take n)

/-- A list of bytes is zero. -/
def zeroBytes (l : List Byte) : Bool := l.all fun b => decide (b = 0)

/-- The bytes of the frame's head that Table 2 shows as zero. -/
def headZero (f : List Byte) : Bool :=
  decide (field f 0x004 4 = 0) && decide (field f 0x01E 2 = 0) && decide (field f 0x025 1 = 0) &&
  zeroBytes ((f.drop 0x02C).take 20)

/-- The quantiser configuration of a frame, when QCFG accepts it (R106, R107, R252).  (DEDUCED: assumption 65.) -/
def frameCfg (f : List Byte) : Option QCfg :=
  let x : BitVec 32 := BitVec.ofNat 32 (field f 0x028 4)
  let c : QCfg := ⟨x.extractLsb' 17 4, x.extractLsb' 16 1, x.extractLsb' 14 2, x.extractLsb' 13 1, x.extractLsb' 10 3⟩
  if x.extractLsb' 21 11 = 0 ∧ x.extractLsb' 0 10 = 0 ∧ qcfgOk c.target c.axis c.mode = true then some c else none

/-- Level k of a frame (R250, Table 3). -/
def frameLoop (f : List Byte) (k : Nat) : Loop :=
  let b := 0x280 + 64 * k
  let w (off : Nat) : BitVec 32 := BitVec.ofNat 32 (field f (b + off) 4)
  let fl := w 0x10
  { active := fl.getLsbD 0, start := w 0, fin := w 4, count := w 8, iter := w 12, brk := fl.getLsbD 1
    interlocked := fl.getLsbD 2, stride := Vector.ofFn fun a => w (0x14 + 4 * a.val) }

/-- The checks of R252 on a level by itself. -/
def frameLoopOk (f : List Byte) (k : Nat) : Bool :=
  let b := 0x280 + 64 * k
  let fl : BitVec 32 := BitVec.ofNat 32 (field f (b + 0x10) 4)
  let l := frameLoop f k
  decide (fl.extractLsb' 3 5 = 0) && decide (fl.extractLsb' 16 16 = 0) && zeroBytes ((f.drop (b + 0x34)).take 12) &&
  ((List.finRange 8).all fun a => fl.getLsbD (8 + a.val) == decide (l.stride[a] ≠ 0)) &&
  (if l.active then
    decide (l.start.toNat % 4 = 0) && decide (l.fin.toNat % 4 = 0) && decide (l.start ≤ l.fin) && decide (1 ≤ l.iter) &&
    decide (l.iter ≤ l.count)
  else
    decide (l.start = 0) && decide (l.fin = 0) && decide (l.count = 0) && decide (l.iter = 0) && decide (fl.extractLsb' 0 3 = 0))

/-- The active levels are levels 0 to d − 1, each within the body of the level below it (R252). -/
def nested : List Loop → Bool
  | [] => true
  | [_] => true
  | a :: b :: t =>
    (!b.active || (a.active && decide (a.start ≤ b.start) && decide (b.fin ≤ a.fin))) && nested (b :: t)

/-- The loop levels of a frame, when R252 accepts them. -/
def frameLoops (f : List Byte) : Option (Vector Loop 6) :=
  let ls := (List.range 6).map (frameLoop f)
  if (List.range 6).all (frameLoopOk f) && nested ls then some (Vector.ofFn fun k => frameLoop f k.val) else none

/-- A handle in its saved form (R250); none when its state is no state.  (DEDUCED: assumption 65.) -/
def frameHandle (x : Nat) : Option Handle :=
  let page : BitVec 40 := BitVec.ofNat 40 x
  let asid : BitVec 16 := BitVec.ofNat 16 (x / 2 ^ 40)
  let st : Option HState := match x / 2 ^ 57 with
    | 0 => some .empty
    | 1 => some .valid
    | 2 => some .notFound
    | 3 => some .late
    | 4 => some .revoked
    | _ => none
  st.map fun st => { Handle.none with state := st, large := decide (x / 2 ^ 56 % 2 = 1), asid := asid, page := page }

/-- Captured values of the shapes of a list, read from bytes: the values and the bytes that follow them. -/
def readCaps : List Cap → List Byte → Option (List Cap × List Byte)
  | [], b => some ([], b)
  | c :: t, b =>
    let (x, n) : Option Cap × Nat := match c with
      | .s _ => (some (.s (BitVec.ofNat 64 (field b 0 8))), 8)
      | .a _ => (some (.a (BitVec.ofNat 32 (field b 0 4))), 4)
      | .ring _ _ _ =>
        (some (.ring (BitVec.ofNat 32 (field b 0 4)) (BitVec.ofNat 32 (field b 4 4)) (BitVec.ofNat 23 (field b 8 4))), 12)
      | .h _ => ((frameHandle (field b 0 8)).map .h, 8)
      | .t _ => (some (.t (BitVec.ofNat 64 (field b 0 8))), 8)
      | .n _ => (some (.n (BitVec.ofNat 32 (field b 0 4))), 4)
    match x, readCaps t (b.drop n) with
    | some x, some (xs, r) => some (x :: xs, r)
    | _, _ => none

/-- The words under which an entry is decoded: a CPYM's follow-on is an entry of its own, so a matrix word with the CPYM's
qualifier stands in for it. -/
def entryWords (head cont : Word) : List Word :=
  if head.extractLsb' 29 3 = 5 ∧ head.extractLsb' 21 6 = 2 then
    [head, (2#3 ++ head.extractLsb' 27 2 ++ 0#27 : Word)]
  else if headLength head [] = 2 then [head, cont] else [head]

/-- An engine word of ENG 1 to 6 that a frame may hold. -/
def entryEngine (i : Instr) : Bool :=
  match i with
  | .eret _ => false
  | i => match i.eng with
    | some .control => false
    | some _ => true
    | none => false

/-- The group of a BAR is one of the strand's group ids (R285). -/
def Strand.groupOk (st : Strand) (i : Instr) : Bool :=
  match i with
  | .bar _ g _ _ => (st.groupIndex g).isSome
  | _ => true

/-- A held entry is a matrix word other than MSLOT (R17, R252). -/
def heldOk (i : Instr) : Bool := decide (i.eng = some .matrix) && (match i with | .mslot _ _ _ => false | _ => true)

/-- The slot table that an MSLOT captured is one it accepts (R175). -/
def capturedOk (i : Instr) (caps : List Cap) : Bool :=
  match i, caps with
  | .mslot _ _ _, [.s v] => slotTableOk v
  | _, _ => true

/-- Entry k of a frame (R250, Table 4), when R252 accepts it; `cfg` is the configuration under which it will run. -/
def Strand.frameEntry (st : Strand) (cfg : QCfg) (f : List Byte) (k : Nat) : Option QEntry :=
  let b := 0x400 + 64 * k
  let head : Word := BitVec.ofNat 32 (field f b 4)
  let cont : Word := BitVec.ofNat 32 (field f (b + 4) 4)
  let pc := field f (b + 8) 4
  let words := entryWords head cont
  let two := decide (headLength head [] = 2)
  match decode st.priv words with
  | .error _ => none
  | .ok i =>
    if !entryEngine i || !(two || decide (cont = 0)) || !st.groupOk i then none
    else
      match readCaps (i.capture st 0 (isBlockTag cfg.target)) ((f.drop (b + 12)).take 52) with
      | none => none
      | some (caps, rest) =>
        let held := decide (pc % 2 = 1)
        if zeroBytes rest && capturedOk i caps && (!held || heldOk i) then
          some { instr := i, pc := BitVec.ofNat 32 (pc / 4 * 4), caps := caps, held := held, interlocked := false
                 root := st.root, counted := [], drain := false, passed := false, fresh := false, num := 0, since := 0 }
        else none

/-- Entries k, k + 1, … of a frame, n of them. -/
def Strand.frameEntries (st : Strand) (f : List Byte) : QCfg → Nat → Nat → Option (List QEntry)
  | _, _, 0 => some []
  | cfg, k, n + 1 =>
    match st.frameEntry cfg f k with
    | none => none
    | some e => (st.frameEntries f (cfgAfter cfg [e]) (k + 1) n).map fun t => e :: t

/-- A held follow-on stands directly after its CPYM, or its CPYM has been removed (R252): no CPYM whose follow-on it is stands
elsewhere in the frame without one. -/
def followsOk (es : List QEntry) : Bool :=
  let pairs := (none :: es.map some).zip (es.map some ++ [none])
  let loose := pairs.filterMap fun x => match x with
    | (c, some e) => if e.held && !((c.map fun c => c.holds e).getD false) then some e else none
    | _ => none
  let bare := pairs.filterMap fun x => match x with
    | (some c, e) => if c.isCpym && !((e.map fun e => e.held && c.holds e).getD false) then some c else none
    | _ => none
  loose.all fun e => bare.all fun c => !c.holds e

/-- The first number after `n` whose word has not completed. -/
def nextNumber : Nat → BitVec 32 → List (BitVec 32) → BitVec 32
  | 0, n, _ => n + 1
  | k + 1, n, late => if n + 1 ∈ late then nextNumber k (n + 1) late else n + 1

/-- The copy and network words of a frame keep their numbers: they are those that follow the completed counters, in the order of
the entries, without the numbers of words that have completed since (R220, R250). -/
def numbered (st : Strand) : BitVec 32 → BitVec 32 → List QEntry → List QEntry
  | _, _, [] => []
  | c, n, e :: t =>
    if e.instr.copyNumbered then
      let k := nextNumber st.copyLate.length c st.copyLate
      { e with num := k } :: numbered st k n t
    else if e.instr.netNumbered then
      let k := nextNumber st.netLate.length n st.netLate
      { e with num := k } :: numbered st c k t
    else e :: numbered st c n t

/-! ## ERET (R252) -/

/-- What a fit frame holds. -/
structure Frame where
  resume  : BitVec 32
  xfer    : Option Transfer
  cfg     : QCfg
  q       : Vector (BitVec 32) 16
  qv      : Vector (BitVec 1024) 4
  loops   : Vector Loop 6
  entries : List QEntry

/-- The frame of the current strand's handler, when it passes every check of R252, step 2.  (DEDUCED: assumption 56.) -/
def State.readFrame (s : State) : Option Frame :=
  let st := s.me
  match s.resolve 0 st.trapframe.toNat 4096 with
  | none => none
  | some p =>
    let f := cellsRead s.mem p 4096
    let xt : BitVec 32 := BitVec.ofNat 32 (field f 0x018 4)
    let xl := field f 0x01C 1
    let n := field f 0x01D 1
    if field f 0 4 % 4 ≠ 0 ∨ xt.toNat % 4 ≠ 0 ∨ 2 < xl ∨ 48 < n ∨ headZero f = false then none
    else
      match frameCfg f, frameLoops f with
      | some cfg, some loops =>
        ((st.frameEntries f cfg 0 n).filter followsOk).map fun es =>
          { resume := BitVec.ofNat 32 (field f 0 4)
            xfer := if xl = 0 then none else some ⟨xt, xt, xl, true⟩
            cfg := cfg
            q := Vector.ofFn fun k => BitVec.ofNat 32 (field f (0x040 + 4 * k.val) 4)
            qv := Vector.ofFn fun k => BitVec.ofNat 1024 (field f (0x080 + 128 * k.val) 128)
            loops := loops
            entries := es }
      | _, _ => none

/-- An ERET whose last entry has been placed ends (R252, step 6): it has completed (R345). -/
def State.endReturn (s : State) : State :=
  match s.me.returning with
  | none => s
  | some (n, pc, head) =>
    if s.me.inject.isEmpty then
      ((s.updMe fun st => { st with intrap := false, returning := none }).traceEvent 0 4 (s.me.pc.setWidth 64)
        (BitVec.ofNat 64 n)).traceEvent 0 2 (pc.setWidth 64) (head.setWidth 64)
    else s

/-- The strand restored from its frame (R252, steps 3 to 5) by the ERET `i` at its PC, its entries waiting for their places: their handles are
re-translated, and they take the vector mode of the resume point.  (DEDUCED: assumption 64.) -/
def State.restoreFrame (s : State) (i : Instr) (f : Frame) : State :=
  let st := s.me
  let t : Strand := { st with
    pc := f.resume, xfer := f.xfer, qcfg := f.cfg, q := f.q, qv := f.qv, loops := f.loops
    heldS := 0, heldP := 0, heldH := 0, trcs := [], returning := some (f.entries.length, st.pc, (encode i).headD 0) }
  let es := (numbered st st.copyDone st.netDone f.entries).map fun e =>
    { s.reenter st.root e with interlocked := t.interlocked }
  s.setMe { t with inject := es }

/-- ERET (R252): outside a handler it is the illegal instruction of test 11 (R32); as a control word that begins at split it may
be struck by a fault that MCHK armed (R335), and its read of the frame may meet corrected errors (R317).  (DEDUCED: assumption 56.) -/
def returnFromTrap (i : Instr) (s : State) : Result :=
  let st := s.me
  if st.blocked || s.splitWaits i then .next s
  else if !st.intrap then
    .next (s.takeTrap ⟨0x01, BitVec.ofNat 64 (((encode i).headD 0).toNat * 2 ^ 32 + 0x0B)⟩ i st.pc st.pc [])
  else match s.armed.find? fun a => decide (a = 7) || decide (a = 0) with
  | some _ => .next ((s.disarm 0).machineCheck (.residue true) i st.pc 0)
  | none =>
    let s := ((s.updMe Strand.drainPipe).landTrns false false).meetSoft i st.pc
    match s.readFrame with
    | none => .next (s.fatalError (.handlerFault 2) i st.pc 0)
    | some f =>
      let s := s.traceEvent 0 1 (st.pc.setWidth 64) (((encode i).headD 0).setWidth 64)
      .next (s.restoreFrame i f).endReturn

/-! ## Re-injection (R252, step 5; R336) -/

/-- The next entry that waits for re-injection enters its queue when there is room, its handles re-translated as it does (R242,
R252): a restored or returning strand splits nothing until none waits. -/
def State.injectNext (s : State) : State :=
  match s.me.inject with
  | [] => s
  | e :: t =>
    if s.me.room e.instr 1 then
      let x := { s.reenter s.me.root e with since := s.cycle }
      (s.updMe fun st => { st.enqueue x with inject := t }).endReturn
    else s

end Sys2Proof.Machine
end

