-- ==== Sys2Proof/Machine/Front.lean ====
section
/-! DEFINITION. What happens before an instruction runs (R32, R38, R40, R66, R68): which strand or event moves, the fetch, the decode tests in their order, the iteration qualifier; and what every step adds after it (R50, R337). -/

namespace Sys2Proof.Machine

/-! ## Fetching (R38, R298) -/

/-- What stops the fetch of a line: absent memory, an absent device, or a stack in self-refresh; nothing when the instruction
cache holds it. -/
def State.lineStop (s : State) (p : Nat) : Option Stop :=
  if s.icache.any fun l => decide (l.1 = p / 64) then none
  else match mainReady (p / 64 * 64) 64 s with
    | .ok _ => none
    | .error e => some e

/-- What stops the fetch of n words from a code address on. -/
def State.fetchStop (s : State) (a : Nat) : Nat → Option Stop
  | 0 => none
  | n + 1 =>
    match s.me.placed with
    | none => none
    | some pl =>
      match pl.phys a with
      | none => none
      | some p =>
        match s.lineStop p with
        | some e => some e
        | none => s.fetchStop (a + 4) n

/-- The last code address that an instruction at the PC may use: the end of the innermost active body (R16). -/
def Strand.lastWord (st : Strand) : Nat :=
  match st.innermost with
  | some l => if l.start ≤ st.pc ∧ st.pc ≤ l.fin then l.fin.toNat else 2 ^ 32
  | none => 2 ^ 32

/-- The words at the PC. -/
def State.wordsHere (s : State) : List Word := s.textWords s.me.pc.toNat s.me.lastWord 3

/-! ## Decode tests (R32) -/

/-- The part of test 8 that depends on the strand: privileged control registers (R83), group ids (R285) and the slot table that
an MSLOT names, a reserved field value when it is none (R175).  (DEDUCED: assumption 66.) -/
def Strand.valueOk (st : Strand) (i : Instr) : Bool :=
  match i with
  | .csrr _ _ csr => st.priv || decide (csr.toNat < 0x800)
  | .csrw _ _ csr => st.priv || decide (csr.toNat < 0x800)
  | .mslot _ sa _ => slotTableOk (st.getS sa) || st.heldS.getLsbD sa.toNat
  | i => st.groupOk i

/-- A transfer of control. -/
def isTransfer : Instr → Bool
  | .br .. => true
  | .call .. => true
  | .ret .. => true
  | _ => false

/-- The instruction at `a` is among the last two instructions of a body that ends at `fin` (R66). -/
def State.nearEnd (s : State) (a fin : Nat) : Bool :=
  let b := a + 4 * s.lengthAt a
  decide (fin < b) || decide (fin < b + 4 * s.lengthAt b)

/-- The placements that R66 forbids (test 10). -/
def State.placementBad (s : State) (i : Instr) : Bool :=
  let st := s.me
  let lbrk := match i with | .lbrk .. => true | _ => false
  let loop := match i with | .loop .. => true | _ => false
  (st.xfer.isSome && (isTransfer i || lbrk || loop)) ||
  (isTransfer i && st.loops.toList.any fun l =>
    l.active && decide (l.start ≤ st.pc) && decide (st.pc ≤ l.fin) && s.nearEnd st.pc.toNat l.fin.toNat) ||
  (lbrk && decide (st.depth = 0)) ||
  (match i with
    | .loop _ level _ len _ =>
      decide (level.toNat ≠ st.depth) ||
      (match st.innermost with
        | some l => decide (l.fin.toNat < st.pc.toNat + 4 * len.toNat)
        | none => false)
    | _ => false)

/-- An ERET outside a handler (test 11). -/
def Strand.eretOutside (st : Strand) (i : Instr) : Bool :=
  match i with
  | .eret _ => !st.intrap
  | _ => false

/-- Tests 1 to 4 of R32. -/
def earlyTest : Reason → Bool
  | .strayContinuation => true
  | .privileged => true
  | .unallocated => true
  | .qualifier => true
  | _ => false

/-- The qualifier of a head word names an iteration while no level is active (test 5). -/
def Strand.qualifierBad (st : Strand) (w : Word) : Bool := decide (w.extractLsb' 27 2 ≠ 0) && decide (st.depth = 0)

/-- The tests of R32, Table 15, in their order. -/
def State.tests (s : State) (ws : List Word) : Except Failure Instr :=
  let st := s.me
  let late (r : Except Failure Instr) : Except Failure Instr :=
    if st.qualifierBad (ws.headD 0) then .error (fail .outsideLoop) else r
  match decode st.priv ws with
  | .error f => if earlyTest f.reason && !f.follow then .error f else late (.error f)
  | .ok i =>
    late (if !st.valueOk i then .error (fail .reservedValue)
      else if s.placementBad i then .error (fail .placement)
      else if st.eretOutside i then .error (fail .eretOutside)
      else .ok i)

/-- TRAPDATA of the illegal-instruction trap (R32). -/
def illegalData (head : Word) (f : Failure) : BitVec 64 :=
  BitVec.ofNat 64 (head.toNat * 2 ^ 32 + (if f.follow then 256 else 0) + f.reason.code.toNat)

/-- The iteration qualifier lets the splitter split the word (R68). -/
def Strand.qualified (st : Strand) (i : Instr) : Bool :=
  match i.itq, st.innermost with
  | some .first, some l => decide (l.iter = 1)
  | some .last, some l => decide (l.iter = l.count) || l.brk
  | _, _ => true

/-! ## The splitter at the PC (R32, R40) -/

/-- An instruction that no decode gave, for a record about an address: an event, which has no words.
(DEDUCED: assumption 67.) -/
def noWord : Instr := .fullEmptyWake

/-- A fetch outside the text is fatal context error 0x22 (R298).  (DEDUCED: assumption 67.) -/
def State.outsideText (s : State) (a : Nat) : Result :=
  let va := match s.me.placed with | some pl => pl.codeVa + 64 + a | none => a
  .next (s.fatalError .protection noWord s.me.pc (BitVec.ofNat 64 va))

/-- The registers that the instruction of some words names. -/
def decodedUses (priv : Bool) (ws : List Word) : Uses :=
  match decode priv ws with
  | .ok i => i.uses
  | .error _ => noUses

/-- An instruction whose register decides test 8 waits for it (R46). -/
def State.testWaits (s : State) (ws : List Word) : Bool :=
  match decode s.me.priv ws with
  | .ok (.mslot _ sa _) => s.me.pendS sa
  | _ => false

/-- The code address of a word that a failed test misses because the text ends before it, in a body that goes on (R298, R16).
(DEDUCED: assumption 67.) -/
def State.missedWord (s : State) (f : Failure) : Option Nat :=
  let a := s.me.pc.toNat + (if f.follow then 8 else 4)
  let misses := decide (f.reason = .missingContinuation) || decide (f.reason = .followOn)
  if misses && decide (a ≤ s.me.lastWord) && (s.textWord a).isNone then some a else none

/-- The instruction at the PC, and the state with its lines in the cache; or what happens in its place.
(DEDUCED: assumption 67.) -/
def State.splitNext (s : State) : (Instr × State) ⊕ Result :=
  let s := s.evictLines
  let st := s.me
  let a := st.pc.toNat
  match s.textWord a with
  | none => .inr (s.outsideText a)
  | some w =>
    let n := s.lengthAt a
    match s.fetchStop a n with
    | some .absent => .inr (.fault .absentMainMemory)
    | some (.held k) => .inr (.next (s.hold k))
    | some _ => .inr (.next s)
    | none =>
      if s.testWaits s.wordsHere then .inr (.next (s.settlePending (decodedUses s.me.priv s.wordsHere)))
      else match s.tests s.wordsHere with
      | .error f =>
        match s.missedWord f with
        | some b => .inr (s.outsideText b)
        | none => .inr (.next ((s.cacheText a n).takeTrap ⟨0x01, illegalData w f⟩ noWord st.pc st.pc (st.queue.map fun e => (e, false))))
      | .ok i =>
        let s := s.cacheText a n
        if st.qualified i then .inl (i, s)
        else .inr (.next (s.updMe fun u => u.moveOn st.pc i.words st.xfer))

/-- The splitter of the current strand: entries that wait for re-injection first, then a word that stops it, then the
instruction at the PC. -/
def State.splitter (s : State) : (Instr × State) ⊕ Result :=
  if !s.me.inject.isEmpty then .inr (.next s.injectNext)
  else if s.me.blocked then .inr (.next s)
  else s.splitNext

/-- What a step runs: an event that has arrived, or the instruction at the current strand's PC.
(DESIGN CHOICE: assumption 20.) -/
def State.choose (s : State) : (Instr × State) ⊕ Result :=
  match s.env.inputs with
  | i :: t =>
    let s := { s with env := { s.env with inputs := t } }
    if i.isWord then .inr (.next s) else .inl (i, s)
  | [] =>
    if s.me.placed.isNone then .inr (.next s) else s.splitter

/-- The engines pass over the words of the strand that has moved, unless an access is to wake first (R210). -/
def enginesAfter : Result → Result
  | .next s => if s.me.placed.isSome && !s.wakes then s.runEngines else .next s
  | r => r

/-! ## After every step (R50, R337) -/

/-- A machine check of a word that outlives its slot: the node has been handled, and the check writes its own record (R323). -/
def State.orphanCheck (s : State) (c : CheckCause) (e : QEntry) (addr : BitVec 64) : State :=
  let r := match c with
    | .residue injected => s.residueReport injected e.instr e.pc addr (some e)
    | .poison => s.wordReport 0x11 0 0 e.instr e.pc addr
  (({ s with nfree := s.nfree + 1 } : State).logRecord (s.record r)).chargeNode

/-- A word that outlives its strand slot runs on (R228, R323): what it writes to registers is lost with the strand.  Its accesses
meet soft errors as those of other words do (R317), and a check ends it. -/
def State.runOrphan (s : State) (o : Orphan) : State × Option Orphan :=
  match o.strand.queue with
  | [] => (s, none)
  | e :: _ =>
    let live := s.strands[o.slot]
    let t : State := { s with cur := o.slot, strands := s.strands.set o.slot.val o.strand o.slot.isLt }
    let back (u : State) : State := { u with cur := s.cur, strands := s.strands.set o.slot.val live o.slot.isLt }
    match runWord e.instr e (t.meetSoft e.instr e.pc) with
    | .ok (true, u) => (back u, none)
    | .ok (false, u) => (back u, some { o with strand := u.me })
    | .error (.check c addr) => (back ((t.meetSoft e.instr e.pc).orphanCheck c e addr), none)
    | .error (.held k) => (s.hold k, some o)
    | .error _ => (s, some o)

/-- The words that outlive their strand slots run on; the buffered writes of a withdrawn attempt are dropped once all that it had
begun has ended (R323). -/
def State.runOrphans (s : State) : State :=
  let (t, os) := s.orphans.foldl (fun (acc : State × List Orphan) o =>
    let (t, x) := acc.1.runOrphan o
    (t, acc.2 ++ x.toList)) (s, [])
  State.dropDone { t with orphans := os }

/-- The logs of other dies stand as the environment says (R321, R352). -/
def State.setDieLogs (s : State) (l : List (Nat × LogReport)) : State :=
  let new := l.filter fun x => decide (x.1 ≠ s.die)
  let old := s.sys.dieLogs.filter fun x => !new.any fun y => decide (y.1 = x.1)
  { s with sys := { s.sys with dieLogs := old ++ new } }

/-- What befalls the core from outside as a step ends: other cores and dies and the strands of nodes there move (R302, R331, R352),
lines on the links reach their controllers (R277), accesses that no word made meet corrected errors, and uncorrectable errors
strike (R317).  (DESIGN CHOICE: assumption 80.) -/
def State.outsideMoves (s : State) : State :=
  let others := (s.env.others.headD []).filter fun x => decide (x.1 ≠ s.sys.gcore)
  let t := others.foldl (fun t x => t.setFarCore x.1 x.2) (s.setDieLogs (s.env.dies.headD []))
  let t := t.farMoves (t.env.away.headD [])
  (t.arrive (t.env.arrive.headD t.links.length)).strikeStray.strikeUpsets

/-- Time passes, at three cycles a nanosecond, and the next strand has its turn.  (DESIGN CHOICE: assumption 6.) -/
def State.tick (s : State) : State :=
  let n := s.env.pace.headD 1
  let turn : Fin 4 := s.env.turns.headD (s.cur + 1)
  let s := s.updMe fun st => { st with queue := st.queue.map fun e => { e with fresh := false } }
  let s := (s.runOrphans.outsideMoves.passTime n).toCycle (s.cycle + 3 * n)
  { s with cur := turn, ticks := s.ticks + 1
           env := { s.env with
             pace := s.env.pace.drop 1, turns := s.env.turns.drop 1, busy := s.env.busy.drop 1
             arrive := s.env.arrive.drop 1, away := s.env.away.drop 1, others := s.env.others.drop 1
             dies := s.env.dies.drop 1 } }

/-- A step's end: the accesses that wake are performed (R210), and a next state ticks. -/
def ticked : Result → Result
  | .next s =>
    match State.wake (s.waiters.length + s.sys.remoteWaits.length) s with
    | .next t => .next t.tick
    | r => r
  | r => r

end Sys2Proof.Machine
end

