-- ==== Sys2Proof/Machine/Lost.lean ====
section
/-! DEFINITION. Abandoned remote accesses (R284): a partner that does not answer, and abandon flits of a device that killed a
context.  The word completes, writes nothing at its target, and its class's lost flag is set. -/

namespace Sys2Proof.Machine

/-- A handle of a lost device's main memory. -/
def State.farHandle (s : State) (h : Handle) : Bool := decide (h.state = .valid) && s.isLost (mainDevice (h.phys 0))

/-- A list of words cut at the first that `f` selects. -/
def cutAt (f : QEntry → Bool) : List QEntry → Option (List QEntry × QEntry × List QEntry)
  | [] => none
  | e :: t => if f e then some ([], e, t) else (cutAt f t).map fun x => (e :: x.1, x.2)

/-- The local bytes of lost elements: free values, with full-empty bits unchanged (R284). -/
def State.loseBytes (s : State) (lost : List Piece) : State :=
  let put (m : List Host.Cell) (x : Piece) : List Host.Cell := match x with
    | .elem l _ n => cellsWrite m l ((List.range n).map fun j => Config.freeByte s.nfree (l + j))
    | _ => m
  let mem := lost.foldl put s.mem
  { s with mem := mem, nfree := s.nfree + 1 }

/-- A part of a network word that is abandoned (R284): it reaches a lost device, or, when an abandon flit arrives, it waits on
the full-empty bits of a device that the event names. -/
def State.partLost (s : State) (flit : Bool) : Piece → Bool
  | .elem _ p n =>
    if flit then !s.allFull (granules p n) && (s.env.partners.isEmpty || s.isLost (deviceOf p)) else s.isLost (deviceOf p)
  | .put l _ _ => !flit && s.isLost (deviceOf l.place)
  | _ => false

/-- A network word that may have lost a partner: it has not begun, or one of the parts left of it is lost. -/
def State.netLost (s : State) (flit : Bool) (e : QEntry) : Bool :=
  decide (e.instr.cls = 6) && (match s.me.leftOf 6 e.num with
    | some l => l.any (s.partLost flit)
    | none => true)

/-- A network word of which a partner is lost: the parts that the loss concerns are abandoned, and the others go on (R284);
answers whether the word completes.  (DEDUCED: assumption 69.) -/
def loseNet (flit : Bool) (e : QEntry) : M Bool := do
  let s ← ask id
  let begun := s.me.leftOf 6 e.num
  let others (todo : List Piece) : M (List Piece) := do
    let left := todo.filter fun x => !s.partLost flit x
    if left.length = todo.length then stall else pure left
  match e.instr with
  | .cgath _ _ space _ ispace _ esz _ rfe => do
    let todo ← match begun with
      | some l => pure l
      | none =>
        if s.me.clash 6 [] (some (s.descSpan e ispace)) then stall else gatherPlan e space ispace (2 ^ esz.toNat)
    let left ← others todo
    upd fun t => t.loseBytes (todo.filter (s.partLost flit))
    gatherStep e.num rfe left
  | .cscat _ _ space _ ispace _ esz lfe rfe => do
    match begun with
    | some l => do
      let left ← others l
      updMe fun st => st.setLeft 6 e.num (some left)
    | none => pure ()
    let eb := 2 ^ esz.toNat
    partwise 6 ⟨6, e.num⟩ rfe 0
      (fun s => some (s.descSpan e ispace ++ s.spanOf space (e.capA 0) (eb * ((e.capS 2).toNat % 2 ^ 20)))) true
      (do others (← scatterPlan e space ispace eb lfe))
  | _ => stall

/-- A copy-class word waits on full-empty bits of a device that an abandon flit names (R284). -/
def State.copyWaits (s : State) (e : QEntry) : Bool :=
  e.instr.copyNumbered && (s.me.leftOf 5 e.num).isNone && s.waiters.any fun w =>
    decide (w.strand = s.cur) && decide (w.cls = 5) && w.granules.any fun g =>
      !setHas s.full g && (s.env.partners.isEmpty || s.isLost (deviceOf (16 * g)))

/-- A copy-class word whose wait is abandoned by a flit completes and writes nothing (R284, R218).  (DEDUCED: assumption 69.) -/
def dropCopy (_ : QEntry) : M Bool := do
  upd fun s => { s with waiters := s.waiters.filter fun w => !(decide (w.strand = s.cur) && decide (w.cls = 5)) }
  pure true

/-- A copy-class word of which a partner is lost: what it reads there are free values and what it writes there is dropped
(R284).  (DEDUCED: assumption 69.) -/
def loseCopy (e : QEntry) : M Bool := do
  upd fun s => { s with env := { s.env with silent := true } }
  let done ← runWord e.instr e
  upd fun s => { s with env := { s.env with silent := false }, nfree := s.nfree + 1 }
  pure done

/-- The register that a sync word loads. -/
def syncDest : Instr → Option (BitVec 5)
  | .ldaq _ r _ _ _ _ _ => some r
  | .ldaqHandle _ r _ _ _ _ => some r
  | .amo _ d _ _ _ _ _ _ _ => some d
  | .cas _ d _ _ _ _ _ _ _ => some d
  | _ => none

/-- A sync word whose access is abandoned: through a handle of a lost device, or, when an abandon flit arrives, an LDAQ that
waits on full-empty bits (R284). -/
def isFarSync (flit : Bool) (s : State) (e : QEntry) : Bool :=
  match e.instr with
  | .ldaq .. => flit && s.waiters.any fun w => decide (w.strand = s.cur) && decide (w.cls = e.instr.cls)
  | .ldaqHandle .. | .strlHandle .. | .amo .. | .cas .. => e.handles.any s.farHandle
  | _ => false

/-- A scalar result of an abandoned access (R284). -/
def lostScalarValue : BitVec 64 := 0xFFFFFFFFFFFFFFFF

/-- A sync word whose partner is lost (R284). -/
def loseSync (e : QEntry) : M Bool := do
  match syncDest e.instr with
  | some d => updMe fun st => st.setS d lostScalarValue
  | none => pure ()
  upd fun s => { s with waiters := s.waiters.filter fun w => !(decide (w.strand = s.cur) && decide (w.cls = e.instr.cls)) }
  pure true

/-- A queued word of the current strand that `sel` selects completes as abandoned, when it is ready and `f` lets it; `mark` sets its
flag. -/
def State.abandonWord (s : State) (sel : QEntry → Bool) (f : QEntry → M Bool) (mark : Strand → Strand) : Option State :=
  match cutAt sel s.me.queue with
  | none => none
  | some (before, e, rest) =>
    let begun := s.me.hasBegun before e
    if s.readyIn before e || begun then
      match f e (s.traceBegin s.me begun e) with
      | .ok (true, t) => some ((t.finished s.me e).updMe fun st => mark { st with queue := before ++ rest })
      | .ok (false, t) => some (t.updMe mark)
      | .error _ => none
    else none

/-- The access of the control word at the PC completes as abandoned (R284): an LDG or STG to another device, or an LDS that waits
on full-empty bits when a flit arrives. -/
def State.abandonScalarAtPc (s : State) (flit : Bool) : State :=
  match s.splitNext with
  | .inl (i, t) =>
    let st := t.me
    let goOn (r : BitVec 5) : State :=
      let u := t.updMe fun u => ({ u.setS r lostScalarValue with lostScalar := true }).moveOn st.pc i.words st.xfer
      { u with waiters := u.waiters.filter fun w => !(decide (w.strand = s.cur) && decide (w.cls = 0)) }
    let waits := flit && t.waiters.any fun w => decide (w.strand = t.cur) && decide (w.cls = 0)
    if st.blocked || st.pends i.uses || t.splitWaits i then s
    else match i with
      | .ldg _ r h _ _ => if t.farHandle (st.handleAt h) then goOn r else s
      | .stg _ _ h _ _ => if t.farHandle (st.handleAt h) then goOn 0 else s
      | .ldsW _ r _ _ _ _ => if waits then goOn r else s
      | .ldsD _ r _ _ _ _ => if waits then goOn r else s
      | _ => s
  | .inr _ => s

/-- An access of the current strand is abandoned (R284): of the network or copy class, or a scalar one. -/
def State.abandonMine (s : State) (flit net : Bool) : State :=
  if s.me.placed.isNone then s
  else if net then
    match s.abandonWord (s.netLost flit) (loseNet flit) fun st => { st with lostNet := true } with
    | some t => t
    | none =>
      (if flit then s.abandonWord s.copyWaits dropCopy fun st => { st with lostCopy := true }
       else s.abandonWord (fun e => e.instr.copyNumbered && e.handles.any s.farHandle) loseCopy
        fun st => { st with lostCopy := true }).getD s
  else
    match cutAt (isFarSync flit s) s.me.queue with
    | some _ => (s.abandonWord (isFarSync flit s) loseSync fun st => { st with lostScalar := true }).getD s
    | none => s.abandonScalarAtPc flit

/-- The lost flag of a class (R284). -/
def Strand.loseFlag (st : Strand) (cls : BitVec 3) : Strand :=
  if cls = 5 then { st with lostCopy := true } else if cls = 6 then { st with lostNet := true } else { st with lostScalar := true }

/-- The strand of a write that is abandoned learns of it, in its slot or saved away from it. -/
def State.loseWriter (s : State) (w : Writer) : State :=
  let hit (st : Strand) : Strand := if st.ident = w.strand then st.loseFlag w.cls else st
  let saved := s.sys.saved.map (Saved.updStrand hit)
  { s with strands := s.strands.map hit, sys := { s.sys with saved := saved } }

/-- Writes on their way to a lost device are abandoned: nothing is written, and the lost flags of their words are set (R284).
(DEDUCED: assumption 69.) -/
def State.loseLinks (s : State) : State :=
  let hit (l : NearLine) : Bool := s.isLost (mainDevice (l.line * 64))
  let kept := s.links.filter fun l => !hit l
  ((s.links.filter hit).flatMap (·.writers)).foldl State.loseWriter { s with links := kept }

/-- What a word that outlives its strand slot still had to do at a lost device is abandoned with it, and its lost flag is set. -/
def State.loseOrphans (s : State) (k : Fin 4) (flit : Bool) : State :=
  let keep (l : List Piece) : List Piece := l.filter fun x => !s.partLost flit x
  let cut (o : Orphan) : Orphan :=
    if o.slot = k ∧ o.strand.gather.any (fun x => decide ((keep x.2).length ≠ x.2.length)) = true then
      { o with strand := { o.strand with gather := o.strand.gather.map fun x => (x.1, keep x.2), lostNet := true } }
    else o
  let lost := s.orphans.flatMap fun o => if o.slot = k then o.strand.gather.flatMap fun x => x.2.filter (s.partLost flit) else []
  let t := if lost.isEmpty then s else s.loseBytes lost
  { t with orphans := s.orphans.map cut }

/-- A strand slot's access is abandoned (R284). -/
def State.abandon (s : State) (k : Fin 4) (flit net : Bool) : State :=
  let cur := s.cur
  let t := (({ s with cur := k } : State).abandonMine flit net).loseOrphans k flit
  let t := if flit then t else t.loseLinks
  let env := { t.env with partners := t.env.partners.drop 1 }
  { t with cur := cur, env := env }

/-! ## Passes over every strand: after a wake, a deadline or a step of the counter (R210, R340) -/

/-- The engines pass over the words of one strand slot.  (DESIGN CHOICE: assumption 70.) -/
def runSlot (k : Fin 4) (s : State) : Result :=
  if s.strands[k].placed.isNone then .next s
  else
    let cur := s.cur
    match ({ s with cur := k } : State).runEngines with
    | .next t => .next { t with cur := cur }
    | r => r

/-- The engines pass over the words of every strand.  (DESIGN CHOICE: assumption 70.) -/
def runAll (s : State) : Result :=
  (List.finRange 4).foldl (fun r k => match r with | .next t => runSlot k t | x => x) (.next s)

/-- The translations in flight of every strand land (R230). -/
def State.landAll (s : State) (smallLate largeLate : Bool) : State :=
  let cur := s.cur
  let t := (List.finRange 4).foldl (fun t k => ({ t with cur := k } : State).landTrns smallLate largeLate) s
  { t with cur := cur }

end Sys2Proof.Machine
end

