-- ==== Sys2Proof/Machine/ControlWords.lean ====
section
/-! DEFINITION. The meanings of engine-0 words (R57-R84), performed at split, one per instruction. -/

namespace Sys2Proof.Machine

/-- NOP (R28): Does nothing for one split cycle. -/
def execNop (q : Itq) (s : State) : Result :=
  control (.nop q) (pure ()) s

/-- ADD (R57): Writes the 64-bit wrapped sum of two scalars. -/
def execAdd (q : Itq) (d a b : BitVec 5) (s : State) : Result :=
  control (.add q d a b) (runArith d a b opAdd) s

/-- SUB (R57): Writes the 64-bit wrapped difference of two scalars. -/
def execSub (q : Itq) (d a b : BitVec 5) (s : State) : Result :=
  control (.sub q d a b) (runArith d a b opSub) s

/-- AND (R57): Writes the bitwise AND of two scalars. -/
def execAnd (q : Itq) (d a b : BitVec 5) (s : State) : Result :=
  control (.and q d a b) (runArith d a b opAnd) s

/-- OR (R57): Writes the bitwise OR of two scalars. -/
def execOr (q : Itq) (d a b : BitVec 5) (s : State) : Result :=
  control (.or q d a b) (runArith d a b opOr) s

/-- XOR (R57): Writes the bitwise XOR of two scalars. -/
def execXor (q : Itq) (d a b : BitVec 5) (s : State) : Result :=
  control (.xor q d a b) (runArith d a b opXor) s

/-- SHL (R57): Shifts a scalar left by the low six bits of another. -/
def execShl (q : Itq) (d a b : BitVec 5) (s : State) : Result :=
  control (.shl q d a b) (runArith d a b opShl) s

/-- SHR (R57): Shifts a scalar right logically by the low six bits of another. -/
def execShr (q : Itq) (d a b : BitVec 5) (s : State) : Result :=
  control (.shr q d a b) (runArith d a b opShr) s

/-- SRA (R57): Shifts a scalar right arithmetically by the low six bits of another. -/
def execSra (q : Itq) (d a b : BitVec 5) (s : State) : Result :=
  control (.sra q d a b) (runArith d a b opSra) s

/-- MUL (R57): Writes the low 64 bits of a scalar product. -/
def execMul (q : Itq) (d a b : BitVec 5) (s : State) : Result :=
  control (.mul q d a b) (runArith d a b opMul) s

/-- MULH (R57): Writes the high 64 bits of the signed 128-bit product. -/
def execMulh (q : Itq) (d a b : BitVec 5) (s : State) : Result :=
  control (.mulh q d a b) (runArith d a b opMulh) s

/-- MULHU (R57): Writes the high 64 bits of the unsigned 128-bit product. -/
def execMulhu (q : Itq) (d a b : BitVec 5) (s : State) : Result :=
  control (.mulhu q d a b) (runArith d a b opMulhu) s

/-- MIN (R57): Writes the signed lesser of two scalars. -/
def execMin (q : Itq) (d a b : BitVec 5) (s : State) : Result :=
  control (.min q d a b) (runArith d a b opMin) s

/-- MAX (R57): Writes the signed greater of two scalars. -/
def execMax (q : Itq) (d a b : BitVec 5) (s : State) : Result :=
  control (.max q d a b) (runArith d a b opMax) s

/-- MINU (R57): Writes the unsigned lesser of two scalars. -/
def execMinu (q : Itq) (d a b : BitVec 5) (s : State) : Result :=
  control (.minu q d a b) (runArith d a b opMinu) s

/-- MAXU (R57): Writes the unsigned greater of two scalars. -/
def execMaxu (q : Itq) (d a b : BitVec 5) (s : State) : Result :=
  control (.maxu q d a b) (runArith d a b opMaxu) s

/-- ADDI (R58): Adds a sign-extended 11-bit immediate to a scalar. -/
def execAddi (q : Itq) (d a : BitVec 5) (imm : BitVec 11) (s : State) : Result :=
  control (.addi q d a imm) (runArithImm d a imm opAdd) s

/-- ANDI (R58): ANDs a scalar with a sign-extended immediate. -/
def execAndi (q : Itq) (d a : BitVec 5) (imm : BitVec 11) (s : State) : Result :=
  control (.andi q d a imm) (runArithImm d a imm opAnd) s

/-- ORI (R58): ORs a scalar with a sign-extended immediate. -/
def execOri (q : Itq) (d a : BitVec 5) (imm : BitVec 11) (s : State) : Result :=
  control (.ori q d a imm) (runArithImm d a imm opOr) s

/-- XORI (R58): XORs a scalar with a sign-extended immediate. -/
def execXori (q : Itq) (d a : BitVec 5) (imm : BitVec 11) (s : State) : Result :=
  control (.xori q d a imm) (runArithImm d a imm opXor) s

/-- SHLI (R58): Shifts a scalar left by an immediate amount. -/
def execShli (q : Itq) (d a : BitVec 5) (imm : BitVec 11) (s : State) : Result :=
  control (.shli q d a imm) (runArithImm d a imm opShl) s

/-- SHRI (R58): Shifts a scalar right logically by an immediate amount. -/
def execShri (q : Itq) (d a : BitVec 5) (imm : BitVec 11) (s : State) : Result :=
  control (.shri q d a imm) (runArithImm d a imm opShr) s

/-- SRAI (R58): Shifts a scalar right arithmetically by an immediate amount. -/
def execSrai (q : Itq) (d a : BitVec 5) (imm : BitVec 11) (s : State) : Result :=
  control (.srai q d a imm) (runArithImm d a imm opSra) s

/-- MOVI (R59): Writes a sign-extended 16-bit immediate to a scalar. -/
def execMovi (q : Itq) (d : BitVec 5) (imm : BitVec 16) (s : State) : Result :=
  control (.movi q d imm) (runMovi d imm) s

/-- INSH_0 (R59): Inserts a 16-bit immediate into bits 15:0 of a scalar. -/
def execInsh0 (q : Itq) (d : BitVec 5) (imm : BitVec 16) (s : State) : Result :=
  control (.insh0 q d imm) (runInsh 0 d imm) s

/-- INSH_1 (R59): Inserts a 16-bit immediate into bits 31:16 of a scalar. -/
def execInsh1 (q : Itq) (d : BitVec 5) (imm : BitVec 16) (s : State) : Result :=
  control (.insh1 q d imm) (runInsh 1 d imm) s

/-- INSH_2 (R59): Inserts a 16-bit immediate into bits 47:32 of a scalar. -/
def execInsh2 (q : Itq) (d : BitVec 5) (imm : BitVec 16) (s : State) : Result :=
  control (.insh2 q d imm) (runInsh 2 d imm) s

/-- INSH_3 (R59): Inserts a 16-bit immediate into bits 63:48 of a scalar. -/
def execInsh3 (q : Itq) (d : BitVec 5) (imm : BitVec 16) (s : State) : Result :=
  control (.insh3 q d imm) (runInsh 3 d imm) s

/-- POPC (R57): Writes the number of one bits in a scalar. -/
def execPopc (q : Itq) (d a : BitVec 5) (s : State) : Result :=
  control (.popc q d a) (runUnary d a popCount) s

/-- CLZ (R57): Writes the number of leading zero bits in a scalar. -/
def execClz (q : Itq) (d a : BitVec 5) (s : State) : Result :=
  control (.clz q d a) (runUnary d a leadingZeros) s

/-- CMP (R60): Sets a predicate from a comparison of two scalars. -/
def execCmp (q : Itq) (pd : BitVec 3) (a b : BitVec 5) (cond : BitVec 4) (s : State) : Result :=
  control (.cmp q pd a b cond) (runCmp pd a b cond) s

/-- CMPI (R60): Sets a predicate from a comparison of a scalar with an immediate. -/
def execCmpi (q : Itq) (pd : BitVec 3) (a : BitVec 5) (cond : BitVec 3) (imm : BitVec 10) (s : State) : Result :=
  control (.cmpi q pd a cond imm) (runCmpi pd a cond imm) s

/-- PLOG (R61): Combines predicates with a logical function. -/
def execPlog (q : Itq) (pd pa pb fn : BitVec 3) (s : State) : Result :=
  control (.plog q pd pa pb fn) (runPlog pd pa pb fn) s

/-- SEL (R62): Selects one of two scalars by a predicate. -/
def execSel (q : Itq) (d a b : BitVec 5) (p : BitVec 3) (s : State) : Result :=
  control (.sel q d a b p) (runSel d a b p) s

/-- PBR (R63): Loads a PC-relative branch target into a branch register. -/
def execPbr (q : Itq) (bt : BitVec 2) (imm : BitVec 19) (s : State) : Result :=
  control (.pbr q bt imm) (runPbr bt imm) s

/-- PBRR (R63): Loads a branch register from a scalar, trapping on misalignment. -/
def execPbrr (q : Itq) (bt : BitVec 2) (a : BitVec 5) (s : State) : Result :=
  control (.pbrr q bt a) (runPbrr bt a) s

/-- BR (R64): Transfers control after two delay instructions when the predicate holds. -/
def execBr (q : Itq) (bt : BitVec 2) (p : BitVec 3) (neg : BitVec 1) (s : State) : Result :=
  control (.br q bt p neg) (runBr bt p neg) s

/-- CALL (R64): Pushes the return address and transfers control after two delay instructions. -/
def execCall (q : Itq) (bt : BitVec 2) (p : BitVec 3) (neg : BitVec 1) (s : State) : Result :=
  control (.call q bt p neg) (runCall (.call q bt p neg) bt p neg) s

/-- RET (R64): Pops the return stack and transfers control after two delay instructions. -/
def execRet (q : Itq) (p : BitVec 3) (neg : BitVec 1) (s : State) : Result :=
  control (.ret q p neg) (runRet (.ret q p neg) p neg) s

/-- LOOP (R67): Opens a loop level with a trip count, body length and vector mode. -/
def execLoop (q : Itq) (level : BitVec 3) (sc : BitVec 5) (len : BitVec 9) (mode : BitVec 1) (s : State) : Result :=
  control (.loop q level sc len mode) (runLoop level sc len mode) s

/-- LSTR (R70): Sets the stride of an address register at a loop level. -/
def execLstr (q : Itq) (level a : BitVec 3) (sb : BitVec 5) (s : State) : Result :=
  control (.lstr q level a sb) (runLstr level a sb) s

/-- LBRK (R71): Marks the innermost loop level's current iteration as its last. -/
def execLbrk (q : Itq) (p : BitVec 3) (neg : BitVec 1) (s : State) : Result :=
  control (.lbrk q p neg) (runLbrk p neg) s

/-- LDS_W (R76): Loads a zero-extended word from a scratchpad space at split. -/
def execLdsW (q : Itq) (r : BitVec 5) (a : BitVec 3) (space fe : BitVec 2) (imm : BitVec 9) (s : State) : Result :=
  control (.ldsW q r a space fe imm) (runLds 4 r a space fe imm) s

/-- LDS_D (R76): Loads a doubleword from a scratchpad space at split. -/
def execLdsD (q : Itq) (r : BitVec 5) (a : BitVec 3) (space fe : BitVec 2) (imm : BitVec 9) (s : State) : Result :=
  control (.ldsD q r a space fe imm) (runLds 8 r a space fe imm) s

/-- STS_W (R76): Stores the low word of a scalar to a scratchpad space at split. -/
def execStsW (q : Itq) (r : BitVec 5) (a : BitVec 3) (space fe : BitVec 2) (imm : BitVec 9) (s : State) : Result :=
  control (.stsW q r a space fe imm) (runSts 4 r a space fe imm) s

/-- STS_D (R76): Stores a scalar doubleword to a scratchpad space at split. -/
def execStsD (q : Itq) (r : BitVec 5) (a : BitVec 3) (space fe : BitVec 2) (imm : BitVec 9) (s : State) : Result :=
  control (.stsD q r a space fe imm) (runSts 8 r a space fe imm) s

/-- LDG (R79): Loads a word or doubleword from main memory through a handle at split. -/
def execLdg (q : Itq) (r : BitVec 5) (h : BitVec 4) (sb : BitVec 5) (size : BitVec 2) (s : State) : Result :=
  control (.ldg q r h sb size) (runLdg r h sb size) s

/-- STG (R79): Stores a word or doubleword to main memory through a handle at split. -/
def execStg (q : Itq) (r : BitVec 5) (h : BitVec 4) (sb : BitVec 5) (size : BitVec 2) (s : State) : Result :=
  control (.stg q r h sb size) (runStg r h sb size) s

/-- AMOV (R75): Sets an address register's address, modulo base and length. -/
def execAmov (q : Itq) (a : BitVec 3) (sa sb : BitVec 5) (s : State) : Result :=
  control (.amov q a sa sb) (runAmov a sa sb) s

/-- AINC (R75): Advances an address register by an immediate under its modulo rule. -/
def execAinc (q : Itq) (a : BitVec 3) (imm : BitVec 18) (s : State) : Result :=
  control (.ainc q a imm) (runAinc a imm) s

/-- CSRR (R83): Reads a control register into a scalar. -/
def execCsrr (q : Itq) (r : BitVec 5) (csr : BitVec 12) (s : State) : Result :=
  control (.csrr q r csr) (runCsrr r csr) s

/-- CSRW (R83): Writes a scalar to a control register that has no row of its own. -/
def execCsrw (q : Itq) (r : BitVec 5) (csr : BitVec 12) (s : State) : Result :=
  control (.csrw q r csr) (runCsrw r csr) s

/-- RSBOTTOM_READ (R84): A read of RSBOTTOM removes and returns the oldest return-stack entry. -/
def execRsbottomRead (q : Itq) (r : BitVec 5) (s : State) : Result :=
  control (.rsbottomRead q r) (runRsbottomRead r) s

/-- RSBOTTOM_WRITE (R84): A write of RSBOTTOM inserts a new oldest return-stack entry. -/
def execRsbottomWrite (q : Itq) (r : BitVec 5) (s : State) : Result :=
  control (.rsbottomWrite q r) (runRsbottomWrite r) s

/-- GETID (R81): Writes an identity value selected by kind. -/
def execGetid (q : Itq) (d : BitVec 5) (kind : BitVec 4) (s : State) : Result :=
  control (.getid q d kind) (runGetid d kind) s

/-- TIME (R82): Writes the Encke counter value at split. -/
def execTime (q : Itq) (d : BitVec 5) (s : State) : Result :=
  control (.time q d) (runTime d) s

end Sys2Proof.Machine
end

