-- ==== Sys2Proof/Machine/CopyWords.lean ====
section
/-! DEFINITION. The meanings of copy and network words (R213-R228), one per instruction. -/

namespace Sys2Proof.Machine

/-- SREC (R216): Loads a stream pattern record into a stream slot. -/
def execSrec (q : Itq) (slot : BitVec 4) (a : BitVec 3) (space : BitVec 2) (s : State) : Result :=
  issue (.srec q slot a space) s

/-- CPY_LINEAR (R217): Copies a byte count between two addresses in groups. -/
def execCpyLinear (q : Itq) (ad : BitVec 3) (dsp : BitVec 2) (asrc : BitVec 3) (ssp : BitVec 2) (sn : BitVec 5) (dfe sfe : BitVec 2) (s : State) : Result :=
  issue (.cpyLinear q ad dsp asrc ssp sn dfe sfe) s

/-- CPY_PATTERN (R217): Copies elements between two stream slots. -/
def execCpyPattern (q : Itq) (dslot sslot h : BitVec 4) (dfe sfe : BitVec 2) (s : State) : Result :=
  issue (.cpyPattern q dslot sslot h dfe sfe) s

/-- CPYM_LINEAR (R219): Linear copy that releases a held matrix follow-on when its last byte lands. -/
def execCpymLinear (q : Itq) (ad : BitVec 3) (dsp : BitVec 2) (asrc : BitVec 3) (ssp : BitVec 2) (sn : BitVec 5) (dfe sfe : BitVec 2) (follow : Instr) (s : State) : Result :=
  issue (.cpymLinear q ad dsp asrc ssp sn dfe sfe follow) s

/-- CPYM_PATTERN (R219): Pattern copy that releases a held matrix follow-on when its last byte lands. -/
def execCpymPattern (q : Itq) (dslot sslot h : BitVec 4) (dfe sfe : BitVec 2) (follow : Instr) (s : State) : Result :=
  issue (.cpymPattern q dslot sslot h dfe sfe follow) s

/-- CWIN (R222): Opens a window of tensor rows in a scratchpad ring and fetches them. -/
def execCwin (q : Itq) (slot : BitVec 4) (a : BitVec 3) (space : BitVec 2) (h : BitVec 4) (sw sr : BitVec 5) (s : State) : Result :=
  issue (.cwin q slot a space h sw sr) s

/-- CADV (R223): Retires window rows and fetches further rows. -/
def execCadv (q : Itq) (slot : BitVec 4) (sn : BitVec 5) (h : BitVec 4) (nh : BitVec 1) (s : State) : Result :=
  issue (.cadv q slot sn h nh) s

/-- CGATH (R224): Gathers remote elements named by descriptors into a local array. -/
def execCgath (q : Itq) (a : BitVec 3) (space : BitVec 2) (ai : BitVec 3) (ispace : BitVec 2) (sn : BitVec 5) (esz : BitVec 3) (lfe rfe : BitVec 2) (s : State) : Result :=
  issue (.cgath q a space ai ispace sn esz lfe rfe) s

/-- CSCAT (R224): Scatters local elements to remote locations named by descriptors. -/
def execCscat (q : Itq) (a : BitVec 3) (space : BitVec 2) (ai : BitVec 3) (ispace : BitVec 2) (sn : BitVec 5) (esz : BitVec 3) (lfe rfe : BitVec 2) (s : State) : Result :=
  issue (.cscat q a space ai ispace sn esz lfe rfe) s

/-- CRED (R225): Adds a source array into a destination array element by element. -/
def execCred (q : Itq) (ad : BitVec 3) (dsp : BitVec 2) (asrc : BitVec 3) (ssp : BitVec 2) (sn : BitVec 5) (fmt : BitVec 4) (dfe sfe : BitVec 2) (s : State) : Result :=
  issue (.cred q ad dsp asrc ssp sn fmt dfe sfe) s

/-- CVQX_BOOK (R226): Loads the core's codebook. -/
def execCvqxBook (q : Itq) (asrc : BitVec 3) (ssp sfe : BitVec 2) (s : State) : Result :=
  issue (.cvqxBook q asrc ssp sfe) s

/-- CVQX_EXPAND (R226): Expands index bytes into B8 codes through the codebook. -/
def execCvqxExpand (q : Itq) (ad : BitVec 3) (dsp : BitVec 2) (asrc : BitVec 3) (ssp : BitVec 2) (sn : BitVec 5) (dfe sfe : BitVec 2) (s : State) : Result :=
  issue (.cvqxExpand q ad dsp asrc ssp sn dfe sfe) s

/-- SISECT (R227): Intersects two sorted index streams and reports why it stopped. -/
def execSisect (q : Itq) (d sp se : BitVec 5) (ka kb out : BitVec 1) (h : BitVec 4) (spa spb : BitVec 2) (ao : BitVec 3) (osp : BitVec 2) (s : State) : Result :=
  issue (.sisect q d sp se ka kb out h spa spb ao osp) s

/-- CSEQ (R221): Reads an issued or completed sequence counter. -/
def execCseq (q : Itq) (d : BitVec 5) (cls which : BitVec 1) (s : State) : Result :=
  issue (.cseq q d cls which) s

end Sys2Proof.Machine
end

