-- ==== Sys2Proof/Machine/Events.lean ====
section
/-! DEFINITION. The meanings of the machine events of the opcode table, one per event: what happens to the machine without a
word of the text. -/

namespace Sys2Proof.Machine

/-- What the firmware does, once its image has been loaded (R348, R350).  (DEDUCED: assumption 71.) -/
def byFirmware (f : State → State) (s : State) : Result := .next (if s.firmware then f s else s)

/-- The user causes that a handler can be given (R244, Table 1). -/
def deliverable (c : UserCause) : Bool := decide (1 ≤ c.code.toNat) && decide (c.code.toNat ≤ 0x0A)

/-- The current strand takes a user trap at its PC (R248); a PROBE at which the splitter stands is split again afterwards.  Other
causes never reach a handler (R244). -/
def State.enterTrap (s : State) (cause : UserCause) : State :=
  if deliverable cause then
    let s := s.updMe Strand.unsplitProbe
    s.takeTrap cause noWord s.me.pc s.me.pc (s.me.queue.map fun e => (e, false))
  else s

/-- The words of the current strand that may stand in a datapath (R316): those in its queues, and the one that the splitter
processes. -/
def State.inDatapath (s : State) : List (Instr × BitVec 32 × Option QEntry) :=
  (s.me.queue.map fun e => (e.instr, e.pc, some e)) ++
  (match s.splitter with
    | .inl (i, _) => [(i, s.me.pc, none)]
    | .inr _ => [])

/-- The word whose datapath a check concerns: one of them, as a free value has it (R316).  (DESIGN CHOICE: assumption 35.) -/
def State.wordInDatapath (s : State) : Instr × BitVec 32 × Option QEntry :=
  let l := s.inDatapath
  l.getD (Config.faultPlace s.nfree 2 % l.length) (noWord, s.me.pc, none)

/-- What befalls the current strand, when one is placed. -/
def onStrand (f : State → State) (s : State) : Result := .next (if s.me.placed.isSome then f s else s)

/-- SLOT_TABLE_APPLY (R175): A deferred slot table takes effect at the next slot-0 period and clears debts. -/
def execSlotTableApply (s : State) : Result :=
  .next (s.toCycle ((s.cycle / 4096 + 1) * 4096))

/-- SLOT_BOUNDARY (R51): At each 256-cycle slot the owner changes and chain debt is charged or repaid. -/
def execSlotBoundary (s : State) : Result :=
  .next (s.toCycle ((s.cycle / 256 + 1) * 256))

/-- SLEEP_DEADLINE (R340): A sleeping SLPAT completes when Now reaches its deadline. -/
def execSleepDeadline (s : State) : Result :=
  runAll s

/-- TRN_RESULT_LANDS (R231): After exactly 640 cycles the handle lands valid, late, not found or revoked. -/
def execTrnResultLands (smallLate : Bool) (largeLate : Bool) (s : State) : Result :=
  .next (s.landAll smallLate largeLate)

/-- INVALIDATE_BROADCAST (R241): A command reaches each core, revoking covered handles and in-flight TRNs. -/
def execInvalidateBroadcast (s : State) : Result :=
  .next s.broadcast

/-- INVALIDATE_ACKNOWLEDGE (R241): A command is acknowledged once counted words complete, and the issuer receives an event. -/
def execInvalidateAcknowledge (s : State) : Result :=
  .next s.acknowledge

/-- TRAP_ENTRY (R248): Withdraws unfinished words, writes the frame and enters the handler. -/
def execTrapEntry (cause : UserCause) (s : State) : Result :=
  onStrand (fun t => t.enterTrap cause) s

/-- FATAL_CONTEXT_ERROR (R234): Stops every strand of the context and completes its running nodes tainted. -/
def execFatalContextError (cause : FatalCause) (addr : BitVec 64) (s : State) : Result :=
  onStrand (fun t => t.fatalError cause noWord t.me.pc addr) s

/-- MACHINE_CHECK (R316, R323): The word in the datapath writes nothing; its node's strands stop, and the node is replayed or its
context killed.  (DESIGN CHOICE: assumption 35.) -/
def execMachineCheck (cause : CheckCause) (s : State) : Result :=
  onStrand (fun t => t.machineCheck cause t.wordInDatapath.1 t.wordInDatapath.2.1 0 t.wordInDatapath.2.2) s

/-- FULL_EMPTY_WAKE (R210): When granules become full, waiting waits and one take are performed. -/
def execFullEmptyWake (s : State) : Result :=
  runAll (s.serveRemote s.sys.remoteWaits.length 0)

/-- NEAR_BUFFER_DRAIN (R276): The near buffer drains one unpinned line to its target. -/
def execNearBufferDrain (s : State) : Result :=
  .next s.drainOne

/-- NEAR_BUFFER_FORCED_DRAIN (R280): After 65,536 stalled cycles the oldest pinned line drains. -/
def execNearBufferForcedDrain (s : State) : Result :=
  .next s.forcedDrain

/-- REMOTE_REQUEST (R282): An access arriving from outside the core or device is served. -/
def execRemoteRequest (req : RemoteReq) (s : State) : Result :=
  .next (s.remote req)

/-- RETRY_REISSUE (R279): A retried access is reissued 64 cycles later and counted. -/
def execRetryReissue (s : State) : Result :=
  .next s.retry

/-- PARTNER_LOST (R284): A remote access unanswered for 1 ms completes as partner lost. -/
def execPartnerLost (strand : Fin 4) (net : Bool) (s : State) : Result :=
  .next (s.abandon strand false net)

/-- RESET (R209): Reset clears memories' bits, planes, line engine and counters. -/
def execReset (flash : FlashImages) (s : State) : Result :=
  .next (s.resetBoot flash)

/-- RECOVERY_IMAGE (R348): In recovery an image is accepted through the management mailbox. -/
def execRecoveryImage (which : ImageKind) (img : FlashImage) (s : State) : Result :=
  .next (s.recoveryImage which img)

/-- LAUNCH_DOORBELL (R293): The runtime writes a launch queue's new tail index. -/
def execLaunchDoorbell (queue : BitVec 6) (tail : BitVec 64) (s : State) : Result :=
  .next (s.doorbell queue tail)

/-- TASK_RECORD_LAUNCH (R297): The firmware accepts and checks an op-0 task record. -/
def execTaskRecordLaunch (queue : BitVec 6) (s : State) : Result :=
  byFirmware (fun t => t.launch queue) s

/-- RELEASE_HELD_NODE (R299): An op-1 record releases a held node. -/
def execReleaseHeldNode (queue : BitVec 6) (s : State) : Result :=
  byFirmware (fun t => t.release queue) s

/-- CANCEL_HELD_NODE (R299): An op-2 record cancels a held node or clears a taint. -/
def execCancelHeldNode (queue : BitVec 6) (s : State) : Result :=
  byFirmware (fun t => t.cancel queue) s

/-- CONFIGURE_EXPERT_QUEUE (R309): An op-3 record configures an expert token queue. -/
def execConfigureExpertQueue (queue : BitVec 6) (s : State) : Result :=
  byFirmware (fun t => t.configure queue) s

/-- NODE_PLACEMENT (R302): The firmware places an eligible node's strands as one gang. -/
def execNodePlacement (queue : BitVec 6) (s : State) : Result :=
  byFirmware (fun t => t.placeNext queue) s

/-- NODE_COMPLETION (R295): A completion record is written once the completion ring has room. -/
def execNodeCompletion (queue : BitVec 6) (s : State) : Result :=
  byFirmware (fun t => t.completeNext queue) s

/-- EXPERT_QUEUE_TIMEOUT (R310): The oldest token's timeout expiry makes the queue fire. -/
def execExpertQueueTimeout (eq : BitVec 10) (s : State) : Result :=
  byFirmware (fun t => t.expertLate eq) s

/-- EXPERT_QUEUE_FIRE (R310): Writes a batch and submits the template task record. -/
def execExpertQueueFire (eq : BitVec 10) (s : State) : Result :=
  byFirmware (fun t => t.expertFull eq) s

/-- ENERGY_INTEGRATION (R346): Each 1 microsecond interval's energy is split among nodes. -/
def execEnergyIntegration (s : State) : Result :=
  .next s.integrate

/-- ENERGY_INTERVAL_START (R347): A new energy interval restores the per-interval budget. -/
def execEnergyIntervalStart (s : State) : Result :=
  .next s.interval

/-- ENERGY_CONFIG (R347): A management command sets the energy interval and budget. -/
def execEnergyConfig (interval : Nat) (budget : Nat) (s : State) : Result :=
  .next (s.energyCommand interval budget)

/-- STATE_SUMMARY (R352): A management command writes the state-summary sections. -/
def execStateSummary (buffer : Nat) (s : State) : Result :=
  .next (s.summary buffer)

/-- PTP_MESSAGE (R338): A time-stamped IEEE 1588 message disciplines the Encke counter. -/
def execPtpMessage (offset : Int) (s : State) : Result :=
  runAll (s.ptp offset)

/-- HOLDOVER_EXPIRY (R339): Without lock the firmware begins placing nodes with the counter unlocked. -/
def execHoldoverExpiry (s : State) : Result :=
  .next s.holdover

/-- TRACE_RECORD_MOVE (R344): A buffered trace record is written to the ring or dropped. -/
def execTraceRecordMove (s : State) : Result :=
  .next s.moveTrace

/-- HBM_PARITY_ALERT (R326): A dropped command is replayed from the history buffer.  (DEDUCED: assumption 75.) -/
def execHbmParityAlert (stack : Nat) (channel : Nat) (line : Nat) (write : Bool) (fails : Nat) (s : State) : Result :=
  .next (s.parityAlert stack channel line write fails)

/-- HBM_SCRUB (R327): Scrub runs within refresh over every row. -/
def execHbmScrub (row : ScrubResult) (s : State) : Result :=
  .next (s.scrub row)

/-- CRITICAL_TEMPERATURE (R328): A stack enters self-refresh and requests are held. -/
def execCriticalTemperature (stack : Nat) (s : State) : Result :=
  .next (s.selfRefresh stack)

/-- SELF_REFRESH_EXIT (R328): Held requests proceed after the stack leaves self-refresh. -/
def execSelfRefreshExit (stack : Nat) (s : State) : Result :=
  .next (s.leaveRefresh stack)

/-- STALL_REPORT (R328): A request held for 50 ms logs one stall report per stack. -/
def execStallReport (stack : Nat) (s : State) : Result :=
  .next (s.stallReport stack)

/-- LAUNCH_QUEUE_BINDING (R294): At the operating system's request through the management mailbox, the firmware binds a launch queue to a context with its privilege bit, trace ring and event mask, and its key-region table. -/
def execLaunchQueueBinding (queue : BitVec 6) (b : QueueBinding) (s : State) : Result :=
  byFirmware (fun t => t.bindQueue queue b) s

/-- ABANDON_FLIT_ARRIVAL (R284): An abandon flit, sent by a device that kills a context, arrives and completes the waiting remote access as partner lost, setting its class's lost flag. -/
def execAbandonFlitArrival (strand : Fin 4) (net : Bool) (s : State) : Result :=
  .next (s.abandon strand true net)

/-- NO_BETTER_CLOCK_ANNOUNCED (R338): When no better clock is announced any longer, the module takes the grandmaster role for its PTP domain. -/
def execNoBetterClockAnnounced (s : State) : Result :=
  .next s.grandmaster

/-- ATTESTATION_REPORT (R348): The security cores produce an attestation report that lists the measurement of every loaded image, signed by the device key with both algorithms. -/
def execAttestationReport (s : State) : Result :=
  .next s.attest

end Sys2Proof.Machine
end

