-- ==== Sys2Proof/Machine/LineWords.lean ====
section
/-! DEFINITION. The meanings of line words (R180-R202), one per instruction. -/

namespace Sys2Proof.Machine

/-- LNTOL (R185): Sets the tolerance of a line set. -/
def execLntol (q : Itq) (set : BitVec 7) (sb : BitVec 5) (s : State) : Result :=
  issue (.lntol q set sb) s

/-- LNFIT (R186): Fits tangent lines for masked features at given points. -/
def execLnfit (q : Itq) (vp : BitVec 6) (mk : BitVec 3) (fb : BitVec 8) (fn : BitVec 4) (s : State) : Result :=
  issue (.lnfit q vp mk fb fn) s

/-- LNLD (R190): Loads line records into features and sets their function code. -/
def execLnld (q : Itq) (sf : BitVec 5) (a : BitVec 3) (space : BitVec 2) (n1 : BitVec 7) (fn : BitVec 4) (s : State) : Result :=
  issue (.lnld q sf a space n1 fn) s

/-- LNST (R190): Stores line records of features to memory. -/
def execLnst (q : Itq) (sf : BitVec 5) (a : BitVec 3) (space : BitVec 2) (n1 : BitVec 7) (s : State) : Result :=
  issue (.lnst q sf a space n1) s

/-- LNST_TABLE (R190): Stores a function's 130-entry curvature table to memory. -/
def execLnstTable (q : Itq) (a : BitVec 3) (space : BitVec 2) (kind : BitVec 4) (s : State) : Result :=
  issue (.lnstTable q a space kind) s

/-- LNCHK (R191): Checks tile rows against lines, setting masks, appending escapes and counting them. -/
def execLnchk (q : Itq) (md : BitVec 3) (t : BitVec 4) (row0 count1 : BitVec 5) (fset : BitVec 7) (s : State) : Result :=
  issue (.lnchk q md t row0 count1 fset) s

/-- LNAPL (R192): Applies lines to a tile row, optionally with exact values for escapes. -/
def execLnapl (q : Itq) (vd : BitVec 6) (t : BitVec 4) (row : BitVec 5) (fix : BitVec 1) (fb : BitVec 8) (s : State) : Result :=
  issue (.lnapl q vd t row fix fb) s

/-- LNCOR (R192): Writes corrections or slope differences for escaped elements. -/
def execLncor (q : Itq) (vd : BitVec 6) (t : BitVec 4) (row : BitVec 5) (grad : BitVec 1) (fb : BitVec 8) (s : State) : Result :=
  issue (.lncor q vd t row grad fb) s

/-- LNRFL (R193): Drains refresh-list entries to memory and reports counts. -/
def execLnrfl (q : Itq) (d : BitVec 5) (a : BitVec 3) (space : BitVec 2) (n1 : BitVec 10) (s : State) : Result :=
  issue (.lnrfl q d a space n1) s

/-- LNCNT (R194): Reads 32 escape counters into a register, optionally clearing them. -/
def execLncnt (q : Itq) (vd : BitVec 6) (fb : BitVec 8) (clr : BitVec 1) (s : State) : Result :=
  issue (.lncnt q vd fb clr) s

/-- LNCLR_COUNTS (R194): Clears the 64 escape counters of a line set. -/
def execLnclrCounts (q : Itq) (set : BitVec 7) (s : State) : Result :=
  issue (.lnclrCounts q set) s

/-- LNCLR_LIST (R194): Empties the refresh list and clears OVF. -/
def execLnclrList (q : Itq) (s : State) : Result :=
  issue (.lnclrList q) s

/-- LNCLR_LINES (R194): Gives a line set the empty line and function code NONE. -/
def execLnclrLines (q : Itq) (set : BitVec 7) (s : State) : Result :=
  issue (.lnclrLines q set) s

/-- LNFOLD (R195): Forms folded weight rows and intercept terms from lines. -/
def execLnfold (q : Itq) (vd va : BitVec 6) (sf : BitVec 5) (col acc : BitVec 1) (s : State) : Result :=
  issue (.lnfold q vd va sf col acc) s

end Sys2Proof.Machine
end

