-- ==== Sys2Proof/Machine/MatrixWords.lean ====
section
/-! DEFINITION. The meanings of matrix words (R154-R179), one per instruction. -/

namespace Sys2Proof.Machine

/-- MCFG (R155): Sets the gang arrangement once no chain is open. -/
def execMcfg (q : Itq) (gang : BitVec 2) (s : State) : Result :=
  issue (.mcfg q gang) s

/-- MLDW (R158): Loads K-rows of a gang's shadow plane from a weight image. -/
def execMldw (q : Itq) (g : BitVec 3) (fmt : BitVec 4) (a : BitVec 3) (space : BitVec 2) (ae : BitVec 3) (vq : BitVec 1) (k0 n1 : BitVec 10) (whole : BitVec 1) (s : State) : Result :=
  issue (.mldw q g fmt a space ae vq k0 n1 whole) s

/-- MLDWS (R160): Loads a 2:4 sparse shadow plane after checking all metadata groups. -/
def execMldws (q : Itq) (g : BitVec 3) (fmt : BitVec 4) (a : BitVec 3) (space : BitVec 2) (ae am : BitVec 3) (k0 n1 : BitVec 10) (whole : BitVec 1) (s : State) : Result :=
  issue (.mldws q g fmt a space ae am k0 n1 whole) s

/-- MSWAP (R163): Swaps active and shadow planes once no chain is open. -/
def execMswap (q : Itq) (g : BitVec 3) (all : BitVec 1) (s : State) : Result :=
  issue (.mswap q g all) s

/-- MMUL (R169): Multiplies activation rows by a gang's active plane into tiles within a chain. -/
def execMmul (q : Itq) (t : BitVec 4) (g : BitVec 3) (rows1 : BitVec 5) (afmt : BitVec 4) (start fin wide : BitVec 1) (a : BitVec 3) (space fe : BitVec 2) (stride : BitVec 16) (s : State) : Result :=
  issue (.mmul q t g rows1 afmt start fin wide a space fe stride) s

/-- MRD (R172): Stores rows of a tile to memory. -/
def execMrd (q : Itq) (t : BitVec 4) (row0 count1 : BitVec 5) (a : BitVec 3) (space fe : BitVec 2) (stride : BitVec 16) (s : State) : Result :=
  issue (.mrd q t row0 count1 a space fe stride) s

/-- MRDV (R173): Writes one tile row into two vector registers. -/
def execMrdv (q : Itq) (t : BitVec 4) (row : BitVec 5) (v : BitVec 6) (s : State) : Result :=
  issue (.mrdv q t row v) s

/-- MCLR (R174): Writes tile status and clears, keeps or clears the OVF and WSAT bits. -/
def execMclr (q : Itq) (t : BitVec 4) (d : BitVec 5) (op : BitVec 2) (s : State) : Result :=
  issue (.mclr q t d op) s

/-- MPOIS (R174): Sets the poison bit of a tile. -/
def execMpois (q : Itq) (t : BitVec 4) (s : State) : Result :=
  issue (.mpois q t) s

/-- MRDK (R162): Reads one K-row of a shadow plane into vector registers. -/
def execMrdk (q : Itq) (mac : BitVec 3) (v : BitVec 6) (sk : BitVec 5) (s : State) : Result :=
  issue (.mrdk q mac v sk) s

/-- MWRK (R161): Encodes and writes one K-row of a shadow plane from vector registers. -/
def execMwrk (q : Itq) (mac : BitVec 3) (v : BitVec 6) (sk : BitVec 5) (s : State) : Result :=
  issue (.mwrk q mac v sk) s

/-- MSLOT (R175): Writes the matrix slot table. -/
def execMslot (q : Itq) (sa : BitVec 5) (now : BitVec 1) (s : State) : Result :=
  issue (.mslot q sa now) s

end Sys2Proof.Machine
end

