-- ==== Sys2Proof/Machine/QuantiserWords.lean ====
section
/-! DEFINITION. The meanings of quantiser words (R106-R121), one per instruction. -/

namespace Sys2Proof.Machine

/-- QCFG (R106): Sets the strand's quantiser target, axis, mode, saturation and D. -/
def execQcfg (q : Itq) (target : BitVec 4) (axis : BitVec 1) (mode : BitVec 2) (sat : BitVec 1) (dd : BitVec 3) (s : State) : Result :=
  issue (.qcfg q target axis mode sat dd) s

/-- QSTV (R112): Quantises 32 FP32 lanes through the carry step and stores the codes. -/
def execQstv (q : Itq) (a : BitVec 3) (space : BitVec 2) (v : BitVec 6) (qr : BitVec 4) (sb : BitVec 5) (axisend : BitVec 1) (s : State) : Result :=
  issue (.qstv q a space v qr sb axisend) s

/-- QSTT (R113): Quantises tile rows and stores them. -/
def execQstt (q : Itq) (t : BitVec 4) (row0 count1 sb : BitVec 5) (axisend : BitVec 1) (a : BitVec 3) (space : BitVec 2) (qr : BitVec 4) (stride : BitVec 16) (s : State) : Result :=
  issue (.qstt q t row0 count1 sb axisend a space qr stride) s

/-- QSCL (R114): Derives a scale from an amax for the current target. -/
def execQscl (q : Itq) (d sa : BitVec 5) (s : State) : Result :=
  issue (.qscl q d sa) s

/-- QRLD (R115): Loads a carry register from memory, optionally as an acquire. -/
def execQrld (q : Itq) (kind : BitVec 1) (qr : BitVec 4) (a : BitVec 3) (space fe : BitVec 2) (ord : BitVec 1) (scope : BitVec 3) (s : State) : Result :=
  issue (.qrld q kind qr a space fe ord scope) s

/-- QRST (R115): Stores a carry register to memory and zeroes it, optionally as a release. -/
def execQrst (q : Itq) (kind : BitVec 1) (qr : BitVec 4) (a : BitVec 3) (space fe : BitVec 2) (ord : BitVec 1) (scope : BitVec 3) (s : State) : Result :=
  issue (.qrst q kind qr a space fe ord scope) s

/-- QRCLR (R116): Breaks a carry chain by zeroing its register and setting BREAK. -/
def execQrclr (q : Itq) (kind : BitVec 1) (qr : BitVec 4) (s : State) : Result :=
  issue (.qrclr q kind qr) s

/-- QRMOV (R116): Moves a carry to another register and zeroes the source. -/
def execQrmov (q : Itq) (kind : BitVec 1) (qd qa : BitVec 4) (s : State) : Result :=
  issue (.qrmov q kind qd qa) s

/-- QFLG (R117): Reads QFLAGS in queue order and optionally clears them. -/
def execQflg (q : Itq) (d : BitVec 5) (clr : BitVec 1) (s : State) : Result :=
  issue (.qflg q d clr) s

end Sys2Proof.Machine
end

