-- ==== Sys2Proof/Machine/SyncWords.lean ====
section
/-! DEFINITION. The meanings of sync words (R229-R312, R333-R345); ERET is performed at split, one per instruction. -/

namespace Sys2Proof.Machine

/-- FENCE (R263): Waits until every earlier access is performed at a scope. -/
def execFence (q : Itq) (scope : BitVec 3) (s : State) : Result :=
  issue (.fence q scope) s

/-- XFENCE (R264): Orders earlier accesses of one class before later ones of another. -/
def execXfence (q : Itq) (ca cb scope : BitVec 3) (s : State) : Result :=
  issue (.xfence q ca cb scope) s

/-- LDAQ (R266): Acquire load from a scratchpad space. -/
def execLdaq (q : Itq) (r : BitVec 5) (size : BitVec 1) (a : BitVec 3) (space fe : BitVec 2) (scope : BitVec 3) (s : State) : Result :=
  issue (.ldaq q r size a space fe scope) s

/-- LDAQ_HANDLE (R266): Acquire load from main memory through a handle. -/
def execLdaqHandle (q : Itq) (r : BitVec 5) (size : BitVec 1) (h : BitVec 4) (sb : BitVec 5) (scope : BitVec 3) (s : State) : Result :=
  issue (.ldaqHandle q r size h sb scope) s

/-- STRL (R266): Release store to a scratchpad space. -/
def execStrl (q : Itq) (r : BitVec 5) (size : BitVec 1) (a : BitVec 3) (space fe : BitVec 2) (scope : BitVec 3) (s : State) : Result :=
  issue (.strl q r size a space fe scope) s

/-- STRL_HANDLE (R266): Release store to main memory through a handle. -/
def execStrlHandle (q : Itq) (r : BitVec 5) (size : BitVec 1) (h : BitVec 4) (sb : BitVec 5) (scope : BitVec 3) (s : State) : Result :=
  issue (.strlHandle q r size h sb scope) s

/-- AMO (R269): Indivisible read-modify-write at a location with optional ordering. -/
def execAmo (q : Itq) (d : BitVec 5) (g size : BitVec 1) (loc : BitVec 9) (ord : BitVec 2) (scope : BitVec 3) (sc : BitVec 5) (op : BitVec 4) (s : State) : Result :=
  issue (.amo q d g size loc ord scope sc op) s

/-- CAS (R269): Indivisible compare-and-swap at a location with optional ordering. -/
def execCas (q : Itq) (d : BitVec 5) (g size : BitVec 1) (loc : BitVec 9) (ord : BitVec 2) (scope : BitVec 3) (sc sn : BitVec 5) (s : State) : Result :=
  issue (.cas q d g size loc ord scope sc sn) s

/-- BAR (R286): Waits at a group barrier after performing earlier accesses at a scope. -/
def execBar (q : Itq) (group : BitVec 8) (d : BitVec 5) (scope : BitVec 3) (s : State) : Result :=
  issue (.bar q group d scope) s

/-- WAITSEQ (R289): Waits for a sequence number to complete and reports lost flags. -/
def execWaitseq (q : Itq) (d sa : BitVec 5) (cls : BitVec 2) (scope : BitVec 3) (s : State) : Result :=
  issue (.waitseq q d sa cls scope) s

/-- WFE (R272): Waits until the event latch is set and clears it. -/
def execWfe (q : Itq) (s : State) : Result :=
  issue (.wfe q) s

/-- SEV (R273): Sends an event to strands after a release wait. -/
def execSev (q : Itq) (kind strand : BitVec 2) (core : BitVec 7) (scope : BitVec 3) (s : State) : Result :=
  issue (.sev q kind strand core scope) s

/-- SLPAT (R340): Sleeps until the Encke counter reaches a deadline. -/
def execSlpat (q : Itq) (sa : BitVec 5) (s : State) : Result :=
  issue (.slpat q sa) s

/-- TRN (R230): Translates a virtual address into a handle in a fixed time. -/
def execTrn (q : Itq) (h : BitVec 4) (sa : BitVec 5) (s : State) : Result :=
  issue (.trn q h sa) s

/-- PROBE (R239): Walks the page table after a drain and writes a handle or faults. -/
def execProbe (q : Itq) (h : BitVec 4) (sa : BitVec 5) (acc : BitVec 2) (s : State) : Result :=
  issue (.probe q h sa acc) s

/-- HVLD (R232): Tests a handle's validity and writes its status. -/
def execHvld (q : Itq) (pd : BitVec 3) (h : BitVec 4) (d : BitVec 5) (s : State) : Result :=
  issue (.hvld q pd h d) s

/-- TRIG (R306): Marks the strand triggered after performing earlier accesses at package scope. -/
def execTrig (q : Itq) (s : State) : Result :=
  issue (.trig q) s

/-- EXIT (R308): Drains the strand at domain scope and ends it. -/
def execExit (q : Itq) (s : State) : Result :=
  issue (.exit q) s

/-- TRAP (R251): Raises software trap 0x08 after earlier words finish. -/
def execTrap (q : Itq) (code : BitVec 16) (s : State) : Result :=
  issue (.trap q code) s

/-- ERET (R252): Checks the frame, restores state, re-injects replay entries and resumes. -/
def execEret (q : Itq) (s : State) : Result :=
  returnFromTrap (.eret q) s

/-- TASK (R312): Appends a task record from memory to a launch queue. -/
def execTask (q : Itq) (d : BitVec 5) (a : BitVec 3) (space : BitVec 2) (sq : BitVec 5) (s : State) : Result :=
  issue (.task q d a space sq) s

/-- TOKQ (R311): Pushes a token to an expert token queue. -/
def execTokq (q : Itq) (d sq st : BitVec 5) (s : State) : Result :=
  issue (.tokq q d sq st) s

/-- TRC (R343): Places a user trace record in the core's trace buffer. -/
def execTrc (q : Itq) (sa sb : BitVec 5) (code : BitVec 12) (s : State) : Result :=
  issue (.trc q sa sb code) s

/-- DRAIN (R307): Waits until every earlier word has completed and its accesses are performed. -/
def execDrain (q : Itq) (scope : BitVec 3) (s : State) : Result :=
  issue (.drain q scope) s

/-- INVQ_ISSUE (R240): Issues an invalidate command into the package queue. -/
def execInvqIssue (q : Itq) (d sa sb : BitVec 5) (s : State) : Result :=
  issue (.invqIssue q d sa sb) s

/-- INVQ_ACK (R240): Reads the greatest acknowledged invalidate number. -/
def execInvqAck (q : Itq) (d : BitVec 5) (s : State) : Result :=
  issue (.invqAck q d) s

/-- MCHK_POP (R335): Moves the oldest machine-check log record to memory. -/
def execMchkPop (q : Itq) (d : BitVec 5) (h : BitVec 4) (sb : BitVec 5) (cls : BitVec 3) (s : State) : Result :=
  issue (.mchkPop q d h sb cls) s

/-- MCHK_INJECT (R335): Arms one residue fault for the next word of a class. -/
def execMchkInject (q : Itq) (cls : BitVec 3) (s : State) : Result :=
  issue (.mchkInject q cls) s

/-- CTXSV_STRAND (R336): Pre-empts a strand and saves its strand area. -/
def execCtxsvStrand (q : Itq) (d sa : BitVec 5) (h : BitVec 4) (sb : BitVec 5) (s : State) : Result :=
  issue (.ctxsvStrand q d sa h sb) s

/-- CTXSV_CORE (R336): Saves a core area with its translation root. -/
def execCtxsvCore (q : Itq) (d sa : BitVec 5) (h : BitVec 4) (sb : BitVec 5) (s : State) : Result :=
  issue (.ctxsvCore q d sa h sb) s

/-- CTXLD_STRAND (R336): Loads a strand area into a free slot and resumes it. -/
def execCtxldStrand (q : Itq) (d sa : BitVec 5) (h : BitVec 4) (sb : BitVec 5) (s : State) : Result :=
  issue (.ctxldStrand q d sa h sb) s

/-- CTXLD_CORE (R336): Loads a core area and sets the core context. -/
def execCtxldCore (q : Itq) (d sa : BitVec 5) (h : BitVec 4) (sb : BitVec 5) (s : State) : Result :=
  issue (.ctxldCore q d sa h sb) s

end Sys2Proof.Machine
end

