-- ==== Sys2Proof/Machine/VectorWords.lean ====
section
/-! DEFINITION. The meanings of vector words (R122-R151), one per instruction. -/

namespace Sys2Proof.Machine

/-- VFADD (R128): Adds floating-point elements with one rounding. -/
def execVfadd (q : Itq) (vd va vb : BitVec 6) (s : State) : Result :=
  issue (.vfadd q vd va vb) s

/-- VFSUB (R128): Subtracts floating-point elements with one rounding. -/
def execVfsub (q : Itq) (vd va vb : BitVec 6) (s : State) : Result :=
  issue (.vfsub q vd va vb) s

/-- VFMUL (R128): Multiplies floating-point elements with one rounding. -/
def execVfmul (q : Itq) (vd va vb : BitVec 6) (s : State) : Result :=
  issue (.vfmul q vd va vb) s

/-- VFMA (R128): Fused multiply-add a times b plus d. -/
def execVfma (q : Itq) (vd va vb : BitVec 6) (s : State) : Result :=
  issue (.vfma q vd va vb) s

/-- VFMS (R128): Fused multiply-subtract a times b minus d. -/
def execVfms (q : Itq) (vd va vb : BitVec 6) (s : State) : Result :=
  issue (.vfms q vd va vb) s

/-- VFNMA (R128): Fused d minus a times b. -/
def execVfnma (q : Itq) (vd va vb : BitVec 6) (s : State) : Result :=
  issue (.vfnma q vd va vb) s

/-- VFMIN (R128): Elementwise floating-point minimum. -/
def execVfmin (q : Itq) (vd va vb : BitVec 6) (s : State) : Result :=
  issue (.vfmin q vd va vb) s

/-- VFMAX (R128): Elementwise floating-point maximum. -/
def execVfmax (q : Itq) (vd va vb : BitVec 6) (s : State) : Result :=
  issue (.vfmax q vd va vb) s

/-- VFSGN (R129): Changes element signs by ABS, NEG, COPYSIGN or XORSIGN. -/
def execVfsgn (q : Itq) (vd va vb : BitVec 6) (fn : BitVec 3) (s : State) : Result :=
  issue (.vfsgn q vd va vb fn) s

/-- VFDIV (R128): Divides floating-point elements with one rounding. -/
def execVfdiv (q : Itq) (vd va vb : BitVec 6) (s : State) : Result :=
  issue (.vfdiv q vd va vb) s

/-- VFSQRT (R130): Square root of floating-point elements. -/
def execVfsqrt (q : Itq) (vd va : BitVec 6) (s : State) : Result :=
  issue (.vfsqrt q vd va) s

/-- VFUN (R131): Applies a correctly rounded special function to F32 lanes. -/
def execVfun (q : Itq) (vd va : BitVec 6) (fn : BitVec 3) (s : State) : Result :=
  issue (.vfun q vd va fn) s

/-- VADD (R132): Integer elementwise add, wrapped or saturated. -/
def execVadd (q : Itq) (vd va vb : BitVec 6) (fn : BitVec 3) (s : State) : Result :=
  issue (.vadd q vd va vb fn) s

/-- VSUB (R132): Integer elementwise subtract, wrapped or saturated. -/
def execVsub (q : Itq) (vd va vb : BitVec 6) (fn : BitVec 3) (s : State) : Result :=
  issue (.vsub q vd va vb fn) s

/-- VMUL (R132): Low bits of integer elementwise products. -/
def execVmul (q : Itq) (vd va vb : BitVec 6) (s : State) : Result :=
  issue (.vmul q vd va vb) s

/-- VMULH (R132): High bits of integer elementwise products. -/
def execVmulh (q : Itq) (vd va vb : BitVec 6) (fn : BitVec 3) (s : State) : Result :=
  issue (.vmulh q vd va vb fn) s

/-- VAND (R132): Bitwise AND of elements. -/
def execVand (q : Itq) (vd va vb : BitVec 6) (s : State) : Result :=
  issue (.vand q vd va vb) s

/-- VOR (R132): Bitwise OR of elements. -/
def execVor (q : Itq) (vd va vb : BitVec 6) (s : State) : Result :=
  issue (.vor q vd va vb) s

/-- VXOR (R132): Bitwise XOR of elements. -/
def execVxor (q : Itq) (vd va vb : BitVec 6) (s : State) : Result :=
  issue (.vxor q vd va vb) s

/-- VSHL (R132): Elementwise left shift. -/
def execVshl (q : Itq) (vd va vb : BitVec 6) (s : State) : Result :=
  issue (.vshl q vd va vb) s

/-- VSHR (R132): Elementwise logical right shift. -/
def execVshr (q : Itq) (vd va vb : BitVec 6) (s : State) : Result :=
  issue (.vshr q vd va vb) s

/-- VSRA (R132): Elementwise arithmetic right shift. -/
def execVsra (q : Itq) (vd va vb : BitVec 6) (s : State) : Result :=
  issue (.vsra q vd va vb) s

/-- VMIN (R132): Elementwise integer minimum, signed or unsigned. -/
def execVmin (q : Itq) (vd va vb : BitVec 6) (fn : BitVec 3) (s : State) : Result :=
  issue (.vmin q vd va vb fn) s

/-- VMAX (R132): Elementwise integer maximum, signed or unsigned. -/
def execVmax (q : Itq) (vd va vb : BitVec 6) (fn : BitVec 3) (s : State) : Result :=
  issue (.vmax q vd va vb fn) s

/-- VFOPS (R133): Floating-point operation with a broadcast scalar operand. -/
def execVfops (q : Itq) (vd va : BitVec 6) (sb : BitVec 5) (fn : BitVec 4) (s : State) : Result :=
  issue (.vfops q vd va sb fn) s

/-- VIOPS (R133): Integer operation with a broadcast scalar operand. -/
def execViops (q : Itq) (vd va : BitVec 6) (sb : BitVec 5) (fn : BitVec 4) (s : State) : Result :=
  issue (.viops q vd va sb fn) s

/-- VFCMP (R134): Floating-point lane compare writing every lane of a mask. -/
def execVfcmp (q : Itq) (md : BitVec 3) (va vb : BitVec 6) (cond : BitVec 4) (s : State) : Result :=
  issue (.vfcmp q md va vb cond) s

/-- VCMP (R134): Integer lane compare writing every lane of a mask. -/
def execVcmp (q : Itq) (md : BitVec 3) (va vb : BitVec 6) (cond : BitVec 4) (s : State) : Result :=
  issue (.vcmp q md va vb cond) s

/-- VMLOG (R135): Combines masks with a logical function. -/
def execVmlog (q : Itq) (md ma mb fn : BitVec 3) (s : State) : Result :=
  issue (.vmlog q md ma mb fn) s

/-- VACT (R135): Makes a mask register the active mask. -/
def execVact (q : Itq) (ma : BitVec 3) (s : State) : Result :=
  issue (.vact q ma) s

/-- VANY (R136): Sets a predicate when any active lane of a mask is set. -/
def execVany (q : Itq) (pd ma : BitVec 3) (s : State) : Result :=
  issue (.vany q pd ma) s

/-- VALL (R136): Sets a predicate when every active lane of a mask is set. -/
def execVall (q : Itq) (pd ma : BitVec 3) (s : State) : Result :=
  issue (.vall q pd ma) s

/-- VMPOP (R136): Counts active lanes set in a mask into a scalar. -/
def execVmpop (q : Itq) (d : BitVec 5) (ma : BitVec 3) (s : State) : Result :=
  issue (.vmpop q d ma) s

/-- VSEL (R137): Selects lanes of two registers by a mask. -/
def execVsel (q : Itq) (vd va vb : BitVec 6) (mk : BitVec 3) (s : State) : Result :=
  issue (.vsel q vd va vb mk) s

/-- VFRED (R138): Floating-point tree reduction to a broadcast register or a scalar. -/
def execVfred (q : Itq) (vd va : BitVec 6) (sb : BitVec 5) (fn : BitVec 4) (s : State) : Result :=
  issue (.vfred q vd va sb fn) s

/-- VRED (R139): Exact integer reduction to a broadcast register or a scalar. -/
def execVred (q : Itq) (vd va : BitVec 6) (sb : BitVec 5) (fn : BitVec 4) (s : State) : Result :=
  issue (.vred q vd va sb fn) s

/-- VFSCAN (R140): Scans F32 lanes in ascending order. -/
def execVfscan (q : Itq) (vd va : BitVec 6) (fn : BitVec 3) (s : State) : Result :=
  issue (.vfscan q vd va fn) s

/-- VBCS (R142): Broadcasts a scalar into every element with a given tag. -/
def execVbcs (q : Itq) (vd : BitVec 6) (sb : BitVec 5) (fn : BitVec 4) (s : State) : Result :=
  issue (.vbcs q vd sb fn) s

/-- VBCL (R142): Broadcasts one lane into every active lane. -/
def execVbcl (q : Itq) (vd va : BitVec 6) (sb : BitVec 5) (s : State) : Result :=
  issue (.vbcl q vd va sb) s

/-- VPERM (R143): Permutes lanes by an index register. -/
def execVperm (q : Itq) (vd va vb : BitVec 6) (s : State) : Result :=
  issue (.vperm q vd va vb) s

/-- VROT (R143): Rotates or shifts lanes by a scalar amount. -/
def execVrot (q : Itq) (vd va : BitVec 6) (sb : BitVec 5) (fn : BitVec 4) (s : State) : Result :=
  issue (.vrot q vd va sb fn) s

/-- VEXT (R144): Extracts one lane into a scalar. -/
def execVext (q : Itq) (vd va : BitVec 6) (sb : BitVec 5) (fn : BitVec 4) (s : State) : Result :=
  issue (.vext q vd va sb fn) s

/-- VINS (R144): Inserts a scalar word into one lane. -/
def execVins (q : Itq) (vd va : BitVec 6) (sb : BitVec 5) (s : State) : Result :=
  issue (.vins q vd va sb) s

/-- VMOV (R141): Copies a register with its tag, sidecar and poison. -/
def execVmov (q : Itq) (vd va : BitVec 6) (s : State) : Result :=
  issue (.vmov q vd va) s

/-- VMOV_MASK_TO_REG (R141): Writes a mask as a MASK-tagged register. -/
def execVmovMaskToReg (q : Itq) (vd va : BitVec 6) (s : State) : Result :=
  issue (.vmovMaskToReg q vd va) s

/-- VMOV_REG_TO_MASK (R141): Writes a mask from a MASK-tagged register. -/
def execVmovRegToMask (q : Itq) (vd va : BitVec 6) (s : State) : Result :=
  issue (.vmovRegToMask q vd va) s

/-- VMOVI (R141): Writes a sign-extended immediate to each active lane. -/
def execVmovi (q : Itq) (vd : BitVec 6) (imm : BitVec 15) (s : State) : Result :=
  issue (.vmovi q vd imm) s

/-- VIOTA (R141): Writes lane indices or active-lane ranks. -/
def execViota (q : Itq) (vd : BitVec 6) (fn : BitVec 3) (s : State) : Result :=
  issue (.viota q vd fn) s

/-- VCVT (R145): Converts a group of registers between formats. -/
def execVcvt (q : Itq) (vd va : BitVec 6) (tag : BitVec 4) (sat : BitVec 1) (rnd : BitVec 2) (s : State) : Result :=
  issue (.vcvt q vd va tag sat rnd) s

/-- VTAG (R146): Copies a register under a new tag. -/
def execVtag (q : Itq) (vd va : BitVec 6) (tag : BitVec 4) (s : State) : Result :=
  issue (.vtag q vd va tag) s

/-- VAMO (R150): Performs per-lane indivisible read-modify-writes at indexed addresses. -/
def execVamo (q : Itq) (vd : BitVec 6) (a : BitVec 3) (space fe : BitVec 2) (fmt inc : BitVec 4) (vx : BitVec 6) (op : BitVec 4) (s : State) : Result :=
  issue (.vamo q vd a space fe fmt inc vx op) s

/-- VLD (R147): Loads 128 bytes into a vector register with a tag. -/
def execVld (q : Itq) (vd : BitVec 6) (a : BitVec 3) (space fe : BitVec 2) (fmt inc : BitVec 4) (s : State) : Result :=
  issue (.vld q vd a space fe fmt inc) s

/-- VST (R147): Stores the active lanes of a vector register. -/
def execVst (q : Itq) (vd : BitVec 6) (a : BitVec 3) (space fe : BitVec 2) (fmt inc : BitVec 4) (s : State) : Result :=
  issue (.vst q vd a space fe fmt inc) s

/-- VLDX (R149): Gathers lanes from indexed addresses. -/
def execVldx (q : Itq) (vd : BitVec 6) (a : BitVec 3) (space fe : BitVec 2) (fmt inc : BitVec 4) (vx : BitVec 6) (s : State) : Result :=
  issue (.vldx q vd a space fe fmt inc vx) s

/-- VSTX (R149): Scatters lanes to indexed addresses. -/
def execVstx (q : Itq) (vd : BitVec 6) (a : BitVec 3) (space fe : BitVec 2) (fmt inc : BitVec 4) (vx : BitVec 6) (s : State) : Result :=
  issue (.vstx q vd a space fe fmt inc vx) s

/-- VLDL (R148): Loads a register from the strand's lane slices. -/
def execVldl (q : Itq) (vd : BitVec 6) (a : BitVec 3) (space fe : BitVec 2) (fmt inc : BitVec 4) (s : State) : Result :=
  issue (.vldl q vd a space fe fmt inc) s

/-- VSTL (R148): Stores a register to the strand's lane slices. -/
def execVstl (q : Itq) (vd : BitVec 6) (a : BitVec 3) (space fe : BitVec 2) (fmt inc : BitVec 4) (s : State) : Result :=
  issue (.vstl q vd a space fe fmt inc) s

end Sys2Proof.Machine
end

