-- ==== Sys2Proof/Machine/Dispatch.lean ====
section
/-! DEFINITION. The dispatch: one arm per instruction and event of the opcode table. -/

namespace Sys2Proof.Machine

def exec (i : Instr) (s : State) : Host.Outcome State Fault Refusal :=
  match i with
  | .nop q => Sys2Proof.Machine.execNop q s
  | .add q d a b => Sys2Proof.Machine.execAdd q d a b s
  | .sub q d a b => Sys2Proof.Machine.execSub q d a b s
  | .and q d a b => Sys2Proof.Machine.execAnd q d a b s
  | .or q d a b => Sys2Proof.Machine.execOr q d a b s
  | .xor q d a b => Sys2Proof.Machine.execXor q d a b s
  | .shl q d a b => Sys2Proof.Machine.execShl q d a b s
  | .shr q d a b => Sys2Proof.Machine.execShr q d a b s
  | .sra q d a b => Sys2Proof.Machine.execSra q d a b s
  | .mul q d a b => Sys2Proof.Machine.execMul q d a b s
  | .mulh q d a b => Sys2Proof.Machine.execMulh q d a b s
  | .mulhu q d a b => Sys2Proof.Machine.execMulhu q d a b s
  | .min q d a b => Sys2Proof.Machine.execMin q d a b s
  | .max q d a b => Sys2Proof.Machine.execMax q d a b s
  | .minu q d a b => Sys2Proof.Machine.execMinu q d a b s
  | .maxu q d a b => Sys2Proof.Machine.execMaxu q d a b s
  | .addi q d a imm => Sys2Proof.Machine.execAddi q d a imm s
  | .andi q d a imm => Sys2Proof.Machine.execAndi q d a imm s
  | .ori q d a imm => Sys2Proof.Machine.execOri q d a imm s
  | .xori q d a imm => Sys2Proof.Machine.execXori q d a imm s
  | .shli q d a imm => Sys2Proof.Machine.execShli q d a imm s
  | .shri q d a imm => Sys2Proof.Machine.execShri q d a imm s
  | .srai q d a imm => Sys2Proof.Machine.execSrai q d a imm s
  | .movi q d imm => Sys2Proof.Machine.execMovi q d imm s
  | .insh0 q d imm => Sys2Proof.Machine.execInsh0 q d imm s
  | .insh1 q d imm => Sys2Proof.Machine.execInsh1 q d imm s
  | .insh2 q d imm => Sys2Proof.Machine.execInsh2 q d imm s
  | .insh3 q d imm => Sys2Proof.Machine.execInsh3 q d imm s
  | .popc q d a => Sys2Proof.Machine.execPopc q d a s
  | .clz q d a => Sys2Proof.Machine.execClz q d a s
  | .cmp q pd a b cond => Sys2Proof.Machine.execCmp q pd a b cond s
  | .cmpi q pd a cond imm => Sys2Proof.Machine.execCmpi q pd a cond imm s
  | .plog q pd pa pb fn => Sys2Proof.Machine.execPlog q pd pa pb fn s
  | .sel q d a b p => Sys2Proof.Machine.execSel q d a b p s
  | .pbr q bt imm => Sys2Proof.Machine.execPbr q bt imm s
  | .pbrr q bt a => Sys2Proof.Machine.execPbrr q bt a s
  | .br q bt p neg => Sys2Proof.Machine.execBr q bt p neg s
  | .call q bt p neg => Sys2Proof.Machine.execCall q bt p neg s
  | .ret q p neg => Sys2Proof.Machine.execRet q p neg s
  | .loop q level sc len mode => Sys2Proof.Machine.execLoop q level sc len mode s
  | .lstr q level a sb => Sys2Proof.Machine.execLstr q level a sb s
  | .lbrk q p neg => Sys2Proof.Machine.execLbrk q p neg s
  | .ldsW q r a space fe imm => Sys2Proof.Machine.execLdsW q r a space fe imm s
  | .ldsD q r a space fe imm => Sys2Proof.Machine.execLdsD q r a space fe imm s
  | .stsW q r a space fe imm => Sys2Proof.Machine.execStsW q r a space fe imm s
  | .stsD q r a space fe imm => Sys2Proof.Machine.execStsD q r a space fe imm s
  | .ldg q r h sb size => Sys2Proof.Machine.execLdg q r h sb size s
  | .stg q r h sb size => Sys2Proof.Machine.execStg q r h sb size s
  | .amov q a sa sb => Sys2Proof.Machine.execAmov q a sa sb s
  | .ainc q a imm => Sys2Proof.Machine.execAinc q a imm s
  | .csrr q r csr => Sys2Proof.Machine.execCsrr q r csr s
  | .csrw q r csr => Sys2Proof.Machine.execCsrw q r csr s
  | .rsbottomRead q r => Sys2Proof.Machine.execRsbottomRead q r s
  | .rsbottomWrite q r => Sys2Proof.Machine.execRsbottomWrite q r s
  | .getid q d kind => Sys2Proof.Machine.execGetid q d kind s
  | .time q d => Sys2Proof.Machine.execTime q d s
  | .vfadd q vd va vb => Sys2Proof.Machine.execVfadd q vd va vb s
  | .vfsub q vd va vb => Sys2Proof.Machine.execVfsub q vd va vb s
  | .vfmul q vd va vb => Sys2Proof.Machine.execVfmul q vd va vb s
  | .vfma q vd va vb => Sys2Proof.Machine.execVfma q vd va vb s
  | .vfms q vd va vb => Sys2Proof.Machine.execVfms q vd va vb s
  | .vfnma q vd va vb => Sys2Proof.Machine.execVfnma q vd va vb s
  | .vfmin q vd va vb => Sys2Proof.Machine.execVfmin q vd va vb s
  | .vfmax q vd va vb => Sys2Proof.Machine.execVfmax q vd va vb s
  | .vfsgn q vd va vb fn => Sys2Proof.Machine.execVfsgn q vd va vb fn s
  | .vfdiv q vd va vb => Sys2Proof.Machine.execVfdiv q vd va vb s
  | .vfsqrt q vd va => Sys2Proof.Machine.execVfsqrt q vd va s
  | .vfun q vd va fn => Sys2Proof.Machine.execVfun q vd va fn s
  | .vadd q vd va vb fn => Sys2Proof.Machine.execVadd q vd va vb fn s
  | .vsub q vd va vb fn => Sys2Proof.Machine.execVsub q vd va vb fn s
  | .vmul q vd va vb => Sys2Proof.Machine.execVmul q vd va vb s
  | .vmulh q vd va vb fn => Sys2Proof.Machine.execVmulh q vd va vb fn s
  | .vand q vd va vb => Sys2Proof.Machine.execVand q vd va vb s
  | .vor q vd va vb => Sys2Proof.Machine.execVor q vd va vb s
  | .vxor q vd va vb => Sys2Proof.Machine.execVxor q vd va vb s
  | .vshl q vd va vb => Sys2Proof.Machine.execVshl q vd va vb s
  | .vshr q vd va vb => Sys2Proof.Machine.execVshr q vd va vb s
  | .vsra q vd va vb => Sys2Proof.Machine.execVsra q vd va vb s
  | .vmin q vd va vb fn => Sys2Proof.Machine.execVmin q vd va vb fn s
  | .vmax q vd va vb fn => Sys2Proof.Machine.execVmax q vd va vb fn s
  | .vfops q vd va sb fn => Sys2Proof.Machine.execVfops q vd va sb fn s
  | .viops q vd va sb fn => Sys2Proof.Machine.execViops q vd va sb fn s
  | .vfcmp q md va vb cond => Sys2Proof.Machine.execVfcmp q md va vb cond s
  | .vcmp q md va vb cond => Sys2Proof.Machine.execVcmp q md va vb cond s
  | .vmlog q md ma mb fn => Sys2Proof.Machine.execVmlog q md ma mb fn s
  | .vact q ma => Sys2Proof.Machine.execVact q ma s
  | .vany q pd ma => Sys2Proof.Machine.execVany q pd ma s
  | .vall q pd ma => Sys2Proof.Machine.execVall q pd ma s
  | .vmpop q d ma => Sys2Proof.Machine.execVmpop q d ma s
  | .vsel q vd va vb mk => Sys2Proof.Machine.execVsel q vd va vb mk s
  | .vfred q vd va sb fn => Sys2Proof.Machine.execVfred q vd va sb fn s
  | .vred q vd va sb fn => Sys2Proof.Machine.execVred q vd va sb fn s
  | .vfscan q vd va fn => Sys2Proof.Machine.execVfscan q vd va fn s
  | .vbcs q vd sb fn => Sys2Proof.Machine.execVbcs q vd sb fn s
  | .vbcl q vd va sb => Sys2Proof.Machine.execVbcl q vd va sb s
  | .vperm q vd va vb => Sys2Proof.Machine.execVperm q vd va vb s
  | .vrot q vd va sb fn => Sys2Proof.Machine.execVrot q vd va sb fn s
  | .vext q vd va sb fn => Sys2Proof.Machine.execVext q vd va sb fn s
  | .vins q vd va sb => Sys2Proof.Machine.execVins q vd va sb s
  | .vmov q vd va => Sys2Proof.Machine.execVmov q vd va s
  | .vmovMaskToReg q vd va => Sys2Proof.Machine.execVmovMaskToReg q vd va s
  | .vmovRegToMask q vd va => Sys2Proof.Machine.execVmovRegToMask q vd va s
  | .vmovi q vd imm => Sys2Proof.Machine.execVmovi q vd imm s
  | .viota q vd fn => Sys2Proof.Machine.execViota q vd fn s
  | .vcvt q vd va tag sat rnd => Sys2Proof.Machine.execVcvt q vd va tag sat rnd s
  | .vtag q vd va tag => Sys2Proof.Machine.execVtag q vd va tag s
  | .vamo q vd a space fe fmt inc vx op => Sys2Proof.Machine.execVamo q vd a space fe fmt inc vx op s
  | .vld q vd a space fe fmt inc => Sys2Proof.Machine.execVld q vd a space fe fmt inc s
  | .vst q vd a space fe fmt inc => Sys2Proof.Machine.execVst q vd a space fe fmt inc s
  | .vldx q vd a space fe fmt inc vx => Sys2Proof.Machine.execVldx q vd a space fe fmt inc vx s
  | .vstx q vd a space fe fmt inc vx => Sys2Proof.Machine.execVstx q vd a space fe fmt inc vx s
  | .vldl q vd a space fe fmt inc => Sys2Proof.Machine.execVldl q vd a space fe fmt inc s
  | .vstl q vd a space fe fmt inc => Sys2Proof.Machine.execVstl q vd a space fe fmt inc s
  | .mcfg q gang => Sys2Proof.Machine.execMcfg q gang s
  | .mldw q g fmt a space ae vq k0 n1 whole => Sys2Proof.Machine.execMldw q g fmt a space ae vq k0 n1 whole s
  | .mldws q g fmt a space ae am k0 n1 whole => Sys2Proof.Machine.execMldws q g fmt a space ae am k0 n1 whole s
  | .mswap q g all => Sys2Proof.Machine.execMswap q g all s
  | .mmul q t g rows1 afmt start fin wide a space fe stride => Sys2Proof.Machine.execMmul q t g rows1 afmt start fin wide a space fe stride s
  | .mrd q t row0 count1 a space fe stride => Sys2Proof.Machine.execMrd q t row0 count1 a space fe stride s
  | .mrdv q t row v => Sys2Proof.Machine.execMrdv q t row v s
  | .mclr q t d op => Sys2Proof.Machine.execMclr q t d op s
  | .mpois q t => Sys2Proof.Machine.execMpois q t s
  | .mrdk q mac v sk => Sys2Proof.Machine.execMrdk q mac v sk s
  | .mwrk q mac v sk => Sys2Proof.Machine.execMwrk q mac v sk s
  | .mslot q sa now => Sys2Proof.Machine.execMslot q sa now s
  | .qcfg q target axis mode sat dd => Sys2Proof.Machine.execQcfg q target axis mode sat dd s
  | .qstv q a space v qr sb axisend => Sys2Proof.Machine.execQstv q a space v qr sb axisend s
  | .qstt q t row0 count1 sb axisend a space qr stride => Sys2Proof.Machine.execQstt q t row0 count1 sb axisend a space qr stride s
  | .qscl q d sa => Sys2Proof.Machine.execQscl q d sa s
  | .qrld q kind qr a space fe ord scope => Sys2Proof.Machine.execQrld q kind qr a space fe ord scope s
  | .qrst q kind qr a space fe ord scope => Sys2Proof.Machine.execQrst q kind qr a space fe ord scope s
  | .qrclr q kind qr => Sys2Proof.Machine.execQrclr q kind qr s
  | .qrmov q kind qd qa => Sys2Proof.Machine.execQrmov q kind qd qa s
  | .qflg q d clr => Sys2Proof.Machine.execQflg q d clr s
  | .lntol q set sb => Sys2Proof.Machine.execLntol q set sb s
  | .lnfit q vp mk fb fn => Sys2Proof.Machine.execLnfit q vp mk fb fn s
  | .lnld q sf a space n1 fn => Sys2Proof.Machine.execLnld q sf a space n1 fn s
  | .lnst q sf a space n1 => Sys2Proof.Machine.execLnst q sf a space n1 s
  | .lnstTable q a space kind => Sys2Proof.Machine.execLnstTable q a space kind s
  | .lnchk q md t row0 count1 fset => Sys2Proof.Machine.execLnchk q md t row0 count1 fset s
  | .lnapl q vd t row fix fb => Sys2Proof.Machine.execLnapl q vd t row fix fb s
  | .lncor q vd t row grad fb => Sys2Proof.Machine.execLncor q vd t row grad fb s
  | .lnrfl q d a space n1 => Sys2Proof.Machine.execLnrfl q d a space n1 s
  | .lncnt q vd fb clr => Sys2Proof.Machine.execLncnt q vd fb clr s
  | .lnclrCounts q set => Sys2Proof.Machine.execLnclrCounts q set s
  | .lnclrList q => Sys2Proof.Machine.execLnclrList q s
  | .lnclrLines q set => Sys2Proof.Machine.execLnclrLines q set s
  | .lnfold q vd va sf col acc => Sys2Proof.Machine.execLnfold q vd va sf col acc s
  | .srec q slot a space => Sys2Proof.Machine.execSrec q slot a space s
  | .cpyLinear q ad dsp asrc ssp sn dfe sfe => Sys2Proof.Machine.execCpyLinear q ad dsp asrc ssp sn dfe sfe s
  | .cpyPattern q dslot sslot h dfe sfe => Sys2Proof.Machine.execCpyPattern q dslot sslot h dfe sfe s
  | .cpymLinear q ad dsp asrc ssp sn dfe sfe follow => Sys2Proof.Machine.execCpymLinear q ad dsp asrc ssp sn dfe sfe follow s
  | .cpymPattern q dslot sslot h dfe sfe follow => Sys2Proof.Machine.execCpymPattern q dslot sslot h dfe sfe follow s
  | .cwin q slot a space h sw sr => Sys2Proof.Machine.execCwin q slot a space h sw sr s
  | .cadv q slot sn h nh => Sys2Proof.Machine.execCadv q slot sn h nh s
  | .cgath q a space ai ispace sn esz lfe rfe => Sys2Proof.Machine.execCgath q a space ai ispace sn esz lfe rfe s
  | .cscat q a space ai ispace sn esz lfe rfe => Sys2Proof.Machine.execCscat q a space ai ispace sn esz lfe rfe s
  | .cred q ad dsp asrc ssp sn fmt dfe sfe => Sys2Proof.Machine.execCred q ad dsp asrc ssp sn fmt dfe sfe s
  | .cvqxBook q asrc ssp sfe => Sys2Proof.Machine.execCvqxBook q asrc ssp sfe s
  | .cvqxExpand q ad dsp asrc ssp sn dfe sfe => Sys2Proof.Machine.execCvqxExpand q ad dsp asrc ssp sn dfe sfe s
  | .sisect q d sp se ka kb out h spa spb ao osp => Sys2Proof.Machine.execSisect q d sp se ka kb out h spa spb ao osp s
  | .cseq q d cls which => Sys2Proof.Machine.execCseq q d cls which s
  | .fence q scope => Sys2Proof.Machine.execFence q scope s
  | .xfence q ca cb scope => Sys2Proof.Machine.execXfence q ca cb scope s
  | .ldaq q r size a space fe scope => Sys2Proof.Machine.execLdaq q r size a space fe scope s
  | .ldaqHandle q r size h sb scope => Sys2Proof.Machine.execLdaqHandle q r size h sb scope s
  | .strl q r size a space fe scope => Sys2Proof.Machine.execStrl q r size a space fe scope s
  | .strlHandle q r size h sb scope => Sys2Proof.Machine.execStrlHandle q r size h sb scope s
  | .amo q d g size loc ord scope sc op => Sys2Proof.Machine.execAmo q d g size loc ord scope sc op s
  | .cas q d g size loc ord scope sc sn => Sys2Proof.Machine.execCas q d g size loc ord scope sc sn s
  | .bar q group d scope => Sys2Proof.Machine.execBar q group d scope s
  | .waitseq q d sa cls scope => Sys2Proof.Machine.execWaitseq q d sa cls scope s
  | .wfe q => Sys2Proof.Machine.execWfe q s
  | .sev q kind strand core scope => Sys2Proof.Machine.execSev q kind strand core scope s
  | .slpat q sa => Sys2Proof.Machine.execSlpat q sa s
  | .trn q h sa => Sys2Proof.Machine.execTrn q h sa s
  | .probe q h sa acc => Sys2Proof.Machine.execProbe q h sa acc s
  | .hvld q pd h d => Sys2Proof.Machine.execHvld q pd h d s
  | .trig q => Sys2Proof.Machine.execTrig q s
  | .exit q => Sys2Proof.Machine.execExit q s
  | .trap q code => Sys2Proof.Machine.execTrap q code s
  | .eret q => Sys2Proof.Machine.execEret q s
  | .task q d a space sq => Sys2Proof.Machine.execTask q d a space sq s
  | .tokq q d sq st => Sys2Proof.Machine.execTokq q d sq st s
  | .trc q sa sb code => Sys2Proof.Machine.execTrc q sa sb code s
  | .drain q scope => Sys2Proof.Machine.execDrain q scope s
  | .invqIssue q d sa sb => Sys2Proof.Machine.execInvqIssue q d sa sb s
  | .invqAck q d => Sys2Proof.Machine.execInvqAck q d s
  | .mchkPop q d h sb cls => Sys2Proof.Machine.execMchkPop q d h sb cls s
  | .mchkInject q cls => Sys2Proof.Machine.execMchkInject q cls s
  | .ctxsvStrand q d sa h sb => Sys2Proof.Machine.execCtxsvStrand q d sa h sb s
  | .ctxsvCore q d sa h sb => Sys2Proof.Machine.execCtxsvCore q d sa h sb s
  | .ctxldStrand q d sa h sb => Sys2Proof.Machine.execCtxldStrand q d sa h sb s
  | .ctxldCore q d sa h sb => Sys2Proof.Machine.execCtxldCore q d sa h sb s
  | .slotTableApply => Sys2Proof.Machine.execSlotTableApply s
  | .slotBoundary => Sys2Proof.Machine.execSlotBoundary s
  | .sleepDeadline => Sys2Proof.Machine.execSleepDeadline s
  | .trnResultLands smallLate largeLate => Sys2Proof.Machine.execTrnResultLands smallLate largeLate s
  | .invalidateBroadcast => Sys2Proof.Machine.execInvalidateBroadcast s
  | .invalidateAcknowledge => Sys2Proof.Machine.execInvalidateAcknowledge s
  | .trapEntry cause => Sys2Proof.Machine.execTrapEntry cause s
  | .fatalContextError cause addr => Sys2Proof.Machine.execFatalContextError cause addr s
  | .machineCheck cause => Sys2Proof.Machine.execMachineCheck cause s
  | .fullEmptyWake => Sys2Proof.Machine.execFullEmptyWake s
  | .nearBufferDrain => Sys2Proof.Machine.execNearBufferDrain s
  | .nearBufferForcedDrain => Sys2Proof.Machine.execNearBufferForcedDrain s
  | .remoteRequest req => Sys2Proof.Machine.execRemoteRequest req s
  | .retryReissue => Sys2Proof.Machine.execRetryReissue s
  | .partnerLost strand net => Sys2Proof.Machine.execPartnerLost strand net s
  | .reset flash => Sys2Proof.Machine.execReset flash s
  | .recoveryImage which img => Sys2Proof.Machine.execRecoveryImage which img s
  | .launchDoorbell queue tail => Sys2Proof.Machine.execLaunchDoorbell queue tail s
  | .taskRecordLaunch queue => Sys2Proof.Machine.execTaskRecordLaunch queue s
  | .releaseHeldNode queue => Sys2Proof.Machine.execReleaseHeldNode queue s
  | .cancelHeldNode queue => Sys2Proof.Machine.execCancelHeldNode queue s
  | .configureExpertQueue queue => Sys2Proof.Machine.execConfigureExpertQueue queue s
  | .nodePlacement queue => Sys2Proof.Machine.execNodePlacement queue s
  | .nodeCompletion queue => Sys2Proof.Machine.execNodeCompletion queue s
  | .expertQueueTimeout eq => Sys2Proof.Machine.execExpertQueueTimeout eq s
  | .expertQueueFire eq => Sys2Proof.Machine.execExpertQueueFire eq s
  | .energyIntegration => Sys2Proof.Machine.execEnergyIntegration s
  | .energyIntervalStart => Sys2Proof.Machine.execEnergyIntervalStart s
  | .energyConfig interval budget => Sys2Proof.Machine.execEnergyConfig interval budget s
  | .stateSummary buffer => Sys2Proof.Machine.execStateSummary buffer s
  | .ptpMessage offset => Sys2Proof.Machine.execPtpMessage offset s
  | .holdoverExpiry => Sys2Proof.Machine.execHoldoverExpiry s
  | .traceRecordMove => Sys2Proof.Machine.execTraceRecordMove s
  | .hbmParityAlert stack channel line write fails => Sys2Proof.Machine.execHbmParityAlert stack channel line write fails s
  | .hbmScrub row => Sys2Proof.Machine.execHbmScrub row s
  | .criticalTemperature stack => Sys2Proof.Machine.execCriticalTemperature stack s
  | .selfRefreshExit stack => Sys2Proof.Machine.execSelfRefreshExit stack s
  | .stallReport stack => Sys2Proof.Machine.execStallReport stack s
  | .launchQueueBinding queue b => Sys2Proof.Machine.execLaunchQueueBinding queue b s
  | .abandonFlitArrival strand net => Sys2Proof.Machine.execAbandonFlitArrival strand net s
  | .noBetterClockAnnounced => Sys2Proof.Machine.execNoBetterClockAnnounced s
  | .attestationReport => Sys2Proof.Machine.execAttestationReport s

end Sys2Proof.Machine
end

