-- ==== Sys2Proof/Machine/Step.lean ====
section
/-! DEFINITION. The step of the machine, and the placing of one instruction where the next step fetches. -/

namespace Sys2Proof.Machine

/-- One step: an event that has arrived, or the instruction at the current strand's PC and the engines' pass over the
strand's queued words; then time passes and the next strand has its turn.  (DESIGN CHOICE: assumption 20.) -/
def step (s : State) : Host.Outcome State Fault Refusal :=
  match s.choose with
  | .inl (i, t) => ticked (if i.isWord then enginesAfter (exec i t) else exec i t)
  | .inr r => ticked (enginesAfter r)

/-- The placement of a text that fills the first 64 KiB page of the device's main memory, its header in the first 64 bytes
(R298, R303).  (DESIGN CHOICE: assumption 19.) -/
def firstPage (s : State) : Placement := ⟨0, 0, 1, 0, 0, [(s.sys.device * 2 ^ 40, false)], 65472, 0, 0,
  Vector.replicate 4 0xFF⟩

/-- A loop level around the whole first page, for a word that must stand in a body (R71). -/
def firstLevel : Loop := { Loop.idle with active := true, fin := 0xFF00, count := 2, iter := 1 }

/-- The strand that fetches at the start of the first page: privileged, with nothing queued, and as the decode tests of an
ERET (in a handler) and of an LBRK (in a loop body) need it (R32, R66). -/
def Strand.atFirstPage (st : Strand) (pl : Placement) (i : Option Instr) : Strand :=
  let inLoop := match i with
    | some (.lbrk ..) => true
    | _ => false
  let inTrap := match i with
    | some (.eret _) => true
    | _ => st.intrap
  let idle := Vector.replicate 6 Loop.idle
  let loops := if inLoop then idle.set 0 firstLevel else idle
  { st with placed := some pl, pc := 0, priv := true, intrap := inTrap, xfer := none, loops := loops
            queue := [], gather := [], moving := [], storing := none, inject := [], returning := none, atSplit := none, trcs := [] }

/-- The state with an instruction stored where strand 0 fetches next: a placement of a text in the device's first page
stands for the launch of a node (R298, R303).  (DESIGN CHOICE: assumption 19.) -/
def State.withFetchWord (s : State) (nbits w : Nat) : State :=
  let base := s.sys.device * 2 ^ 40
  let bytes := (tableWords nbits w).flatMap fun x => leBytes 4 x.toNat
  let st := s.strands[0].atFirstPage (firstPage s) (decodeTableWord nbits w)
  let line := (base + 64) / 64
  let near := s.near.filter fun l => decide (l.line ≠ line)
  let icache := s.icache.filter fun l => decide (l.1 ≠ line)
  let awake := s.sys.selfRefresh.filter fun k => decide (k ≠ 0)
  { s with
    strands := s.strands.set 0 st
    cur := 0
    mem := cellsWrite s.mem (base + 64) bytes
    near := near
    icache := icache
    sys := { s.sys with selfRefresh := awake }
    env := { s.env with inputs := [] } }

end Sys2Proof.Machine
end

