-- ==== Sys2Proof/Safety.lean ====
section
/-! DEFINITION. The terms in which claims are stated: when a word is performed at once, what its completion adds to its own
effect, and what every step keeps. -/

namespace Sys2Proof.Machine

/-- A control word is performed at once: no queued word stops the splitter (R42), no register that it names is pending
(R46, R249), it waits for nothing (R45, R47, R261, R262, R266) and has not waited (R241), no fault is armed (R335), and its
accesses meet no soft error (R317). -/
structure Clear (i : Instr) (s : State) : Prop where
  blocked : s.me.blocked = false
  held    : s.me.heldReg i.uses = none
  pending : s.me.pends i.uses = false
  waits   : s.splitWaits i = false
  armed   : s.armed = []
  soft    : s.env.soft = []
  stands  : s.me.atSplit = none

/-- No other strand comes before the current one in a shared engine: it is the next to be served, or no other has a word there
(R49). -/
def State.hasTurn (s : State) (g : Engine) : Prop :=
  s.cur = s.served[engineNumber g] + 1 ∨
    ∀ k : Fin 4, k ≠ s.cur → ∀ e ∈ s.strands[k].queue, e.instr.eng ≠ some g

/-- The current strand runs with nothing outstanding: no queued word, no result and no translation in flight, no register
pending, no wait and no fault in its way, and it has its turn in every engine, the copy engine among them having room for a
word (R228). -/
structure Calm (s : State) : Prop where
  placed  : s.me.placed.isSome = true
  queue   : s.me.queue = []
  gather  : s.me.gather = []
  moving  : s.me.moving = []
  storing : s.me.storing = none
  inject  : s.me.inject = []
  flight  : s.me.flight = []
  trns    : s.me.trns = []
  heldS   : s.me.heldS = 0
  heldP   : s.me.heldP = 0
  heldH   : s.me.heldH = 0
  sleep   : s.me.sleeping = none
  passing : s.me.passing = false
  armed   : s.armed = []
  busy    : s.env.busy = []
  soft    : s.env.soft = []
  pieces  : s.env.pieces = []
  turn    : ∀ g, s.hasTurn g
  copies  : s.copiesInFlight < 8
  waiters : s.waiters = []
  atSplit : s.me.atSplit = none
  silent  : s.env.silent = false

/-- The matrix engine takes a word of the current strand: no chain is open, no MRD still stores rows, and the present slot is
open or the strand's own (R50, R178). -/
structure MatrixFree (s : State) : Prop where
  chain : s.matrix.chain = none
  rows  : s.matrixStores = false
  slot  : s.slotOwner = none ∨ s.slotOwner = some s.cur

/-- Main memory answers an access of n bytes at a place: the device exists, its memory holds the place, and its stack is
not in self-refresh (R1, R284, R328). -/
structure MainOk (s : State) (p n : Nat) : Prop where
  silent : s.env.silent = false
  device : mainDevice p = s.sys.device ∨ mainDevice p < s.sys.devices
  size   : mainLocal p + n ≤ Config.mainBytes
  stack  : s.stackHeld p = false

/-- The queue entry of a word that a strand with nothing queued splits (R41). -/
def State.entry (s : State) (i : Instr) : QEntry :=
  { s.entryOf s.me i s.me.pc false with drain := decide (i.eng = some .vector) && s.me.drainDue }

/-- A drain does not wait: no stack that a buffered line belongs to is in self-refresh (R328), and no line with a write of the
current strand is still on its way over a Casusk link (R277). -/
structure Drains (s : State) : Prop where
  near  : ∀ l ∈ s.near, s.stackHeld (l.line * 64) = false
  links : ∀ l ∈ s.links, ∀ w ∈ l.writers, w.strand ≠ s.me.ident

/-- The fields of a strand that splitting a word and moving on touch. -/
structure Book where
  queue      : List QEntry
  drainDue   : Bool
  copyIssued : BitVec 32
  netIssued  : BitVec 32
  pc         : BitVec 32
  loops      : Vector Loop 6
  a          : Vector AReg 8
  xfer       : Option Transfer
  atSplit    : Option AtSplit

/-- Those fields of a strand. -/
def Strand.book (st : Strand) : Book :=
  ⟨st.queue, st.drainDue, st.copyIssued, st.netIssued, st.pc, st.loops, st.a, st.xfer, st.atSplit⟩

/-- A strand with those fields replaced. -/
def Strand.withBook (st : Strand) (k : Book) : Strand :=
  { st with queue := k.queue, drainDue := k.drainDue, copyIssued := k.copyIssued, netIssued := k.netIssued
            pc := k.pc, loops := k.loops, a := k.a, xfer := k.xfer, atSplit := k.atSplit }

/-- A state whose current strand has those fields replaced. -/
def State.withBook (s : State) (k : Book) : State := s.updMe fun st => st.withBook k

/-- The number that a word of the copy or the network class takes at its split (R220). -/
def Strand.nextNum (st : Strand) (i : Instr) : BitVec 32 :=
  if i.copyNumbered then st.copyIssued + 1 else if i.netNumbered then st.netIssued + 1 else 0

/-- What the completion of a word adds to its effect on the strand: post-increments (R147), the sequence numbers of its
class (R220), and the drain point of R54. -/
def Strand.bookkeep (st : Strand) (i : Instr) : Strand :=
  let due := decide (i.eng ≠ some .vector) && (drainsPipe i || st.drainDue)
  { ((st.postInc i).number i).completed i (st.nextNum i) with drainDue := due }

/-- The state in which the word `i` that stood at the PC of `s` has completed, `x` being `s` with the word's own effect:
its bookkeeping is done, its engine has served the strand, and the splitter has moved past it (R40, R49, R64, R69); a control word
has added the trace records of its beginning and its end (R345). -/
def State.past (s : State) (i : Instr) (x : State) : State :=
  ((x.traceWord s.me i).updMe fun u => (u.bookkeep i).moveOn s.me.pc i.words s.me.xfer).serve i

/-- The strand without its position: PC, loop levels, address registers, standing transfer, the drain point that the end of
a level of the other vector mode is (R54), and the word that stands at the splitter. -/
def Strand.rest (st : Strand) : Strand :=
  { st with pc := 0, loops := Vector.replicate 6 Loop.idle, a := Vector.replicate 8 ⟨0, 0, 0⟩, xfer := none
            drainDue := false, atSplit := none }

/-- The state without the trace records that events of R345 add. -/
def State.noTrace (s : State) : State := { s with trace := [], traceLost := false }

/-- Two states that differ in nothing but trace records. -/
def State.Same (s t : State) : Prop := s.noTrace = t.noTrace

/-- An instruction completes in its own step (the model's schedule: assumption 5): `x` is the state with its effect, to which the bookkeeping and the move past
the word are added; nothing else differs but trace records (R345). -/
def Completes (i : Instr) (s x : State) : Prop := ∃ t, exec i s = .next t ∧ t.Same (s.past i x)

/-- A register's data are, element by element of every active lane, what `f` makes of the elements of three registers, and
the flags are the union of those of these elements (R87, R122, R128). -/
structure Lanewise (act : BitVec 32) (tag : Nat) (a b d : BitVec 1024) (f : Nat → Nat → Nat → Nat × BitVec 5)
    (data : BitVec 1024) (flags : BitVec 5) : Prop where
  elems : ∀ l k, l < 32 → k < perLane tag → act.getLsbD l = true →
    elem (elemWidth tag) (lane data l).toNat k =
      (f (elem (elemWidth tag) (lane a l).toNat k) (elem (elemWidth tag) (lane b l).toNat k)
        (elem (elemWidth tag) (lane d l).toNat k)).1 % 2 ^ elemWidth tag
  flags : ∀ j, flags.getLsbD j = true ↔ ∃ l k, l < 32 ∧ k < perLane tag ∧ act.getLsbD l = true ∧
    (f (elem (elemWidth tag) (lane a l).toNat k) (elem (elemWidth tag) (lane b l).toNat k)
      (elem (elemWidth tag) (lane d l).toNat k)).2.getLsbD j = true

/-- The near buffer and the Casusk links once the current strand's writes that `f` selects are performed at a scope: nothing to
do at strand scope, their lines pinned at core scope, drained at every wider one, and landed at domain and system scope
(R257, R277, R278). -/
def State.performed (s : State) (scope : BitVec 3) (f : Writer → Bool) : State :=
  let mine := fun (l : NearLine) => l.writers.any fun w => decide (w.strand = s.me.ident) && f w
  let pin := fun (l : NearLine) =>
    if mine l && decide (s.me.ident ∉ l.pins) then { l with pins := s.me.ident :: l.pins } else l
  let gone := (s.near.filter mine).foldl State.drainLine s
  if scope = 0 then s
  else if scope = 1 then { s with near := s.near.map pin }
  else if scope.toNat < 5 then gone
  else gone.arrive gone.links.length

/-- Bytes stored to main memory by a control or sync word through a page of a kind (R233, R261, R276): at once
through a strong page, else into the near buffer, which has the line or room for it. -/
def State.stored (s : State) (kind : BitVec 2) (p : Nat) (bytes : List Byte) : State :=
  let l := (s.near.find? fun l => decide (l.line = p / 64)).getD ⟨p / 64, [], [], false, []⟩
  let mine := (bytes.zipIdx (p % 64)).map fun b => (⟨b.2, b.1, s.me.ident⟩ : NearByte)
  let w : Writer := ⟨s.me.ident, 0, 0, decide (kind = 2)⟩
  let t := if kind = 0 then ((s.behind p bytes.length).dropNear p bytes.length).mainWrite p bytes false
    else { s with near := putLine (mergeLine l w p mine false bytes.length) s.near }
  t.updNode fun m => { m with unreplayable := m.unreplayable || decide (mainDevice p ≠ s.sys.device) }

/-- The near buffer takes a line without draining another, and not all of its lines are pinned (R280). -/
structure NearRoom (s : State) (kind : BitVec 2) (p : Nat) : Prop where
  free : s.nearStuck = false
  line : kind = 0 ∨ (s.near.any fun l => decide (l.line = p / 64)) = true ∨ s.near.length < 64

/-- The granules of ranges of n bytes at places, each once. -/
def coverOf (n : Nat) (ps : List Nat) : List Nat := (ps.flatMap fun p => granules p n).dedup

/-- A copy on chip of elements of n bytes, each from the first place of its pair to the second (R217, R218): group by group, each
read whole before it is written, or under a source qualifier all read as the copy begins.  Poison travels with each part, and
the destination qualifier acts on what has landed. -/
def State.copied (s : State) (n : Nat) (dfe sfe : BitVec 2) (pairs : List (Nat × Nat)) : State :=
  let move := fun (y : State) (ks : List (Nat × Nat)) =>
    (ks.flatMap fun k => (parts n).map fun o => (k.2 + o.1, y.chipRead (k.1 + o.1) o.2)).foldl
      (fun z x => z.chipWrite x.1 x.2.1 x.2.2) y
  if sfe = 0 then
    ((groupsOf (if 256 < n then 1 else 256 / n) pairs.length pairs).foldl move s).feStore dfe (coverOf n (pairs.map (·.2)))
  else
    (move (s.feTaken 5 sfe (coverOf n (pairs.map (·.1)))) pairs).feStore dfe
      ((pairs.flatMap fun k => (parts n).flatMap fun o => granules (k.2 + o.1) o.2).dedup)

/-- The operands of a linear copy pass the tests of R217: element k of 16 bytes goes from `ps k` to `pd k`. -/
structure LinearOk (s : State) (ad : BitVec 3) (dsp : BitVec 2) (asrc : BitVec 3) (ssp : BitVec 2) (sn : BitVec 5)
    (sfe : BitVec 2) (ps pd : Nat → Nat) : Prop where
  len   : (s.me.getS sn).toNat % 2 ^ 24 % 16 = 0
  src   : (s.me.getA asrc).addr.toNat % 16 = 0
  dst   : (s.me.getA ad).addr.toNat % 16 = 0
  from_ : ∀ k, k < (s.me.getS sn).toNat % 2 ^ 24 / 16 → s.resolve ssp ((s.me.getA asrc).addr.toNat + 16 * k) 16 = some (ps k)
  into  : ∀ k, k < (s.me.getS sn).toNat % 2 ^ 24 / 16 → s.resolve dsp ((s.me.getA ad).addr.toNat + 16 * k) 16 = some (pd k)
  ready : s.feReady 5 sfe (coverOf 16 ((List.range ((s.me.getS sn).toNat % 2 ^ 24 / 16)).map ps)) = true

/-- The pairs of places of a linear copy. -/
def State.linearPairs (s : State) (sn : BitVec 5) (ps pd : Nat → Nat) : List (Nat × Nat) :=
  (List.range ((s.me.getS sn).toNat % 2 ^ 24 / 16)).map fun k => (ps k, pd k)

/-- The address of an element of a stream without an indirect level (R214). -/
def Pattern.direct (p : Pattern) (is : List Nat) : Int :=
  (p.base : Int) + (is.zipIdx.map fun x => (x.1 : Int) * p.strides.getD x.2 0).sum

/-- The pattern of one of the current strand's stream slots. -/
def State.slotPattern (s : State) (v : BitVec 4) : Pattern := patternOf (s.me.slots[v.toNat % 4]).record

/-- A slot field names a valid slot of the current strand, which holds a stream on chip without an indirect level whose elements,
of n bytes, lie at the places `at_` (R213-R216). -/
structure StreamOk (s : State) (v : BitVec 4) (n : Nat) (at_ : List Nat → Nat) : Prop where
  own    : v.toNat / 4 = 0 ∨ v.toNat / 4 = s.cur.val
  valid  : (s.me.slots[v.toNat % 4]).valid = true
  chip   : (s.slotPattern v).main = false
  direct : (s.slotPattern v).ind = false
  fits   : ∀ is ∈ tuples (s.slotPattern v).counts,
    let a := (s.slotPattern v).direct is
    0 ≤ a ∧ a < 2 ^ 32 ∧ a % (min (2 ^ (s.slotPattern v).esize) 16 : Nat) = 0 ∧
      s.resolve (s.slotPattern v).space a.toNat n = some (at_ is)

/-- The pairs of places of a copy between two streams. -/
def State.patternPairs (s : State) (dslot sslot : BitVec 4) (sp dp : List Nat → Nat) : List (Nat × Nat) :=
  ((tuples (s.slotPattern sslot).counts).map sp).zip ((tuples (s.slotPattern dslot).counts).map dp)

/-- What a sorted intersection answers: how many numbers of each stream it has passed, the matches, and why it stopped. -/
structure Merge where
  left  : Nat
  right : Nat
  found : List Nat
  why   : Nat

/-- Why the loop of R227 stops before its next comparison, with the numbers `xs` and `ys` still to come: 1 and 2 when a stream
has ended, 3 and 4 when a page is cut off before the end of its stream. -/
def mergeStop (ca cb : Bool) (xs ys : List Nat) : Option Nat :=
  if xs = [] ∧ ca = false then some 1
  else if ys = [] ∧ cb = false then some 2
  else if xs = [] then some 3
  else if ys = [] then some 4
  else none

/-- The loop of R227 on two lists, each of which may be cut off by the end of a page, for at most `fuel` comparisons: 5 when they
are used up. -/
def mergeSorted (ca cb : Bool) : Nat → List Nat → List Nat → Merge
  | 0, xs, ys => ⟨0, 0, [], (mergeStop ca cb xs ys).getD 5⟩
  | fuel + 1, xs, ys =>
    match mergeStop ca cb xs ys, xs, ys with
    | none, x :: xs, y :: ys =>
      if x < y then let r := mergeSorted ca cb fuel xs (y :: ys); { r with left := r.left + 1 }
      else if y < x then let r := mergeSorted ca cb fuel (x :: xs) ys; { r with right := r.right + 1 }
      else let r := mergeSorted ca cb fuel xs ys; ⟨r.left + 1, r.right + 1, x :: r.found, r.why⟩
    | some w, _, _ => ⟨0, 0, [], w⟩
    | none, _, _ => ⟨0, 0, [], 5⟩

/-- A table of the line engine in its one form: keys strictly rising, no entry that holds the default. -/
def tabSorted {α : Type} (d : α) (l : List (Nat × α)) : Prop :=
  l.Pairwise (fun x y => x.1 < y.1) ∧ ∀ x ∈ l, x.2 ≠ d

/-- A sorted set of granules or lines. -/
def setSorted (l : List Nat) : Prop := l.Pairwise (· < ·)

/-- The near buffer in its one form: no line twice, and in a line no byte twice and none past its end. -/
def nearOk (l : List NearLine) : Prop :=
  (l.map (·.line)).Nodup ∧ ∀ x ∈ l, (x.bytes.map (·.off)).Nodup ∧ ∀ b ∈ x.bytes, b.off < 64

/-- The invariant of every step: memory, the sets of granules and lines, the near buffer with the lines on the links, and the tables
of the line engine keep their canonical forms, so that equal contents are equal data and what is written reads back. -/
structure Inv (s : State) : Prop where
  mem     : Memory.wf s.mem = true
  full    : setSorted s.full
  poison  : setSorted s.poison
  lines   : setSorted s.linePoison
  near    : nearOk s.near
  links   : ∀ l ∈ s.links, (l.bytes.map (·.off)).Nodup ∧ ∀ b ∈ l.bytes, b.off < 64
  records : tabSorted emptyLine.bits s.line.records
  fns     : tabSorted 0 s.line.fns
  tols    : tabSorted 0 s.line.tols
  counts  : tabSorted 0 s.line.counts

end Sys2Proof.Machine
end

