-- ==== Sys2Proof/Certificates/Slice0/Obligations.lean ====
section
/-! DEFINITION. The statements about the model: what each instruction does, what taking an exception does, and what every
step keeps.  That an engine word completes in the step in which it is split is the model's schedule (assumption 5). -/

open Sys2Proof Sys2Proof.Machine

/-! ## The scalar registers (R37, R57-R62) -/

/-- R37, R57, Table 1: the three-register operations, with every other part of the state as it was and the splitter past
the word. -/
def Claims.ScalarArithmetic : Prop :=
  ∀ (s : State) (q : Itq) (d a b : BitVec 5),
    let x := s.me.getS a
    let y := s.me.getS b
    let n := y.toNat % 64
    let writes := fun (i : Instr) (v : BitVec 64) =>
      Clear i s → exec i s = .next (s.past i (s.updMe fun u => u.setS d v))
    writes (.add q d a b) (BitVec.ofNat 64 (x.toNat + y.toNat)) ∧
    writes (.sub q d a b) (BitVec.ofInt 64 (x.toInt - y.toInt)) ∧
    writes (.and q d a b) (x &&& y) ∧
    writes (.or q d a b) (x ||| y) ∧
    writes (.xor q d a b) (x ^^^ y) ∧
    writes (.shl q d a b) (BitVec.ofNat 64 (x.toNat * 2 ^ n)) ∧
    writes (.shr q d a b) (BitVec.ofNat 64 (x.toNat / 2 ^ n)) ∧
    writes (.sra q d a b) (BitVec.ofInt 64 (x.toInt / 2 ^ n)) ∧
    writes (.mul q d a b) (BitVec.ofNat 64 (x.toNat * y.toNat)) ∧
    writes (.mulh q d a b) (BitVec.ofInt 64 (x.toInt * y.toInt / 2 ^ 64)) ∧
    writes (.mulhu q d a b) (BitVec.ofNat 64 (x.toNat * y.toNat / 2 ^ 64)) ∧
    writes (.min q d a b) (if x.toInt ≤ y.toInt then x else y) ∧
    writes (.max q d a b) (if x.toInt ≤ y.toInt then y else x) ∧
    writes (.minu q d a b) (if x.toNat ≤ y.toNat then x else y) ∧
    writes (.maxu q d a b) (if x.toNat ≤ y.toNat then y else x)

/-- R57, R58, R59: the immediate operations, MOVI, INSH, POPC and CLZ; NOP has no effect (R28). -/
def Claims.ScalarImmediates : Prop :=
  ∀ (s : State) (q : Itq) (d a : BitVec 5) (imm : BitVec 11) (w : BitVec 16),
    let x := s.me.getS a
    let i := imm.toInt
    let n := imm.toNat % 64
    let writes := fun (i : Instr) (v : BitVec 64) =>
      Clear i s → exec i s = .next (s.past i (s.updMe fun u => u.setS d v))
    let inserts := fun (i : Instr) (k : Nat) =>
      Clear i s → ∃ v, exec i s = .next (s.past i (s.updMe fun u => u.setS d v)) ∧
        ∀ j, j < 64 → v.getLsbD j =
          if 16 * k ≤ j ∧ j < 16 * k + 16 then w.getLsbD (j - 16 * k) else (s.me.getS d).getLsbD j
    writes (.addi q d a imm) (BitVec.ofInt 64 (x.toInt + i)) ∧
    writes (.andi q d a imm) (x &&& BitVec.ofInt 64 i) ∧
    writes (.ori q d a imm) (x ||| BitVec.ofInt 64 i) ∧
    writes (.xori q d a imm) (x ^^^ BitVec.ofInt 64 i) ∧
    writes (.shli q d a imm) (BitVec.ofNat 64 (x.toNat * 2 ^ n)) ∧
    writes (.shri q d a imm) (BitVec.ofNat 64 (x.toNat / 2 ^ n)) ∧
    writes (.srai q d a imm) (BitVec.ofInt 64 (x.toInt / 2 ^ n)) ∧
    writes (.movi q d w) (BitVec.ofInt 64 w.toInt) ∧
    inserts (.insh0 q d w) 0 ∧ inserts (.insh1 q d w) 1 ∧ inserts (.insh2 q d w) 2 ∧ inserts (.insh3 q d w) 3 ∧
    writes (.popc q d a) (BitVec.ofNat 64 ((List.finRange 64).countP fun j => x[j])) ∧
    writes (.clz q d a) (BitVec.ofNat 64 (if x = 0 then 64 else 63 - x.toNat.log2)) ∧
    (Clear (.nop q) s → exec (.nop q) s = .next (s.past (.nop q) s))

/-- R21, R60, R61, R62: the compares, the predicate functions and SEL. -/
def Obligations.Predicates : Prop :=
  ∀ (s : State) (q : Itq) (d a b : BitVec 5) (pd pa pb : BitVec 3) (imm : BitVec 10),
    let x := s.me.getS a
    let y := s.me.getS b
    let i := BitVec.ofInt 64 imm.toInt
    let sets := fun (w : Instr) (v : Bool) =>
      Clear w s → exec w s = .next (s.past w (s.updMe fun u => u.setP pd v))
    sets (.cmp q pd a b 0) (decide (x = y)) ∧ sets (.cmp q pd a b 1) (decide (x ≠ y)) ∧
    sets (.cmp q pd a b 2) (decide (x.toInt < y.toInt)) ∧ sets (.cmp q pd a b 3) (decide (y.toInt ≤ x.toInt)) ∧
    sets (.cmp q pd a b 4) (decide (x.toNat < y.toNat)) ∧ sets (.cmp q pd a b 5) (decide (y.toNat ≤ x.toNat)) ∧
    sets (.cmpi q pd a 0 imm) (decide (x = i)) ∧ sets (.cmpi q pd a 1 imm) (decide (x ≠ i)) ∧
    sets (.cmpi q pd a 2 imm) (decide (x.toInt < imm.toInt)) ∧
    sets (.cmpi q pd a 3 imm) (decide (imm.toInt ≤ x.toInt)) ∧
    sets (.cmpi q pd a 4 imm) (decide (x.toNat < i.toNat)) ∧ sets (.cmpi q pd a 5 imm) (decide (i.toNat ≤ x.toNat)) ∧
    sets (.plog q pd pa pb 0) (s.me.getP pa && s.me.getP pb) ∧
    sets (.plog q pd pa pb 1) (s.me.getP pa || s.me.getP pb) ∧
    sets (.plog q pd pa pb 2) (s.me.getP pa ^^ s.me.getP pb) ∧
    sets (.plog q pd pa pb 3) (s.me.getP pa && !s.me.getP pb) ∧
    sets (.plog q pd pa pb 4) (s.me.getP pa || !s.me.getP pb) ∧
    sets (.plog q pd pa 0 5) (!s.me.getP pa) ∧
    sets (.plog q pd pa 0 6) (s.me.getP pa) ∧
    (∀ p : BitVec 3, Clear (.sel q d a b p) s → exec (.sel q d a b p) s =
      .next (s.past (.sel q d a b p) (s.updMe fun u => u.setS d (if s.me.getP p = true then x else y))))

/-! ## Branches and loops (R63-R72) -/

/-- R63: PBR and PBRR load a branch register, and PBRR of an address that is not a multiple of 4 raises trap 0x0A with
that value in TRAPDATA and the word as its resume PC. -/
def Claims.BranchRegisters : Prop :=
  ∀ (s : State) (q : Itq) (bt : BitVec 2) (imm : BitVec 19) (a : BitVec 5),
    let v : BitVec 32 := (s.me.getS a).setWidth 32
    let i : Instr := .pbrr q bt a
    (Clear (.pbr q bt imm) s → exec (.pbr q bt imm) s =
      .next (s.past (.pbr q bt imm) (s.updMe fun u => u.setB bt (s.me.pc + BitVec.ofInt 32 (4 * imm.toInt))))) ∧
    (Clear i s → v.toNat % 4 = 0 → exec i s = .next (s.past i (s.updMe fun u => u.setB bt v))) ∧
    (Clear i s → v.toNat % 4 ≠ 0 → exec i s = .next (s.takeTrap ⟨0x0A, BitVec.ofNat 64 v.toNat⟩ i s.me.pc s.me.pc
      (s.me.queue.map fun e => (e, false))))

/-- R64, R65: a transfer is decided at split; CALL pushes the return address and RET pops it when taken; with the
return stack full or empty the taken CALL or RET raises trap 0x04 or 0x05 and changes nothing. -/
def Claims.Transfers : Prop :=
  ∀ (s : State) (q : Itq) (bt : BitVec 2) (p : BitVec 3) (neg : BitVec 1),
    let taken := s.me.getP p ^^ decide (neg = 1)
    let after := s.afterDelays s.me.pc
    let begins := fun (i : Instr) (target : BitVec 32) (stack : List (BitVec 32)) =>
      Clear i s → exec i s = .next (s.past i (s.updMe fun u =>
        { u with rstack := stack, xfer := some ⟨target, after, 2, taken⟩ }))
    let traps := fun (i : Instr) (code : BitVec 8) =>
      Clear i s → exec i s = .next (s.takeTrap ⟨code, BitVec.ofNat 64 (((encode i).headD 0).toNat * 2 ^ 32 +
        s.me.rstack.length)⟩ i s.me.pc s.me.pc (s.me.queue.map fun e => (e, false)))
    begins (.br q bt p neg) (s.me.getB bt) s.me.rstack ∧
    (taken = false → begins (.call q bt p neg) (s.me.getB bt) s.me.rstack) ∧
    (taken = true → s.me.rstack.length < 16 → begins (.call q bt p neg) (s.me.getB bt) (after :: s.me.rstack)) ∧
    (taken = true → 16 ≤ s.me.rstack.length → traps (.call q bt p neg) 0x04) ∧
    (taken = false → begins (.ret q p neg) 0 s.me.rstack) ∧
    (taken = true → ∀ r t, s.me.rstack = r :: t → begins (.ret q p neg) r t) ∧
    (taken = true → s.me.rstack = [] → traps (.ret q p neg) 0x05)

/-- R64, R69, R72: the two instructions after a transfer are delay instructions.  The first only counts.  The second ends the
transfer: when it is not taken, the splitter goes on as after any word, where the end of an iteration leads when the word ends a
body; when it is taken, the iteration ends all the same, control then passes to the target, and of the levels still active the
first whose body does not hold the target ends, with every deeper one, applying no strides.  Said of the splitter's move past any
word. -/
def Claims.DelayInstructions : Prop :=
  ∀ (st : Strand) (pc : BitVec 32) (words : Nat) (x : Transfer),
    let u := st.moveOn pc words (some x)
    let v := st.moveOn pc words none
    let leaves := fun (k : Fin 6) => v.loops[k].active = true ∧ ¬ (v.loops[k].start ≤ x.target ∧ x.target ≤ v.loops[k].fin)
    (2 ≤ x.left → u = { v with xfer := some { x with left := x.left - 1 } }) ∧
    (x.left < 2 → x.taken = false → u = { v with xfer := none }) ∧
    (x.left < 2 → x.taken = true →
      u.pc = x.target ∧ u.xfer = none ∧ u.a = v.a ∧ u.rest = st.rest ∧
      ∀ k : Fin 6, ((∃ j : Fin 6, j ≤ k ∧ leaves j) → v.loops[k].active = true → u.loops[k] = Loop.idle) ∧
        (¬ ((∃ j : Fin 6, j ≤ k ∧ leaves j) ∧ v.loops[k].active = true) → u.loops[k] = v.loops[k]))

/-- R54, R67, R70, R71: LOOP opens its level at the next word, which is a drain point when the vector mode changes, or skips
its body; LSTR sets a stride; LBRK marks the innermost active level. -/
def Claims.LoopWords : Prop :=
  ∀ (s : State) (q : Itq) (level a p : BitVec 3) (sc sb : BitVec 5) (len : BitVec 9) (mode neg : BitVec 1)
    (hl : level.toNat < 6),
    let n : BitVec 32 := (s.me.getS sc).setWidth 32
    let fin := s.me.pc + BitVec.ofNat 32 (4 * len.toNat)
    let l := s.me.loops[level.toNat]
    let opened : Loop := ⟨true, s.me.pc + 4, fin, n, 1, false, decide (mode = 1), l.stride⟩
    let opens := fun (u : Strand) => ({ u with loops := u.loops.set level.toNat opened } : Strand)
    let strided : Loop := { l with stride := l.stride.set a.toNat ((s.me.getS sb).setWidth 32) a.isLt }
    let i : Instr := .loop q level sc len mode
    let j : Instr := .lstr q level a sb
    let k : Instr := .lbrk q p neg
    (Clear i s → n = 0 → exec i s = .next (s.past i (s.updMe fun u =>
      { u with pc := fin, loops := u.loops.set level.toNat { l with stride := Vector.replicate 8 0 } }))) ∧
    (Clear i s → n ≠ 0 → exec i s = .next (s.past i (s.updMe fun u =>
      { opens u with drainDue := u.drainDue || ((opens u).interlocked ^^ u.interlocked) }))) ∧
    (Clear j s → exec j s = .next (s.past j (s.updMe fun u =>
      { u with loops := u.loops.set level.toNat strided }))) ∧
    (∀ d : Fin 6, s.me.loops[d].active = true → (∀ j : Fin 6, d < j → s.me.loops[j].active = false) → Clear k s →
      exec k s = .next (s.past k (if s.me.getP p ^^ decide (neg = 1) then s.updMe fun u =>
        { u with loops := u.loops.set d.val { s.me.loops[d] with brk := true } d.isLt } else s)))

/-- R69: where the splitter moves past the last word of a body, the iteration of its level ends, and of several levels whose bodies
end there the innermost first: each applies its strides, and a level at its last iteration, or broken, ends, so that the next
one outwards has its turn; the first that goes on takes the splitter back to its body's start, and no level further out ends
its iteration.  Every other level stands as it is. -/
def Claims.EndOfIteration : Prop :=
  ∀ (st : Strand) (pc : BitVec 32) (words : Nat),
    let u := st.moveOn pc words none
    let next := st.pc + BitVec.ofNat 32 (4 * words)
    let l := fun (k : Fin 6) => st.loops[k]
    let ends := fun (k : Fin 6) =>
      (l k).active && decide ((l k).start ≤ pc ∧ pc ≤ (l k).fin ∧ (l k).fin < next)
    let last := fun (k : Fin 6) => (l k).brk || decide ((l k).iter = (l k).count)
    let reached := fun (k : Fin 6) => ends k && (List.finRange 6).all fun j => !(decide (k < j) && ends j) || last j
    (∀ k : Fin 6, (reached k = true → last k = true → u.loops[k] = Loop.idle) ∧
      (reached k = true → last k = false → u.loops[k] = { l k with iter := (l k).iter + 1 } ∧ u.pc = (l k).start) ∧
      (reached k = false → u.loops[k] = l k)) ∧
    ((∀ k : Fin 6, reached k = true → last k = true) → u.pc = next) ∧
    (∀ r : BitVec 3, u.getA r = ((List.finRange 6).reverse.filter reached).foldl (fun x k =>
      let d := (l k).stride[r.toNat]'r.isLt
      if d = 0 then x else x.advance d.toInt) (st.getA r))

/-- R40, R49, R54, R64, R69: moving past a word touches the PC, the loop levels, the address registers, a standing transfer
and the drain point that the end of a level of the other vector mode is; with no active level and no standing transfer, the PC
alone.  Its shared engine has then served the strand.  Every other register, every other strand, every byte of memory and all
else are as the word's own effect and bookkeeping left them. -/
def Obligations.MovingOnFrame : Prop :=
  ∀ (s x : State) (i : Instr),
    let t := s.past i x
    let y := x.me.bookkeep i
    t = (x.setMe t.me).serve i ∧ t.me.rest = y.rest ∧ (∀ p, t.peek p = x.peek p) ∧
    (∀ g : Engine, t.served[engineNumber g] =
      if i.eng = some g ∧ g ≠ .control ∧ g ≠ .vector then x.cur else x.served[engineNumber g]) ∧
    (t.me.drainDue = (y.drainDue || (t.me.interlocked ^^ y.interlocked))) ∧
    ((∀ (k : Nat) (_ : k < 6), x.me.loops[k].active = false) → s.me.xfer = none →
      t.me = { y with pc := x.me.pc + BitVec.ofNat 32 (4 * i.words) })

/-! ## Address registers, memory, identity and control registers (R74-R84) -/

/-- R74, R75: AMOV sets an address register and AINC advances one under its modulo rule. -/
def Obligations.AddressRegisters : Prop :=
  ∀ (s : State) (q : Itq) (a : BitVec 3) (sa sb : BitVec 5) (imm : BitVec 18),
    let x : BitVec 32 := (s.me.getS sa).setWidth 32
    let r := s.me.getA a
    let off := ((r.addr.toNat : Int) - r.base.toNat + imm.toInt) % r.len.toNat
    let moved : BitVec 32 := if r.len = 0 then BitVec.ofInt 32 (r.addr.toNat + imm.toInt)
      else BitVec.ofInt 32 (r.base.toNat + off)
    (Clear (.amov q a sa sb) s → exec (.amov q a sa sb) s = .next (s.past (.amov q a sa sb) (s.updMe fun u =>
      u.setA a ⟨x, x, BitVec.ofNat 23 ((s.me.getS sb).toNat % 2 ^ 23 / 4 * 4)⟩))) ∧
    (Clear (.ainc q a imm) s → exec (.ainc q a imm) s = .next (s.past (.ainc q a imm) (s.updMe fun u =>
      u.setA a { r with addr := moved })))

/-- R76, R77: the scalar loads and stores of a space, aligned and of an existing place; the loads of granules that are
neither awaited nor poisoned. -/
def Claims.ScratchpadScalars : Prop :=
  ∀ (s : State) (q : Itq) (r : BitVec 5) (a : BitVec 3) (space fe : BitVec 2) (imm : BitVec 9) (p : Nat),
    s.env.soft = [] →
    let ea := fun (n : Nat) => (BitVec.ofInt 32 ((s.me.getA a).addr.toNat + n * imm.toInt)).toNat
    let loads := fun (i : Instr) (n : Nat) =>
      Clear i s → ea n % n = 0 → s.resolve space (ea n) n = some p → s.feReady 0 fe (granules p n) = true →
      (s.chipRead p n).2 = false →
      exec i s = .next (s.past i ((s.feTaken 0 fe (granules p n)).updMe fun u =>
        u.setS r (BitVec.ofNat 64 (leNat (cellsRead s.mem p n)))))
    let stores := fun (i : Instr) (n : Nat) =>
      Clear i s → ea n % n = 0 → s.resolve space (ea n) n = some p →
      exec i s = .next (s.past i ((s.chipWrite p (leBytes n (s.me.getS r).toNat) false).feStore fe (granules p n)))
    loads (.ldsW q r a space fe imm) 4 ∧ loads (.ldsD q r a space fe imm) 8 ∧
    stores (.stsW q r a space fe imm) 4 ∧ stores (.stsD q r a space fe imm) 8

/-- R77: a scalar access whose address is not a multiple of its size raises trap 0x0A with the address and changes
nothing else. -/
def Claims.ScratchpadAlignment : Prop :=
  ∀ (s : State) (q : Itq) (r : BitVec 5) (a : BitVec 3) (space fe : BitVec 2) (imm : BitVec 9),
    let ea := fun (n : Nat) => (BitVec.ofInt 32 ((s.me.getA a).addr.toNat + n * imm.toInt)).toNat
    let traps := fun (i : Instr) (n : Nat) =>
      Clear i s → ea n % n ≠ 0 → exec i s = .next (s.takeTrap ⟨0x0A, BitVec.ofNat 64 (ea n)⟩ i s.me.pc s.me.pc
        (s.me.queue.map fun e => (e, false)))
    traps (.ldsW q r a space fe imm) 4 ∧ traps (.ldsD q r a space fe imm) 8 ∧
    traps (.stsW q r a space fe imm) 4 ∧ traps (.stsD q r a space fe imm) 8

/-- R79, R233: the scalar accesses of main memory through a valid handle, in the page and aligned; a store goes through
the near buffer unless the page is strong. -/
def Claims.MainMemoryScalars : Prop :=
  ∀ (s : State) (q : Itq) (r : BitVec 5) (h : BitVec 4) (sb : BitVec 5) (size : BitVec 2),
    size = 0 ∨ size = 1 →
    let n := if size = 1 then 8 else 4
    let x := s.me.getH h
    let off := (s.me.getS sb).toNat
    let p := x.ppn.toNat * 65536 + off
    let bytes := leBytes n (s.me.getS r).toNat
    let i : Instr := .ldg q r h sb size
    let j : Instr := .stg q r h sb size
    x.state = .valid → off % n = 0 → off + n ≤ x.pageSize → MainOk s p n →
    (Clear i s → (s.mainPoisoned p n (p / 64)) = false →
      exec i s = .next (s.past i (s.updMe fun u => u.setS r (BitVec.ofNat 64 (leNat (s.peeks p n)))))) ∧
    (Clear j s → x.w = true → NearRoom s x.kind p → exec j s = .next (s.past j (s.stored x.kind p bytes)))

/-- R79, R320: an offset that is not a multiple of the size raises trap 0x0A with the offset, and nothing is read or written;
an LDG of poisoned bytes raises machine check 0x11 with their virtual address. -/
def Claims.MainMemoryStops : Prop :=
  ∀ (s : State) (q : Itq) (r : BitVec 5) (h : BitVec 4) (sb : BitVec 5) (size : BitVec 2),
    size = 0 ∨ size = 1 →
    let n := if size = 1 then 8 else 4
    let x := s.me.getH h
    let off := (s.me.getS sb).toNat
    let p := x.ppn.toNat * 65536 + off
    let i : Instr := .ldg q r h sb size
    let traps := fun (w : Instr) => Clear w s → exec w s = .next (s.takeTrap ⟨0x0A, BitVec.ofNat 64 off⟩ w s.me.pc s.me.pc
      (s.me.queue.map fun e => (e, false)))
    (off % n ≠ 0 → traps i ∧ traps (.stg q r h sb size)) ∧
    (off % n = 0 → x.state = .valid → off + n ≤ x.pageSize → MainOk s p n → s.mainPoisoned p n (p / 64) = true → Clear i s →
      exec i s = .next (s.machineCheck .poison i s.me.pc (BitVec.ofNat 64 (x.page.toNat * 65536 + off))))

/-- R234, R233: a scalar access through a handle that is not valid, beyond its page, or that stores to a page without W is
a fatal context error. -/
def Claims.MainMemoryFatal : Prop :=
  ∀ (s : State) (q : Itq) (r : BitVec 5) (h : BitVec 4) (sb : BitVec 5) (size : BitVec 2),
    size = 0 ∨ size = 1 →
    let n := if size = 1 then 8 else 4
    let x := s.me.getH h
    let off := (s.me.getS sb).toNat
    let va := BitVec.ofNat 64 (x.page.toNat * 65536 + off)
    let i : Instr := .ldg q r h sb size
    let j : Instr := .stg q r h sb size
    let kills := fun (w : Instr) (c : FatalCause) => Clear w s → exec w s = .next (s.fatalError c w s.me.pc va)
    off % n = 0 →
    (x.state ≠ .valid → kills i .invalidHandle ∧ kills j .invalidHandle) ∧
    (x.state = .valid → x.pageSize < off + n → kills i .outOfPage ∧ kills j .outOfPage) ∧
    (x.state = .valid → off + n ≤ x.pageSize → x.w = false → kills j .protection)

/-- R81, R82: GETID and TIME. -/
def Claims.IdentityAndTime : Prop :=
  ∀ (s : State) (q : Itq) (d : BitVec 5) (pl : Placement), s.me.placed = some pl →
    let core := s.sys.gcore % 96
    let gives := fun (k : BitVec 4) (v : Nat) =>
      Clear (.getid q d k) s → exec (.getid q d k) s =
        .next (s.past (.getid q d k) (s.updMe fun u => u.setS d (BitVec.ofNat 64 v)))
    gives 0 (s.sys.gcore * 4 + s.cur.val) ∧ gives 1 s.cur.val ∧ gives 2 core ∧ gives 3 s.sys.gcore ∧
    gives 4 (core / 8) ∧ gives 5 (s.sys.gcore / 96) ∧ gives 6 s.sys.device ∧ gives 7 pl.node.toNat ∧
    gives 8 pl.rank ∧ gives 9 pl.count ∧
    (Clear (.time q d) s → exec (.time q d) s = .next (s.past (.time q d) (s.updMe fun u => u.setS d s.now)))

/-- R83, R333, R346: CSRR reads each control register; FPFLAGS is read once the pipeline has drained (R54). -/
def Claims.ControlRegisterReads : Prop :=
  ∀ (s : State) (q : Itq) (r : BitVec 5),
    let st := s.me
    let bit := fun (b : Bool) => if b then 1 else 0
    let reads := fun (c : BitVec 12) (v : Nat) =>
      Clear (.csrr q r c) s → exec (.csrr q r c) s =
        .next (s.past (.csrr q r c) (s.updMe fun u => u.setS r (BitVec.ofNat 64 v)))
    reads 0x000 (st.depth * 4 + bit st.intrap * 2 + bit st.priv) ∧
    reads 0x001 (bit (st.fmttrap || !st.priv) * 2 + bit st.exposed) ∧
    (Clear (.csrr q r 0x002) s → exec (.csrr q r 0x002) s = .next (s.past (.csrr q r 0x002) (s.updMe fun u =>
      u.drainPipe.setS r (BitVec.ofNat 64 u.drainPipe.fpflags.toNat)))) ∧
    reads 0x003 st.qflags.toNat ∧ reads 0x010 st.trapvec.toNat ∧ reads 0x011 st.trapframe.toNat ∧
    reads 0x012 st.trapcause.toNat ∧ reads 0x013 st.trapdata.toNat ∧
    reads 0x020 st.groups[0].toNat ∧ reads 0x021 st.groups[1].toNat ∧ reads 0x022 st.groups[2].toNat ∧
    reads 0x023 st.groups[3].toNat ∧ reads 0x030 s.cur.val ∧ reads 0x031 s.sys.gcore ∧
    reads 0x032 st.nodeId.toNat ∧ reads 0x040 s.myEnergy.toNat ∧
    reads 0x800 st.root.base.toNat ∧ reads 0x801 (st.root.n.toNat * 65536 + st.root.asid.toNat) ∧
    reads 0x810 (s.drains.toNat * 2 ^ 32 + s.retries.toNat) ∧ reads 0x820 s.sys.log.length ∧
    reads 0x821 s.sys.ceCount.toNat

/-- R83, R333: CSRW writes the writable fields of a control register. -/
def Claims.ControlRegisterWrites : Prop :=
  ∀ (s : State) (q : Itq) (r : BitVec 5),
    let st := s.me
    let v := st.getS r
    let writes := fun (c : BitVec 12) (f : Strand → Strand) =>
      Clear (.csrw q r c) s → exec (.csrw q r c) s = .next (s.past (.csrw q r c) (s.updMe f))
    writes 0x001 (fun u => { u with exposed := v.getLsbD 0, fmttrap := if u.priv then v.getLsbD 1 else u.fmttrap
                                    drainDue := u.drainDue || (v.getLsbD 0 ^^ u.exposed) }) ∧
    writes 0x002 (fun u => { u.drainPipe with fpflags := BitVec.ofNat 5 v.toNat }) ∧
    writes 0x003 (fun u => { u with qflags := BitVec.ofNat 3 v.toNat }) ∧
    writes 0x010 (fun u => { u with trapvec := BitVec.ofNat 64 (v.toNat / 4 * 4) }) ∧
    writes 0x011 (fun u => { u with trapframe := BitVec.ofNat 64 (v.toNat / 4096 * 4096) }) ∧
    writes 0x800 (fun u => { u with root := { u.root with base := BitVec.ofNat 54 (v.toNat % 2 ^ 54 / 64 * 64) } }) ∧
    writes 0x801 (fun u => { u with root := { u.root with n := BitVec.ofNat 5 (v.toNat / 65536), asid := BitVec.ofNat 16 v.toNat } }) ∧
    (Clear (.csrw q r 0x821) s → exec (.csrw q r 0x821) s = .next (s.past (.csrw q r 0x821)
      { s with sys := { s.sys with ceCount := BitVec.ofNat 32 v.toNat } }))

/-- R84: a CSRR of RSBOTTOM takes the oldest entry of the return stack and gives 0 with the stack empty; a CSRW of it puts
S(s)[31:0], with bits [1:0] taken as 0, below the others, or nothing when the stack is full; RSDEPTH reads how many entries
the stack holds. -/
def Obligations.ReturnStackBottom : Prop :=
  ∀ (s : State) (q : Itq) (r : BitVec 5),
    let old := s.me.rstack
    let v : BitVec 32 := ((s.me.getS r).setWidth 32) &&& 0xFFFFFFFC
    let takes := fun (f : Strand → Strand) =>
      exec (.rsbottomRead q r) s = .next (s.past (.rsbottomRead q r) (s.updMe f))
    let puts := fun (l : List (BitVec 32)) =>
      exec (.rsbottomWrite q r) s = .next (s.past (.rsbottomWrite q r) (s.updMe fun u => { u with rstack := l }))
    (Clear (.rsbottomRead q r) s → old = [] → takes fun u => u.setS r 0) ∧
    (Clear (.rsbottomRead q r) s → ∀ l x, old = l ++ [x] →
      takes fun u => { u.setS r (x.setWidth 64) with rstack := l }) ∧
    (Clear (.rsbottomWrite q r) s → old.length < 16 → puts (old ++ [v])) ∧
    (Clear (.rsbottomWrite q r) s → 16 ≤ old.length → puts old) ∧
    (Clear (.csrr q r 0x050) s → exec (.csrr q r 0x050) s = .next (s.past (.csrr q r 0x050) (s.updMe fun u =>
      u.setS r (BitVec.ofNat 64 old.length))))

/-- R37, Table 1: S0 reads 0 and P0 reads 1, and what is written to them is lost; any other register reads back what was
written, and no other one changes. -/
def Claims.HardwiredRegisters : Prop :=
  ∀ (st : Strand) (d r : BitVec 5) (v : BitVec 64) (p o : BitVec 3) (b : Bool),
    st.getS 0 = 0 ∧ st.setS 0 v = st ∧ st.getP 0 = true ∧ st.setP 0 b = st ∧
    (d ≠ 0 → (st.setS d v).getS r = if r = d then v else st.getS r) ∧
    (p ≠ 0 → (st.setP p b).getP o = if o = p then b else st.getP o)

/-! ## The statements of this part that join several claims -/

/-- R37, R57-R59, R28: S0 and P0, the three-register and immediate operations, MOVI, INSH, POPC, CLZ and NOP. -/
def Obligations.ScalarOperations : Prop :=
  Claims.HardwiredRegisters ∧ Claims.ScalarArithmetic ∧ Claims.ScalarImmediates

/-- R63-R65: PBR and PBRR, BR, CALL and RET, and what the delay instructions do. -/
def Obligations.TransfersOfControl : Prop :=
  Claims.BranchRegisters ∧ Claims.Transfers ∧ Claims.DelayInstructions

/-- R67, R69-R72: LOOP, LSTR and LBRK, and the end of an iteration. -/
def Obligations.HardwareLoops : Prop :=
  Claims.LoopWords ∧ Claims.EndOfIteration

/-- R76, R77: the scalar loads and stores of a space, and their alignment trap. -/
def Obligations.ScratchpadAccesses : Prop :=
  Claims.ScratchpadScalars ∧ Claims.ScratchpadAlignment

/-- R79, R233, R234, R320: the scalar loads and stores of main memory, their trap and machine check, and their fatal context
errors. -/
def Obligations.MainMemoryAccesses : Prop :=
  Claims.MainMemoryScalars ∧ Claims.MainMemoryStops ∧ Claims.MainMemoryFatal

/-- R81-R83, R333, R346: GETID, TIME, and the control registers read and written. -/
def Obligations.IdentityAndControlRegisters : Prop :=
  Claims.IdentityAndTime ∧ Claims.ControlRegisterReads ∧ Claims.ControlRegisterWrites

/-! ## The vector engine (R52-R56, R87, R102-R104, R122-R151) -/

/-- R128-R131: the floating-point words of a calm strand, on operands of one tag F16, BF16 or F32 (VFUN: F32), element by
element of the active lanes, with the flags of R97 and the poison of R124. -/
def Obligations.VectorFloat : Prop :=
  ∀ (s : State) (q : Itq) (vd va vb : BitVec 6) (fn : BitVec 3) (tag : Nat), Calm s → tag ∈ tagsF →
    let st := s.me
    let a := st.getV va
    let b := st.getV vb
    let d := st.getV vd
    let fl := !st.interlocked
    let runs := fun (i : Instr) (lat : Nat) (f : Nat → Nat → Nat → Nat × BitVec 5) (poison : Bool) =>
      ∃ data flags t, exec i s = .next t ∧ Lanewise st.active tag a.data b.data d.data f data flags ∧
        t.Same (s.past i (s.updMe fun u =>
          u.issued st.interlocked lat 1 (vMasked vd st.active data tag 0 poison) flags))
    a.tag.toNat = tag →
    (b.tag.toNat = tag →
      runs (.vfadd q vd va vb) 4 (FOp.elem .add fl (fmtOf tag)) (a.poison || b.poison) ∧
      runs (.vfsub q vd va vb) 4 (FOp.elem .sub fl (fmtOf tag)) (a.poison || b.poison) ∧
      runs (.vfmul q vd va vb) 4 (FOp.elem .mul fl (fmtOf tag)) (a.poison || b.poison) ∧
      runs (.vfmin q vd va vb) 2 (FOp.elem .min fl (fmtOf tag)) (a.poison || b.poison) ∧
      runs (.vfmax q vd va vb) 2 (FOp.elem .max fl (fmtOf tag)) (a.poison || b.poison) ∧
      runs (.vfdiv q vd va vb) 12 (FOp.elem .div fl (fmtOf tag)) (a.poison || b.poison) ∧
      runs (.vfsgn q vd va vb fn) 2 (fun x y _ => (signElem fn.toNat (fmtOf tag) x y, 0))
        (a.poison || (decide (2 ≤ fn.toNat) && b.poison)) ∧
      (d.tag.toNat = tag →
        runs (.vfma q vd va vb) 4 (FOp.elem .fma fl (fmtOf tag)) (a.poison || b.poison || d.poison) ∧
        runs (.vfms q vd va vb) 4 (FOp.elem .fms fl (fmtOf tag)) (a.poison || b.poison || d.poison) ∧
        runs (.vfnma q vd va vb) 4 (FOp.elem .fnma fl (fmtOf tag)) (a.poison || b.poison || d.poison))) ∧
    (fn.toNat < 2 → runs (.vfsgn q vd va 0 fn) 2 (fun x _ _ => (signElem fn.toNat (fmtOf tag) x 0, 0)) a.poison) ∧
    (∃ data flags t, exec (.vfsqrt q vd va) s = .next t ∧
      Lanewise st.active tag a.data 0 0 (fun x _ _ =>
        let y := (fmtOf tag).flushIn fl x
        let r := (fmtOf tag).round .ne fl ((fmtOf tag).decode y.1).sqrt
        (r.1, y.2 ||| r.2)) data flags ∧
      t.Same (s.past (.vfsqrt q vd va) (s.updMe fun u =>
        u.issued st.interlocked 12 1 (vMasked vd st.active data tag 0 a.poison) flags))) ∧
    (tag = 1 → ∃ data flags t, exec (.vfun q vd va fn) s = .next t ∧
      Lanewise st.active 1 a.data 0 0 (fun x _ _ =>
        let y := Fmt.f32.flushIn fl x
        let r := specialFn fn.toNat fl y.1
        (r.1, y.2 ||| r.2)) data flags ∧
      t.Same (s.past (.vfun q vd va fn) (s.updMe fun u =>
        u.issued st.interlocked 12 1 (vMasked vd st.active data 1 0 a.poison) flags)))

/-- R132, R88, R123: the integer words, on operands of one integer tag; VAND, VOR and VXOR on MASK operands combine
truth values.  No flag is set. -/
def Claims.VectorInteger : Prop :=
  ∀ (s : State) (q : Itq) (vd va vb : BitVec 6) (fn : BitVec 3) (tag : Nat), Calm s →
    let st := s.me
    let a := st.getV va
    let b := st.getV vb
    let w := elemWidth tag
    let u := decide (tag = 12)
    let runs := fun (i : Instr) (lat : Nat) (f : Nat → Nat → Nat) =>
      ∃ data t, exec i s = .next t ∧ Lanewise st.active tag a.data b.data 0 (fun x y _ => (f x y, 0)) data 0 ∧
        t.Same (s.past i (s.updMe fun v =>
          v.issued st.interlocked lat 1 (vMasked vd st.active data tag 0 (a.poison || b.poison)) 0))
    a.tag.toNat = tag → b.tag.toNat = tag →
    (tag ∈ tagsI →
      runs (.vadd q vd va vb fn) 2 (IOp.elem (.add fn.toNat) w u) ∧
      runs (.vsub q vd va vb fn) 2 (IOp.elem (.sub fn.toNat) w u) ∧
      runs (.vmul q vd va vb) 4 (IOp.elem .mul w u) ∧
      runs (.vmulh q vd va vb fn) 4 (IOp.elem (.mulh (fn.getLsbD 0)) w u) ∧
      runs (.vand q vd va vb) 2 Nat.land ∧ runs (.vor q vd va vb) 2 Nat.lor ∧ runs (.vxor q vd va vb) 2 Nat.xor ∧
      runs (.vshl q vd va vb) 2 (IOp.elem .shl w u) ∧ runs (.vshr q vd va vb) 2 (IOp.elem .shr w u) ∧
      runs (.vsra q vd va vb) 2 (IOp.elem .sra w u) ∧
      runs (.vmin q vd va vb fn) 2 (IOp.elem (.min (fn.getLsbD 0)) w u) ∧
      runs (.vmax q vd va vb fn) 2 (IOp.elem (.max (fn.getLsbD 0)) w u)) ∧
    (tag = 13 →
      runs (.vand q vd va vb) 2 (fun x y => if x ≠ 0 ∧ y ≠ 0 then 0xFFFFFFFF else 0) ∧
      runs (.vor q vd va vb) 2 (fun x y => if x ≠ 0 ∨ y ≠ 0 then 0xFFFFFFFF else 0) ∧
      runs (.vxor q vd va vb) 2 (fun x y => if (x ≠ 0) ≠ (y ≠ 0) then 0xFFFFFFFF else 0))

/-- R132: what the integer operations do to w-bit elements, in exact integers: sums and differences wrap or saturate,
products are the low or high half, shifts take the amount modulo the width, minima and maxima compare as their sign says. -/
def Claims.IntegerElements : Prop :=
  ∀ (w a b : Nat), w = 8 ∨ w = 16 ∨ w = 32 → a < 2 ^ w → b < 2 ^ w →
    let x := (BitVec.ofNat w a).toInt
    let y := (BitVec.ofNat w b).toInt
    let n := b % w
    let value := fun (o : IOp) (u : Bool) (v : Int) => IOp.elem o w u a b = (BitVec.ofInt w v).toNat
    value (.add 0) false (a + b) ∧ value (.sub 0) false (a - b) ∧
    value (.add 2) false (max (-(2 ^ (w - 1))) (min (2 ^ (w - 1) - 1) (x + y))) ∧
    value (.sub 2) false (max (-(2 ^ (w - 1))) (min (2 ^ (w - 1) - 1) (x - y))) ∧
    value (.add 3) false (min (2 ^ w - 1) (a + b)) ∧ value (.sub 3) false (max 0 (a - b)) ∧
    value (.add 2) true (min (2 ^ w - 1) (a + b)) ∧ value (.sub 2) true (max 0 (a - b)) ∧
    value .mul false (a * b) ∧ value (.mulh false) false (x * y / 2 ^ w) ∧ value (.mulh true) false (a * b / 2 ^ w) ∧
    value .shl false (a * 2 ^ n) ∧ value .shr false (a / 2 ^ n) ∧ value .sra false (x / 2 ^ n) ∧
    value .sra true (a / 2 ^ n) ∧
    value (.min false) false (min x y) ∧ value (.max false) false (max x y) ∧
    value (.min true) false (min (a : Int) b) ∧ value (.max true) false (max (a : Int) b)

/-- R133: the scalar-broadcast words take the low bits of S(sb), as it was at split, as every element of their second
operand. -/
def Obligations.VectorBroadcast : Prop :=
  ∀ (s : State) (q : Itq) (vd va : BitVec 6) (sb : BitVec 5) (fn : BitVec 4) (tag : Nat), Calm s →
    let st := s.me
    let a := st.getV va
    let d := st.getV vd
    let b := (st.getS sb).toNat % 2 ^ elemWidth tag
    let fl := !st.interlocked
    let o := fopOf fn.toNat
    a.tag.toNat = tag →
    (tag ∈ tagsF → (o.readsD = true → d.tag.toNat = tag) →
      ∃ data flags t, exec (.vfops q vd va sb fn) s = .next t ∧
        Lanewise st.active tag a.data 0 d.data (fun x _ z => o.elem fl (fmtOf tag) x b z) data flags ∧
        t.Same (s.past (.vfops q vd va sb fn) (s.updMe fun u => u.issued st.interlocked 4 1
          (vMasked vd st.active data tag 0 (a.poison || (o.readsD && d.poison))) flags))) ∧
    (tag ∈ tagsI →
      ∃ data t, exec (.viops q vd va sb fn) s = .next t ∧
        Lanewise st.active tag a.data 0 0
          (fun x _ _ => ((iopOf fn.toNat).elem (elemWidth tag) (decide (tag = 12)) x b, 0)) data 0 ∧
        t.Same (s.past (.viops q vd va sb fn) (s.updMe fun u => u.issued st.interlocked 2 1
          (vMasked vd st.active data tag 0 a.poison) 0)))

/-- R134-R136: the compares, mask logic and votes.  An inactive lane of a compare gives 0. -/
def Obligations.VectorMasks : Prop :=
  ∀ (s : State) (q : Itq) (va vb : BitVec 6) (md ma mb pd : BitVec 3) (cond : BitVec 4) (d : BitVec 5), Calm s →
    let st := s.me
    let a := st.getV va
    let b := st.getV vb
    let act := st.active
    let flush := fun (x : BitVec 1024) (l : Nat) => Fmt.f32.flushIn (!st.interlocked) (lane x l).toNat
    let done := fun (i : Instr) (lat : Nat) (w : VWrite) (flags : BitVec 5) =>
      ∃ t, exec i s = .next t ∧ t.Same (s.past i (s.updMe fun u => u.issued st.interlocked lat 1 [w] flags))
    (a.tag = 1 → b.tag = 1 → a.poison = false → b.poison = false →
      ∃ m flags, done (.vfcmp q md va vb cond) 2 (.mask md m) flags ∧
        (∀ l, l < 32 → m.getLsbD l =
          (act.getLsbD l && floatCond cond.toNat (flush a.data l).1 (flush b.data l).1)) ∧
        (∀ j, flags.getLsbD j = true ↔ ∃ l, l < 32 ∧ act.getLsbD l = true ∧
          ((flush a.data l).2 ||| (flush b.data l).2).getLsbD j = true)) ∧
    (a.tag = b.tag → a.tag = 4 ∨ a.tag = 12 → a.poison = false → b.poison = false →
      ∃ m, done (.vcmp q md va vb cond) 2 (.mask md m) 0 ∧
        ∀ l, l < 32 → m.getLsbD l =
          (act.getLsbD l && laneCond cond.toNat (decide (a.tag = 12)) (lane a.data l) (lane b.data l))) ∧
    (let x := st.mask ma
     let y := st.mask mb
     let log := fun (f : BitVec 3) (v : BitVec 32) => done (.vmlog q md ma mb f) 2 (.mask md v) 0
     log 0 (x &&& y) ∧ log 1 (x ||| y) ∧ log 2 (x ^^^ y) ∧ log 3 (x &&& ~~~y) ∧ log 4 (x ||| ~~~y) ∧
     log 5 (~~~x) ∧ log 6 x) ∧
    done (.vact q ma) 2 (.act ma) 0 ∧
    done (.vany q pd ma) 8 (.pred pd ((List.range 32).any fun l => (st.mask ma).getLsbD l && act.getLsbD l)) 0 ∧
    done (.vall q pd ma) 8 (.pred pd ((List.range 32).all fun l => !act.getLsbD l || (st.mask ma).getLsbD l)) 0 ∧
    done (.vmpop q d ma) 2 (.scalar d (BitVec.ofNat 64 ((List.range 32).countP fun l =>
      (st.mask ma).getLsbD l && act.getLsbD l))) 0

/-- R137, R141, R142, R146: select, moves, broadcasts and retagging. -/
def Claims.VectorMoves : Prop :=
  ∀ (s : State) (q : Itq) (vd va vb : BitVec 6) (mk : BitVec 3) (sb : BitVec 5) (tag : BitVec 4) (imm : BitVec 15),
    Calm s →
    let st := s.me
    let a := st.getV va
    let b := st.getV vb
    let act := st.active
    let whole := fun (i : Instr) (tag : Nat) (poison : Bool) (f : Nat → BitVec 32) =>
      ∃ data t, exec i s = .next t ∧ (∀ l, l < 32 → lane data l = f l) ∧
        t.Same (s.past i (s.updMe fun u => u.issued st.interlocked 2 1 (vWhole vd data tag 0 poison) 0))
    let masked := fun (i : Instr) (tag : Nat) (poison : Bool) (f : Nat → BitVec 32) =>
      ∃ data t, exec i s = .next t ∧ (∀ l, l < 32 → act.getLsbD l = true → lane data l = f l) ∧
        t.Same (s.past i (s.updMe fun u => u.issued st.interlocked 2 1 (vMasked vd act data tag 0 poison) 0))
    (a.tag = b.tag → a.tag.toNat ∈ tagsLanes → whole (.vsel q vd va vb mk) a.tag.toNat (a.poison || b.poison) fun l =>
      if (st.mask mk).getLsbD l then lane a.data l else lane b.data l) ∧
    (a.tag.toNat ∈ tagsAny → ∃ t, exec (.vmov q vd va) s = .next t ∧ t.Same (s.past (.vmov q vd va) (s.updMe fun u =>
      u.issued st.interlocked 2 1 (vMasked vd act a.data a.tag.toNat a.side a.poison) 0))) ∧
    (∀ ma : BitVec 3, masked (.vmovMaskToReg q vd (ma.setWidth 6)) 13 false fun l =>
      if (st.mask ma).getLsbD l then 0xFFFFFFFF else 0) ∧
    (∀ md : BitVec 3, a.tag = 13 → a.poison = false → ∃ m t, exec (.vmovRegToMask q (md.setWidth 6) va) s = .next t ∧
      (∀ l, l < 32 → m.getLsbD l = decide (lane a.data l ≠ 0)) ∧
      t.Same (s.past (.vmovRegToMask q (md.setWidth 6) va) (s.updMe fun u =>
        u.issued st.interlocked 2 1 [.mask md m] 0))) ∧
    (masked (.vmovi q vd imm) 4 false fun _ => BitVec.ofInt 32 imm.toInt) ∧
    (masked (.viota q vd 0) 12 false fun l => BitVec.ofNat 32 l) ∧
    (masked (.viota q vd 1) 12 false fun l => BitVec.ofNat 32 ((List.range l).countP fun k => act.getLsbD k)) ∧
    (∃ data t, exec (.vbcs q vd sb tag) s = .next t ∧
      (∀ l k, l < 32 → k < perLane tag.toNat → act.getLsbD l = true →
        elem (elemWidth tag.toNat) (lane data l).toNat k = (st.getS sb).toNat % 2 ^ elemWidth tag.toNat) ∧
      t.Same (s.past (.vbcs q vd sb tag) (s.updMe fun u =>
        u.issued st.interlocked 2 1 (vMasked vd act data tag.toNat 0 false) 0))) ∧
    (a.tag.toNat ∈ tagsLanes → masked (.vbcl q vd va sb) a.tag.toNat a.poison fun _ =>
      lane a.data ((st.getS sb).toNat % 32)) ∧
    (∃ t, exec (.vtag q vd va tag) s = .next t ∧ t.Same (s.past (.vtag q vd va tag) (s.updMe fun u =>
      u.issued st.interlocked 2 1 (vWhole vd a.data tag.toNat a.side a.poison) 0)))

/-- R143, R144: permutes, rotates and shifts of lanes, and the extraction and insertion of one lane. -/
def Claims.VectorPermutes : Prop :=
  ∀ (s : State) (q : Itq) (vd va vb : BitVec 6) (sb : BitVec 5), Calm s →
    let st := s.me
    let a := st.getV va
    let b := st.getV vb
    let d := st.getV vd
    let x := st.getS sb
    let masked := fun (i : Instr) (poison : Bool) (f : Nat → BitVec 32) =>
      ∃ data t, exec i s = .next t ∧ (∀ l, l < 32 → st.active.getLsbD l = true → lane data l = f l) ∧
        t.Same (s.past i (s.updMe fun u =>
          u.issued st.interlocked 2 1 (vMasked vd st.active data a.tag.toNat 0 poison) 0))
    (a.tag.toNat ∈ tagsLanes → b.tag = 12 → masked (.vperm q vd va vb) (a.poison || b.poison) fun l =>
      lane a.data ((lane b.data l).toNat % 32)) ∧
    (a.tag.toNat ∈ tagsLanes → masked (.vrot q vd va sb 0) a.poison fun l => lane a.data ((l + x.toNat) % 32)) ∧
    (a.tag.toNat ∈ tagsLanes → masked (.vrot q vd va sb 1) a.poison fun l =>
      if l + x.toNat % 64 < 32 then lane a.data (l + x.toNat % 64) else 0) ∧
    (a.tag.toNat ∈ tagsLanes → masked (.vrot q vd va sb 2) a.poison fun l =>
      if x.toNat % 64 ≤ l then lane a.data (l - x.toNat % 64) else 0) ∧
    (∀ (k : BitVec 5) (fn : BitVec 4), a.tag.toNat ∈ tagsAny → a.poison = false → fn = 0 ∨ fn = 1 →
      ∃ t, exec (.vext q (k.setWidth 6) va sb fn) s = .next t ∧
        t.Same (s.past (.vext q (k.setWidth 6) va sb fn) (s.updMe fun u => u.issued st.interlocked 2 1
          [.scalar sb (if fn = 1 then BitVec.ofInt 64 (lane a.data k.toNat).toInt
            else BitVec.ofNat 64 (lane a.data k.toNat).toNat)] 0))) ∧
    (∀ k : BitVec 5, d.tag.toNat ∈ tagsAny →
      ∃ data t, exec (.vins q vd (k.setWidth 6) sb) s = .next t ∧
        lane data k.toNat = BitVec.ofNat 32 x.toNat ∧
        t.Same (s.past (.vins q vd (k.setWidth 6) sb) (s.updMe fun u => u.issued st.interlocked 2 1
          [.vec vd (BitVec.ofNat 32 (2 ^ k.toNat)) data d.tag 0 0 false] 0)))

/-- R138-R140: the reductions: VFRED by the pairwise tree over 32 leaves, VRED in ascending order of the active elements,
VFSCAN running over the active lanes. -/
def Obligations.VectorReductions : Prop :=
  ∀ (s : State) (q : Itq) (vd va : BitVec 6) (sb : BitVec 5) (op : Nat), Calm s →
    let st := s.me
    let a := st.getV va
    let act := st.active
    let fl := !st.interlocked
    let tag := a.tag.toNat
    let done := fun (i : Instr) (ws : List VWrite) (flags : BitVec 5) =>
      ∃ t, exec i s = .next t ∧ t.Same (s.past i (s.updMe fun u => u.issued st.interlocked 8 1 ws flags))
    let leaves := (List.range 32).map fun l =>
      if act.getLsbD l then redLeaf op fl tag (lane a.data l).toNat else (combId op, 0)
    let p := pairUp op fl
    let r := (p (p (p (p (p leaves))))).headD (0, 0)
    let w := elemWidth tag
    let ext := fun (x : Nat) => if tag = 12 ∨ op = 3 ∨ op = 4 then BitVec.ofNat 64 x else BitVec.ofInt 64 (sval w x)
    let elems := (List.range 32).flatMap fun l =>
      if act.getLsbD l then (List.range (perLane tag)).map fun k => ext (elem w (lane a.data l).toNat k) else []
    let n := elems.foldl (redStep op) (redId op)
    (op < 4 → tag ∈ tagsF →
      done (.vfred q vd va 0 (BitVec.ofNat 4 op)) (vWhole vd (ofLanes fun _ => BitVec.ofNat 32 r.1) 1 0 a.poison) r.2 ∧
      (a.poison = false →
        done (.vfred q 0 va sb (BitVec.ofNat 4 (op + 8))) [.scalar sb (BitVec.ofNat 64 r.1)] r.2)) ∧
    (op < 8 → tag ∈ tagsI →
      done (.vred q vd va 0 (BitVec.ofNat 4 op))
        (vWhole vd (ofLanes fun _ => BitVec.ofNat 32 n.toNat) (if tag = 12 then 12 else 4) 0 a.poison) 0 ∧
      (a.poison = false → done (.vred q 0 va sb (BitVec.ofNat 4 (op + 8))) [.scalar sb n] 0)) ∧
    (∀ fn : BitVec 3, fn.toNat < 4 → tag = 1 → ∃ data flags, done (.vfscan q vd va fn) (vMasked vd act data 1 0 a.poison) flags ∧
      let o := if fn.toNat = 2 then 1 else if fn.toNat = 3 then 2 else 0
      let sum := fun (l : Nat) => ((List.range l).filter fun k => act.getLsbD k).foldl
        (fun x k => (comb o fl x (Fmt.f32.flushIn fl (lane a.data k).toNat).1).1) (combId o)
      ∀ l, l < 32 → act.getLsbD l = true →
        lane data l = BitVec.ofNat 32 (if fn = 1 then sum l else sum (l + 1)))

/-- R145: VCVT between formats, on a group of source registers of one tag or into a group of destinations. -/
def Obligations.VectorConvert : Prop :=
  ∀ (s : State) (q : Itq) (vd va : BitVec 6) (tag : BitVec 4) (sat : BitVec 1) (rnd : BitVec 2), Calm s →
    let st := s.me
    let src := (st.getV va).tag.toNat
    let dst := tag.toNat
    let ns := perLane src
    let nd := perLane dst
    let group := if ns < nd then nd / ns else 1
    let dgroup := if nd < ns then ns / nd else 1
    let srcs := (List.range group).map fun i => va + BitVec.ofNat 6 i
    let f := fun (i : Nat) => convElem (!st.interlocked) src dst (decide (sat = 1)) (Rnd.ofBits rnd)
      (st.getV (va + BitVec.ofNat 6 (i / (32 * ns)))) (i % (32 * ns))
    let k := max group dgroup
    let i : Instr := .vcvt q vd va tag sat rnd
    src ∈ tagsCvt → (∀ r ∈ srcs, (st.getV r).tag.toNat = src) →
    va.toNat + group ≤ 64 → vd.toNat + dgroup ≤ 64 →
    ∃ (data : Nat → BitVec 1024) (flags : BitVec 5) (t : State), exec i s = .next t ∧
      (∀ j l p, j < dgroup → l < 32 → p < nd → st.active.getLsbD l = true →
        elem (elemWidth dst) (lane (data j) l).toNat p = (f (32 * j * nd + l * nd + p)).1 % 2 ^ elemWidth dst) ∧
      (∀ b, flags.getLsbD b = true ↔ ∃ j l p, j < dgroup ∧ l < 32 ∧ p < nd ∧ st.active.getLsbD l = true ∧
        (f (32 * j * nd + l * nd + p)).2.getLsbD b = true) ∧
      t.Same (s.past i (s.updMe fun u => u.issued st.interlocked (if k = 1 then 3 else k + 2) k
        ((List.range dgroup).flatMap fun j =>
          vMasked (vd + BitVec.ofNat 6 j) st.active (data j) dst 0 (st.poisoned srcs)) flags))

/-- R52, R55, R104: a masked result of a vector word is in its register at once in interlocked mode; in exposed mode the
register keeps its value until `lat` issue slots have passed.  A written lane takes the result; an unwritten one stays when
the register already had the tag, and is 0 otherwise. -/
def Obligations.VectorResultLands : Prop :=
  ∀ (st : Strand) (vd : BitVec 6) (lanes : BitVec 32) (data : BitVec 1024) (tag : Nat) (poison : Bool) (lat : Nat)
    (flags : BitVec 5), st.flight = [] → lanes ≠ 0 → tag < 16 → 0 < lat →
    let ws := vMasked vd lanes data tag 0 poison
    let exposed := st.issued false lat 1 ws flags
    let old := st.getV vd
    let new := ((st.issued true lat 1 ws flags).getV vd)
    (exposed.landDue (st.vslot + lat - 1)).getV vd = old ∧
    (exposed.landDue (st.vslot + lat)).getV vd = new ∧ exposed.drainPipe.getV vd = new ∧
    exposed.fpflags = st.fpflags ||| flags ∧
    new.tag.toNat = tag ∧
    (∀ l, l < 32 → lane new.data l =
      if lanes.getLsbD l then lane data l else if old.tag.toNat = tag then lane old.data l else 0) ∧
    (∀ r, r ≠ vd → (exposed.drainPipe).getV r = st.getV r)

/-- R147-R149, R210: the vector loads, of a calm strand with an active lane, aligned and of existing places, whose
full-empty qualifier does not wait.  (That VLDL gives no poison, since lane slices carry none, is the model's reading: assumption 30;
that the exponents of each block are an access of their own is its choice: assumption 89.) -/
def Obligations.VectorLoads : Prop :=
  ∀ (s : State) (q : Itq) (vd : BitVec 6) (a : BitVec 3) (space fe : BitVec 2) (fmt inc : BitVec 4) (vx : BitVec 6)
    (p : Nat), Calm s → s.me.active ≠ 0 →
    let st := s.me
    let ls := lanesOf st.active
    let ea := (st.getA a).addr.toNat
    let done := fun (i : Instr) (lat : Nat) (x : State) (side : BitVec 128) (poison : Bool) (f : Nat → BitVec 32) =>
      ∃ data t, exec i s = .next t ∧ (∀ l, l < 32 → st.active.getLsbD l = true → lane data l = f l) ∧
        t.Same (s.past i (x.updMe fun u =>
          u.issued st.interlocked lat 1 (vMasked vd st.active data fmt.toNat side poison) 0))
    (let off := (laneSpan ls).1
     let base := p - off
     let gs := laneGranules base ls
     let i : Instr := .vld q vd a space fe fmt inc
     ea % 16 = 0 → s.resolve space (ea + off) (laneSpan ls).2 = some p → s.feReady 1 fe gs = true →
     (isBlockFmt fmt = false → done i 6 (s.feTaken 1 fe gs) 0 (gs.any s.granulePoisoned) fun l =>
       BitVec.ofNat 32 (leNat (cellsRead s.mem (base + 4 * l) 4))) ∧
     (∀ e : Nat → Nat, isBlockFmt fmt = true →
       let ex := (st.getA (a ^^^ 1)).addr.toNat
       let bs := blocksOf fmt.toNat ls
       ex % 2 = 0 → (∀ b ∈ bs, s.resolve space (ex + 2 * b) 2 = some (e b)) →
       done i 6 (s.feTaken 1 fe gs)
         (BitVec.ofNat 128 (bs.foldl (fun acc b => acc + leNat (cellsRead s.mem (e b) 2) * 2 ^ (16 * b)) 0))
         (gs.any s.granulePoisoned || bs.any fun b => (granules (e b) 2).any s.granulePoisoned) fun l =>
           BitVec.ofNat 32 (leNat (cellsRead s.mem (base + 4 * l) 4)))) ∧
    (ea % 128 = 0 → done (.vldl q vd a space fe fmt inc) 4 s 0 false fun l =>
      BitVec.ofNat 32 (leNat (cellsRead s.mem (s.slicePlace (ea % 2 ^ 17) l) 4))) ∧
    (∀ at_ : Nat → Nat,
      let x := st.getV vx
      let gs := (ls.map fun l => at_ l / 16).dedup
      x.tag = 12 → x.poison = false → (∀ l ∈ ls, laneAddr ea x l % 4 = 0) →
      (∀ l ∈ ls, s.resolve space (laneAddr ea x l) 4 = some (at_ l)) → s.feReady 1 fe gs = true →
      done (.vldx q vd a space fe fmt inc vx) 10 (s.feTaken 1 fe gs) 0 (gs.any s.granulePoisoned) fun l =>
        BitVec.ofNat 32 (leNat (cellsRead s.mem (at_ l) 4)))

/-- R147-R150: the vector stores and VAMO.  The lanes of VST are one write, with the exponents of its blocks before it;
VSTX and VAMO write their lanes in ascending order, and VAMO returns the old values.  (The model's: that a VSTL of a poisoned
register stores no poison, since lane slices carry none: assumption 30; that the exponents of each block are an access of their own:
assumption 89; that they come before the data: assumption 102; the order of the lanes of VSTX: assumption 32; and of VAMO, what one
lane does, which is the model's own vamoLane, with MIN and MAX of IDX32 signed: assumption 101.) -/
def Obligations.VectorStores : Prop :=
  ∀ (s : State) (q : Itq) (vd : BitVec 6) (a : BitVec 3) (space fe : BitVec 2) (fmt inc : BitVec 4) (vx : BitVec 6)
    (op : BitVec 4) (p : Nat) (at_ : Nat → Nat), Calm s → s.me.active ≠ 0 →
    let st := s.me
    let r := st.getV vd
    let x := st.getV vx
    let ls := lanesOf st.active
    let ea := (st.getA a).addr.toNat
    let done := fun (i : Instr) (y : State) =>
      ∃ t, exec i s = .next t ∧ t.Same (s.past i (y.updMe fun u => u.issued st.interlocked 0 1 [] 0))
    (let off := (laneSpan ls).1
     let base := p - off
     let gs := laneGranules base ls
     let data := ls.flatMap fun l => placed (base + 4 * l) (leBytes 4 (lane r.data l).toNat)
     let i : Instr := .vst q vd a space fe fmt inc
     r.tag.toNat ∈ storeTags fmt → ea % 16 = 0 → s.resolve space (ea + off) (laneSpan ls).2 = some p →
     (isBlockFmt fmt = false → done i (((s.chipScatter [] r.poison).chipScatter data r.poison).feStore fe gs)) ∧
     (∀ e : Nat → Nat, isBlockFmt fmt = true →
       let ex := (st.getA (a ^^^ 1)).addr.toNat
       let bs := blocksOf fmt.toNat ls
       let exs := bs.flatMap fun b => placed (e b) (leBytes 2 (r.side.toNat / 2 ^ (16 * b)))
       ex % 2 = 0 → (∀ b ∈ bs, s.resolve space (ex + 2 * b) 2 = some (e b)) →
       done i (((s.chipScatter exs r.poison).chipScatter data r.poison).feStore fe gs))) ∧
    (r.tag.toNat ∈ (if fmt = 0 then tagsLanes else [fmt.toNat]) → ea % 128 = 0 →
      done (.vstl q vd a space fe fmt inc) { s with mem := ls.foldl (fun m l =>
        cellsWrite m (s.slicePlace (ea % 2 ^ 17) l) (leBytes 4 (lane r.data l).toNat)) s.mem }) ∧
    (x.tag = 12 → x.poison = false → (∀ l ∈ ls, laneAddr ea x l % 4 = 0) →
      (∀ l ∈ ls, s.resolve space (laneAddr ea x l) 4 = some (at_ l)) →
      (r.tag.toNat ∈ storeTags fmt → done (.vstx q vd a space fe fmt inc vx)
        ((ls.foldl (fun y l => y.chipWrite (at_ l) (leBytes 4 (lane r.data l).toNat) r.poison) s).feStore fe
          (ls.map fun l => at_ l / 16).dedup)) ∧
      (r.tag = fmt →
        let y := (ls.map fun l => (l, at_ l)).foldl (vamoLane op.toNat r) (s, 0, 0, false)
        ∃ t, exec (.vamo q vd a space fe fmt inc vx op) s = .next t ∧
          t.Same (s.past (.vamo q vd a space fe fmt inc vx op) (y.1.updMe fun u => u.issued st.interlocked 10 1
            (vMasked vd st.active (BitVec.ofNat 1024 y.2.1) fmt.toNat 0 (y.2.2.2 || r.poison)) y.2.2.1))))

/-- R102, R103, R246, R248: an operand of a floating-point word whose tag is none of F16, BF16 and F32.  With MODE.fmttrap
set a word of an earlier step raises trap 0x02, with the head word, the register, the tag found and the tag required in
TRAPDATA; it writes nothing, and it is the entry of the frame.  (The word is only split in its own step: assumption 4.)
With MODE.fmttrap clear the word runs, and reads the operand as FP32. -/
def Obligations.FormatTrap : Prop :=
  ∀ (s : State) (q : Itq) (vd va : BitVec 6) (e : QEntry), Calm s →
    let st := s.me
    let a := st.getV va
    let i : Instr := .vfsqrt q vd va
    let fl := !st.interlocked
    let data := ((encode i).headD 0).toNat * 2 ^ 32 + va.toNat * 2 ^ 16 + a.tag.toNat * 2 ^ 8 + 1 * 2 ^ 4 + 1
    let y := s.updMe fun u => { u with queue := [e] }
    a.tag.toNat ∉ tagsF →
    (st.fmttrap = true → exec i s = .next (s.split i)) ∧
    (st.fmttrap = true → e.instr = i → e.fresh = false → e.held = false → e.since ≤ s.cycle →
      ∃ t, y.runEngines = .next t ∧ t.Same (y.takeTrap ⟨0x02, BitVec.ofNat 64 data⟩ i e.pc st.pc [(e, true)])) ∧
    (st.fmttrap = false → ∃ data flags t, exec i s = .next t ∧
      Lanewise st.active 1 a.data 0 0 (fun x _ _ =>
        let y := Fmt.f32.flushIn fl x
        let r := Fmt.f32.round .ne fl (Fmt.f32.decode y.1).sqrt
        (r.1, y.2 ||| r.2)) data flags ∧
      t.Same (s.past i (s.updMe fun u =>
        u.issued st.interlocked 12 1 (vMasked vd st.active data 1 0 a.poison) flags)))

/-! ## The statements of this part that join several claims -/

/-- R132: the integer words, and what their operations do to elements. -/
def Obligations.VectorIntegers : Prop :=
  Claims.VectorInteger ∧ Claims.IntegerElements

/-- R137, R141-R146: moves, broadcasts, retagging, permutes, rotates, and single lanes. -/
def Obligations.VectorMovement : Prop :=
  Claims.VectorMoves ∧ Claims.VectorPermutes

/-! ## The matrix engine (R154-R176) -/

/-- R155, R163, R174, R175: MCFG, MSWAP, MCLR, MPOIS and MSLOT, with no chain open; the status that MCLR gives is that of
Table 7.  That a table that applies at once drops a deferred one is the model's choice (assumption 86). -/
def Claims.MatrixControl : Prop :=
  ∀ (s : State) (q : Itq) (gang : BitVec 2) (g : BitVec 3) (t : BitVec 4) (d sa : BitVec 5),
    Calm s → MatrixFree s →
    let m := s.matrix
    let tile := m.tiles[t.toNat]
    let gives := fun (i : Instr) (y : MatrixEngine) => Completes i s { s with matrix := y }
    let puts := fun (x : Tile) => { m with tiles := m.tiles.set t.toNat x t.isLt }
    let status := tile.tag.toNat * 256 + (if s.me.wsat then 4 else 0) + (if tile.ovf then 2 else 0) +
      (if tile.poison then 1 else 0)
    let noted := s.updMe fun u => u.setS d (BitVec.ofNat 64 status)
    let table : Vector (BitVec 4) 16 := Vector.ofFn fun k => (s.me.getS sa).extractLsb' (4 * k.val) 4
    gives (.mcfg q gang) { m with gang := gang } ∧
    gives (.mswap q 0 1) { m with macros := m.macros.map fun x => { x with active := ~~~x.active } } ∧
    (g.toNat < 2 ^ (3 - m.gang.toNat) →
      gives (.mswap q g 0) { m with macros := Vector.ofFn fun k =>
        if k.val / 2 ^ m.gang.toNat = g.toNat then { m.macros[k] with active := ~~~m.macros[k].active }
        else m.macros[k] }) ∧
    Completes (.mclr q t d 0) s { noted with matrix := puts Tile.clear } ∧
    Completes (.mclr q t d 1) s noted ∧
    Completes (.mclr q t d 2) s { (noted.updMe fun u => { u with wsat := false }) with
      matrix := puts { tile with ovf := false } } ∧
    gives (.mpois q t) (puts { tile with poison := true }) ∧
    ((∀ k (_ : k < 16), (table[k]).toNat < 4 ∨ table[k] = 0xF) →
      gives (.mslot q sa 1) { m with
        slots := table, pendingSlots := none, debt := Vector.replicate 4 0, openFor := 0 } ∧
      gives (.mslot q sa 0) { m with pendingSlots := some table })

/-- R161, R162: MWRK encodes one K-row of a shadow plane from registers of tag F32 and computes the residues of its elements,
and MRDK reads one into registers. -/
def Claims.MatrixRows : Prop :=
  ∀ (s : State) (q : Itq) (mac : BitVec 3) (v : BitVec 6) (sk : BitVec 5), Calm s → MatrixFree s →
    let st := s.me
    let m := s.matrix
    let x := m.macros[mac.toNat]
    let p := x.shadow
    let k := (st.getS sk).toNat % 128
    let w := if p.fmt = .b4 then 4 else 8
    let n := if p.fmt = .b4 then 4 else 2
    let code := fun (c : Nat) => lane (st.getV (v + BitVec.ofNat 6 (c / 32))).data (c % 32)
    let poison := (List.range n).any fun j => (st.getV (v + BitVec.ofNat 6 j)).poison
    let sat := (List.range (32 * n)).any fun c => (wrElem p k c (code c)).2
    let bit := BitVec.ofNat 128 (2 ^ k)
    let after := fun (row : BitVec 512) => x.setShadow { p with
      rows := p.rows.setIfInBounds k row, res := p.res.setIfInBounds k (p.fmt.rowRes row), poison := if poison then p.poison ||| bit else p.poison &&& ~~~bit }
    let value := fun (c : Nat) => if p.fmt = .int8 then BitVec.ofInt 32 (BitVec.ofNat 8 (p.bits k c)).toInt
      else rne32 (p.value k c)
    v.toNat + n ≤ 64 →
    ((∀ j, j < n → (st.getV (v + BitVec.ofNat 6 j)).tag = 1) →
      ∃ row : BitVec 512,
        (∀ c, c < 32 * n → row.toNat / 2 ^ (w * c) % 2 ^ w = (wrElem p k c (code c)).1 % 2 ^ w) ∧
        Completes (.mwrk q mac v sk) s { (s.updMe fun u => { u with wsat := u.wsat || sat }) with
          matrix := { m with macros := m.macros.set mac.toNat (after row) mac.isLt } }) ∧
    ∃ data : Nat → BitVec 1024,
      (∀ j l, j < n → l < 32 → lane (data j) l = value (32 * j + l)) ∧
      Completes (.mrdk q mac v sk) s (s.updMe fun u => (List.range n).foldl (fun u j =>
        u.setV (v + BitVec.ofNat 6 j)
          ⟨data j, if p.fmt = .int8 then 4 else 1, 0, p.poison.getLsbD k⟩) u)

/-- R158: MLDW of an image in a space writes the K-rows of a gang's shadow planes: the elements as the image's format gives
them, the exponents of B8 and B4 rows, the poison of the granules they came from; an E4M3 image is encoded in blocks of 32
rows, and an image of codebook indices is expanded.  The residue of every element loaded is computed.  The rows outside the
range stay, or are zero after a change of format; the selectors, the active planes and every other macro stay.  That an E4M3
block with a poisoned granule is poisoned in all of its 32 rows, and that a row that is zeroed is not poisoned, are the
model's readings (assumptions 36, 37). -/
def Claims.WeightLoad : Prop :=
  ∀ (s : State) (q : Itq) (g : BitVec 3) (fmt : BitVec 4) (a : BitVec 3) (space : BitVec 2) (ae : BitVec 3) (vq : BitVec 1)
    (k0 n1 : BitVec 10) (whole : BitVec 1) (p : Nat) (e : Nat → Nat), Calm s → MatrixFree s →
    let i : Instr := .mldw q g fmt a space ae vq k0 n1 whole
    let m := s.matrix
    let gk := 2 ^ m.gang.toNat
    let lo := if whole = 1 then 0 else k0.toNat
    let n := if whole = 1 then 128 * gk else n1.toNat + 1
    let per := if vq = 1 then 16 else 64
    let ncol := if fmt = 11 then 128 else 64
    let ea := (s.me.getA a).addr.toNat
    let ex := (s.me.getA ae).addr.toNat
    let raw := fun (r : Nat) => leNat (cellsRead s.mem (p + per * r) per)
    let blk := fun (b c : Nat) => BlockFmt.b8.encode .ne 4 ((List.range 32).map fun j =>
      Fmt.e4m3.decode (raw (32 * b + j) / 2 ^ (8 * c) % 256))
    let el := fun (r c : Nat) =>
      if fmt = 7 then ((blk (r / 32) c).elems.getD (r % 32) (0, false)).1
      else if fmt = 11 then raw r / 2 ^ (4 * c) % 16
      else if vq = 1 then s.codebook.toNat / 2 ^ (32 * (raw r / 2 ^ (8 * (c / 4)) % 256) + 8 * (c % 4)) % 256
      else raw r / 2 ^ (8 * c) % 256
    let pair := fun (r c : Nat) =>
      if fmt = 7 then ((blk (r / 32) c).elo, (blk (r / 32) c).ehi)
      else
        let x := leNat (cellsRead s.mem (e (r / 32)) (2 * ncol)) / 2 ^ (16 * c)
        (x % 256, x / 256 % 256)
    let bad := fun (r : Nat) =>
      if fmt = 7 then (List.range 32).any fun j => (s.chipRead (p + per * (r / 32 * 32 + j)) per).2
      else (s.chipRead (p + per * r) per).2 || (decide (fmt ≠ 6) && (s.chipRead (e (r / 32)) (2 * ncol)).2)
    let flags : BitVec 3 := if fmt = 7 then
      (if (List.range (n / 32)).any fun b => (List.range 64).any fun c => (blk b c).nan then qNAN else 0) |||
      (if (List.range (n / 32)).any fun b => (List.range 64).any fun c => (blk b c).elems.any (·.2) then qSAT else 0) else 0
    i.wf = true → g.toNat < 2 ^ (3 - m.gang.toNat) → lo + n ≤ 128 * gk →
    ea % 16 = 0 → (fmt = 10 ∨ fmt = 11 → ex % 2 = 0) → s.resolve space ea (per * n) = some p →
    (fmt = 10 ∨ fmt = 11 → ∀ b, b < n / 32 → s.resolve space (ex + 2 * ncol * b) (2 * ncol) = some (e b)) →
    ∃ y : Vector Macro 8,
      Completes i s ({ s with matrix := { m with macros := y } }.updMe fun u => u.raiseQ flags) ∧
      ∀ (k : Nat) (hk : k < 8),
        let old := m.macros[k]
        let new := y[k]
        let oldp := old.shadow
        let newp := new.shadow
        let keep := decide (oldp.fmt = planeFmt fmt.toNat) && !oldp.sparse
        new.active = old.active ∧ new.live = old.live ∧
        (k / gk ≠ g.toNat → new = old) ∧
        (k / gk = g.toNat →
          newp.fmt = planeFmt fmt.toNat ∧ newp.sparse = false ∧ newp.sel = oldp.sel ∧
          ∀ r c, r < 128 → c < ncol →
            let x := 128 * (k % gk) + r
            if lo ≤ x ∧ x < lo + n then
              newp.bits r c = el (x - lo) c ∧ (fmt ≠ 6 → newp.expPair r c = pair (x - lo) c) ∧
              newp.rho r c = residue (newp.fmt.signed (newp.bits r c)) ∧ newp.poison.getLsbD r = bad (x - lo)
            else if keep = true then
              newp.bits r c = oldp.bits r c ∧ newp.expPair r c = oldp.expPair r c ∧ newp.rho r c = oldp.rho r c ∧
              newp.poison.getLsbD r = oldp.poison.getLsbD r
            else newp.bits r c = 0 ∧ newp.expPair r c = (0, 0) ∧ newp.rho r c = 0 ∧ newp.poison.getLsbD r = false)

/-- R159, R160: MLDWS of an image whose metadata groups are all legal loads the rows, the exponents of B8 and B4 rows and the
selectors of a gang's shadow planes and makes them sparse; the physical row 2G + s of a macro holds the weight of its logical
row 4G + idx_s.  The rows outside the range stay, or are zero where the plane was sparse or of another format, and no longer
poisoned; that, and that the selectors of chunks outside the range stay and that poison of the metadata has no effect, are the
model's readings (assumptions 37, 38, 92). -/
def Claims.SparseLoad : Prop :=
  ∀ (s : State) (q : Itq) (g : BitVec 3) (fmt : BitVec 4) (a : BitVec 3) (space : BitVec 2) (ae am : BitVec 3)
    (k0 n1 : BitVec 10) (whole : BitVec 1) (p : Nat) (md e : Nat → Nat), Calm s → MatrixFree s →
    let i : Instr := .mldws q g fmt a space ae am k0 n1 whole
    let m := s.matrix
    let gk := 2 ^ m.gang.toNat
    let lo := if whole = 1 then 0 else k0.toNat
    let n := if whole = 1 then 128 * gk else n1.toNat + 1
    let w := if fmt = 11 then 4 else 8
    let ncol := if fmt = 11 then 128 else 64
    let ea := (s.me.getA a).addr.toNat
    let ex := (s.me.getA ae).addr.toNat
    let em := (s.me.getA am).addr.toNat
    let h0 := lo / 16
    let chunks := (lo + n + 15) / 16 - h0
    let nib := fun (h c j : Nat) => leNat (cellsRead s.mem (md ((h - h0) * ncol + c)) 4) / 2 ^ (4 * j) % 16
    let pair := fun (r c : Nat) =>
      let x := leNat (cellsRead s.mem (e (r / 32)) (2 * ncol)) / 2 ^ (16 * c)
      (x % 256, x / 256 % 256)
    let bad := fun (r : Nat) =>
      (s.chipRead (p + 64 * r) 64).2 || (decide (fmt ≠ 6) && (s.chipRead (e (r / 32)) (2 * ncol)).2)
    i.wf = true → g.toNat < 2 ^ (3 - m.gang.toNat) → lo + n ≤ 128 * gk →
    ea % 16 = 0 → (fmt ≠ 6 → ex % 2 = 0) → em % 4 = 0 → s.resolve space ea (64 * n) = some p →
    (fmt ≠ 6 → ∀ b, b < n / 32 → s.resolve space (ex + 2 * ncol * b) (2 * ncol) = some (e b)) →
    (∀ x, x < chunks * ncol → s.resolve space (em + 4 * x) 4 = some (md x)) →
    (∀ h c j, h0 ≤ h → h < h0 + chunks → c < ncol → j < 8 → nib h c j % 4 < nib h c j / 4) →
    ∃ y : Vector Macro 8, Completes i s { s with matrix := { m with macros := y } } ∧
      ∀ (k : Nat) (hk : k < 8),
        let old := m.macros[k]
        let new := y[k]
        let oldp := old.shadow
        let newp := new.shadow
        let keep := decide (oldp.fmt = planeFmt fmt.toNat) && !oldp.sparse
        new.active = old.active ∧ new.live = old.live ∧ (k / gk ≠ g.toNat → new = old) ∧
        (k / gk = g.toNat →
          newp.fmt = planeFmt fmt.toNat ∧ newp.sparse = true ∧
          (∀ r c, r < 128 → c < ncol →
            let x := 128 * (k % gk) + r
            if lo ≤ x ∧ x < lo + n then
              newp.bits r c = leNat (cellsRead s.mem (p + 64 * (x - lo)) 64) / 2 ^ (w * c) % 2 ^ w ∧
              (fmt ≠ 6 → newp.expPair r c = pair (x - lo) c) ∧
              newp.rho r c = residue (newp.fmt.signed (newp.bits r c)) ∧ newp.poison.getLsbD r = bad (x - lo) ∧
              let idx := nib (x / 16) c (x / 2 % 8)
              newp.pos r c = 4 * (r / 2) + (if r % 2 = 0 then idx % 4 else idx / 4)
            else if keep = true then
              newp.bits r c = oldp.bits r c ∧ newp.expPair r c = oldp.expPair r c ∧ newp.rho r c = oldp.rho r c ∧
              newp.poison.getLsbD r = oldp.poison.getLsbD r
            else newp.bits r c = 0 ∧ newp.expPair r c = (0, 0) ∧ newp.rho r c = 0 ∧ newp.poison.getLsbD r = false) ∧
          ∀ G c, G < 64 → c < ncol → 8 * (k % gk) + G / 8 < h0 ∨ h0 + chunks ≤ 8 * (k % gk) + G / 8 →
            newp.nibble G c = oldp.nibble G c)

/-- R164-R171, R176, R177: an MMUL of planes whose residues are those of their elements, with no chain open or continuing the
strand's open chain, accumulates every row of A against the planes of its gang, macro 0 first, into tiles t … t + n − 1: from
zero where it opens a chain (start = 1), else onto what the tiles hold.  It leaves no chain open (fin = 1), or its own open with
one MMUL more (fin = 0).  A poisoned operand or tile poisons every tile of the word, and of the chain from there on (R176).  The tiles
have the tag of the accumulation from the word on (the model's reading: assumption 39). -/
def Claims.MatrixMultiply : Prop :=
  ∀ (s : State) (q : Itq) (t : BitVec 4) (g : BitVec 3) (rows1 : BitVec 5) (afmt : BitVec 4) (start fin wide : BitVec 1)
    (a : BitVec 3) (space fe : BitVec 2) (stride : BitVec 16) (at_ ex : Nat → Nat), Calm s → s.matrixStores = false →
    let i : Instr := .mmul q t g rows1 afmt start fin wide a space fe stride
    let m := s.matrix
    let gk := 2 ^ m.gang.toNat
    let gn := 2 ^ (3 - m.gang.toNat)
    let gs := if wide = 1 then List.range gn else [g.toNat]
    let planes := fun (x : Nat) => (List.range gk).map fun j => (m.mac (x * gk + j)).live
    let p := (m.mac (gs.headD 0 * gk)).live
    let int := decide (afmt = 6)
    let per := if p.fmt = .b4 then 2 else 1
    let n := per * gs.length
    let elems := (if p.sparse then 256 else 128) * gk
    let len := if afmt = 11 then elems / 2 else elems
    let step := if stride = 0 then (len + 15) / 16 * 16 else 16 * stride.toNat
    let blocked := decide (afmt = 10 ∨ afmt = 11)
    let exLen := 2 * (elems / 32)
    let rows := rows1.toNat + 1
    let ea := (s.me.getA a).addr.toNat
    let eb := (s.me.getA (a ^^^ 1)).addr.toNat
    let gran := ((List.range rows).flatMap fun r => granules (at_ r) len).dedup
    let rowA := fun (r : Nat) => (aRow afmt.toNat elems (cellsRead s.mem (at_ r) len)
      (if blocked then cellsRead s.mem (ex r) exLen else [])).toArray
    let entry := fun (x : MatrixEngine) (j r c : Nat) => ((x.tile (t.toNat + j)).rows.getD r 0).extractLsb' (32 * c) 32
    let sum := fun (j r c : Nat) => entrySum int (planes (gs.getD (j / per) 0)) (rowA r) (64 * (j % per) + c)
      (if start = 1 then 0 else entry m j r c)
    let ends := if s.slotOwner = some s.cur then some ((s.cycle / 256 + 1) * 256) else none
    let before := m.chain.getD ⟨s.cur, t.toNat, n, rows, int, 0, ends, false⟩
    let poison := before.poison || ((List.range rows).any fun r =>
        (s.chipRead (at_ r) len).2 || (blocked && (s.chipRead (ex r) exLen).2)) ||
      (gs.flatMap planes).any (fun x => decide (x.poison ≠ 0)) ||
      (decide (start = 0) && (List.range n).any fun j => (m.tile (t.toNat + j)).poison)
    let opens := m.chain = none ∧ (s.slotOwner = none ∨ s.slotOwner = some s.cur) ∧
      (start = 0 → ∀ j, j < n → (m.tile (t.toNat + j)).tag = if int then 4 else 1)
    let continues := start = 0 ∧ ∃ c, m.chain = some c ∧ c.owner = s.cur ∧ c.t = t.toNat ∧ c.n = n ∧ c.rows = rows ∧
      c.int = int ∧ c.count < 256
    i.wf = true → g.toNat < gn → opens ∨ continues →
    (∀ x ∈ gs.flatMap planes, x.fmt = p.fmt ∧ x.sparse = p.sparse ∧ x.sound = true) → (p.fmt = .int8 ↔ afmt = 6) →
    t.toNat + n ≤ 16 → ea % 16 = 0 → (blocked = true → eb % 2 = 0) →
    (∀ r, r < rows → s.resolve space ((ea + r * step) % 2 ^ 32) len = some (at_ r)) →
    (blocked = true → ∀ r, r < rows → s.resolve space ((eb + r * exLen) % 2 ^ 32) exLen = some (ex r)) →
    s.feReady 2 fe gran = true →
    ∃ y : Vector Tile 16,
      Completes i s { s.feTaken 2 fe gran with matrix := { m with
        tiles := y
        chain := if fin = 1 then none else some { before with count := before.count + 1, poison := poison } } } ∧
      (∀ (k : Nat) (hk : k < 16), k < t.toNat ∨ t.toNat + n ≤ k → y[k] = m.tiles[k]) ∧
      ∀ j, j < n →
        let new : MatrixEngine := { m with tiles := y }
        (new.tile (t.toNat + j)).tag = (if int then 4 else 1) ∧ (new.tile (t.toNat + j)).poison = poison ∧
        (∀ r c, r < 32 → c < 64 → entry new j r c =
          if r < rows then (sum j r c).1 else if start = 1 then 0 else entry m j r c) ∧
        ((new.tile (t.toNat + j)).ovf = true ↔
          (start = 0 ∧ (m.tile (t.toNat + j)).ovf = true) ∨ ∃ r c, r < rows ∧ c < 64 ∧ (sum j r c).2 = true)

/-- R177: the column check never fails a plane whose stored residues are those of its elements, in no bit-plane of a row, and it
fails one, in the lowest bit-plane, in which a row of A meets, with the value 1 and alone, an element whose stored residue is
another than the element's. -/
def Claims.ColumnCheck : Prop :=
  ∀ (p : Plane) (a : Array (Nat × Int)) (off k c : Nat),
    (p.sound = true → ∀ j, p.mismatch a off j = none) ∧
    (k < 128 → c < p.ncol → (∀ j, j < 128 → j ≠ k → p.pos j c ≠ p.pos k c) →
      (∀ x, (a.getD x (0, 0)).2 = if x = off + p.pos k c then 1 else 0) → (a.getD (off + p.pos k c) (0, 0)).1 ≤ 1 →
      p.rho k c % 7 ≠ residue (p.fmt.signed (p.bits k c)) → (p.mismatch a off 0).isSome = true)

/-- R167: an INT8 accumulation is the exact sum of products modulo 2^32, and it reports a wrap only when some partial sum
leaves the 32-bit range; with every partial sum inside, the entry is the exact sum. -/
def Claims.IntegerProduct : Prop :=
  ∀ (planes : List Plane) (a : Nat → Int) (n c : Nat) (acc : BitVec 32),
    let row := (Array.range n).map fun k => Ex.ofInt (a k)
    let w := fun (p : Plane) (k : Nat) => (BitVec.ofNat 8 (p.bits k c)).toInt
    let total := ((planes.zipIdx.map fun x => ((List.range 128).map fun k => a (128 * x.2 + k) * w x.1 k).sum).sum)
    let r := entrySum true planes row c acc
    (∀ p ∈ planes, p.fmt = .int8 ∧ p.sparse = false) → n = 128 * planes.length →
    r.1 = BitVec.ofInt 32 (acc.toInt + total) ∧ (r.2 = false → r.1.toInt = acc.toInt + total)

/-- R172, R173: MRD stores rows of a tile, 256 bytes each, and MRDV writes one row into two registers. -/
def Claims.MatrixReads : Prop :=
  ∀ (s : State) (q : Itq) (t : BitVec 4) (row0 count1 row : BitVec 5) (a : BitVec 3) (space fe : BitVec 2)
    (stride : BitVec 16) (v : BitVec 6) (at_ : Nat → Nat), Calm s → MatrixFree s →
    let x := s.matrix.tiles[t.toNat]
    let ea := (s.me.getA a).addr.toNat
    let step := if stride = 0 then 256 else 16 * stride.toNat
    let count := count1.toNat + 1
    let i : Instr := .mrd q t row0 count1 a space fe stride
    let j : Instr := .mrdv q t row v
    let r := x.rows[row.toNat]
    x.tag ≠ 0 →
    (i.wf = true → ea % 16 = 0 → (∀ k, k < count → s.resolve space ((ea + k * step) % 2 ^ 32) 256 = some (at_ k)) →
      Completes i s ((List.range count).foldl (fun y k =>
        (y.chipWrite (at_ k) (leBytes 256 (x.rows.getD (row0.toNat + k) 0).toNat) x.poison).feStore fe
          (granules (at_ k) 256)) s)) ∧
    (j.wf = true → Completes j s (s.updMe fun u =>
      (u.setV v ⟨r.extractLsb' 0 1024, x.tag, 0, x.poison⟩).setV (v + 1) ⟨r.extractLsb' 1024 1024, x.tag, 0, x.poison⟩))

/-! ## The quantiser (R106-R121) -/

/-- R106, R114-R117: the quantiser's registers.  QRLD reads a register whose granules are neither awaited nor poisoned;
QRST with a release order first performs the strand's writes to ordered pages at its scope. -/
def Obligations.QuantiserRegisters : Prop :=
  ∀ (s : State) (q : Itq) (target : BitVec 4) (axis : BitVec 1) (mode : BitVec 2) (sat : BitVec 1) (dd : BitVec 3)
    (d sa : BitVec 5) (kind ord : BitVec 1) (qr qa : BitVec 4) (a : BitVec 3) (space fe : BitVec 2) (scope : BitVec 3)
    (p : Nat), Calm s →
    let st := s.me
    let upd := fun (i : Instr) (f : Strand → Strand) => Completes i s (s.updMe f)
    let x := (st.getS sa).setWidth 32 &&& 0x7FFFFFFF
    let ea := (st.getA a).addr.toNat
    let n := if kind = 0 then 16 else 128
    let gs := granules p n
    let bytes := if kind = 0 then leBytes 16 (st.getQ qr).toNat else leBytes 128 (st.getQV (qr.setWidth 2)).toNat
    let i : Instr := .qrld q kind qr a space fe ord scope
    let j : Instr := .qrst q kind qr a space fe 0 0
    upd (.qcfg q target axis mode sat dd) (fun u => { u with qcfg := ⟨target, axis, mode, sat, dd⟩ }) ∧
    (st.qcfg.target = 10 ∨ st.qcfg.target = 11 → upd (.qscl q d sa) fun u => u.setS d 0x3F800000) ∧
    (st.qcfg.target ≠ 10 → st.qcfg.target ≠ 11 →
      (0x7F800000 < x.toNat → upd (.qscl q d sa) fun u => (u.setS d 0x7FC00000).raiseQ qNAN) ∧
      (x.toNat = 0x7F800000 → upd (.qscl q d sa) fun u => (u.setS d 0x7F800000).raiseQ qSAT) ∧
      (x.toNat < 0x00800000 → upd (.qscl q d sa) fun u => u.setS d 0x3F800000) ∧
      (0x00800000 ≤ x.toNat → x.toNat < 0x7F800000 → upd (.qscl q d sa) fun u =>
        u.setS d ((rne32 ((val32 x).div (qMax st.qcfg.target.toNat))).setWidth 64))) ∧
    upd (.qrclr q 0 qr) (fun u => (u.setQ qr 0).raiseQ qBREAK) ∧
    upd (.qrclr q 1 qr) (fun u => (u.setQV (qr.setWidth 2) 0).raiseQ qBREAK) ∧
    (qr ≠ qa → upd (.qrmov q 0 qr qa) fun u => (u.setQ qr (u.getQ qa)).setQ qa 0) ∧
    (qr.setWidth 2 ≠ qa.setWidth 2 → upd (.qrmov q 1 qr qa) fun u =>
      (u.setQV (qr.setWidth 2) (u.getQV (qa.setWidth 2))).setQV (qa.setWidth 2) 0) ∧
    upd (.qrmov q kind qr qr) id ∧
    upd (.qflg q d 0) (fun u => u.setS d (u.qflags.setWidth 64)) ∧
    upd (.qflg q d 1) (fun u => { u.setS d (u.qflags.setWidth 64) with qflags := 0 }) ∧
    (ea % 16 = 0 → s.resolve space ea n = some p → s.feReady 3 fe gs = true →
      (s.chipRead p (if kind = 0 then 4 else 128)).2 = false →
      Completes i s ((s.feTaken 3 fe gs).updMe fun u =>
        if kind = 0 then u.setQ qr (BitVec.ofNat 32 (leNat (cellsRead s.mem p 4)))
        else u.setQV (qr.setWidth 2) (BitVec.ofNat 1024 (leNat (cellsRead s.mem p 128))))) ∧
    (ea % 16 = 0 → s.resolve space ea n = some p →
      let stores := fun (w : Instr) (y : State) => Completes w s (((y.chipWrite p bytes false).feStore fe gs).updMe fun u =>
        if kind = 0 then u.setQ qr 0 else u.setQV (qr.setWidth 2) 0)
      stores j s ∧ (Drains s → stores (.qrst q kind qr a space fe 1 scope) (s.performed scope fun b => !b.unordered)))

/-- R108, R109, R112: QSTV of an FP32 register along a lane chain (axis 0, no block target): the codes of the chain are
stored, and with SHAPE the carry left goes to Q(qr), or is dropped at the end of the axis.  Of a poisoned register, only
poison is stored: the bytes are free values. -/
def Claims.QuantiserVector : Prop :=
  ∀ (s : State) (q : Itq) (a : BitVec 3) (space : BitVec 2) (v : BitVec 6) (qr : BitVec 4) (sb : BitVec 5)
    (axisend : BitVec 1) (p : Nat), Calm s →
    let st := s.me
    let cfg := st.qcfg
    let ea := (st.getA a).addr.toNat
    let n := 4 * elemWidth cfg.target.toNat
    let scale := (st.getS sb).setWidth 32
    let xs := (List.range 32).map (lane (st.getV v).data)
    let r := chain cfg scale (st.getQ qr) xs
    let i : Instr := .qstv q a space v qr sb axisend
    (st.getV v).tag = 1 → cfg.axis = 0 → cfg.target ≠ 10 → cfg.target ≠ 11 → ea % 16 = 0 →
    s.resolve space ea n = some p →
    ((st.getV v).poison = false →
      ∃ bytes : List Byte, bytes.length = n ∧
        (∀ k, k < 32 → leNat bytes / 2 ^ (elemWidth cfg.target.toNat * k) % 2 ^ elemWidth cfg.target.toNat =
          r.1.getD k 0 % 2 ^ elemWidth cfg.target.toNat) ∧
        Completes i s ((s.chipWrite p bytes false).updMe fun u =>
          (if cfg.mode = 2 then u.setQ qr (if axisend = 1 then 0 else r.2.1) else u).raiseQ r.2.2)) ∧
    ((st.getV v).poison = true →
      ∃ bytes : List Byte, bytes.length = n ∧
        Completes i s (({ s with nfree := s.nfree + 1 }.chipWrite p bytes true).updMe fun u =>
          (if cfg.mode = 2 then u.setQ qr 0 else u).raiseQ qBREAK))

/-- R100, R107-R109, R112: QSTV of an FP32 register with axis 1 or a block target: each lane is a step of a chain of its own,
whose carry in SHAPE mode is that lane of QV(qr), and goes back there or is dropped at the end of the axis.  A block target
stores the codes of one encoded block, and its exponents at the other address register of the pair.  Of a poisoned register,
only poison is stored. -/
def Claims.QuantiserColumns : Prop :=
  ∀ (s : State) (q : Itq) (a : BitVec 3) (space : BitVec 2) (v : BitVec 6) (qr : BitVec 4) (sb : BitVec 5)
    (axisend : BitVec 1) (p px : Nat), Calm s →
    let st := s.me
    let cfg := st.qcfg
    let w := elemWidth cfg.target.toNat
    let block := decide (cfg.target = 10 ∨ cfg.target = 11)
    let ea := (st.getA a).addr.toNat
    let ex := (st.getA (a ^^^ 1)).addr.toNat
    let scale := (st.getS sb).setWidth 32
    let qv := st.getQV (qr.setWidth 2)
    let f := if cfg.target = 10 then BlockFmt.b8 else BlockFmt.b4
    let x := fun (k : Nat) => stepV (lane (st.getV v).data k) scale (if cfg.mode = 2 then lane qv k else 0)
    let b := f.encode cfg.rnd cfg.d ((List.range 32).map fun k => val32 (x k))
    let el := fun (k : Nat) => b.elems.getD k (0, false)
    let code := fun (k : Nat) => if block then (el k).1 else (stepCode cfg (x k)).1
    let left := fun (k : Nat) =>
      if block then
        if b.nan = true ∨ (el k).2 = true then 0 else rne32 ((val32 (x k)).add (f.decode (el k).1 b.elo b.ehi).neg)
      else (stepCode cfg (x k)).2.1
    let flags : BitVec 3 := if block then
        (if b.nan then qNAN else 0) ||| (if b.elems.any (·.2) then qSAT else 0)
      else (List.range 32).foldl (fun fl k => fl ||| (stepCode cfg (x k)).2.2) 0
    let carried := fun (u : Strand) (d : BitVec 1024) => if cfg.mode = 2 then u.setQV (qr.setWidth 2) d else u
    let i : Instr := .qstv q a space v qr sb axisend
    (st.getV v).tag = 1 → cfg.axis = 1 ∨ block = true → (cfg.mode = 2 → cfg.axis = 1) →
    ea % 16 = 0 → s.resolve space ea (4 * w) = some p →
    (block = true → ex % 2 = 0 ∧ s.resolve space ex 2 = some px) →
    ((st.getV v).poison = false →
      ∃ (bytes : List Byte) (d : BitVec 1024), bytes.length = 4 * w ∧
        (∀ k, k < 32 → leNat bytes / 2 ^ (w * k) % 2 ^ w = code k % 2 ^ w) ∧
        (∀ k, k < 32 → lane d k = if axisend = 1 then 0 else left k) ∧
        let y := s.chipWrite p bytes false
        Completes i s ((if block then y.chipWrite px (leBytes 2 (b.elo + 256 * b.ehi)) false else y).updMe fun u =>
          (carried u d).raiseQ flags)) ∧
    ((st.getV v).poison = true →
      ∃ bytes pair : List Byte, bytes.length = 4 * w ∧ pair.length = 2 ∧
        let y := ({ s with nfree := s.nfree + (if block then 2 else 1) }).chipWrite p bytes true
        Completes i s ((if block then y.chipWrite px pair true else y).updMe fun u => (carried u 0).raiseQ qBREAK))

/-- R108: INT8 codes are the value rounded to even and clamped to [-128, 127], with SAT when it was clamped; the carry is the
value less the code, rounded once, so that an exact code leaves +0. -/
def Claims.QuantiserStep : Prop :=
  ∀ (c : QCfg) (neg : Bool) (n d : Nat) (e : Int) (v : BitVec 32), c.target = 6 → c.mode ≠ 1 → val32 v = .fin neg n d e →
    let k := (roundInt .ne neg n d e).1
    let r := stepCode c v
    (-128 ≤ k → k ≤ 127 → r.1 = (BitVec.ofInt 8 k).toNat ∧ r.2.1 = rne32 ((val32 v).add (Ex.ofInt (-k))) ∧ r.2.2 = 0) ∧
    (-128 ≤ k → k ≤ 127 → val32 v = .fin neg 0 d e → r.2.1 = 0) ∧
    (127 < k ∨ k < -128 → r = (if neg then 0x80 else 0x7F, 0, qSAT))

/-- R113: QSTT of a tile that holds FP32 values, with a target that is no block and axis 0: every row is a chain of its
own, stored stride × 16 bytes apart. -/
def Claims.QuantiserTile : Prop :=
  ∀ (s : State) (q : Itq) (t : BitVec 4) (row0 count1 sb : BitVec 5) (axisend : BitVec 1) (a : BitVec 3) (space : BitVec 2)
    (qr : BitVec 4) (stride : BitVec 16) (at_ : Nat → Nat), Calm s →
    let st := s.me
    let cfg := st.qcfg
    let x := s.matrix.tiles[t.toNat]
    let ea := (st.getA a).addr.toNat
    let n := 8 * elemWidth cfg.target.toNat
    let w := elemWidth cfg.target.toNat
    let scale := (st.getS sb).setWidth 32
    let count := count1.toNat + 1
    let run := fun (k : Nat) => chain cfg scale 0 ((List.range 64).map fun c =>
      (x.rows.getD (row0.toNat + k) 0).extractLsb' (32 * c) 32)
    let i : Instr := .qstt q t row0 count1 sb axisend a space qr stride
    i.wf = true → x.tag = 1 ∨ st.fmttrap = false → x.poison = false → cfg.axis = 0 → cfg.target ≠ 10 → cfg.target ≠ 11 → ea % 16 = 0 →
    (∀ k, k < count → s.resolve space ((ea + k * 16 * stride.toNat) % 2 ^ 32) n = some (at_ k)) →
    ∃ bytes : Nat → List Byte,
      (∀ k, k < count → (bytes k).length = n ∧ ∀ c, c < 64 →
        leNat (bytes k) / 2 ^ (w * c) % 2 ^ w = (run k).1.getD c 0 % 2 ^ w) ∧
      Completes i s (((List.range count).foldl (fun y k => y.chipWrite (at_ k) (bytes k) false) s).updMe fun u =>
        u.raiseQ ((List.range count).foldl (fun f k => f ||| (run k).2.2) 0))

/-- R113: QSTT with axis 1 or a block target: each column is a chain that runs down the rows, whose carries in SHAPE mode come
from the QV pair and go back to it; a block target makes two blocks of each row, and stores their exponents 4 bytes a row at
the other address register. -/
def Claims.QuantiserTileColumns : Prop :=
  ∀ (s : State) (q : Itq) (t : BitVec 4) (row0 count1 sb : BitVec 5) (axisend : BitVec 1) (a : BitVec 3) (space : BitVec 2)
    (qr : BitVec 4) (stride : BitVec 16) (at_ ex_ : Nat → Nat), Calm s →
    let st := s.me
    let cfg := st.qcfg
    let x := s.matrix.tiles[t.toNat]
    let block := decide (cfg.target = 10 ∨ cfg.target = 11)
    let ea := (st.getA a).addr.toNat
    let eb := (st.getA (a ^^^ 1)).addr.toNat
    let w := elemWidth cfg.target.toNat
    let scale := (st.getS sb).setWidth 32
    let count := count1.toNat + 1
    let q0 : BitVec 2 := if qr.getLsbD 1 then 2 else 0
    let f := if cfg.target = 10 then BlockFmt.b8 else BlockFmt.b4
    let v := fun (c : Nat → Nat → BitVec 32) (k col : Nat) =>
      stepV ((x.rows.getD (row0.toNat + k) 0).extractLsb' (32 * col) 32) scale (if cfg.mode = 2 then c k col else 0)
    let b := fun (c : Nat → Nat → BitVec 32) (k h : Nat) =>
      f.encode cfg.rnd cfg.d ((List.range 32).map fun j => val32 (v c k (32 * h + j)))
    let el := fun (c : Nat → Nat → BitVec 32) (k col : Nat) => (b c k (col / 32)).elems.getD (col % 32) (0, false)
    let code := fun (c : Nat → Nat → BitVec 32) (k col : Nat) =>
      if block then (el c k col).1 else (stepCode cfg (v c k col)).1
    let left := fun (c : Nat → Nat → BitVec 32) (k col : Nat) =>
      if block then
        if (b c k (col / 32)).nan = true ∨ (el c k col).2 = true then 0
        else rne32 ((val32 (v c k col)).add (f.decode (el c k col).1 (b c k (col / 32)).elo (b c k (col / 32)).ehi).neg)
      else (stepCode cfg (v c k col)).2.1
    let flags := fun (c : Nat → Nat → BitVec 32) (k : Nat) => if block then
        (List.range 2).foldl (fun fl h => fl ||| ((if (b c k h).nan then qNAN else 0) |||
          (if (b c k h).elems.any (·.2) then qSAT else 0))) (0 : BitVec 3)
      else (List.range 64).foldl (fun fl col => fl ||| (stepCode cfg (v c k col)).2.2) 0
    let exps := fun (c : Nat → Nat → BitVec 32) (k : Nat) =>
      leBytes 4 ((b c k 0).elo + 256 * (b c k 0).ehi + 65536 * ((b c k 1).elo + 256 * (b c k 1).ehi))
    let i : Instr := .qstt q t row0 count1 sb axisend a space qr stride
    i.wf = true → x.tag = 1 ∨ st.fmttrap = false → x.poison = false → cfg.axis = 1 ∨ block = true →
    (cfg.mode = 2 → cfg.axis = 1) → ea % 16 = 0 → (block = true → eb % 4 = 0) →
    (∀ k, k < count → s.resolve space ((ea + k * 16 * stride.toNat) % 2 ^ 32) (8 * w) = some (at_ k)) →
    (block = true → ∀ k, k < count → s.resolve space ((eb + 4 * k) % 2 ^ 32) 4 = some (ex_ k)) →
    ∃ (c : Nat → Nat → BitVec 32) (bytes : Nat → List Byte) (d0 d1 : BitVec 1024),
      (∀ col, col < 64 → c 0 col = lane (st.getQV (if col < 32 then q0 else q0 + 1)) (col % 32)) ∧
      (∀ k col, k < count → col < 64 → c (k + 1) col = left c k col) ∧
      (∀ k, k < count → (bytes k).length = 8 * w ∧ ∀ col, col < 64 →
        leNat (bytes k) / 2 ^ (w * col) % 2 ^ w = code c k col % 2 ^ w) ∧
      (∀ k, k < 32 → lane d0 k = (if axisend = 1 then 0 else c count k) ∧
        lane d1 k = if axisend = 1 then 0 else c count (32 + k)) ∧
      Completes i s (((List.range count).foldl (fun y k =>
        let z := y.chipWrite (at_ k) (bytes k) false
        if block then z.chipWrite (ex_ k) (exps c k) false else z) s).updMe fun u =>
          (if cfg.mode = 2 then (u.setQV q0 d0).setQV (q0 + 1) d1 else u).raiseQ
            ((List.range count).foldl (fun fl k => fl ||| flags c k) 0))

/-- R113: QSTT of a poisoned tile stores only poison, breaks its chains and sets BREAK. -/
def Claims.QuantiserTilePoison : Prop :=
  ∀ (s : State) (q : Itq) (t : BitVec 4) (row0 count1 sb : BitVec 5) (axisend : BitVec 1) (a : BitVec 3) (space : BitVec 2)
    (qr : BitVec 4) (stride : BitVec 16) (at_ ex_ : Nat → Nat), Calm s →
    let st := s.me
    let cfg := st.qcfg
    let x := s.matrix.tiles[t.toNat]
    let block := decide (cfg.target = 10 ∨ cfg.target = 11)
    let ea := (st.getA a).addr.toNat
    let eb := (st.getA (a ^^^ 1)).addr.toNat
    let n := 8 * elemWidth cfg.target.toNat
    let count := count1.toNat + 1
    let q0 : BitVec 2 := if qr.getLsbD 1 then 2 else 0
    let i : Instr := .qstt q t row0 count1 sb axisend a space qr stride
    i.wf = true → x.tag = 1 ∨ st.fmttrap = false → x.poison = true → ea % 16 = 0 → (block = true → eb % 4 = 0) →
    (∀ k, k < count → s.resolve space ((ea + k * 16 * stride.toNat) % 2 ^ 32) n = some (at_ k)) →
    (block = true → ∀ k, k < count → s.resolve space ((eb + 4 * k) % 2 ^ 32) 4 = some (ex_ k)) →
    ∃ bytes pairs : Nat → List Byte, (∀ k, (bytes k).length = n ∧ (pairs k).length = 4) ∧
      Completes i s (((List.range count).foldl (fun (y : State) k =>
        let z := y.chipWrite (at_ k) (bytes k) true
        if block then z.chipWrite (ex_ k) (pairs k) true else z)
          { s with nfree := s.nfree + count * (if block then 2 else 1) }).updMe fun u =>
            (if cfg.mode = 2 ∧ cfg.axis = 1 then (u.setQV q0 0).setQV (q0 + 1) 0 else u).raiseQ qBREAK)

/-! ## The line engine (R180-R202) -/

/-- R185, R190: tolerances, and lines to and from memory.  The records are read and written 16 bytes each, feature by
feature; LNST_TABLE stores the 130 entries of a curvature table. -/
def Claims.LineTables : Prop :=
  ∀ (s : State) (q : Itq) (set n1 : BitVec 7) (sb sf : BitVec 5) (a : BitVec 3) (space : BitVec 2) (fn kind : BitVec 4)
    (p : Nat), Calm s →
    let st := s.me
    let l := s.line
    let ea := (st.getA a).addr.toNat
    let n := n1.toNat + 1
    let feat := fun (k : Nat) => ((st.getS sf).toNat % 8192 + k) % 8192
    let word := fun (k j : Nat) => BitVec.ofNat 32 (leNat (cellsRead s.mem (p + 16 * k + 4 * j) 4))
    let rec_ := fun (k : Nat) => (⟨word k 0, word k 1, word k 2, word k 3⟩ : LineRec)
    Completes (.lntol q set sb) s { s with line := { l with tols := tabPut 0 l.tols set.toNat ((st.getS sb).setWidth 32) } } ∧
    (ea % 16 = 0 → s.resolve space ea (16 * n) = some p → (s.chipRead p (16 * n)).2 = false →
      let loaded := (List.range n).foldl (fun l k => l.put (feat k) (rec_ k) (fn.setWidth 3)) l
      Completes (.lnld q sf a space n1 fn) s { s with line := loaded }) ∧
    (ea % 16 = 0 → s.resolve space ea (16 * n) = some p →
      Completes (.lnst q sf a space n1) s (s.chipWrite p ((List.range n).flatMap fun k =>
        let r := l.rec_ (feat k)
        leBytes 4 r.a.toNat ++ leBytes 4 r.c.toNat ++ leBytes 4 r.lo.toNat ++ leBytes 4 r.hi.toNat) false)) ∧
    (ea % 16 = 0 → s.resolve space ea 520 = some p →
      Completes (.lnstTable q a space kind) s (s.chipWrite p ((List.range 130).flatMap fun k =>
        leBytes 4 (Config.curvature kind.toNat k).toNat) false))

/-- R186, R187: LNFIT gives every feature whose mask bit is set the line fitted at its point, in ascending order, with the
tolerance of its set, and the function code; a point that is not finite gets the empty line.  That a poisoned register is
fitted like any other is the model's reading (assumption 41), and the curvature tables are free values (assumption 12). -/
def Claims.LineFit : Prop :=
  ∀ (s : State) (q : Itq) (vp : BitVec 6) (mk : BitVec 3) (fb : BitVec 8) (fn : BitVec 4), Calm s →
    let st := s.me
    let feat := fun (k : Nat) => (32 * fb.toNat + k) % 8192
    let point := fun (k : Nat) => lane (st.getV vp).data k
    let fit := fun (k : Nat) =>
      if finite32 (point k) then fitLine fn.toNat (point k) (s.line.tau (feat k / 64)) else emptyLine
    let fitted := (List.range 32).foldl (fun l k =>
      if (st.mask mk).getLsbD k then l.put (feat k) (fit k) (fn.setWidth 3) else l) s.line
    (st.getV vp).tag = 1 → Completes (.lnfit q vp mk fb fn) s { s with line := fitted }

/-- R182, R192: LNAPL and LNCOR of half a row of an FP32 tile: the line of each feature applied, or the correction where
the element escapes its line. -/
def Claims.LineApply : Prop :=
  ∀ (s : State) (q : Itq) (vd : BitVec 6) (t : BitVec 4) (row : BitVec 5) (fb : BitVec 8), Calm s →
    let x := s.matrix.tiles[t.toNat]
    let z := fun (k : Nat) => (x.rows[row.toNat]).extractLsb' (32 * (32 * (fb.toNat % 2) + k)) 32
    let feat := fun (k : Nat) => (32 * fb.toNat + k) % 8192
    let r := fun (k : Nat) => s.line.rec_ (feat k)
    let fn := fun (k : Nat) => (s.line.fn (feat k)).toNat
    let at_ := fun (k : Nat) => rne32 (((val32 (r k).a).mul (val32 (z k))).add (val32 (r k).c))
    let f := fun (k : Nat) => Fmt.f32.decode (lineF (fn k) (z k).toNat)
    let f' := fun (k : Nat) => Fmt.f32.decode (lineF' (fn k) (z k).toNat)
    let gives := fun (i : Instr) (g : Nat → BitVec 32) =>
      ∃ data, (∀ k, k < 32 → lane data k = g k) ∧ Completes i s (s.updMe fun u => u.setV vd ⟨data, 1, 0, x.poison⟩)
    x.tag = 1 →
    gives (.lnapl q vd t row 0 fb) at_ ∧
    gives (.lnapl q vd t row 1 fb) (fun k =>
      if (r k).inside (z k) = true ∨ fn k = 0 then at_ k else BitVec.ofNat 32 (lineF (fn k) (z k).toNat)) ∧
    gives (.lncor q vd t row 0 fb) (fun k =>
      if (r k).inside (z k) = true then 0 else if fn k = 0 then 0x7FC00000 else rne32 ((f k).add (val32 (at_ k)).neg)) ∧
    gives (.lncor q vd t row 1 fb) (fun k =>
      if (r k).inside (z k) = true then 0 else if fn k = 0 then 0x7FC00000 else rne32 ((f' k).add (val32 (r k).a).neg))

/-- R191, R320: LNCHK of rows of an FP32 tile that is not poisoned: the two masks have the bits of the columns that escape
their lines in some row, each escape is counted up to 0xFFFF, and is listed, row by row, while the list of 1,024 has room.  Of a
poisoned tile it is the cause of a machine check, with none of its effect. -/
def Claims.LineCheck : Prop :=
  ∀ (s : State) (q : Itq) (md : BitVec 3) (t : BitVec 4) (row0 count1 : BitVec 5) (fset : BitVec 7) (e : QEntry), Calm s →
    let x := s.matrix.tiles[t.toNat]
    let l := s.line
    let z := fun (r c : Nat) => (x.rows.getD r 0).extractLsb' (32 * c) 32
    let feat := fun (c : Nat) => 64 * fset.toNat + c
    let esc := fun (r c : Nat) => !(l.rec_ (feat c)).inside (z r c)
    let rows := (List.range (count1.toNat + 1)).map (row0.toNat + ·)
    let out := rows.flatMap fun r => ((List.range 64).filter (esc r)).map fun c => (r, c)
    let bump := fun (c : List (Nat × BitVec 16)) (f : Nat) =>
      tabPut 0 c f (if tabGet 0 c f = 0xFFFF then 0xFFFF else tabGet 0 c f + 1)
    let i : Instr := .lnchk q md t row0 count1 fset
    let y := s.updMe fun u => { u with queue := [e] }
    i.wf = true → x.tag = 1 →
    (x.poison = false → l.refresh.length ≤ 1024 →
      ∃ m0 m1 : BitVec 32,
        (∀ c, c < 32 → m0.getLsbD c = rows.any (esc · c) ∧ m1.getLsbD c = rows.any (esc · (32 + c))) ∧
        Completes i s ({ s with line := { l with
          counts := out.foldl (fun n (k : Nat × Nat) => bump n (feat k.2)) l.counts
          refresh := (l.refresh ++ out.map fun (k : Nat × Nat) => BitVec.ofNat 32 (feat k.2 + 65536 * k.1)).take 1024
          ovf := l.ovf || decide (1024 < l.refresh.length + out.length) } }.updMe
            fun u => (if md = 0 then u else u.setM md m0).setM (md + 1) m1)) ∧
    (x.poison = true → exec i s = .next (s.split i)) ∧
    (x.poison = true → e.instr = i → e.fresh = false → e.held = false → e.since ≤ s.cycle →
      ∃ t, y.runEngines = .next t ∧ t.Same (y.machineCheck .poison i e.pc 0 (some e)))

/-- R193, R194: the refresh list leaves for memory, the counters are read, and the tables are cleared. -/
def Claims.LineLists : Prop :=
  ∀ (s : State) (q : Itq) (d : BitVec 5) (a : BitVec 3) (space : BitVec 2) (n1 : BitVec 10) (vd : BitVec 6) (fb : BitVec 8)
    (set : BitVec 7) (p : Nat), Calm s →
    let l := s.line
    let ea := (s.me.getA a).addr.toNat
    let out := l.refresh.take (n1.toNat + 1)
    let rest := l.refresh.drop (n1.toNat + 1)
    let feat := fun (k : Nat) => (32 * fb.toNat + k) % 8192
    let zeroed := fun (fs : List Nat) => { l with counts := fs.foldl (fun c f => tabPut 0 c f 0) l.counts }
    let emptied := (List.range 64).foldl (fun l k => l.put (64 * set.toNat + k) emptyLine 0) l
    let told := BitVec.ofNat 64 (out.length + rest.length * 2 ^ 32 + (if l.ovf then 2 ^ 48 else 0))
    let written := if out = [] then s else s.chipWrite p (out.flatMap fun x => leBytes 4 x.toNat) false
    (ea % 4 = 0 → (out ≠ [] → s.resolve space ea (4 * out.length) = some p) →
      Completes (.lnrfl q d a space n1) s
        ({ written with line := { l with refresh := rest, ovf := l.ovf && !rest.isEmpty } }.updMe fun u => u.setS d told)) ∧
    (∃ data, (∀ k, k < 32 → lane data k = (l.count (feat k)).setWidth 32) ∧
      let counted := s.updMe fun u => u.setV vd ⟨data, 4, 0, false⟩
      Completes (.lncnt q vd fb 0) s counted ∧
      Completes (.lncnt q vd fb 1) s { counted with line := zeroed ((List.range 32).map feat) }) ∧
    Completes (.lnclrCounts q set) s { s with line := zeroed ((List.range 64).map fun k => 64 * set.toNat + k) } ∧
    Completes (.lnclrList q) s { s with line := { l with refresh := [], ovf := false } } ∧
    Completes (.lnclrLines q set) s { s with line := emptied }

/-- R180, R181: a sorted table of the line engine reads back what was written to it, and stays sorted, with no entry that
reset would give. -/
def Claims.TablesReadBack : Prop :=
  ∀ (w : Nat) (d x : BitVec w) (l : List (Nat × BitVec w)) (a : Nat), tabSorted d l →
    tabSorted d (tabPut d l a x) ∧ ∀ b, tabGet d (tabPut d l a x) b = if b = a then x else tabGet d l b

/-- R195: LNFOLD multiplies a row of weights by the slopes and intercepts of the lines: of one feature (col = 0), or of
64 features in turn (col = 1), adding the intercept terms to the old ones when acc = 1. -/
def Claims.LineFold : Prop :=
  ∀ (s : State) (q : Itq) (vd va : BitVec 6) (sf : BitVec 5) (col acc : BitVec 1), Calm s →
    let st := s.me
    let at_ := fun (r : BitVec 6) (j : Nat) => val32 (lane (st.getV (r + BitVec.ofNat 6 (j / 32))).data (j % 32))
    let f0 := (st.getS sf).toNat % 8192
    let line := fun (j : Nat) => s.line.rec_ (if col = 1 then (f0 + j) % 8192 else f0)
    let slope := fun (j : Nat) => rne32 ((val32 (line j).a).mul (at_ va j))
    let cut := fun (j : Nat) =>
      let p := (val32 (line j).c).mul (at_ va j)
      rne32 (if acc = 1 then p.add (at_ (vd + 2) j) else p)
    let poison := (st.getV va).poison || (st.getV (va + 1)).poison ||
      (decide (acc = 1) && ((st.getV (vd + 2)).poison || (st.getV (vd + 3)).poison))
    let i : Instr := .lnfold q vd va sf col acc
    i.wf = true → (st.getV va).tag = 1 → (st.getV (va + 1)).tag = 1 →
    (acc = 1 → (st.getV (vd + 2)).tag = 1 ∧ (st.getV (vd + 3)).tag = 1) →
    ∃ data : Nat → BitVec 1024,
      (∀ j, j < 64 → lane (data (j / 32)) (j % 32) = slope j ∧ lane (data (2 + j / 32)) (j % 32) = cut j) ∧
      Completes i s (s.updMe fun u => (List.range 4).foldl (fun u k =>
        u.setV (vd + BitVec.ofNat 6 k) ⟨data k, 1, 0, poison⟩) u)

/-- R50, R51, R175: the events of the slot table with no chain open: at a boundary the owner's debt opens its slot, and a
deferred table applies at the next slot-0 period and clears every debt.  With a chain open past the end of its owner's slot,
the cycles in an open slot are charged to the owner. -/
def Claims.SlotEvents : Prop :=
  ∀ s : State,
    let m := s.matrix
    let next := s.cycle / 256 + 1
    let v := m.slots.getD (next % 16) 0xF
    let at_ := fun (c : Nat) (y : MatrixEngine) => { s with cycle := c, matrix := y }
    (m.chain = none → m.pendingSlots = none →
      (∀ o : Fin 4, v.toNat = o.val → exec .slotBoundary s = .next (at_ (256 * next)
        { m with openFor := min m.debt[o] 256, debt := m.debt.set o.val (m.debt[o] - min m.debt[o] 256) o.isLt })) ∧
      (4 ≤ v.toNat → exec .slotBoundary s = .next (at_ (256 * next) { m with openFor := 0 }))) ∧
    (∀ c e, m.chain = some c → c.ends = some e → e ≤ s.cycle → m.pendingSlots = none → 4 ≤ v.toNat →
      exec .slotBoundary s = .next (at_ (256 * next) { m with
        openFor := 0, debt := m.debt.set c.owner.val (m.debt[c.owner] + (256 * next - s.cycle)) c.owner.isLt })) ∧
    (∀ t, m.chain = none → m.pendingSlots = some t →
      exec .slotTableApply s = .next (at_ (4096 * (s.cycle / 4096 + 1))
        { m with slots := t, pendingSlots := none, debt := Vector.replicate 4 0, openFor := 0 }))

/-! ## The statements of this part that join several claims -/

/-- R50, R51, R155, R163, R174, R175: the words that arrange the matrix engine, and the events of its slot table. -/
def Obligations.MatrixArrangement : Prop :=
  Claims.MatrixControl ∧ Claims.SlotEvents

/-- R161, R162, R172, R173: K-rows written and read, and tiles read.  (That MRD stores overlapping rows in ascending order is the
model's reading: assumption 49; that each row is an access of its own is its choice: assumption 89.) -/
def Obligations.MatrixRowsAndTiles : Prop :=
  Claims.MatrixRows ∧ Claims.MatrixReads

/-- R158-R160: the loads of weight planes, dense and sparse, with the model's readings of assumptions 36, 37, 38 and 92; that the
exponents of each block and each metadata word are accesses of their own is its choice (assumption 89). -/
def Obligations.PlaneLoads : Prop :=
  Claims.WeightLoad ∧ Claims.SparseLoad

/-- R164-R171, R176, R177: MMUL that opens, continues or ends a chain, its column check, and what an INT8 accumulation is in
exact integers.  (The model's: that each row of A and the exponents of each row are accesses of their own: assumption 89; which tags
of a tile are tested: assumptions 39 and 98; which column a failed check names: assumption 103.) -/
def Obligations.MatrixProducts : Prop :=
  Claims.MatrixMultiply ∧ Claims.IntegerProduct ∧ Claims.ColumnCheck

/-- R108-R113: QSTV and QSTT along lanes and down rows, of every target, and one step of an INT8 carry.  (That QSTT runs on a tile of
any tag when MODE.fmttrap is clear is read from R103: assumption 40.) -/
def Obligations.QuantiserStores : Prop :=
  Claims.QuantiserVector ∧ Claims.QuantiserColumns ∧ Claims.QuantiserTile ∧ Claims.QuantiserTileColumns ∧
    Claims.QuantiserTilePoison ∧ Claims.QuantiserStep

/-- R180-R190: tolerances, lines, tables and LNFIT, over tables that read back what is written. -/
def Obligations.LineDefinition : Prop :=
  Claims.LineTables ∧ Claims.LineFit ∧ Claims.TablesReadBack

/-- R182, R191-R195, R320: LNAPL, LNCOR, LNCHK, the refresh list, the counters, and LNFOLD.  (That LNCHK of a poisoned tile is only
split in its own step, and stopped later, is the model's reading: assumption 4; and so is that LNRFL tests only the bytes that it
writes: assumption 43.) -/
def Obligations.LineUse : Prop :=
  Claims.LineApply ∧ Claims.LineCheck ∧ Claims.LineLists ∧ Claims.LineFold

/-! ## The copy engine (R213-R228) -/

/-- R213, R215, R216: SREC loads a stream slot of the strand from 64 bytes without poison; the slot is valid when the
record obeys R213, and it loses its window.  A slot of another strand raises trap 0x09 with reason 1 at split. -/
def Claims.StreamSlots : Prop :=
  ∀ (s : State) (q : Itq) (slot : BitVec 4) (a : BitVec 3) (space : BitVec 2) (p : Nat), Calm s →
    let ea := (s.me.getA a).addr.toNat
    let k : Fin 4 := ⟨slot.toNat % 4, by omega⟩
    let x := BitVec.ofNat 512 (leNat (cellsRead s.mem p 64))
    let i : Instr := .srec q slot a space
    let own := slot.toNat / 4 = 0 ∨ slot.toNat / 4 = s.cur.val
    (own → ea % 64 = 0 → s.resolve space ea 64 = some p → (s.chipRead p 64).2 = false →
      Completes i s (s.updMe fun u => { u with slots := u.slots.set k.val ⟨x, patternOk x, none⟩ k.isLt })) ∧
    (¬ own → exec i s = .next (s.takeTrap ⟨0x09, BitVec.ofNat 64 (((encode i).headD 0).toNat * 2 ^ 32 +
      slot.toNat * 256 + 1)⟩ i s.me.pc s.me.pc []))

/-- R217, R218: the linear copy on chip moves groups of 256 bytes in ascending order, each read before it is written; with
a source qualifier everything is read before anything is written.  Bytes and poison move together, and the destination
granules take the qualifier.  When the two ranges are each one piece and do not meet, every byte of the destination is the byte
of the source, and every other byte of memory is as it was. -/
def Claims.LinearCopy : Prop :=
  ∀ (s : State) (q : Itq) (ad : BitVec 3) (dsp : BitVec 2) (asrc : BitVec 3) (ssp : BitVec 2) (sn : BitVec 5)
    (dfe sfe : BitVec 2) (ps pd : Nat → Nat) (p0 q0 : Nat), Calm s → LinearOk s ad dsp asrc ssp sn sfe ps pd →
    let n := (s.me.getS sn).toNat % 2 ^ 24
    let moved := s.copied 16 dfe sfe (s.linearPairs sn ps pd)
    Completes (.cpyLinear q ad dsp asrc ssp sn dfe sfe) s moved ∧
    (Memory.wf s.mem = true → (∀ k, k < n / 16 → ps k = p0 + 16 * k ∧ pd k = q0 + 16 * k) → p0 + n ≤ q0 ∨ q0 + n ≤ p0 →
      ∀ a, cellGet moved.mem a = if q0 ≤ a ∧ a < q0 + n then cellGet s.mem (p0 + (a - q0)) else cellGet s.mem a)

/-- R213, R214, R217: the pattern copy between two on-chip streams without an indirect level: the elements of the tuples
in order, in groups of 256 bytes. -/
def Claims.PatternCopy : Prop :=
  ∀ (s : State) (q : Itq) (dslot sslot h : BitVec 4) (dfe sfe : BitVec 2) (sp dp : List Nat → Nat), Calm s →
    let n := 2 ^ (s.slotPattern dslot).esize
    let pairs := s.patternPairs dslot sslot sp dp
    StreamOk s sslot n sp → StreamOk s dslot n dp → s.feReady 5 sfe (coverOf n (pairs.map (·.1))) = true →
    Completes (.cpyPattern q dslot sslot h dfe sfe) s (s.copied n dfe sfe pairs)

/-- R17, R219: a CPYM is its copy and then its follow-on, which the end of the copy releases: `x` is the state after the
copy alone, in which no access waits for what it has filled, and `y` what the follow-on makes of it with the operands it captured
at the split. -/
def Claims.CopyMatrix : Prop :=
  ∀ (s x y : State) (q : Itq) (ad : BitVec 3) (dsp : BitVec 2) (asrc : BitVec 3) (ssp : BitVec 2) (sn : BitVec 5)
    (dslot sslot h : BitVec 4) (dfe sfe : BitVec 2) (f : Instr), Calm s → MatrixFree s →
    let held : QEntry := { s.entry f with pc := s.me.pc + 4, held := true }
    let counted := fun (c : Instr) (z : State) => (z.updMe fun u => u.completed c (s.me.nextNum c)).serve c
    let pairs := fun (c i : Instr) =>
      s.splitTrap c = none →
      (∀ k z, z.Same (s.withBook k) → ∃ w, runWord c (s.entry c) z = .ok (true, w) ∧ w.Same (x.withBook k)) →
      (∀ k z, z.Same ((counted c x).withBook k) →
        ∃ w, runWord f held z = .ok (true, w) ∧ w.Same ((counted c y).withBook k)) →
      MatrixFree x → Calm x → x.wakes = false → x.me.book = s.me.book → y.me.book = s.me.book → y.me.placed = s.me.placed →
      ∃ t, exec i s = .next t ∧
        t.Same (((s.past i y).updMe fun u => { u with drainDue := u.drainDue || drainsPipe f }).serve f)
    followOk q f = true →
    pairs (.cpyLinear q ad dsp asrc ssp sn dfe sfe) (.cpymLinear q ad dsp asrc ssp sn dfe sfe f) ∧
    pairs (.cpyPattern q dslot sslot h dfe sfe) (.cpymPattern q dslot sslot h dfe sfe f)

/-- R17, R155, R173, R217-R219: a linear or a pattern CPYM on chip whose follow-on is an MCFG or an MRDV completes, where no
access from outside waits on full-empty bits: the copy is performed, and then the follow-on is. -/
def Claims.CopyThenMatrix : Prop :=
  ∀ (s : State) (q : Itq) (ad : BitVec 3) (dsp : BitVec 2) (asrc : BitVec 3) (ssp : BitVec 2) (sn : BitVec 5)
    (dslot sslot h : BitVec 4) (dfe sfe gang : BitVec 2) (t : BitVec 4) (row : BitVec 5) (v : BitVec 6) (ps pd : Nat → Nat)
    (sp dp : List Nat → Nat), Calm s → MatrixFree s → s.rivals = [] →
    let x := s.matrix.tiles[t.toNat]
    let r := x.rows[row.toNat]
    let n := 2 ^ (s.slotPattern dslot).esize
    let pairs := s.patternPairs dslot sslot sp dp
    let ends := fun (i f : Instr) (y : State) => ∃ z, exec i s = .next z ∧
      z.Same (((s.past i y).updMe fun u => { u with drainDue := u.drainDue || drainsPipe f }).serve f)
    let follows := fun (i : Instr → Instr) (y : State) =>
      ends (i (.mcfg q gang)) (.mcfg q gang) { y with matrix := { y.matrix with gang := gang } } ∧
      (v ≠ 63 → x.tag ≠ 0 → ends (i (.mrdv q t row v)) (.mrdv q t row v) (y.updMe fun u =>
        (u.setV v ⟨r.extractLsb' 0 1024, x.tag, 0, x.poison⟩).setV (v + 1) ⟨r.extractLsb' 1024 1024, x.tag, 0, x.poison⟩))
    (LinearOk s ad dsp asrc ssp sn sfe ps pd →
      follows (.cpymLinear q ad dsp asrc ssp sn dfe sfe) (s.copied 16 dfe sfe (s.linearPairs sn ps pd))) ∧
    (StreamOk s sslot n sp → StreamOk s dslot n dp → s.feReady 5 sfe (coverOf n (pairs.map (·.1))) = true →
      follows (.cpymPattern q dslot sslot h dfe sfe) (s.copied n dfe sfe pairs))

/-- R222, R223: CWIN opens a window on a tensor in main memory and fetches its rows, each packed into its place of the
ring and set full; CADV retires the oldest rows, sets them empty, and fetches the next.  Poison travels with each part of 16
bytes of an element. -/
def Obligations.Windows : Prop :=
  ∀ (s : State) (q : Itq) (slot : BitVec 4) (a : BitVec 3) (space : BitVec 2) (h : BitVec 4) (sw sr sn : BitVec 5)
    (nh : BitVec 1) (rp gp : Nat → Nat → Nat), Calm s → Inv s →
    let st := s.me
    let k : Fin 4 := ⟨slot.toNat % 4, by omega⟩
    let x := st.slots[k]
    let p := patternOf x.record
    let n := 2 ^ p.esize
    let rb := p.rowBytes
    let ts := tuples (p.counts.take 3)
    let off := fun (w : Window) (j : Nat) (is : List Nat) =>
      (p.base : Int) + ((is ++ [j]).zipIdx.map fun y => (y.1 : Int) * p.strides.getD y.2 0).sum - (w.less : Int)
    let at_ := fun (w : Window) (j : Nat) (is : List Nat) => w.handle.ppn.toNat * 65536 + (off w j is).toNat
    let own := slot.toNat / 4 = 0 ∨ slot.toNat / 4 = s.cur.val
    let fetch := fun (w : Window) (lo hi : Nat) (y : State) => (List.range' lo (hi - lo)).foldl (fun y j =>
      (ts.zipIdx.foldl (fun y e =>
        let m := at_ w j e.1
        ((parts n).map fun o => (o.1, y.peeks (m + o.1) o.2, (linesOf (m + o.1) o.2).any (y.mainPoisoned (m + o.1) o.2))).foldl
          (fun z b => z.chipWrite (rp j e.2 + b.1) b.2.1 b.2.2) y) y).setFull
        (ts.zipIdx.flatMap fun e => granules (rp j e.2) n) true) y
    let places := fun (w : Window) (lo hi : Nat) => ∀ j k, lo ≤ j → j < hi → k < ts.length →
      s.resolve w.space (w.rowAddr rb j + n * k) n = some (rp j k)
    let olds := fun (w : Window) (lo hi : Nat) => ∀ j k, lo ≤ j → j < hi → k < rb / 16 →
      s.resolve w.space (w.rowAddr rb j + 16 * k) 16 = some (gp j k)
    let reads := fun (w : Window) (lo hi : Nat) => ∀ j, lo ≤ j → j < hi → ∀ is ∈ ts, w.handle.state = .valid ∧
      0 ≤ off w j is ∧ off w j is % (min n 16 : Nat) = 0 ∧ (off w j is).toNat + n ≤ w.handle.pageSize ∧
      ∀ o ∈ parts n, MainOk s (at_ w j is + o.1) o.2
    let opens := fun (w : Window) (u : Strand) => { u with slots := u.slots.set k.val { x with window := some w } k.isLt }
    own → x.valid = true → p.main = true → p.ind = false →
    (let r := st.getA a
     let j0 := (st.getS sr).toNat % 65536
     let hi := min (min (j0 + (st.getS sw).toNat % 65536) (j0 + r.len.toNat / rb)) (p.counts.getD 3 0)
     let w : Window := ⟨r.addr, r.base, r.len, space, st.getH h, j0, j0, hi, 0⟩
     rb ≠ 0 → rb % 16 = 0 → r.len ≠ 0 → r.len.toNat % rb = 0 → places w j0 hi → reads w j0 hi →
     Completes (.cwin q slot a space h sw sr) s ((fetch w j0 hi s).updMe (opens w))) ∧
    (∀ w : Window, x.window = some w →
      let count := (st.getS sn).toNat % 65536
      let m := min count (w.hi - w.lo)
      let v : Window := if nh = 1 then { w with lo := w.lo + m, handle := st.getH h, less := w.less + w.handle.pageSize }
        else { w with lo := w.lo + m }
      let hi := min (min (w.hi + count) (w.lo + m + w.len.toNat / rb)) (p.counts.getD 3 0)
      let emptied := s.setFull ((List.range' w.lo m).flatMap fun j => (List.range (rb / 16)).flatMap fun k =>
        granules (gp j k) 16) false
      olds w w.lo (w.lo + m) → places w w.hi hi → reads v w.hi hi →
      Completes (.cadv q slot sn h nh) s ((fetch v w.hi hi emptied).updMe (opens { v with hi := hi })))

/-- R210, R224, R324: CGATH brings the elements that the descriptors name into the local array, whose granules become full, and
CSCAT takes them there; no element waits, and no other access waits on a granule that a CGATH takes.  Either ends the node's
replayability, of every device and also for no element at all. That the reserved bits of a descriptor are ignored (assumption 47),
and that the elements are performed in ascending order (assumption 49), are the model's readings. -/
def Obligations.GatherScatter : Prop :=
  ∀ (s : State) (q : Itq) (a : BitVec 3) (space : BitVec 2) (ai : BitVec 3) (ispace : BitVec 2) (sn : BitVec 5)
    (esz : BitVec 3) (lfe rfe : BitVec 2) (ds pl loc : Nat → Nat), Calm s →
    let n := (s.me.getS sn).toNat % 2 ^ 20
    let eb := 2 ^ esz.toNat
    let ea := (s.me.getA a).addr.toNat
    let ei := (s.me.getA ai).addr.toNat
    let desc := fun (k : Nat) => leNat (cellsRead s.mem (ds k) 8)
    let gs := fun (k : Nat) => granules (pl k) eb
    let near := ((List.range n).flatMap fun k => granules (loc k) eb).dedup
    let ready := rfe = 0 ∨ (∀ k, k < n → s.allFull (gs k) = true) ∧
      (rfe = 2 → ((List.range n).Pairwise fun j k => ∀ g ∈ gs j, g ∉ gs k) ∧
        ∀ r ∈ s.rivals, ∀ k, k < n → ∀ g ∈ gs k, g ∉ r.granules)
    let marked := s.updNode fun m => { m with unreplayable := true }
    let start := marked.feTaken 6 lfe near
    2 ≤ esz.toNat → ea % 16 = 0 → ei % 8 = 0 →
    (∀ k, k < n → s.resolve ispace (ei + 8 * k) 8 = some (ds k) ∧ (s.chipRead (ds k) 8).2 = false ∧
      s.descPlace (desc k) eb = some (pl k) ∧ desc k % 2 ^ 23 % min eb 16 = 0) →
    (∀ k, k < n → s.resolve space (ea + k * eb) eb = some (loc k)) →
    (ready → Completes (.cgath q a space ai ispace sn esz 0 rfe) s
      (((List.range n).foldl (fun y k => (if rfe = 2 then y.setFull (gs k) false else y).chipMove (pl k) (loc k) eb)
        marked).setFull near true)) ∧
    (s.feReady 6 lfe near = true → Completes (.cscat q a space ai ispace sn esz lfe rfe) s
      ((List.range n).foldl (fun y k => (parts eb).foldl (fun z o =>
        let x := start.chipRead (loc k + o.1) o.2
        (z.chipWrite (pl k + o.1) x.1 x.2).feStore rfe (granules (pl k + o.1) o.2)) y) start))

/-- R225: CRED adds a source array into a destination array on chip, 16 bytes after 16 bytes: FP32 and BF16 sums rounded to
nearest even, I32 sums modulo 2^32.  The order of its reads and writes, which shows where the ranges meet, is the model's
reading (assumption 46). -/
def Claims.ReduceAdd : Prop :=
  ∀ (s : State) (q : Itq) (ad : BitVec 3) (dsp : BitVec 2) (asrc : BitVec 3) (ssp : BitVec 2) (sn : BitVec 5)
    (fmt : BitVec 4) (dfe sfe : BitVec 2) (ps pd : Nat → Nat), Calm s → LinearOk s ad dsp asrc ssp sn sfe ps pd →
    let n := (s.me.getS sn).toNat % 2 ^ 24 / 16
    let w := if fmt = 2 then 2 else 4
    let float := fun (f : Fmt) (x y : Nat) => (f.round .ne false ((f.decode x).add (f.decode y))).1
    let sum := fun (x y : Nat) =>
      if fmt = 1 then float .f32 x y else if fmt = 2 then float .bf16 x y else (x + y) % 2 ^ 32
    let part := fun (b : List Byte) (k : Nat) => leNat ((b.drop (w * k)).take w)
    let add := fun (x y : List Byte) => (List.range (16 / w)).flatMap fun k => leBytes w (sum (part x k) (part y k))
    let start := s.feTaken 5 sfe (coverOf 16 ((List.range n).map ps))
    let i : Instr := .cred q ad dsp asrc ssp sn fmt dfe sfe
    fmt ∈ [1#4, 2#4, 4#4] →
    Completes i s (((List.range n).foldl (fun y k =>
      let x := y.chipRead (pd k) 16
      let z := if sfe = 0 then y.chipRead (ps k) 16 else start.chipRead (ps k) 16
      y.chipWrite (pd k) (add x.1 z.1) (x.2 || z.2)) start).feStore dfe (coverOf 16 ((List.range n).map pd)))

/-- R207, R226: CVQX loads the core's codebook of 1,024 bytes, each of its 16-byte elements an access of its own, and expands
index bytes into the four codes that each selects.  That the codebook takes the bytes of a poisoned source without a machine check
is the model's reading (assumption 41). -/
def Claims.Codebook : Prop :=
  ∀ (s : State) (q : Itq) (ad : BitVec 3) (dsp : BitVec 2) (asrc : BitVec 3) (ssp : BitVec 2) (sn : BitVec 5)
    (dfe sfe : BitVec 2) (ps pd : Nat → Nat), Calm s →
    let n := (s.me.getS sn).toNat % 2 ^ 20
    let src := (s.me.getA asrc).addr.toNat
    let dst := (s.me.getA ad).addr.toNat
    let code := fun (b : Byte) => leBytes 4 (s.codebook.toNat / 2 ^ (32 * b.toNat) % 2 ^ 32)
    let book := BitVec.ofNat 8192 (leNat ((List.range 64).flatMap fun k => cellsRead s.mem (ps k) 16))
    let whole := (List.range 64).flatMap fun k => granules (ps k) 16
    let gs := coverOf 4 ((List.range (n / 4)).map ps)
    let data := fun (k : Nat) => s.chipRead (ps k) 4
    (src % 16 = 0 → (∀ k, k < 64 → s.resolve ssp (src + 16 * k) 16 = some (ps k)) → s.feReady 5 sfe whole = true →
      Completes (.cvqxBook q asrc ssp sfe) s { s.feTaken 5 sfe whole with codebook := book }) ∧
    (n % 4 = 0 → src % 4 = 0 → dst % 16 = 0 → s.feReady 5 sfe gs = true →
      (∀ k, k < n / 4 → s.resolve ssp (src + 4 * k) 4 = some (ps k) ∧ s.resolve dsp (dst + 16 * k) 16 = some (pd k)) →
      Completes (.cvqxExpand q ad dsp asrc ssp sn dfe sfe) s
        (((List.range (n / 4)).foldl (fun y k => y.chipWrite (pd k) ((data k).1.flatMap code) (data k).2)
          (s.feTaken 5 sfe gs)).feStore dfe ((List.range (n / 4)).flatMap fun k => granules (pd k) 16)))

/-- R227: SISECT of two streams, each on chip or in a page of main memory: the loop of R227 on the numbers that the streams hold
up to their ends or to the end of a page, its reason and count in S(sd), the positions it reached in S(sp) and S(sp + 1), and the
matches stored when out = 1.  No match is stored over a number that the loop may still read: the k-th match may overwrite the
first k + 1 numbers of a stream, not a later one. -/
def Obligations.SortedIntersection : Prop :=
  ∀ (s : State) (q : Itq) (d sp se : BitVec 5) (ka kb out : BitVec 1) (h : BitVec 4) (spa spb : BitVec 2) (ao : BitVec 3)
    (osp : BitVec 2) (pa pb po : Nat → Nat), Calm s →
    let st := s.me
    let a := (st.getS sp).toNat
    let b := (st.getS (sp + 1)).toNat
    let x := st.getH h
    let y := st.getH (h ^^^ 1)
    let na := ((st.getS se).toNat - a + 3) / 4
    let nb := ((st.getS (se + 1)).toNat - b + 3) / 4
    let ma := if ka = 1 then min na ((x.pageSize - a) / 4) else na
    let mb := if kb = 1 then min nb ((y.pageSize - b) / 4) else nb
    let numbers := fun (main : Bool) (m : Nat) (p : Nat → Nat) => (List.range m).map fun k =>
      leNat (if main then s.peeks (p k) 4 else cellsRead s.mem (p k) 4)
    let r := mergeSorted (decide (ma < na)) (decide (mb < nb)) 65536 (numbers (decide (ka = 1)) ma pa)
      (numbers (decide (kb = 1)) mb pb)
    let ea := (st.getA ao).addr.toNat
    let chip := fun (space : BitVec 2) (a m : Nat) (p : Nat → Nat) => ∀ k, k < m →
      s.resolve space (a + 4 * k) 4 = some (p k) ∧ (s.chipRead (p k) 4).2 = false
    let page := fun (x : Handle) (a m : Nat) (p : Nat → Nat) => ∀ k, k < m →
      x.state = .valid ∧ p k = x.ppn.toNat * 65536 + (a + 4 * k) ∧ MainOk s (p k) 4 ∧ s.mainPoisoned (p k) 4 (p k / 64) = false
    let apart := fun (m : Nat) (p : Nat → Nat) => ∀ j k, j < r.found.length → j < k → k < m → po j + 4 ≤ p k ∨ p k + 4 ≤ po j
    let i : Instr := .sisect q d sp se ka kb out h spa spb ao osp
    let stored := if out = 1 then r.found.zipIdx.foldl (fun z x => z.chipWrite (po x.2) (leBytes 4 x.1) false) s else s
    i.wf = true → a % 4 = 0 → b % 4 = 0 →
    (if ka = 1 then page x a ma pa else chip spa a ma pa) → (if kb = 1 then page y b mb pb else chip spb b mb pb) →
    (out = 1 → (∀ k, k < r.found.length → s.resolve osp ((ea + 4 * k) % 2 ^ 32) 4 = some (po k)) ∧ apart ma pa ∧ apart mb pb) →
    Completes i s (stored.updMe fun u =>
      ((u.setS d (BitVec.ofNat 64 (r.why * 2 ^ 32 + r.found.length))).setS sp (BitVec.ofNat 64 (a + 4 * r.left))).setS (sp + 1)
        (BitVec.ofNat 64 (b + 4 * r.right)))

/-- R221: CSEQ writes a sequence counter of a class to S(sd): the issued one as it stood at the split, or the completed
one as it stands. -/
def Claims.SequenceCounters : Prop :=
  ∀ (s : State) (q : Itq) (d : BitVec 5), Calm s →
    let gives := fun (cls which : BitVec 1) (v : BitVec 32) =>
      Completes (.cseq q d cls which) s (s.updMe fun u => u.setS d (v.setWidth 64))
    gives 0 1 s.me.copyIssued ∧ gives 0 0 s.me.copyDone ∧ gives 1 1 s.me.netIssued ∧ gives 1 0 s.me.netDone

/-! ## The statements of this part that join several claims -/

/-- R213-R216, R220: SREC, the traps of stream slots, and the sequence numbers of a class. -/
def Obligations.SlotsAndNumbers : Prop :=
  Claims.StreamSlots ∧ Claims.SequenceCounters

/-- R213-R219: the linear and the pattern copy, a copy with its follow-on, and two follow-ons in full. -/
def Obligations.Copies : Prop :=
  Claims.LinearCopy ∧ Claims.PatternCopy ∧ Claims.CopyMatrix ∧ Claims.CopyThenMatrix

/-- R225, R226: CRED and CVQX, with the model's readings of assumptions 41 and 46. -/
def Obligations.ArithmeticCopies : Prop :=
  Claims.ReduceAdd ∧ Claims.Codebook

/-! ## The sync unit (R257-R289, R306-R312, R335-R345) -/

/-- R263, R264, R272, R273, R306, R307, R340: the words that order, of a strand with nothing outstanding: what is left of
them is the near buffer's part of their scope, and their own effect.  A DRAIN pins no line (R278 names none). -/
def Claims.OrderingWords : Prop :=
  ∀ (s : State) (q : Itq) (scope ca cb : BitVec 3) (strand : BitVec 2) (core : BitVec 7) (sa : BitVec 5),
    Calm s → Drains s →
    let all := fun (_ : Machine.Writer) => true
    let kept := fun (b : Machine.Writer) => !b.unordered
    let woken := fun (p : Fin 4 → Bool) (y : State) => Vector.ofFn fun (k : Fin 4) =>
      if p k && y.strands[k].placed.isSome then { y.strands[k] with latch := true } else y.strands[k]
    let lit := fun (p : Fin 4 → Bool) (y : State) => { y with strands := woken p y }
    let gone := fun (y : State) => y.updNode fun m => { m with unreplayable := true }
    let marked := fun (y : State) => (y.updMe fun u => { u with triggered := true }).updNode fun m =>
      { m with trigs := m.trigs + 1, unreplayable := true }
    let d := s.me.getS sa
    Completes (.fence q scope) s (s.performed scope all) ∧
    Completes (.xfence q ca cb scope) s (s.performed scope fun b => decide (ca = 7) || decide (b.cls = ca)) ∧
    Completes (.drain q scope) s (if scope = 1 then s else s.performed scope all) ∧
    (s.me.triggered = true → Completes (.trig q) s (s.performed 4 all)) ∧
    (s.me.triggered = false → Completes (.trig q) s (marked (s.performed 4 all)).settle) ∧
    (s.me.latch = true → Completes (.wfe q) s (s.updMe fun u => { u with latch := false })) ∧
    Completes (.sev q 0 strand 0 scope) s (lit (fun k => decide (k.val = strand.toNat)) (s.performed scope kept)) ∧
    Completes (.sev q 1 0 0 scope) s (lit (fun k => decide (k ≠ s.cur)) (s.performed scope kept)) ∧
    (core.toNat = s.coreInDie → Completes (.sev q 2 0 core scope) s (gone (lit (fun _ => true) (s.performed scope kept)))) ∧
    (core.toNat ≠ s.coreInDie → Completes (.sev q 2 0 core scope) s (gone (s.performed scope kept))) ∧
    (d ≤ s.now → Completes (.slpat q sa) s s) ∧
    (¬ d ≤ s.now → ∃ t, exec (.slpat q sa) s = .next t ∧
      t.Same (((s.split (.slpat q sa)).updMe fun u => { u with sleeping := some d }).serve (.slpat q sa)))

/-- R272: a WFE that finds the latch clear waits: the word is split and stays queued, and the splitter
splits nothing after it. -/
def Claims.WaitForEvent : Prop :=
  ∀ (s : State) (q : Itq), Calm s → s.me.latch = false →
    exec (.wfe q) s = .next (s.split (.wfe q)) ∧ (s.split (.wfe q)).me.blocked = true ∧
    (s.split (.wfe q)).splitter = .inr (.next (s.split (.wfe q)))

/-- R266: the acquire loads and release stores, of a word or a doubleword, on chip and through a valid handle.  A release
first performs the strand's writes to ordered pages at its scope.  Through a handle of an unordered page they act all the same,
which is the model's reading (assumption 53). -/
def Claims.AcquireRelease : Prop :=
  ∀ (s : State) (q : Itq) (r : BitVec 5) (size : BitVec 1) (a : BitVec 3) (space fe : BitVec 2) (scope : BitVec 3)
    (h : BitVec 4) (sb : BitVec 5) (p : Nat), Calm s → Drains s →
    let n := if size = 1 then 4 else 8
    let ea := (s.me.getA a).addr.toNat
    let gs := granules p n
    let x := s.me.getH h
    let off := (s.me.getS sb).toNat
    let m := x.ppn.toNat * 65536 + off
    let bytes := leBytes n (s.me.getS r).toNat
    let y := s.performed scope fun b => !b.unordered
    (ea % n = 0 → s.resolve space ea n = some p → s.feReady 0 fe gs = true → (s.chipRead p n).2 = false →
      Completes (.ldaq q r size a space fe scope) s ((s.feTaken 0 fe gs).updMe fun u =>
        u.setS r (BitVec.ofNat 64 (leNat (cellsRead s.mem p n))))) ∧
    (ea % n = 0 → s.resolve space ea n = some p →
      Completes (.strl q r size a space fe scope) s ((y.chipWrite p bytes false).feStore fe gs)) ∧
    (x.state = .valid → off % n = 0 → off + n ≤ x.pageSize → MainOk s m n →
      (s.mainPoisoned m n (m / 64) = false → Completes (.ldaqHandle q r size h sb scope) s (s.updMe fun u =>
        u.setS r (BitVec.ofNat 64 (leNat (s.peeks m n))))) ∧
      (x.w = true → NearRoom y x.kind m → Completes (.strlHandle q r size h sb scope) s (y.stored x.kind m bytes)))

/-- R269, R276, R282, R324: AMO and CAS read a location and write it in one step, on chip or through a writable handle, whose
buffered lines drain first and after what is on its way to the device; the old value goes to S(d), and the node is no longer
replayable. -/
def Claims.Atomics : Prop :=
  ∀ (s : State) (q : Itq) (d : BitVec 5) (size : BitVec 1) (a : BitVec 3) (space : BitVec 2) (ord : BitVec 2)
    (scope : BitVec 3) (h : BitVec 4) (sb sc sn : BitVec 5) (op : BitVec 4) (p : Nat), Calm s → Drains s →
    let n := if size = 1 then 4 else 8
    let w := 8 * n
    let val := fun (r : BitVec 5) => (s.me.getS r).toNat % 2 ^ w
    let ea := (s.me.getA a).addr.toNat
    let x := s.me.getH h
    let off := (s.me.getS sb).toNat
    let m := x.ppn.toNat * 65536 + off
    let chipLoc : BitVec 9 := a ++ space ++ 0#4
    let mainLoc : BitVec 9 := h ++ sb
    let rel := fun (unordered : Bool) =>
      if (ord = 2 ∨ ord = 3) ∧ unordered = false then s.performed scope fun b => !b.unordered else s
    let done := fun (i : Instr) (y : State) (old : Nat) =>
      Completes i s ((y.updNode fun k => { k with unreplayable := true }).updMe fun u => u.setS d (BitVec.ofNat 64 old))
    let chip := fun (i : Instr) (f : Nat → Option Nat) =>
      ea % n = 0 → s.resolve space ea n = some p → (s.chipRead p n).2 = false →
      let y := rel false
      let old := leNat (cellsRead y.mem p n)
      done i (match f old with | some v => y.chipWrite p (leBytes n v) false | none => y) old
    let main := fun (i : Instr) (f : Nat → Option Nat) =>
      off % n = 0 → x.state = .valid → off + n ≤ x.pageSize → x.w = true → MainOk s m n →
      let y := rel (decide (x.kind = 2))
      let z := ((y.near.filter fun l => decide (l.line = m / 64)).foldl State.drainLine y).behind m n
      let old := leNat (z.peeks m n)
      y.nearStuck = false → z.mainPoisoned m n (m / 64) = false →
      done i (match f old with | some v => z.mainWrite m (leBytes n v) false | none => z) old
    let amo := fun (old : Nat) => some (atomicOp op.toNat w old (val sc)).1
    let cas := fun (old : Nat) => if old = val sc then some (val sn) else none
    chip (.amo q d 0 size chipLoc ord scope sc op) amo ∧ main (.amo q d 1 size mainLoc ord scope sc op) amo ∧
    chip (.cas q d 0 size chipLoc ord scope sc sn) cas ∧ main (.cas q d 1 size mainLoc ord scope sc sn) cas

/-- R269, Table 9: what the operations at memory make of two w-bit values. -/
def Claims.AtomicOperations : Prop :=
  ∀ (w a b : Nat), w = 32 ∨ w = 64 → a < 2 ^ w → b < 2 ^ w →
    let x := (BitVec.ofNat w a).toInt
    let y := (BitVec.ofNat w b).toInt
    let op := fun (k : Nat) => (atomicOp k w a b).1
    op 0 = (a + b) % 2 ^ w ∧ op 1 = a &&& b ∧ op 2 = a ||| b ∧ op 3 = a ^^^ b ∧
    (BitVec.ofNat w (op 4)).toInt = min x y ∧ (BitVec.ofNat w (op 5)).toInt = max x y ∧
    op 6 = min a b ∧ op 7 = max a b ∧ op 8 = b ∧ ∀ k, k ≤ 8 → op k < 2 ^ w

/-- R230-R232, R239-R241: TRN leaves a translation in flight, HVLD tells the state of a handle, PROBE writes the handle
that the walks find, and INVQ issues a command and reads the acknowledged number. -/
def Claims.TranslationWords : Prop :=
  ∀ (s : State) (q : Itq) (h : BitVec 4) (sa sb d : BitVec 5) (acc : BitVec 2) (pd : BitVec 3) (e : Nat) (large : Bool),
    Calm s →
    let st := s.me
    let x := st.getH h
    let va := (st.getS sa).toNat % 2 ^ 56
    let code := match x.state with | .empty => 0 | .valid => 1 | .notFound => 2 | .late => 3 | .revoked => 4
    let status := code + (if x.large then 8 else 0) + x.kind.toNat * 16 + (if x.w then 64 else 0) + (if x.x then 128 else 0)
    let cmd : InvCmd := ⟨s.sys.invNext, (st.getS sa).extractLsb' 16 40, (st.getS sb).extractLsb' 0 40,
      (st.getS sb).extractLsb' 40 16, (st.getS sb).extractLsb' 56 2, s.cur, false⟩
    Completes (.trn q h sa) s (s.updMe fun u => { u with trns := [⟨h, (st.getS sa).setWidth 56, st.root, []⟩] }) ∧
    Completes (.hvld q pd h d) s (s.updMe fun u =>
      (u.setP pd (decide (x.state = .valid))).setS d (BitVec.ofNat 64 status)) ∧
    (s.walkHeld st.root va = none → s.walk st.root va = some (e, large) → acc = 0 ∨ e / 2 ^ 59 % 2 = 1 →
      Completes (.probe q h sa acc) s (s.updMe fun u => u.setH h (handleOf st.root va e large))) ∧
    (s.sys.invs.length < 64 → Completes (.invqIssue q d sa sb) s
      ({ s with sys := { s.sys with invs := s.sys.invs ++ [cmd], invNext := s.sys.invNext + 1 } }.updMe fun u =>
        u.setS d (s.sys.invNext.setWidth 64))) ∧
    Completes (.invqAck q d) s (s.updMe fun u =>
      u.setS d ((match s.sys.invs with | [] => s.sys.invNext - 1 | c :: _ => c.number - 1).setWidth 64))

/-- R239: a PROBE whose page is not mapped, or not writable for a write, raises trap 0x07 with the address (and bit 62 for
a write to a page without W) in TRAPDATA; the strand resumes at the PROBE, which the splitter has not moved past. -/
def Claims.ProbeFault : Prop :=
  ∀ (s : State) (q : Itq) (h : BitVec 4) (sa : BitVec 5) (acc : BitVec 2), Calm s →
    let st := s.me
    let va := (st.getS sa).toNat % 2 ^ 56
    let i : Instr := .probe q h sa acc
    let y := s.split i
    let traps := fun (data : Nat) => ∃ t, exec i s = .next t ∧ t.Same ((y.updMe fun u =>
      { u with passing := false, queue := [] }).takeTrap ⟨0x07, BitVec.ofNat 64 data⟩ i st.pc st.pc [])
    s.walkHeld st.root va = none →
    (s.walk st.root va = none → traps va) ∧
    (∀ e large, s.walk st.root va = some (e, large) → acc = 1 → e / 2 ^ 59 % 2 = 0 → traps (2 ^ 62 + va))

/-- R236: the hash of a page key, in 40-bit arithmetic. -/
def Claims.PageHash : Prop :=
  ∀ k : BitVec 40,
    let x := (k ^^^ (k >>> 17)) * 0x9E3779B97#40
    BitVec.ofNat 40 (pageHash k.toNat) = x ^^^ (x >>> 23) ∧ pageHash k.toNat < 2 ^ 40

/-- R286, R289: a BAR whose group has no member but the strand, or only members that have arrived or exited on other cores, ends
at once with 0 in S(d), and with 1 in S(d) for every member when one has ended without EXIT; with a member that has not arrived it
waits, arrived itself.  The end of an episode reaches its members on other cores.  A WAITSEQ of a number that has completed
performs the class's writes at its scope, reports and clears the lost flags, unless d is S0. -/
def Obligations.BarriersAndNumbers : Prop :=
  ∀ (s : State) (q : Itq) (group : BitVec 8) (d sa : BitVec 5) (scope : BitVec 3) (cls : BitVec 2) (g : Fin 4),
    Calm s → Drains s →
    let st := s.me
    let i : Instr := .bar q group d scope
    let all := fun (_ : Machine.Writer) => true
    let y := s.performed scope all
    let member := fun (m : Member) (u : Strand) => { u with members := u.members.set g.val m g.isLt }
    let ended := fun (b : Bool) (z : State) => z.updNode fun n => { n with far := n.far.map fun r =>
      if group ∈ r.groups.toList then { r with
        arrived := r.arrived.filter fun x => decide (x ≠ group)
        done := (group, b) :: r.done.filter fun x => decide (x.1 ≠ group) } else r }
    let lost := fun (u : Strand) => if st.inGroup u group then u.updMember group fun _ => ⟨false, true, true⟩ else u
    let there := fun (r : FarRank) => r.exited = true ∨ group ∈ r.arrived
    let issued := if cls = 0 then st.copyIssued else st.netIssued
    let done := if cls = 0 then st.copyDone else st.netDone
    let reached := fun (a b : BitVec 32) => (a - b).toNat < 2 ^ 31
    let n : BitVec 32 := (st.getS sa).setWidth 32
    let t := if reached issued n then n else issued
    let flags := (if st.lostCopy then 2 ^ 32 else 0) + (if st.lostNet then 2 ^ 33 else 0) + (if st.lostScalar then 2 ^ 34 else 0)
    (group ≠ 0xFF → st.groups[g] = group → (∀ k : Fin 4, k < g → st.groups[k] ≠ group) → st.members[g] = ⟨false, false, false⟩ →
      (s.memberLost st group = false →
        ((∀ x ∈ s.sys.saved, ∀ u, Saved.awayStrand x = some u → st.inGroup u group = false) →
          (∀ k : Fin 4, k ≠ s.cur → st.inGroup s.strands[k] group = false) → (∀ r ∈ s.farMembers st group, there r) →
          Completes i s (ended false (y.updMe fun u => (member ⟨false, false, false⟩ u).setS d 0))) ∧
        ((∃ k : Fin 4, k ≠ s.cur ∧ st.inGroup s.strands[k] group = true ∧ s.strands[k].arrived group = false) ∨
          (∃ r ∈ s.farMembers st group, ¬ there r) →
          ∃ t, exec i s = .next t ∧ t.Same (((y.split i).updMe (member ⟨true, false, false⟩)).serve i))) ∧
      (s.memberLost st group = true → Completes i s (ended true (({ y with
        strands := y.strands.map lost
        sys := { y.sys with saved := y.sys.saved.map (Saved.updStrand lost) } }).updMe fun u =>
          (member ⟨false, false, false⟩ u).setS d 1)))) ∧
    (cls.toNat ≤ 1 → reached done t → Completes (.waitseq q d sa cls scope) s
      ((s.performed scope fun b => decide (b.cls = if cls = 0 then 5 else 6) && decide (reached t b.num)).updMe fun u =>
        if d = 0 then u
        else { u.setS d (BitVec.ofNat 64 (flags + done.toNat)) with lostCopy := false, lostNet := false, lostScalar := false }))

/-- R342-R344: TRC adds a record to the core's trace buffer when the binding of its queue has a ring and no record there is later;
without one it writes nothing. -/
def Claims.TraceWord : Prop :=
  ∀ (s : State) (q : Itq) (sa sb : BitVec 5) (code : BitVec 12) (pl : Placement) (b : QueueBinding), Calm s →
    let st := s.me
    let i : Instr := .trc q sa sb code
    let source := BitVec.ofNat 64 (code.toNat + s.gstrand s.cur.val * 2 ^ 16 + pl.node.toNat * 2 ^ 32)
    st.placed = some pl → s.binding st = some b → s.traceLost = false → b.mask.getLsbD i.cls.toNat = false →
    (∀ x ∈ s.trace, x.time ≤ s.now) →
    (b.trace = none → ∃ t, exec i s = .next t ∧ t.Same (s.past i s) ∧ t.trace = s.trace) ∧
    (b.trace.isSome = true → s.trace.length < 64 → ∃ t, exec i s = .next t ∧ t.Same (s.past i s) ∧
      t.trace = s.trace ++ [⟨pl.queue, s.now, st.getS sa, st.getS sb, source, st.ident⟩])

/-- R321, R335: MCHK moves the oldest record of the log to main memory and tells how many there were, and arms a fault for
a class. -/
def Claims.MachineCheckLog : Prop :=
  ∀ (s : State) (q : Itq) (d : BitVec 5) (h : BitVec 4) (sb : BitVec 5) (cls : BitVec 3), Calm s →
    let x := s.me.getH h
    let off := (s.me.getS sb).toNat
    let m := x.ppn.toNat * 65536 + off
    let i : Instr := .mchkPop q d h sb 0
    Completes (.mchkInject q cls) s { s with armed := [cls] } ∧
    (x.state = .valid → off % 64 = 0 → off + 64 ≤ x.pageSize → x.w = true → MainOk s m 64 →
      (s.sys.log = [] → Completes i s (s.updMe fun u => u.setS d 0)) ∧
      (∀ r t, s.sys.log = r :: t → NearRoom s x.kind m →
        let y := s.stored x.kind m (leBytes 64 r.toNat)
        Completes i s ({ y with sys := { y.sys with log := t } }.updMe fun u => u.setS d (BitVec.ofNat 64 (t.length + 1)))))

/-- R311, R312: TASK appends the 64 bytes of an op-0 record to a ring of its context that has room, or is told why not; TOKQ
pushes a token.  The order of the answers 2, 3 and 1 is the model's reading (assumption 58). -/
def Obligations.LaunchWords : Prop :=
  ∀ (s : State) (q : Itq) (d : BitVec 5) (a : BitVec 3) (space : BitVec 2) (sq sr : BitVec 5) (p : Nat) (pl : Placement),
    Calm s → Drains s → s.me.placed = some pl →
    let st := s.me
    let ea := (st.getA a).addr.toNat
    let y := (s.performed 4 fun b => !b.unordered).updNode fun m => { m with unreplayable := true }
    let qn : BitVec 6 := (st.getS sq).extractLsb' 0 6
    let bytes := cellsRead y.mem p 64
    let i : Instr := .task q d a space sq
    let j : Instr := .tokq q d sq sr
    let eq : BitVec 10 := (st.getS sq).extractLsb' 0 10
    let told := fun (i : Instr) (v : BitVec 64) => Completes i s (y.updMe fun u => u.setS d v)
    (ea % 64 = 0 → s.resolve space ea 64 = some p → (s.chipRead p 64).2 = false →
      (s.queue qn = none → told i 2) ∧
      (∀ x, s.queue qn = some x →
        (s.queuesMeet pl.queue qn = false ∨ (x.binding.priv = true ∧ st.priv = false) → told i 2) ∧
        (s.queuesMeet pl.queue qn = true → x.binding.priv = false ∨ st.priv = true →
          (taskOp (BitVec.ofNat 512 (leNat bytes)) ≠ 0 → told i 3) ∧
          (taskOp (BitVec.ofNat 512 (leNat bytes)) = 0 → x.size ≤ x.tail - x.head → told i 1) ∧
          (∀ z, taskOp (BitVec.ofNat 512 (leNat bytes)) = 0 → x.tail - x.head < x.size →
            y.fwWrite (bindingRoot x.binding) (pageFuel 64) (x.binding.ring.toNat + 64 * (x.tail % x.size)) bytes = .ok z →
            Completes i s ((z.setQueue qn { x with tail := x.tail + 1 }).updMe fun u => u.setS d 0))))) ∧
    (s.expert eq = none → told j 2) ∧
    (∀ x, s.expert eq = some x →
      (s.queuesMeet pl.queue x.via = false → told j 2) ∧
      (s.queuesMeet pl.queue x.via = true → x.capacity ≤ x.tokens.length → told j 1) ∧
      (s.queuesMeet pl.queue x.via = true → x.tokens.length < x.capacity →
        let es := putExpert eq.toNat { x with tokens := x.tokens ++ [(st.getS sr, s.now)] } s.sys.experts
        Completes j s ({ y with sys := { y.sys with experts := es } }.updMe fun u => u.setS d 0)))

/-- R286, R299, R308: EXIT drains the strand's writes at domain scope and frees its slot; a barrier for which every other member of one
of its groups has arrived ends for them; and with the last strand of a node, the node finishes.  An exit without a TRIG counts as
one (R299). -/
def Obligations.ExitStrand : Prop :=
  ∀ (s : State) (q : Itq), Calm s → Drains s → (∀ l ∈ s.near, s.me.ident ∉ l.pins) →
    let st := s.me
    let y := (s.split (.exit q)).performed 5 fun _ => true
    let counted := y.updNode fun n =>
      { n with exited := n.exited + 1, trigs := if st.triggered then n.trigs else n.trigs + 1 }
    let gone := fun (z : State) => ((z.freeSlot s.cur).episodes st st.groups.toList).settle
    let ends := fun (z : State) => ∃ t, exec (.exit q) s = .next t ∧ t.Same ((gone z).serve (.exit q)) ∧
      t.strands[s.cur].placed = none
    (s.lastOfNode = false → ends counted ∧
      ∀ (g : BitVec 8) (k j : Fin 4), g ∈ st.groups.toList → g ≠ 0xFF → k ≠ s.cur → st.inGroup s.strands[k] g = true →
        s.strands[k].groupIndex g = some j → s.memberLost st g = false →
        (∀ m : Fin 4, m ≠ s.cur → st.inGroup s.strands[m] g = true → s.strands[m].arrived g = true) →
        (∀ x ∈ s.sys.saved, ∀ u, Saved.awayStrand x = some u → st.inGroup u g = true → u.arrived g = true) →
        (∀ r ∈ s.farMembers st g, r.exited = true ∨ g ∈ r.arrived) →
        (gone counted).strands[k].members[j] = ⟨false, true, false⟩) ∧
    (s.lastOfNode = true → (s.sys.nodes.any fun n => st.ofNode n && n.storedPoison) = false →
      ends (counted.updNode fun n =>
        { n with stage := .finished, fin := s.now
                 verdict := if n.predTainted then 2 else if n.replays = 0 ∧ n.errors = 0 then 0 else 1
                 reason := if n.predTainted then 5 else 0 }))

/-- R276, R280, R329-R331, R336: the context words: the statuses with which CTXSV and CTXLD turn away a strand or core, the saving of
a strand of the core, of another core and of a core's state, and the loading of what was saved.  An area is written through the
near buffer: with every line of it free to drain the word completes, the area then reads as the image's bytes, and every other
byte as before.  What a strand on another core holds is as it was last seen (assumption 73). -/
def Claims.ContextWords : Prop :=
  ∀ (s : State) (q : Itq) (d sa : BitVec 5) (h : BitVec 4) (sb : BitVec 5), Calm s → Drains s →
    let st := s.me
    let x := st.getH h
    let off := (st.getS sb).toNat
    let m := x.ppn.toNat * 65536 + off
    let y := s.performed 4 fun _ => true
    let g := (st.getS sa).toNat % 2 ^ 11
    let c := (st.getS sa).toNat % 2 ^ 9
    let k : Fin 4 := ⟨g % 4, by omega⟩
    let own := decide (g / 4 = s.sys.gcore)
    let far := s.farCore (g / 4)
    let occupied := if own then s.strands[k].placed.isSome else far.strands[k].isSome
    let taken := if own then occupied || (s.orphans.any fun o => decide (o.slot = k)) else occupied
    let ctx := if own then s.coreCtx else far.ctx
    let chain := if own then s.matrix.chain else far.matrix.chain
    let told := fun (i : Instr) (z : State) (v : BitVec 64) => Completes i s (z.updMe fun u => u.setS d v)
    let saves : Instr := .ctxsvStrand q d sa h sb
    let loads : Instr := .ctxldStrand q d sa h sb
    let savesCore : Instr := .ctxsvCore q d sa h sb
    let loadsCore : Instr := .ctxldCore q d sa h sb
    let free := Inv s ∧ (∀ l ∈ s.near, l.pins = []) ∧ s.sys.selfRefresh = []
    let holds := fun (z : State) (v : Saved) =>
      z.savedAt m = some v ∧ z.peeks m v.bytes.length = v.bytes ∧
      (∀ a, isMain a = true → a < m ∨ m + v.bytes.length ≤ a → z.peek a = y.peek a) ∧
      (∀ a, isMain a = false → cellGet z.mem a = cellGet y.mem a)
    x.state = .valid → off % 4096 = 0 → x.w = true →
    (off + 0x28000 ≤ x.pageSize → MainOk s m 0x28000 →
      (own = true → k = s.cur → told saves y 3 ∧ told loads y 3) ∧
      (¬ (own = true ∧ k = s.cur) →
        (1536 ≤ g → told loads y 1 ∧ (own = false → told saves y 1)) ∧
        (occupied = false → told saves y 1) ∧
        (taken = true → told loads y 1) ∧
        (own = true → occupied = true → s.cannotStop k = false → free →
          ∃ z, told saves z 0 ∧ z.strands[k].placed = none ∧
            (∀ j : Fin 4, j ≠ k → z.strands[j] = y.strands[j]) ∧ z.matrix = y.matrix.closeFor k ∧
            (s.strands[k].trns = [] → s.strands[k].sleeping = none → s.strands[k].passing = false →
              holds z (.strand y.nfree true ⟨y.strands[k].forSave, y.laneBytes (y.gstrand k.val), y.chainOf k⟩))) ∧
        (∀ w, own = false → g < 1536 → far.strands[k] = some w → free →
          let open_ := (far.matrix.chainOf k).or w.chain
          let ranks := (s.sys.nodes.filter w.strand.ofNode).flatMap fun n => n.far.filter fun r => r.isOf (g / 4) w.strand
          w.strand.cannotStop open_.isSome = false →
          ∃ z, told saves z 0 ∧ (z.farCore (g / 4)).strands[k] = none ∧
            (z.farCore (g / 4)).matrix = far.matrix.closeFor k ∧
            (w.strand.trns = [] → w.strand.passing = false →
              holds z (.strand y.nfree true
                ⟨((ranks.head?.map w.strand.backFrom).getD w.strand).forSave, y.laneBytes g, open_⟩))) ∧
        (g < 1536 → taken = false →
          (y.savedAt m = none → told loads y 4) ∧
          (∀ n v, y.savedAt m = some (.core n v) → told loads y 4) ∧
          (∀ n b v, y.savedAt m = some (.strand n b v) →
            (ctx = none ∨ ctx ≠ y.contextOf v.strand → told loads y 5) ∧
            (ctx.isSome = true → ctx = y.contextOf v.strand → v.chain = none ∨ chain = none →
              told loads (if own then y.resume k n v else y.resumeFar g n v) 0 ∧
              (v.chain = none →
                let r := v.strand.root
                let u := { v.strand with
                  h := v.strand.h.map (y.retranslate r)
                  slots := v.strand.slots.map (StreamSlot.onHandle (y.retranslate r))
                  latch := true }
                let mem := cellsWrite y.mem (lanePlace (y.gstrand k.val) 0) v.lanes
                (y.resume k n v).Same { y with
                  strands := y.strands.set k.val u k.isLt
                  sys := { y.sys with saved := y.sys.saved.map (loaded n) }
                  mem := mem })))))) ∧
    (off + 0x510000 ≤ x.pageSize → MainOk s m 0x510000 →
      (c = s.sys.gcore → told savesCore y 3 ∧ told loadsCore y 3) ∧
      (c ≠ s.sys.gcore → 384 ≤ c → told savesCore y 1 ∧ told loadsCore y 1) ∧
      (c ≠ s.sys.gcore → c < 384 →
        ((∃ j : Fin 4, ((s.farCore c).strands[j]).isSome = true) → told savesCore y 2) ∧
        ((∀ j : Fin 4, (s.farCore c).strands[j] = none) → free →
          ∃ z, told savesCore z 0 ∧ z.strands = y.strands ∧ z.farCore c = { s.farCore c with ctx := none } ∧
            holds z (.core y.nfree (y.coreImage c))) ∧
        (y.savedAt m = none → told loadsCore y 4) ∧
        (∀ n b v, y.savedAt m = some (.strand n b v) → told loadsCore y 4) ∧
        (∀ n v, y.savedAt m = some (.core n v) → told loadsCore (y.loadCore c v) 0)))

/-- R276, R330: an area that has been written, line by line as every write of the core, holds the bytes of its image, and every other
byte is as before.  It admits only an image whose bytes it holds whole: the one that was saved there, and a copy of it
elsewhere; none, once a byte differs. -/
def Claims.SavedAreas : Prop :=
  ∀ (s t : State) (h : Handle) (p : Nat) (x : Saved), Inv s → s.env.silent = false → p + x.bytes.length ≤ 2 ^ 54 →
    saveAt h p x s = .ok ((), t) →
    let n := x.bytes.length
    t.peeks p n = x.bytes ∧ (∀ a, isMain a = true → a < p ∨ p + n ≤ a → t.peek a = s.peek a) ∧
    (∀ a, isMain a = false → cellGet t.mem a = cellGet s.mem a) ∧ t.strands = s.strands ∧
    t.savedAt p = some x ∧
    (∀ (z : State) (a : Nat) (v : Saved), z.savedAt a = some v →
      z.peeks a v.bytes.length = v.bytes ∧ ∃ b, (b, v) ∈ z.sys.saved) ∧
    (s.sys.saved = [] → ∀ (z : State) (a : Nat), z.sys.saved = t.sys.saved →
      (z.peeks a n = x.bytes → z.savedAt a = some x) ∧ (z.peeks a n ≠ x.bytes → z.savedAt a = none))

/-- R230, R231, R239-R241: a translation in flight lands valid from the entry of a home bucket, late when a bucket has not
returned or its stack is in self-refresh, which holds its read from then on (R328), not found when there is no entry or the root
breaks R235, and revoked when an invalidate marked it.  The broadcast of a command revokes the valid handles that it covers and no
other, those of windows too (the model's reading: assumption 95), and empties the instruction cache; once no word, be it at the
splitter, and no translation is counted any more, the command is acknowledged and its issuer receives an event. -/
def Claims.TranslationEvents : Prop :=
  ∀ (s : State) (k : Fin 4) (f : TrnFlight) (c : InvCmd) (rest : List InvCmd),
    let st := s.strands[k]
    let found := s.home f.root f.va.toNat
    let home := fun (l : Bool) => stackOf (f.root.base.toNat + 64 * (pageHash (keyOf f.va.toNat l) % 2 ^ f.root.n.toNat))
    let lands := fun (small large : Bool) (h : Handle) => ∃ t, exec (.trnResultLands small large) s = .next t ∧
      { t with sys := s.sys } =
        { s with strands := s.strands.set k.val { st with trns := [], h := st.h.set f.h.toNat h f.h.isLt } k.isLt } ∧
      { t.sys with holding := s.sys.holding } = s.sys ∧
      (f.root.ok = true → ∀ l, s.bucketHeld f.root f.va.toNat l = true → ∃ x ∈ t.sys.holding, x.1 = home l)
    let failed := fun (x : HState) => handleBad x f.root f.va.toNat
    let covered := fun (h : Handle) => h.state = .valid ∧ (c.asid = 0xFFFF ∨ c.asid = h.asid) ∧
      (c.hint = 1 → h.large = false) ∧ (c.hint = 2 → h.large = true) ∧
      (c.count = 0 ∨ h.page.toNat < c.start.toNat + c.count.toNat ∧
        c.start.toNat < h.page.toNat + if h.large then 512 else 1)
    (st.trns = [f] → (∀ j : Fin 4, j ≠ k → s.strands[j].trns = []) → ∀ small large,
      let slow := fun (l late : Bool) => late || s.bucketHeld f.root f.va.toNat l
      (f.marks ≠ [] → lands small large (failed .revoked)) ∧
      (f.marks = [] → f.root.ok = false → lands small large (failed .notFound)) ∧
      (f.marks = [] → f.root.ok = true →
        (slow false small = true → lands small large (failed .late)) ∧
        (∀ e, slow false small = false → found false = some e → lands small large (handleOf f.root f.va.toNat e false)) ∧
        (slow false small = false → found false = none →
          (slow true large = true → lands small large (failed .late)) ∧
          (∀ e, slow true large = false → found true = some e → lands small large (handleOf f.root f.va.toNat e true)) ∧
          (slow true large = false → found true = none → lands small large (failed .notFound))))) ∧
    (s.sys.invs = c :: rest → c.sent = false → (∀ j : Fin 4, s.coversText c s.strands[j] = false) →
      (∀ n ∈ s.sys.nodes, s.coversNode c n = false) →
      ∃ t, exec .invalidateBroadcast s = .next t ∧ t.icache = [] ∧ t.mem = s.mem ∧
        (∀ (j : Fin 4) (r : Nat) (hr : r < 16), let h := s.strands[j].h[r]
          (covered h → (t.strands[j].h[r]).state = .revoked) ∧ (¬ covered h → t.strands[j].h[r] = h)) ∧
        (∀ (j : Fin 4) (r : Nat) (hr : r < 4) (w : Window), (s.strands[j].slots[r]).window = some w →
          ∃ v, (t.strands[j].slots[r]).window = some v ∧
            (covered w.handle → v.handle.state = .revoked) ∧ (¬ covered w.handle → v = w)) ∧
        ∃ d, t.sys.invs.head? = some d ∧ d = { c with sent := true }) ∧
    (s.sys.invs = c :: rest → c.sent = true → (∀ x ∈ rest, x.number ≠ c.number) →
      (∀ j : Fin 4, (∀ e ∈ s.strands[j].queue ++ s.strands[j].inject, c.number ∉ e.counted) ∧
        (∀ x, s.strands[j].atSplit = some x → c.number ∉ x.counted) ∧ ∀ x ∈ s.strands[j].trns, c.number ∉ x.marks) →
      (∀ o ∈ s.orphans, ∀ e ∈ o.strand.queue, c.number ∉ e.counted) →
      exec .invalidateAcknowledge s = .next ({ s with sys := { s.sys with invs := rest } }.event c.issuer) ∧
      (s.strands[c.issuer].placed.isSome = true →
        (({ s with sys := { s.sys with invs := rest } } : State).event c.issuer).strands[c.issuer].latch = true))

/-! ## The statements of this part that join several claims -/

/-- R257-R266, R272, R273, R306, R307, R340: fences, events, TRIG, DRAIN and sleep, and the wait of a WFE. -/
def Obligations.OrderingAndEvents : Prop :=
  Claims.OrderingWords ∧ Claims.WaitForEvent

/-- R266, R269: acquire loads, release stores, AMO and CAS, and the operations at memory. -/
def Obligations.AtomicAccesses : Prop :=
  Claims.AcquireRelease ∧ Claims.Atomics ∧ Claims.AtomicOperations

/-- R230-R241: the words on handles, the page fault of PROBE, the hash, and the events of translation and invalidation. -/
def Obligations.Translation : Prop :=
  Claims.TranslationWords ∧ Claims.ProbeFault ∧ Claims.PageHash ∧ Claims.TranslationEvents

/-- R321, R335, R342-R344: TRC and MCHK. -/
def Obligations.TraceAndLog : Prop :=
  Claims.TraceWord ∧ Claims.MachineCheckLog

/-- R329, R330, R336: CTXSV and CTXLD, and what a saved area admits. -/
def Obligations.ContextImages : Prop :=
  Claims.ContextWords ∧ Claims.SavedAreas

/-! ## Traps and errors (R234, R244-R252, R321-R323) -/

/-- R244, R248, R249, R250: what taking a user trap leaves, for a strand with nothing in flight and no word begun: the handler's
address in the PC (bits [31:0] of TRAPVEC: assumption 88), the cause, the held registers of the withdrawn words, and the frame,
field by field and entry by entry; every other register of the strand and every other part of the state is as it was, but that
its accesses wait no longer; every byte outside the frame reads as before, the granules of the frame that the write fills are not
poisoned, and every other granule keeps its poison.  What is not compared are the trace records, to which the entry adds its own,
and with them the times of TRC words that went into the frame (assumption 68).  (That both fields of the transfer are 0 when none
stands is the model's choice: assumption 97; where a transfer that is not taken passes control is read from R69: assumption 64.) -/
def Claims.TrapFrame : Prop :=
  ∀ (s : State) (cause : UserCause) (i : Instr) (pc resume : BitVec 32) (replay : List (QEntry × Bool)) (p : Nat),
    let st := s.me
    let t := s.takeTrap cause i pc resume replay
    let u := t.me
    let f := cellsRead t.mem p 4096
    let cont := fun (e : QEntry) => if e.isCpym then 0 else (((encode e.instr).drop 1).headD 0).toNat
    Inv s → st.busy = false → st.trns = [] → st.flight = [] → st.inject = [] → st.sleeping = none →
    st.intrap = false → st.trapvec ≠ 0 → replay.length ≤ 48 → s.resolve 0 st.trapframe.toNat 4096 = some p →
    (u.pc = st.trapvec.setWidth 32 ∧ u.intrap = true ∧ u.trapcause = cause.code ∧ u.trapdata = cause.data ∧
      u.xfer = none ∧ u.queue = [] ∧
      (∀ (k : Nat) (_ : k < 6), u.loops[k].active = false ∧ u.loops[k].stride = st.loops[k].stride) ∧
      (∀ r : BitVec 5, r ≠ 0 → (u.heldS.getLsbD r.toNat = true ↔ ∃ e ∈ replay, r ∈ e.1.uses.sw)) ∧
      (∀ r : BitVec 3, r ≠ 0 → (u.heldP.getLsbD r.toNat = true ↔ ∃ e ∈ replay, r ∈ e.1.uses.pw)) ∧
      (∀ r : BitVec 4, u.heldH.getLsbD r.toNat = true ↔ ∃ e ∈ replay, r ∈ e.1.uses.hw)) ∧
    (field f 0x000 8 = resume.toNat ∧ field f 0x008 8 = cause.code.toNat ∧ field f 0x010 8 = cause.data.toNat ∧
      (st.xfer = none → field f 0x018 4 = 0 ∧ field f 0x01C 1 = 0) ∧
      (∀ x, st.xfer = some x → x.left ≤ 2 →
        field f 0x01C 1 = x.left ∧ field f 0x018 4 = (if x.taken then x.target
          else (({ st with pc := x.fall - 4 } : Strand).moveOn (x.fall - 4) 1 none).pc).toNat) ∧
      field f 0x01D 1 = replay.length ∧ field f 0x01E 2 = 0 ∧ field f 0x020 4 = u.heldS.toNat ∧
      field f 0x024 1 = u.heldP.toNat ∧ field f 0x025 1 = 0 ∧ field f 0x026 2 = u.heldH.toNat ∧
      field f 0x028 4 = st.qcfg.word ∧ (∀ k, k < 20 → field f (0x02C + k) 1 = 0) ∧
      (∀ (k : Nat) (_ : k < 16), field f (0x040 + 4 * k) 4 = st.q[k].toNat) ∧
      (∀ (k : Nat) (_ : k < 4), field f (0x080 + 128 * k) 128 = st.qv[k].toNat) ∧
      (∀ (k : Nat) (_ : k < 6), frameLoop f k = st.loops[k]) ∧
      (∀ (k : Nat) (h : k < replay.length), let e := replay[k]
        field f (0x400 + 64 * k) 4 = ((encode e.1.instr).headD 0).toNat ∧ field f (0x404 + 64 * k) 4 = cont e.1 ∧
        field f (0x408 + 64 * k) 4 / 4 = e.1.pc.toNat / 4 ∧ (field f (0x408 + 64 * k) 4 / 2 % 2 = 1 ↔ e.2 = true) ∧
        (field f (0x408 + 64 * k) 4 % 2 = 1 ↔
          e.1.held = true ∧ 0 < k ∧ ∃ c, replay[k - 1]? = some c ∧ c.1.isCpym = true ∧ c.1.pc + 4 = e.1.pc) ∧
        (f.drop (0x40C + 64 * k)).take 52 = padTo 52 (e.1.caps.flatMap Cap.bytes)) ∧
      (∀ k, 0x400 + 64 * replay.length ≤ k → k < 4096 → field f k 1 = 0)) ∧
    (∀ a, a < p ∨ p + 4096 ≤ a → cellGet t.mem a = cellGet s.mem a) ∧
    (∀ g, t.granulePoisoned g =
      if g ∈ granules p 4096 then !covers 16 p 4096 g && s.granulePoisoned g else s.granulePoisoned g) ∧
    { u with
      pc := st.pc, loops := st.loops, xfer := st.xfer, queue := st.queue, drainDue := st.drainDue
      heldS := st.heldS, heldP := st.heldP, heldH := st.heldH, trapcause := st.trapcause, trapdata := st.trapdata
      intrap := false, atSplit := st.atSplit, trcs := st.trcs } = st ∧ u.atSplit = none ∧
    t.waiters = s.waiters.filter (fun w => decide (w.strand ≠ s.cur)) ∧
    { t.noTrace with strands := s.strands, mem := s.mem, poison := s.poison, waiters := s.waiters } = s.noTrace ∧
    (∀ k : Fin 4, k ≠ s.cur → t.strands[k] = s.strands[k])

/-- R251, R248, R244: a TRAP raises trap 0x08 with an empty replay queue, its head word and code in TRAPDATA, and the word after it
as the resume PC.  A trap that arrives as an event resumes at the word not yet split; a cause that no handler is given does
nothing there. -/
def Claims.TrapWord : Prop :=
  ∀ (s : State) (q : Itq) (code : BitVec 16) (cause : UserCause), Calm s →
    let i : Instr := .trap q code
    let y := s.split i
    (∃ t, exec i s = .next t ∧
      t.Same (y.takeTrap ⟨0x08, BitVec.ofNat 64 (((encode i).headD 0).toNat * 2 ^ 32 + code.toNat)⟩ i s.me.pc y.me.pc [])) ∧
    (1 ≤ cause.code.toNat ∧ cause.code.toNat ≤ 0x0A →
      exec (.trapEntry cause) s = .next (s.takeTrap cause .fullEmptyWake s.me.pc s.me.pc [])) ∧
    (¬ (1 ≤ cause.code.toNat ∧ cause.code.toNat ≤ 0x0A) → exec (.trapEntry cause) s = .next s)

/-- R251, R248, R250: taking a trap.  (What is compared, and what of the trace is not, is said at `Claims.TrapFrame`.) -/
def Obligations.TrapEntry : Prop :=
  Claims.TrapFrame ∧ Claims.TrapWord

/-- R234, R245: a fatal context error adds one record to the log, frees every strand of the context, and ends its running
nodes tainted, with a record each, the strand's own with the error's reason and the others with 0x24; a word that has begun runs
to its end; strands of other contexts go on.  A user trap inside a handler, or without a handler, is delivered as one with reason
0x23. -/
def Claims.FatalError : Prop :=
  ∀ (s : State) (c : FatalCause) (i : Instr) (pc : BitVec 32) (addr : BitVec 64) (cause : UserCause)
    (replay : List (QEntry × Bool)), s.me.placed.isSome = true →
    let t := s.fatalError c i pc addr
    let reason := c.parts.2.2.2
    exec (.fatalContextError c addr) s = .next (s.fatalError c .fullEmptyWake s.me.pc addr) ∧
    (∃ rc, t.sys.log = (s.sys.log.drop (s.sys.log.length / 256)) ++ [rc] ∨ 256 < s.sys.log.length) ∧
    (∀ k : Fin 4, s.sameContext s.me s.strands[k] = true → t.strands[k].placed = none ∧ t.strands[k].queue = [] ∧
      ∀ w ∈ s.strands[k].begunWords [] s.strands[k].queue, ∃ o ∈ t.orphans, o.slot = k ∧ o.strand.queue = [w]) ∧
    (∀ k : Fin 4, s.sameContext s.me s.strands[k] = false → t.strands[k] = s.strands[k]) ∧
    (∀ (k : Nat) (h : k < s.sys.nodes.length), let n := s.sys.nodes[k]
      ∃ m, t.sys.nodes[k]? = some m ∧
        (n.stage = .running → s.nodeInContext s.me n = true →
          m.stage = .finished ∧ m.verdict = 2 ∧ m.fin = s.now ∧ m.errRecs.length = n.errRecs.length + 1 ∧
          m.reason = if s.me.ofNode n then reason else 0x24) ∧
        (n.stage ≠ .running ∨ s.nodeInContext s.me n = false → m = n)) ∧
    (s.me.busy = false → s.me.trns = [] → s.me.intrap = true ∨ s.me.trapvec = 0 →
      ∃ head a, s.takeTrap cause i pc pc replay = s.fatalHead (.userTrap cause.code s.me.intrap) i.cls head pc a) ∧
    (FatalCause.userTrap cause.code s.me.intrap).parts.2.2.2 = 0x23

/-- R323, R322: a machine check replays a node that is replayable and has been replayed fewer than 3 times: its strands leave their
slots, the node is eligible again, and the record is kept for its completion; its buffered writes are dropped at once when nothing
that it had begun still runs, and the node waits for that otherwise; every other node stands as it was.  A node that is not replayed
ends tainted, with the rest of its context.  (The word that it is charged to is the model's choice: assumption 35.) -/
def Claims.MachineChecks : Prop :=
  ∀ (s : State) (c : CheckCause) (pl : Placement), s.me.placed = some pl →
    let mine := fun (k : Fin 4) => s.strands[k].placed.map (·.node) = some pl.node ∧
      s.strands[k].placed.map (·.queue) = some pl.queue
    let again := s.sys.nodes.any fun n =>
      s.me.ofNode n && n.record.getLsbD 48 && !n.unreplayable && decide (n.replays < 3)
    ∃ t, exec (.machineCheck c) s = .next t ∧
      (again = true →
        (∀ k : Fin 4, (mine k → t.strands[k].placed = none) ∧ (¬ mine k → t.strands[k] = s.strands[k])) ∧
        (s.orphans = [] → (∀ k : Fin 4, mine k → s.strands[k].busy = false) →
          ∀ l ∈ t.near, ∀ k : Fin 4, mine k →
            (∀ b ∈ l.bytes, b.strand ≠ s.strands[k].ident) ∧ ∀ w ∈ l.writers, w.strand ≠ s.strands[k].ident) ∧
        t.mem = s.mem ∧
        (∀ (k : Nat) (h : k < s.sys.nodes.length), let n := s.sys.nodes[k]
          ∃ m, t.sys.nodes[k]? = some m ∧
            (s.me.ofNode n = true → m.stage = .eligible ∧ m.replays = n.replays + 1 ∧ m.record = n.record ∧
              m.errors = min (n.errors + 1) 0xFFFF ∧ m.errRecs.length = n.errRecs.length + 1 ∧
              ((∀ k : Fin 4, mine k → s.strands[k].ident ∈ m.dropping) ∨
                (m.dropping = [] ∧ ∀ k : Fin 4, mine k → ∀ o ∈ t.orphans, o.strand.ident ≠ s.strands[k].ident))) ∧
            (s.me.ofNode n = false → { m with dropping := n.dropping } = n))) ∧
      (again = false →
        (∀ k : Fin 4, (s.sameContext s.me s.strands[k] = true → t.strands[k].placed = none) ∧
          (s.sameContext s.me s.strands[k] = false → t.strands[k] = s.strands[k])) ∧
        (∀ (k : Nat) (h : k < s.sys.nodes.length), let n := s.sys.nodes[k]
          s.me.ofNode n = true → ∃ m, t.sys.nodes[k]? = some m ∧ m.stage = .finished ∧ m.verdict = 2 ∧
            m.errors = min (n.errors + 1) 0xFFFF ∧
            m.reason = match c with | .residue _ => 0x10 | .poison => 0x11))

/-- R315, R316: the check of a datapath passes what is formed without a fault, and finds every single flipped bit.  (That all
operations are checked by one definition, and which operations a word makes, is the model's: assumption 35.) -/
def Claims.Residues : Prop :=
  ∀ (o : DataOp) (k : Nat), o.passes o.formed = true ∧ o.passes (o.formed + 2 ^ k) = false ∧
    o.passes (o.formed - 2 ^ k) = false

/-- R234, R245, R315, R316, R323: errors that are not traps of the strand. -/
def Obligations.ErrorsAndChecks : Prop :=
  Claims.FatalError ∧ Claims.MachineChecks

/-- R315, R316: the residues of the datapaths. -/
def Obligations.ResidueChecks : Prop := Claims.Residues

/-- R250, R252: an ERET in the handler of a trap that withdrew nothing, run at once, brings the strand back: the resume PC, the
loop levels, the standing transfer (as the address and count that the frame holds), and no handler any more; the quantiser
state reloaded is that of the frame, and nothing else changes. -/
def Obligations.TrapRoundTrip : Prop :=
  ∀ (s : State) (q : Itq) (cause : UserCause) (i : Instr) (pc resume : BitVec 32) (p : Nat),
    let st := s.me
    let t := s.takeTrap cause i pc resume []
    let back := st.xfer.map fun x => (⟨st.frameTarget x, st.frameTarget x, x.left, true⟩ : Transfer)
    let level := fun (l : Loop) =>
      if l.active then l.start.toNat % 4 = 0 ∧ l.fin.toNat % 4 = 0 ∧ l.start ≤ l.fin ∧ 1 ≤ l.iter ∧ l.iter ≤ l.count
      else l.start = 0 ∧ l.fin = 0 ∧ l.count = 0 ∧ l.iter = 0 ∧ l.brk = false ∧ l.interlocked = false
    Inv s → s.armed = [] → s.env.soft = [] → st.busy = false → st.trns = [] → st.flight = [] → st.inject = [] →
    st.sleeping = none → st.intrap = false → st.trapvec ≠ 0 → st.returning = none →
    s.resolve 0 st.trapframe.toNat 4096 = some p →
    resume.toNat % 4 = 0 → (∀ x, st.xfer = some x → (st.frameTarget x).toNat % 4 = 0 ∧ 1 ≤ x.left ∧ x.left ≤ 2) →
    qcfgOk st.qcfg.target st.qcfg.axis st.qcfg.mode = true →
    (∀ (k : Nat) (_ : k < 6), level st.loops[k]) →
    (∀ (k : Nat) (_ : k < 5), st.loops[k + 1].active = true →
      st.loops[k].active = true ∧ st.loops[k].start ≤ st.loops[k + 1].start ∧ st.loops[k + 1].fin ≤ st.loops[k].fin) →
    ∃ w, exec (.eret q) t = .next w ∧ w.Same (t.setMe { t.me with
      pc := resume, xfer := back, loops := st.loops, intrap := false, trcs := [] }) ∧
      w.me.q = st.q ∧ w.me.qv = st.qv ∧ w.me.qcfg = st.qcfg

/-! ## Events of memory (R210, R276-R284) -/

/-- R276, R279, R280, R328: the near buffer's drains, of which no read of the core tells; a forced drain and a retry are counted;
and a stack in self-refresh holds a drain. -/
def Claims.BufferEvents : Prop :=
  ∀ (s : State) (l : NearLine) (rest : List NearLine),
    let quiet := fun (i : Instr) (y : State) => exec i s = .next y
    let kept := rest.filter fun x => decide (x.line ≠ l.line)
    (Inv s → s.near = l :: rest → s.stackHeld (l.line * 64) = false →
      (l.pins = [] → ∃ t, exec .nearBufferDrain s = .next t ∧ t.near = kept ∧ t.strands = s.strands ∧
        ∀ a, isMain a = true → t.peek a = s.peek a) ∧
      ((∀ x ∈ s.near, x.pins ≠ []) → s.near.length = 64 → ∃ t, exec .nearBufferForcedDrain s = .next t ∧ t.near = kept ∧
        t.drains.toNat = min (s.drains.toNat + 1) 0xFFFF ∧ ∀ a, isMain a = true → t.peek a = s.peek a)) ∧
    ((∀ x ∈ s.near, x.pins ≠ []) → quiet .nearBufferDrain s) ∧
    (s.near = [l] → l.pins = [] → s.stackHeld (l.line * 64) = true → quiet .nearBufferDrain (s.hold (stackOf (l.line * 64)))) ∧
    (s.near.length < 64 ∨ (∃ x ∈ s.near, x.pins = []) → quiet .nearBufferForcedDrain s) ∧
    quiet .retryReissue { s with retries := s.retries + 1 }

/-- R210, R212, R279, R282, R328: a request from outside reads on-chip memory under its qualifier, with the poison of what it reads, or
waits among the other accesses; it writes with the poison of its granules; a waiting one is performed when its granules are full;
and one of main memory reads past no pinned line, which answers retry, and waits while its stack is in self-refresh. -/
def Claims.RemoteRequests : Prop :=
  ∀ (s : State) (place n : Nat) (bytes : List Byte) (fe : BitVec 2) (strand : Nat) (cls : BitVec 3) (bad : List Nat) (g : Nat),
    let quiet := fun (i : Instr) (y : State) => exec i s = .next y
    let ask : RemoteReq := .read place n fe strand cls
    let free := fe = 2 → s.takeFree (s.ticks, strand, cls.toNat) (granules place n) = true
    let answered := fun (y : State) (r : List Byte × Bool) =>
      ({ y with sys := { y.sys with replies := y.sys.replies ++ [r] } } : State)
    let waiting : State := { s with sys := { s.sys with remoteWaits := s.sys.remoteWaits ++ [⟨ask, s.ticks, s.now⟩] } }
    let read := fun (y : State) =>
      let z := answered y (s.chipRead place n)
      if fe = 2 then z.setFull (granules place n) false else z
    (isMain place = false →
      (fe = 0 ∨ (s.allFull (granules place n) = true ∧ free) → quiet (.remoteRequest ask) (read s)) ∧
      (fe ≠ 0 → s.allFull (granules place n) = false ∨ ¬ free → quiet (.remoteRequest ask) waiting) ∧
      (∀ since time, (∀ j : Fin 4, s.strands[j].placed = none) → s.sys.remoteWaits = [⟨ask, since, time⟩] → s.waiters = [] →
        s.allFull (granules place n) = true → quiet .fullEmptyWake (read { s with sys := { s.sys with remoteWaits := [] } })) ∧
      (Inv s → ∃ t, exec (.remoteRequest (.write place bytes bad fe)) s = .next t ∧ t.mem = cellsWrite s.mem place bytes ∧
        t.full = (s.feStore fe (granules place bytes.length)).full ∧
        (t.granulePoisoned g = if g ∈ granules place bytes.length
          then decide (g ∈ bad) || (!covers 16 place bytes.length g && s.granulePoisoned g) else s.granulePoisoned g) ∧
        { t with mem := s.mem, full := s.full, poison := s.poison } = s)) ∧
    (isMain place = true →
      ((∃ l ∈ linesOf place n, s.stackHeld (l * 64) = true) → quiet (.remoteRequest ask) waiting) ∧
      ((∀ l ∈ linesOf place n, s.stackHeld (l * 64) = false) →
        ((∃ l ∈ s.near, l.line ∈ linesOf place n ∧ l.pins ≠ []) → quiet (.remoteRequest ask) s) ∧
        ((∀ l ∈ s.near, l.line ∉ linesOf place n) →
          quiet (.remoteRequest ask) (answered s (cellsRead s.mem place n, (linesOf place n).any s.linePoisoned)))))

/-- R284: an access whose partner is lost completes with the lost flag of its class: an atomic leaves memory alone and answers all
ones; a gather of which only lost elements are left ends, and nothing but its own local elements changes.  (Which bytes those then
hold is open: assumption 69.) -/
def Claims.LostPartners : Prop :=
  ∀ (s : State) (k : Fin 4) (e : QEntry) (q : Itq),
    let y : State := { s with cur := k }
    s.strands[k].placed.isSome = true → s.strands[k].queue = [e] → s.orphans = [] →
    (∀ (d : BitVec 5) (size : BitVec 1) (loc : BitVec 9) (ord : BitVec 2) (scope : BitVec 3) (sc : BitVec 5) (op : BitVec 4),
      e.instr = .amo q d 1 size loc ord scope sc op → e.handles.any s.farHandle = true → y.readyIn [] e = true →
      ∀ i : Instr, i = .partnerLost k false ∨ i = .abandonFlitArrival k false →
        ∃ t, exec i s = .next t ∧ t.strands[k].queue = [] ∧ t.strands[k].lostScalar = true ∧ t.mem = s.mem ∧
          (d ≠ 0 → t.strands[k].getS d = 0xFFFFFFFFFFFFFFFF)) ∧
    (∀ (a : BitVec 3) (sp : BitVec 2) (ai : BitVec 3) (isp : BitVec 2) (sn : BitVec 5) (esz : BitVec 3) (lfe rfe : BitVec 2)
      (left : List Piece),
      e.instr = .cgath q a sp ai isp sn esz lfe rfe → s.strands[k].gather = [(e.num, left)] → left ≠ [] →
      (∀ x ∈ left, ∃ l p n, x = .elem l p n ∧ s.isLost (deviceOf p) = true) → Inv s →
      ∃ t, exec (.partnerLost k true) s = .next t ∧ t.strands[k].queue = [] ∧ t.strands[k].gather = [] ∧
        t.strands[k].lostNet = true ∧ t.full = s.full ∧
        ∀ m, (∀ l p n, Piece.elem l p n ∈ left → m < l ∨ l + n ≤ m) → cellGet t.mem m = cellGet s.mem m)

/-- R276, R279, R280, R282, R284, R210, R212, R328: what befalls the memories from outside. -/
def Obligations.MemoryEvents : Prop :=
  Claims.BufferEvents ∧ Claims.RemoteRequests ∧ Claims.LostPartners

/-! ## Events of boot and management (R209, R337, R348, R352) -/

/-- R209, R339, R348, R352: reset empties the slots and the memories, takes the holdover time of module flash (10 s when it names
none) and boots the images in their order; in recovery the first missing image is accepted; a report lists the measurement of
every loaded image; a summary tells what the machine holds, core by core and die by die, and its bytes are written into the buffer
that the command names, and nowhere else, at once or when a pinned line or a stack in self-refresh lets them.  (That memory lists
nothing after reset, that slot A comes before slot B and a signature's outcome is data, what reset keeps, the layout of a summary,
so that its bytes are free values, and what the model knows of other cores and dies are the model's: assumptions 1, 82, 78, 94, 80.) -/
def Obligations.BootAndManagement : Prop :=
  ∀ (s : State) (f : FlashImages) (img : FlashImage) (buffer : Nat),
    let ok := fun (x : FlashImage) => x.rsaOk = true ∧ x.slhOk = true ∧ Config.rollbackCounter ≤ x.version
    let b := s.sys.boot
    let boots := fun (y : Boot) => { s with sys := { s.sys with boot := y } }
    (∃ t, exec (.reset f) s = .next t ∧ t.mem = [] ∧ t.full = [] ∧ t.poison = [] ∧ t.near = [] ∧ t.now = 0 ∧
      t.matrix = MatrixEngine.reset ∧ t.line = LineEngine.reset ∧ (∀ k : Fin 4, t.strands[k].placed = none) ∧
      t.sys.queues = [] ∧ t.sys.nodes = [] ∧ t.env = s.env ∧ t.sys.clock.locked = false ∧ t.sys.clock.placing = false ∧
      t.sys.clock.holdover = f.holdover.getD 10000000000 ∧ t.sys.clock.ptp = f.ptp ∧
      (ok f.security.1 → t.sys.boot.security = some f.security.1) ∧
      (¬ ok f.security.1 → ok f.security.2 → t.sys.boot.security = some f.security.2) ∧
      (¬ ok f.security.1 → ¬ ok f.security.2 →
        t.sys.boot.security = none ∧ t.sys.boot.ganymede = none ∧ t.sys.boot.loader = none ∧ t.sys.boot.recovery = true) ∧
      (ok f.security.1 → ok f.ganymede.1 → ok f.loader.1 →
        t.sys.boot = ⟨some f.security.1, some f.ganymede.1, some f.loader.1, false, [false, false, false]⟩)) ∧
    (b.recovery = true → ok img →
      (b.security = none → exec (.recoveryImage .security img) s = .next (boots { b with security := some img, recovery := b.ganymede.isNone || b.loader.isNone })) ∧
      (b.security.isSome = true → b.ganymede = none → exec (.recoveryImage .ganymede img) s = .next (boots { b with ganymede := some img, recovery := b.loader.isNone })) ∧
      (b.security.isSome = true → b.ganymede.isSome = true → b.loader = none →
        exec (.recoveryImage .loader img) s = .next (boots { b with loader := some img, recovery := false }))) ∧
    (∀ which, b.recovery = false ∨ ¬ ok img → exec (.recoveryImage which img) s = .next s) ∧
    (∃ t r, exec .attestationReport s = .next t ∧ t.sys.attestations = s.sys.attestations ++ [r] ∧
      (∀ x y z, b.security = some x → b.ganymede = some y → b.loader = some z →
        r.measures = [x.measure, y.measure, z.measure])) ∧
    (∃ t x, exec (.stateSummary buffer) s = .next t ∧ t.sys.summaries = s.sys.summaries ++ [x] ∧ x.buffer = buffer ∧
      x.time = s.now ∧ x.device = s.sys.device ∧ x.boot = b ∧ x.clock = s.sys.clock ∧ x.energy = s.sys.energy ∧
      x.cores.length = 384 ∧ x.logs.length = 4 ∧
      (∀ c, c < 384 → ∃ r, x.cores[c]? = some r ∧ r.hops.Perm (List.range 384) ∧
        r.hops.Pairwise (fun i j => hopOrder c i ≤ hopOrder c j) ∧
        (c = s.sys.gcore → r.placed = s.strands.toList.map (·.placed) ∧ r.retries = s.retries ∧ r.drains = s.drains) ∧
        (c ≠ s.sys.gcore → let o := s.farCore c
          r.placed = o.strands.toList.map (fun y => y.bind (·.strand.placed)) ∧ r.retries = o.retries ∧ r.drains = o.drains)) ∧
      (∀ d, d < 4 → ∃ r, x.logs[d]? = some r ∧ (d = s.die →
        r = ⟨s.sys.log.length, s.sys.ceCount, s.sys.log.head?.map (BitVec.extractLsb' 0 64)⟩)) ∧
      x.banks = s.sys.bankErrors ∧ x.refresh = s.sys.selfRefresh ∧ x.faults = s.sys.deadChannels ∧
      (∀ z ∈ s.sys.queues, ∃ r ∈ x.queues, r.queue = z.1 ∧ r.binding = z.2.binding ∧ r.head = z.2.head ∧ r.tail = z.2.tail) ∧
      t.strands = s.strands ∧ t.matrix = s.matrix ∧ t.line = s.line ∧ t.sys.nodes = s.sys.nodes ∧ t.sys.log = s.sys.log ∧
      let n := Config.summaryItem s.nfree 1024 + 1
      let bytes := (List.range n).map fun k => BitVec.ofNat 8 (Config.summaryItem s.nfree (1025 + k))
      let pinned := ∃ l ∈ s.near, l.line ∈ linesOf buffer n ∧ l.pins ≠ []
      let held := ∃ l ∈ linesOf buffer n, s.stackHeld (l * 64) = true
      (isMain buffer = true → pinned ∨ held → t.mem = s.mem ∧ t.near = s.near ∧
        t.sys.remoteWaits = s.sys.remoteWaits ++ [⟨.write buffer bytes [] 0, s.ticks, s.now⟩]) ∧
      (Inv s → isMain buffer = false ∨ (¬ pinned ∧ ¬ held) → cellsRead t.mem buffer n = bytes ∧
        (∀ a, isMain a = true → a < buffer ∨ buffer + n ≤ a → t.peek a = s.peek a) ∧
        (∀ a, isMain a = false → isMain buffer = false ∨ isMain (buffer + n) = true → a < buffer ∨ buffer + n ≤ a →
          cellGet t.mem a = cellGet s.mem a)))

/-! ## Events of dispatch (R293-R314) -/

/-- R293, R294, R296, R297, R299, R309, R344, R349: a binding that keeps their limits gives a queue empty rings, and another is not
made; a doorbell moves the tail; the record at the head of a ring is accepted by its op: a task that passes the checks of R297 and
has no predecessor becomes eligible, one that does not pass ends tainted with the check's reason, and one whose checks wait for
memory stays at the head; a release makes a held node eligible, and a cancel ends a held node tainted with reason 4 and forgets a
tainted one; an expert queue is configured.  (That the doorbell's value is a running count, and that a record of op 1, 2 or 3 that
breaks its layout is passed over, are the model's reading: assumptions 72, 57.) -/
def Claims.LaunchRecords : Prop :=
  ∀ (s y : State) (qn : BitVec 6) (b : QueueBinding) (tail : BitVec 64) (x q : Queue) (r : BitVec 512),
    s.firmware = true →
    let head := fun (op : Nat) => (s.consumed qn).headRecord qn = .ok (r, q, y) ∧ taskOp r = op
    let moved := fun (t : State) => t.queue qn = some { q with head := q.head + 1 }
    let named := fun (n : Node) => n.id.toNat = taskBits r 0 32 ∧ n.queue = qn
    let limits := 4 ≤ b.k ∧ b.k ≤ 16 ∧ b.mask.getLsbD 7 = false ∧
      (∀ ring k pair, b.trace = some (ring, k, pair) → ring.toNat % 4096 = 0 ∧ 6 ≤ k ∧ k ≤ 20 ∧ pair.toNat % 16 = 0) ∧
      ∀ e ∈ b.keys, e.1 < 384 * 4096 ∧ e.2 < 512
    (limits → ∃ t, exec (.launchQueueBinding qn b) s = .next t ∧ t.queue qn = some ⟨b, 0, 0, 0, 0, 0, 0, false⟩ ∧
      ∀ o, o ≠ qn → t.queue o = s.queue o) ∧
    (¬ limits → exec (.launchQueueBinding qn b) s = .next s) ∧
    (s.queue qn = some x → ∃ t, exec (.launchDoorbell qn tail) s = .next t ∧
      t.queue qn = some { x with tail := tail.toNat } ∧ ∀ o, o ≠ qn → t.queue o = s.queue o) ∧
    (∀ e, head 0 → y.checkRecord qn q r = .error e → exec (.taskRecordLaunch qn) s = .next (s.heldBy e)) ∧
    (∀ why, head 0 → y.checkRecord qn q r = .ok why → ∃ t, exec (.taskRecordLaunch qn) s = .next t ∧ moved t ∧
      (why = 0 → taskPreds r = [] → ∃ n ∈ t.sys.nodes, named n ∧ n.record = r ∧ n.stage = .eligible) ∧
      (why ≠ 0 → ∃ n ∈ t.sys.nodes, named n ∧ n.record = r ∧ n.stage = .finished ∧ n.verdict = 2 ∧ n.reason = why ∧
        n.fin = y.now)) ∧
    (head 1 → ∃ t, exec (.releaseHeldNode qn) s = .next t ∧ moved t ∧
      ∀ n ∈ y.sys.nodes, onlyNode r = true → n.stage = .held → n.start = none → named n →
        ∃ m ∈ t.sys.nodes, m.id = n.id ∧ m.queue = qn ∧ m.released = true ∧ m.stage = .eligible) ∧
    (head 2 → ∃ t, exec (.cancelHeldNode qn) s = .next t ∧ moved t ∧ (onlyNode r = true →
      (∀ n ∈ y.sys.nodes, n.stage = .held → named n →
        ∃ m ∈ t.sys.nodes, m.id = n.id ∧ m.queue = qn ∧ m.stage = .finished ∧ m.verdict = 2 ∧ m.reason = 4) ∧
      ∀ m ∈ t.sys.nodes, named m → m.stage ≠ .tainted)) ∧
    (head 3 → ∃ t, exec (.configureExpertQueue qn) s = .next t ∧ moved t ∧
      (expertOk r = true → t.expert (BitVec.ofNat 10 (taskBits r 0 10)) = some
        ⟨qn, BitVec.ofNat 56 (taskBits r 64 56), BitVec.ofNat 56 (taskBits r 128 56), taskBits r 192 16, taskBits r 208 16,
          taskBits r 256 64, [], 0⟩))

/-- R300, R302-R305, R331: the first eligible node of a queue, when it can be placed and no node of another queue goes first, takes its
slots at once, a core for each rank in the order of its home core's hop list: the core's share of the ranks its lowest free slots,
each strand in the entry state of R305 with its groups, and the other ranks those of other cores; the image is in the scratchpad, and
an idle core takes the node's context.  (What other cores offer is outside the model: assumption 80.) -/
def Claims.NodePlaced : Prop :=
  ∀ (s z : State) (qn : BitVec 6) (n : Node) (q : Queue) (p : Parts),
    s.firmware = true →
    let y := s.settle
    let root := bindingRoot q.binding
    let entry : BitVec 32 := BitVec.ofNat 32 (taskBits n.record 128 32)
    let args := match n.batch with | some x => x.1 | none => BitVec.ofNat 64 (taskBits n.record 192 64)
    let mine := (p.gang.zipIdx.filter fun x => decide (x.1 = s.sys.gcore)).map (·.2)
    firstEligible qn y.sys.nodes = some n → y.queue qn = some q → y.placeable q n = .ok (p, z) → y.goesFirst n = true →
    p.gang.length = n.count ∧
    (∃ home, y.homeCore root n = .ok home ∧ p.gang.Pairwise fun a b => hopOrder home a ≤ hopOrder home b) ∧
    ∃ t, exec (.nodePlacement qn) s = .next t ∧
      (∀ (j rank : Nat) (k : Fin 4), y.freeSlots[j]? = some k → mine[j]? = some rank →
        let u := t.strands[k]
        u.placed = some ⟨n.id, rank, n.count, n.queue, taskBits n.record 64 56, p.kernel.pages, p.kernel.textLen, entry, args,
          rankGroups p.groups rank⟩ ∧
        u.ident = y.sys.nextStrand + j ∧
        u.pc = entry ∧ u.priv = q.binding.priv ∧ u.root = root ∧ u.act = 0 ∧ u.getM 0 = 0xFFFFFFFF ∧ u.rstack = [] ∧
        u.intrap = false ∧ u.queue = [] ∧ u.depth = 0 ∧ u.exposed = true ∧ u.fmttrap = true ∧ u.trapvec = 0 ∧
        u.groups = rankGroups p.groups rank ∧
        (n.batch = none → u.getS 1 = BitVec.ofNat 64 (taskBits n.record 192 64) ∧
          ∀ r : BitVec 5, r ≠ 1 → u.getS r = 0) ∧
        (∀ x, n.batch = some x → u.getS 1 = x.1 ∧ u.getS 2 = x.2 ∧ ∀ r : BitVec 5, r ≠ 1 → r ≠ 2 → u.getS r = 0)) ∧
      (∀ k : Fin 4, (∀ j, j < mine.length → y.freeSlots[j]? ≠ some k) → t.strands[k] = y.strands[k]) ∧
      (∀ m ∈ t.sys.nodes, m.id = n.id → m.queue = n.queue → m.stage ≠ .eligible) ∧
      (∃ m ∈ t.sys.nodes, m.id = n.id ∧ m.queue = n.queue ∧ m.stage = .running ∧
        m.text = some (taskBits n.record 64 56, p.kernel.textLen, p.kernel.pages) ∧
        m.far = (p.gang.zipIdx.filter fun x => decide (x.1 ≠ s.sys.gcore)).map fun x => FarRank.start p.groups x.2 x.1) ∧
      (mine ≠ [] → y.idle = true → t.coreCtx = some root ∧ t.line = LineEngine.reset) ∧
      (mine ≠ [] → Inv s →
        cellsRead t.mem (chipPlace s.sys.device 0 s.sys.gcore p.kernel.imageAt) p.image.length = p.image)

/-- R295, R299, R310, R313, R314, R322: a finished node whose ring has room gets its completion record, and its error records go with
it: a clean one leaves the graph, a tainted one stays; and an expert queue fires when its tokens reach the threshold, or when its
oldest token is late, and not before. -/
def Claims.CompletionAndExperts : Prop :=
  ∀ (s : State) (qn : BitVec 6) (n : Node) (q : Queue) (u : State) (eq : BitVec 10) (x : ExpertQueue),
    s.firmware = true →
    let y := s.consumed qn
    let fires := fun (i : Instr) => exec i s = .next (s.fire eq x)
    let waits := fun (i : Instr) => exec i s = .next s
    (firstFinished qn y.sys.nodes = some n → y.queue qn = some q → q.hasRoom = true → y.traced n = true →
      y.fwWrite (bindingRoot q.binding) (pageFuel 32) (q.binding.compRing.toNat + 32 * (q.compTail % q.size))
        n.completion = .ok u →
      ∃ t, exec (.nodeCompletion qn) s = .next t ∧ t.mem = u.mem ∧
        t.queue qn = some { q with compTail := q.compTail + 1 } ∧
        t.sys.delivered = s.sys.delivered ++ n.errRecs.map (fun r => (n.queue, n.id, r)) ∧
        (n.verdict ≠ 2 → t.sys.nodes.length + 1 = s.sys.nodes.length) ∧
        (n.verdict = 2 → t.sys.nodes.length = s.sys.nodes.length ∧
          ∃ m ∈ t.sys.nodes, m.id = n.id ∧ m.queue = qn ∧ m.stage = .tainted)) ∧
    (s.expert eq = some x →
      (x.threshold ≤ x.tokens.length → fires (.expertQueueFire eq)) ∧
      (x.tokens.length < x.threshold → waits (.expertQueueFire eq)) ∧
      (x.tokens = [] → waits (.expertQueueTimeout eq)) ∧
      (x.timeout = 0 → waits (.expertQueueTimeout eq)) ∧
      (∀ v at_ rest, x.tokens = (v, at_) :: rest →
        (x.timeout ≠ 0 → at_.toNat + x.timeout ≤ s.now.toNat → fires (.expertQueueTimeout eq)) ∧
        (s.now.toNat < at_.toNat + x.timeout → waits (.expertQueueTimeout eq)))) ∧
    (∀ (b : List Byte) (v w : State) (why : BitVec 8),
      let z := s.consumed x.via
      let area := x.buffer.toNat + x.firings % 2 * 8 * x.capacity
      let r := BitVec.ofNat 512 (leNat b)
      let id := firingId r x.firings
      let mine := BitVec.ofNat 512 (r.toNat / 2 ^ 32 * 2 ^ 32 + id.toNat)
      let full : State := { w with
        sys := { w.sys with experts := putExpert eq.toNat { x with tokens := [], firings := x.firings + 1 } w.sys.experts } }
      z.queue x.via = some q → q.hasRoom = true → x.firings < 2 → s.expert eq = some x →
      z.fwRead (bindingRoot q.binding) (pageFuel 64) x.template.toNat 64 = .ok (b, v) →
      v.fwWrite (bindingRoot q.binding) (pageFuel (8 * x.tokens.length)) area
        (x.tokens.flatMap fun t => leBytes 8 t.1.toNat) = .ok w →
      full.checkRecord x.via q mine = .ok why →
      (s.fire eq x).mem = w.mem ∧
      (s.fire eq x).expert eq = some { x with tokens := [], firings := x.firings + 1 } ∧
      ∃ m ∈ (s.fire eq x).sys.nodes, m.id = BitVec.ofNat 32 (taskBits r 0 32 + x.firings) ∧ m.queue = x.via ∧
        m.batch = some (BitVec.ofNat 64 area, BitVec.ofNat 64 x.tokens.length) ∧
        (why ≠ 0 → m.stage = .finished ∧ m.verdict = 2 ∧ m.reason = why))

/-- R293-R314: launch, placement and completion.  (That error records are delivered by entering the list of them is the model's
choice: assumption 59.) -/
def Obligations.DispatchEvents : Prop :=
  Claims.LaunchRecords ∧ Claims.NodePlaced ∧ Claims.CompletionAndExperts

/-! ## Events of time, energy and trace (R337-R347) -/

/-- R338-R340: the counter steps forward only when it is 1 ms or more behind, and is slewed otherwise (in what a step of time does
with the offset: assumption 54), and the sleeps whose deadline it has then reached end as at their deadline; the firmware places
nodes once the holdover time is over, unless the counter is locked; and a sleep ends at its deadline and not before, whatever the
other strands wait for (the pass over every strand: assumption 70). -/
def Claims.ClockEvents : Prop :=
  ∀ (s : State) (offset : Int),
    let gives := fun (i : Instr) (y : State) => exec i s = .next y
    let ck := s.sys.clock
    let clocked := fun (y : State) (c : Clock) => ({ y with sys := { y.sys with clock := c } } : State)
    let set := { ck with locked := true, placing := true, grandmaster := false, carry := 0 }
    let after := if 1000000 ≤ offset then clocked { s with now := s.now + BitVec.ofInt 64 offset } { set with slew := 0 }
      else clocked s { set with slew := offset }
    (ck.locked = false → ck.holdover ≤ s.now.toNat → gives .holdoverExpiry (clocked s { ck with placing := true })) ∧
    (ck.locked = true ∨ s.now.toNat < ck.holdover → gives .holdoverExpiry s) ∧
    gives .noBetterClockAnnounced (clocked s { ck with grandmaster := true }) ∧
    exec (.ptpMessage offset) s = exec .sleepDeadline after ∧
    ((∀ k : Fin 4, s.strands[k].placed = none ∨ s.strands[k].queue = []) → gives (.ptpMessage offset) after) ∧
    (∀ (k : Fin 4) (e : QEntry) (q : Itq) (sa : BitVec 5) (d : BitVec 64),
      let y : State := { s with cur := k }
      let sleeps := fun (j : Fin 4) (e : QEntry) (q : Itq) (sa : BitVec 5) (d : BitVec 64) =>
        s.strands[j].queue = [e] ∧ s.strands[j].sleeping = some d ∧ e.instr = .slpat q sa ∧ e.held = false ∧ e.caps = [.s d]
      Calm { y.updMe fun u => { u with queue := [], sleeping := none } with cur := k } →
      (∀ j : Fin 4, j ≠ k → s.strands[j].placed = none ∨ s.strands[j].queue = [] ∨
        ∃ e q sa d, sleeps j e q sa d ∧ s.now < d) →
      sleeps k e q sa d →
      (d ≤ s.now → ∃ t, exec .sleepDeadline s = .next t ∧ t.strands[k].queue = [] ∧ t.strands[k].sleeping = none ∧
        ∀ j : Fin 4, j ≠ k → t.strands[j] = s.strands[j]) ∧
      (s.now < d → exec .sleepDeadline s = .next s))

/-- R346, R347, R313: once a microsecond has ended, the energy of each die goes to the nodes in proportion to their slots' time there,
what a node that has ended would have had among it, whose own ENERGY stands; once the counter has
come to the next multiple of the interval, the budget is restored, and a command of 1 ms to 1 s applies from there.  (How much energy
an interval takes is open: assumption 13.  That a command with another interval changes nothing is the model's choice:
assumption 96.) -/
def Claims.EnergyEvents : Prop :=
  ∀ (s : State) (interval budget : Nat),
    let gives := fun (i : Instr) (y : State) => exec i s = .next y
    let en := s.sys.energy
    let powered := fun (x : EnergyState) => ({ s with sys := { s.sys with energy := x } } : State)
    (s.now.toNat / 1000 ≤ en.taken → gives .energyIntegration s) ∧
    (en.taken < s.now.toNat / 1000 → ∃ t, exec .energyIntegration s = .next t ∧
      let e := fun (d : Fin 4) => Config.dieEnergy s.nfree d.val
      let all := fun (d : Fin 4) => (s.sys.nodes.map fun n => n.slotTime[d]).sum + en.gone[d]
      (∀ d : Fin 4, t.sys.energy.meter[d] = en.meter[d] + e d ∧ t.sys.energy.gone[d] = 0) ∧
      t.sys.energy.taken = s.now.toNat / 1000 ∧
      t.sys.energy.remaining = en.remaining ∧ t.sys.energy.begun = en.begun ∧
      t.sys.nodes = s.sys.nodes.map (fun n =>
        { n with
          energy := if n.stage = .finished ∨ n.stage = .tainted then n.energy
            else n.energy + BitVec.ofNat 64 ((List.finRange 4).map fun d => e d * n.slotTime[d] / max (all d) 1).sum
          slotTime := Vector.replicate 4 0 }) ∧
      { t with nfree := s.nfree, sys := s.sys } = s) ∧
    (s.now.toNat / en.interval ≤ en.begun → gives .energyIntervalStart s) ∧
    (en.begun < s.now.toNat / en.interval →
      (en.next = none → gives .energyIntervalStart
        (powered { en with remaining := en.budget, begun := s.now.toNat / en.interval })) ∧
      (∀ i b, en.next = some (i, b) → gives .energyIntervalStart
        (powered { en with interval := i, budget := b, next := none, remaining := b, begun := s.now.toNat / i }))) ∧
    (1000000 ≤ interval → interval ≤ 1000000000 →
      gives (.energyConfig interval budget) (powered { en with next := some (interval, budget) })) ∧
    (interval < 1000000 ∨ 1000000000 < interval → gives (.energyConfig interval budget) s)

/-- R342, R344: the oldest trace record goes to its ring, and is dropped when the ring is unbound, or full by a fresh reading of its
head index: tail − head is 2^k modulo 2^64; a record whose write waits stays.  (Which records stand outside the buffer behind a TRC of
their strand is the model's reading of R345: assumption 68.) -/
def Claims.TraceMoves : Prop :=
  ∀ s : State,
    let gives := fun (y : State) => exec .traceRecordMove s = .next y
    ((∀ x ∈ s.trace, s.traceWaits x = true) → gives s) ∧
    (∀ before r rest, s.trace = before ++ r :: rest → (∀ x ∈ before, s.traceWaits x = true) → s.traceWaits r = false →
      let left := before ++ rest
      (s.queue r.queue = none → gives { s with trace := left }) ∧
      (∀ q, s.queue r.queue = some q →
        let full := fun (k head : Nat) => BitVec.ofNat 64 q.traceTail - BitVec.ofNat 64 head = BitVec.ofNat 64 (2 ^ k)
        (q.binding.trace = none → gives { s with trace := left }) ∧
        (∀ ring k pair, q.binding.trace = some (ring, k, pair) →
          let read := fun (y : State) (bytes : List Byte) => full k q.traceHead ∧
            s.fwRead (bindingRoot q.binding) (pageFuel 8) pair.toNat 8 = .ok (bytes, y)
          (∀ head x, (¬ full k q.traceHead ∧ head = q.traceHead ∧ x = s) ∨ (∃ b, read x b ∧ head = leNat b ∧ ¬ full k head) →
            let bytes := leBytes 8 r.time.toNat ++ leBytes 8 r.a.toNat ++ leBytes 8 r.b.toNat ++
              leBytes 8 (r.source ||| (if q.traceLost then 0x8000 else 0)).toNat
            let wrote := x.fwWrite (bindingRoot q.binding) (pageFuel 32) (ring.toNat + 32 * (q.traceTail % 2 ^ k)) bytes
            (∀ e, wrote = .error e → gives (s.heldBy e)) ∧
            (∀ y z, wrote = .ok y →
              y.fwWrite (bindingRoot q.binding) (pageFuel 8) (pair.toNat + 8) (leBytes 8 (q.traceTail + 1)) = .ok z →
              ∃ t, exec .traceRecordMove s = .next t ∧ t.mem = z.mem ∧ t.trace = left ∧
                t.queue r.queue = some { q with traceTail := q.traceTail + 1, traceHead := head, traceLost := false })) ∧
          (∀ b y, read y b → full k (leNat b) →
            ∃ t, exec .traceRecordMove s = .next t ∧ t.mem = y.mem ∧ t.trace = left ∧
              t.queue r.queue = some { q with traceHead := leNat b, traceLost := true }))))

/-- R338-R347: time, energy and trace. -/
def Obligations.TimeEvents : Prop :=
  Claims.ClockEvents ∧ Claims.EnergyEvents ∧ Claims.TraceMoves

/-! ## Events of HBM4 (R326-R328) -/

/-- R326, R327, R328: parity alerts are counted and logged, and a command that fails four times poisons its line, a write among
them being dropped; a scrub counts corrected rows, charged to no node, and a channel whose remap table failed has every line
poisoned, and kills every context with a page on it, and no other (pages as the tables in memory map them, and reason 0x24 for
each of its nodes: assumption 76); a stack in
self-refresh holds its requests until it leaves, when they are performed, and one held for 50 ms is reported once.  (Which bytes a
write that has already landed then leaves is open: assumption 75.) -/
def Obligations.HbmEvents : Prop :=
  ∀ (s : State) (stack channel bank line fails : Nat) (write : Bool),
    Inv s →
    let held := fun (t : State) => ∀ p, mainDevice p = s.sys.device → stackOf p = stack → t.stackHeld p = true
    let free := fun (t : State) => ∀ p, stackOf p = stack → t.stackHeld p = false
    let others := fun (t : State) => ∀ p, stackOf p ≠ stack → t.stackHeld p = s.stackHeld p
    let late := fun (time : BitVec 64) => time.toNat + 50000000 ≤ s.now.toNat
    let gone := write = true ∧ 4 ≤ fails
    let buffered := ∃ l ∈ s.near, l.line = line
    (∃ t, exec (.hbmParityAlert stack channel line write fails) s = .next t ∧
      t.sys.ceCount.toNat = min (s.sys.ceCount.toNat + min fails 3) 0xFFFFFFFF ∧
      (¬ gone → t.mem = s.mem ∧ t.near = s.near) ∧
      (gone → buffered → t.mem = s.mem ∧ t.near = s.near.filter fun l => decide (l.line ≠ line)) ∧
      (gone → ¬ buffered → t.near = s.near ∧ ∀ a, a / 64 ≠ line → cellGet t.mem a = cellGet s.mem a) ∧
      (4 ≤ fails → t.linePoisoned line = true) ∧
      (∀ l, l ≠ line ∨ fails < 4 → t.linePoisoned l = s.linePoisoned l)) ∧
    exec (.hbmScrub (.clean stack bank)) s = .next s ∧
    (∃ t, exec (.hbmScrub (.corrected stack bank)) s = .next t ∧ { t with sys := s.sys, nfree := s.nfree } = s ∧
      t.sys.ceCount.toNat = min (s.sys.ceCount.toNat + 1) 0xFFFFFFFF ∧ t.sys.nodes = s.sys.nodes ∧
      (bank < 256 → (s.sys.bankErrors.map (·.1)).Nodup →
        let count := fun (y : State) => (y.sys.bankErrors.find? fun x => decide (x.1 = stack * 256 + bank)).map (·.2)
        count t = some (match count s with | some c => c + 1 | none => 1))) ∧
    (channel < 384 → channel ∉ s.sys.deadChannels →
      let maps := fun (b : Option QueueBinding) => ∃ x, b = some x ∧ s.contextOnChannel x channel = true
      let bound := fun (n : Node) => (s.queue n.queue).map (·.binding)
      ∃ t, exec (.hbmScrub (.remapTable channel)) s = .next t ∧ t.mem = s.mem ∧
        (∀ l, mainDevice (l * 64) = s.sys.device → channelOf (l * 64) = channel → t.linePoisoned l = true) ∧
        (∀ l, channelOf (l * 64) ≠ channel → t.linePoisoned l = s.linePoisoned l) ∧
        (∀ k : Fin 4, maps (s.binding s.strands[k]) → t.strands[k].placed = none ∧ t.strands[k].queue = []) ∧
        (∀ (k : Nat) (h : k < s.sys.nodes.length), let n := s.sys.nodes[k]
          n.stage = .running → maps (bound n) →
          ∃ m, t.sys.nodes[k]? = some m ∧ m.stage = .finished ∧ m.verdict = 2 ∧ m.reason = 0x24 ∧ m.fin = s.now ∧
            m.errRecs.length = n.errRecs.length + 1) ∧
        ((s.sys.queues.map (·.1)).Nodup → (∀ q ∈ s.sys.queues, q.1 < 64) →
          (∀ k : Fin 4, ¬ maps (s.binding s.strands[k]) → t.strands[k] = s.strands[k]) ∧
          (∀ (k : Nat) (h : k < s.sys.nodes.length), ¬ maps (bound s.sys.nodes[k]) → t.sys.nodes[k]? = some s.sys.nodes[k]))) ∧
    (∃ t, exec (.criticalTemperature stack) s = .next t ∧ held t ∧ { t with sys := s.sys } = s ∧
      (setSorted s.sys.selfRefresh → others t)) ∧
    (setSorted s.sys.selfRefresh → ∃ t, exec (.selfRefreshExit stack) s = .next t ∧ free t ∧ others t ∧
      (s.sys.remoteWaits = [] → { t with sys := s.sys } = s) ∧
      (∀ p n fe strand cls since time, s.sys.remoteWaits = [⟨.read p n fe strand cls, since, time⟩] → isMain p = true →
        (∀ l ∈ linesOf p n, stackOf (l * 64) = stack) → s.near = [] →
        t.sys.remoteWaits = [] ∧ t.sys.replies = s.sys.replies ++ [(cellsRead s.mem p n, (linesOf p n).any s.linePoisoned)])) ∧
    (stack ∈ s.sys.selfRefresh → stack ∉ s.sys.stalled → (∃ time, (stack, time) ∈ s.sys.holding ∧ late time) →
      ∃ t, exec (.stallReport stack) s = .next t ∧ stack ∈ t.sys.stalled ∧
        (s.sys.log.length < 256 → t.sys.log.length = s.sys.log.length + 1) ∧
        exec (.stallReport stack) t = .next t) ∧
    (stack ∉ s.sys.selfRefresh ∨ (s.sys.remoteWaits = [] ∧ ∀ time, (stack, time) ∈ s.sys.holding → ¬ late time) →
      exec (.stallReport stack) s = .next s)

/-! ## Encoding -/

/-- R12-R32: the decoder reads back every well-formed instruction from the words that encode it, whatever words follow it; in
user mode one of the privileged opcodes is refused, and every other is read the same. -/
def Obligations.DecodeOfEncode : Prop :=
  ∀ (i : Instr) (rest : List Word), i.isWord = true → i.wf = true →
    decode true (encode i ++ rest) = .ok i ∧ (encode i).length = i.words ∧
    (inPrivRange ((encode i).headD 0) = false → decode false (encode i ++ rest) = .ok i) ∧
    (inPrivRange ((encode i).headD 0) = true → decode false (encode i ++ rest) = .error (fail .privileged))

/-- R32: what the decoder reads is well formed, is an instruction word, and its encoding begins the words it was read from. -/
def Obligations.EncodeOfDecode : Prop :=
  ∀ (priv : Bool) (ws : List Word) (i : Instr), decode priv ws = .ok i →
    i.wf = true ∧ i.isWord = true ∧ encode i <+: ws

/-- R20-R26 and the worked encodings of the chapters: words written out in the spec decode to the instructions they stand
for, one or more of every engine. -/
def Obligations.FixedWords : Prop :=
  decodeTableWord 32 0x00230880 = some (.add .every 3 1 2) ∧
  decodeTableWord 32 0x04990000 = some (.br .every 3 1 0) ∧
  decodeTableWord 32 0x30650838 = some (.vfma .last 10 4 7) ∧
  decodeTableWord 32 0x27411211 = some (.vld .every 2 1 0 2 1 1) ∧
  decodeTableWord 64 0xE4000000408000F8 = some (.mmul .every 0 0 0 7 1 1 0 1 0 0 0) ∧
  decodeTableWord 32 0x600EA000 = some (.qcfg .every 7 0 2 1 0) ∧
  decodeTableWord 64 0xE2000000803D1000 = some (.lnfit .every 58 1 0 1) ∧
  decodeTableWord 64 0xE4000000A1345330 = some (.sisect .every 20 10 12 1 1 0 2 0 0 0 0) ∧
  decodeTableWord 32 0xC16A9000 = some (.trn .every 5 9) ∧
  decodeTableWord 32 0xC643542C = some (.ctxsvStrand .every 3 10 8 11) ∧
  decodeTableWord 32 0xE0000000 = none

/-! ## The step -/

/-- R32, R38, R40, R68: when no event has come and the current strand's splitter is free, the step decodes the words at the PC
(their lines enter the instruction cache, R38).  A word that passes the tests of R32 and whose qualifier lets it through is run
by `exec`, and the engines pass over the strand's queues; a word that its qualifier holds back is passed over.  Then time goes
on and the next strand has its turn (assumption 6).  Words that fail a test raise trap 0x01 with the head word and the test's reason
in TRAPDATA, and a fetch outside the text is fatal context error 0x22 (R32, R298; of which comes first: assumption 67). -/
def Claims.StepRunsDecoded : Prop :=
  ∀ (s : State) (i : Instr) (w : Word),
    let e := s.evictLines
    let st := s.me
    let a := st.pc.toNat
    let ready := e.cacheText a (e.lengthAt a)
    s.env.inputs = [] → st.placed.isSome = true → st.inject = [] → st.blocked = false →
    e.textWord a = some w → e.fetchStop a (e.lengthAt a) = none →
    e.testWaits e.wordsHere = false → decode st.priv e.wordsHere = .ok i → st.qualifierBad w = false → st.valueOk i = true → e.placementBad i = false →
    st.eretOutside i = false →
    (st.qualified i = true → step s = ticked (enginesAfter (exec i ready))) ∧
    (st.qualified i = false →
      step s = ticked (enginesAfter (.next (ready.updMe fun u => u.moveOn st.pc i.words st.xfer)))) ∧
    ready.strands = s.strands ∧ ready.mem = s.mem ∧ ready.cur = s.cur

/-- The same for words that fail a test of R32, and for a PC outside the text (R298). -/
def Claims.StepStopsSplit : Prop :=
  ∀ (s : State) (w : Word) (f : Failure),
    let e := s.evictLines
    let st := s.me
    let a := st.pc.toNat
    let data := w.toNat * 2 ^ 32 + (if f.follow then 256 else 0) + f.reason.code.toNat
    s.env.inputs = [] → st.inject = [] → st.blocked = false →
    (e.textWord a = some w → e.fetchStop a (e.lengthAt a) = none → st.placed.isSome = true →
      e.testWaits e.wordsHere = false → e.tests e.wordsHere = .error f → e.missedWord f = none →
      step s = ticked (enginesAfter (.next ((e.cacheText a (e.lengthAt a)).takeTrap ⟨0x01, BitVec.ofNat 64 data⟩ noWord st.pc st.pc
        (st.queue.map fun x => (x, false)))))) ∧
    (∀ pl, st.placed = some pl → e.textWord a = none →
      step s = ticked (enginesAfter (.next (e.fatalError .protection noWord st.pc (BitVec.ofNat 64 (pl.codeVa + 64 + a))))))

/-- An event that has arrived is taken before a word (the model's choice: assumption 20). -/
def Claims.StepTakesEvent : Prop :=
  ∀ (s : State) (i : Instr) (rest : List Instr), s.env.inputs = i :: rest → i.isWord = false →
    step s = ticked (exec i { s with env := { s.env with inputs := rest } })

/-- R50, R337, R338: after every step the counter has moved on by the step's nanoseconds and what is slewed out in them, at most 500
parts per million, with what is less than a nanosecond carried on; three cycles have passed for each; and the next strand has its
turn.  Nothing else moves where no word outlives its strand, no line is on a link, no access wakes and nothing comes from outside.
(Assumptions 6 and 54.) -/
def Claims.StepTicks : Prop :=
  ∀ s : State, s.orphans = [] → s.links = [] → s.wakes = false → (∀ l ∈ s.near, l.bytes ≠ []) →
    (∀ n ∈ s.sys.nodes, n.dropping = []) →
    s.env.upsets = [] → s.env.stray = [] → s.env.others = [] → s.env.away = [] → s.env.dies = [] →
    let n := s.env.pace.headD 1
    let ck := s.sys.clock
    let most : Int := ((n * 500 + ck.carry) / 1000000 : Nat)
    ∃ t, ticked (.next s) = .next t ∧ t.cycle = s.cycle + 3 * n ∧
      t.now = s.now + BitVec.ofInt 64 (n + (ck.slew - t.sys.clock.slew)) ∧
      (-most ≤ ck.slew → ck.slew ≤ most → t.sys.clock.slew = 0 ∧ t.sys.clock.carry = 0) ∧
      (most < ck.slew → t.sys.clock.slew = ck.slew - most ∧ t.sys.clock.carry = (n * 500 + ck.carry) % 1000000) ∧
      (ck.slew < -most → t.sys.clock.slew = ck.slew + most ∧ t.sys.clock.carry = (n * 500 + ck.carry) % 1000000) ∧
      t.cur = s.env.turns.headD (s.cur + 1) ∧ t.mem = s.mem ∧ t.near = s.near ∧ t.line = s.line ∧ t.full = s.full ∧
      t.poison = s.poison ∧ ∀ k : Fin 4, { t.strands[k] with queue := s.strands[k].queue } = s.strands[k]

/-- R32, R38, R40, R50, R68, R298, R337, R338: what a step does around an instruction. -/
def Obligations.StepRunsDecoded : Prop :=
  Claims.StepRunsDecoded ∧ Claims.StepStopsSplit ∧ Claims.StepTakesEvent ∧ Claims.StepTicks

/-- R154, R155, R174, R175, R181, R209, R226, R333, R337: what reset leaves. -/
def Obligations.ResetValues : Prop :=
  let s := State.reset
  (∀ g, setHas s.full g = false ∧ s.granulePoisoned g = false) ∧ s.now = 0 ∧ s.codebook = 0 ∧
  s.sys.ceCount = 0 ∧ s.sys.log = [] ∧ s.retries = 0 ∧ s.drains = 0 ∧ s.matrix.gang = 0 ∧
  (∀ (k : Nat) (_ : k < 16), s.matrix.slots[k] = 0xF ∧ s.matrix.tiles[k].tag = 0 ∧
    s.matrix.tiles[k].poison = false ∧ s.matrix.tiles[k].ovf = false) ∧
  (∀ (k : Nat) (_ : k < 8) (r c : Nat), r < 128 → c < 64 → let m := s.matrix.macros[k]
    m.active = 0 ∧ m.shadow.fmt = .b8 ∧ m.live.fmt = .b8 ∧ m.shadow.sparse = false ∧ m.live.sparse = false ∧
    m.shadow.bits r c = 0 ∧ m.live.bits r c = 0 ∧ m.shadow.poison = 0 ∧ m.live.poison = 0) ∧
  (∀ f, s.line.rec_ f = emptyLine ∧ s.line.fn f = 0 ∧ s.line.tau f = 0 ∧ s.line.count f = 0) ∧
  s.line.refresh = [] ∧ s.line.ovf = false

/-- Reset satisfies the invariant. -/
def Obligations.ResetInvariant : Prop := Inv State.reset

/-- Every step keeps the canonical forms of memory, of the sets of granules and lines, of the near buffer and the lines on the links,
and of the line engine's tables. -/
def Obligations.StepKeepsInvariant : Prop := ∀ s t : State, Inv s → step s = .next t → Inv t

/-- R3, R210, R212, R276: what is written reads back, byte by byte, and nothing else changes: in memory, in the poison and
full-empty bits of granules, and through the near buffer.  Memories that read the same are the same. -/
def Obligations.WritesReadBack : Prop :=
  ∀ (s : State) (m m' : List Host.Cell) (p n v : Nat) (b : List Byte) (poison : Bool) (kind : BitVec 2) (g : Nat),
    (Memory.wf m = true → Memory.wf (cellsWrite m p b) = true ∧ cellsRead (cellsWrite m p b) p b.length = b ∧
      ∀ a, cellGet (cellsWrite m p b) a = if p ≤ a ∧ a < p + b.length then b.getD (a - p) 0 else cellGet m a) ∧
    (Memory.wf m = true → Memory.wf m' = true → (∀ a, cellGet m a = cellGet m' a) → m = m') ∧
    leNat (leBytes n v) = v % 256 ^ n ∧
    (Inv s → (s.chipWrite p b poison).granulePoisoned g =
      if g ∈ granules p b.length then poison || (!covers 16 p b.length g && s.granulePoisoned g)
      else s.granulePoisoned g) ∧
    (∀ gs on, Inv s → setHas (s.setFull gs on).full g = if g ∈ gs then on else setHas s.full g) ∧
    (Inv s → 0 < b.length → p % 64 + b.length ≤ 64 → isMain (p + 63) = true →
      (s.stored kind p b).peeks p b.length = b ∧
      ∀ a, a < p ∨ p + b.length ≤ a → (s.stored kind p b).peek a = s.peek a)
end

