-- ==== Sys2Proof/Laws/State.lean ====
section
/-! SUPPORT. Field by update: what each write of a register or of the current strand leaves as it was. -/

namespace Sys2Proof.Machine

/-! ## The current strand of a state -/

@[simp] theorem State.setMe_me (s : State) (t : Strand) : (s.setMe t).me = t := by
  simp [State.setMe, State.me]

@[simp] theorem State.updMe_me (s : State) (f : Strand → Strand) : (s.updMe f).me = f s.me := by
  simp [State.updMe]

@[simp] theorem State.setMe_self (s : State) : s.setMe s.me = s := by
  simp [State.setMe, State.me]

@[simp] theorem State.setMe_setMe (s : State) (t u : Strand) : (s.setMe t).setMe u = s.setMe u := by
  simp [State.setMe]

theorem State.updMe_updMe (s : State) (f g : Strand → Strand) : (s.updMe f).updMe g = s.updMe fun t => g (f t) := by
  simp [State.updMe]

theorem State.setMe_other (s : State) (t : Strand) (k : Fin 4) (h : k ≠ s.cur) :
    (s.setMe t).strands[k] = s.strands[k] := by
  have : s.cur.val ≠ k.val := fun e => h (Fin.ext e.symm)
  simp [State.setMe, this]

@[simp] theorem State.setMe_cur (s : State) (t : Strand) : (s.setMe t).cur = s.cur := rfl
@[simp] theorem State.updMe_cur (s : State) (f : Strand → Strand) : (s.updMe f).cur = s.cur := rfl
@[simp] theorem State.setMe_served (s : State) (t : Strand) : (s.setMe t).served = s.served := rfl
@[simp] theorem State.updMe_served (s : State) (f : Strand → Strand) : (s.updMe f).served = s.served := rfl
@[simp] theorem State.setMe_orphans (s : State) (t : Strand) : (s.setMe t).orphans = s.orphans := rfl
@[simp] theorem State.updMe_orphans (s : State) (f : Strand → Strand) : (s.updMe f).orphans = s.orphans := rfl
@[simp] theorem State.setMe_links (s : State) (t : Strand) : (s.setMe t).links = s.links := rfl
@[simp] theorem State.updMe_links (s : State) (f : Strand → Strand) : (s.updMe f).links = s.links := rfl
@[simp] theorem State.setMe_matrix (s : State) (t : Strand) : (s.setMe t).matrix = s.matrix := rfl
@[simp] theorem State.updMe_matrix (s : State) (f : Strand → Strand) : (s.updMe f).matrix = s.matrix := rfl
@[simp] theorem State.setMe_line (s : State) (t : Strand) : (s.setMe t).line = s.line := rfl
@[simp] theorem State.updMe_line (s : State) (f : Strand → Strand) : (s.updMe f).line = s.line := rfl
@[simp] theorem State.setMe_codebook (s : State) (t : Strand) : (s.setMe t).codebook = s.codebook := rfl
@[simp] theorem State.updMe_codebook (s : State) (f : Strand → Strand) : (s.updMe f).codebook = s.codebook := rfl
@[simp] theorem State.setMe_mem (s : State) (t : Strand) : (s.setMe t).mem = s.mem := rfl
@[simp] theorem State.updMe_mem (s : State) (f : Strand → Strand) : (s.updMe f).mem = s.mem := rfl
@[simp] theorem State.setMe_full (s : State) (t : Strand) : (s.setMe t).full = s.full := rfl
@[simp] theorem State.updMe_full (s : State) (f : Strand → Strand) : (s.updMe f).full = s.full := rfl
@[simp] theorem State.setMe_poison (s : State) (t : Strand) : (s.setMe t).poison = s.poison := rfl
@[simp] theorem State.updMe_poison (s : State) (f : Strand → Strand) : (s.updMe f).poison = s.poison := rfl
@[simp] theorem State.setMe_linePoison (s : State) (t : Strand) : (s.setMe t).linePoison = s.linePoison := rfl
@[simp] theorem State.updMe_linePoison (s : State) (f : Strand → Strand) : (s.updMe f).linePoison = s.linePoison := rfl
@[simp] theorem State.setMe_near (s : State) (t : Strand) : (s.setMe t).near = s.near := rfl
@[simp] theorem State.updMe_near (s : State) (f : Strand → Strand) : (s.updMe f).near = s.near := rfl
@[simp] theorem State.setMe_waiters (s : State) (t : Strand) : (s.setMe t).waiters = s.waiters := rfl
@[simp] theorem State.updMe_waiters (s : State) (f : Strand → Strand) : (s.updMe f).waiters = s.waiters := rfl
@[simp] theorem State.setMe_retries (s : State) (t : Strand) : (s.setMe t).retries = s.retries := rfl
@[simp] theorem State.updMe_retries (s : State) (f : Strand → Strand) : (s.updMe f).retries = s.retries := rfl
@[simp] theorem State.setMe_drains (s : State) (t : Strand) : (s.setMe t).drains = s.drains := rfl
@[simp] theorem State.updMe_drains (s : State) (f : Strand → Strand) : (s.updMe f).drains = s.drains := rfl
@[simp] theorem State.setMe_icache (s : State) (t : Strand) : (s.setMe t).icache = s.icache := rfl
@[simp] theorem State.updMe_icache (s : State) (f : Strand → Strand) : (s.updMe f).icache = s.icache := rfl
@[simp] theorem State.setMe_trace (s : State) (t : Strand) : (s.setMe t).trace = s.trace := rfl
@[simp] theorem State.updMe_trace (s : State) (f : Strand → Strand) : (s.updMe f).trace = s.trace := rfl
@[simp] theorem State.setMe_traceLost (s : State) (t : Strand) : (s.setMe t).traceLost = s.traceLost := rfl
@[simp] theorem State.updMe_traceLost (s : State) (f : Strand → Strand) : (s.updMe f).traceLost = s.traceLost := rfl
@[simp] theorem State.setMe_armed (s : State) (t : Strand) : (s.setMe t).armed = s.armed := rfl
@[simp] theorem State.updMe_armed (s : State) (f : Strand → Strand) : (s.updMe f).armed = s.armed := rfl
@[simp] theorem State.setMe_coreCtx (s : State) (t : Strand) : (s.setMe t).coreCtx = s.coreCtx := rfl
@[simp] theorem State.updMe_coreCtx (s : State) (f : Strand → Strand) : (s.updMe f).coreCtx = s.coreCtx := rfl
@[simp] theorem State.setMe_now (s : State) (t : Strand) : (s.setMe t).now = s.now := rfl
@[simp] theorem State.updMe_now (s : State) (f : Strand → Strand) : (s.updMe f).now = s.now := rfl
@[simp] theorem State.setMe_cycle (s : State) (t : Strand) : (s.setMe t).cycle = s.cycle := rfl
@[simp] theorem State.updMe_cycle (s : State) (f : Strand → Strand) : (s.updMe f).cycle = s.cycle := rfl
@[simp] theorem State.setMe_sys (s : State) (t : Strand) : (s.setMe t).sys = s.sys := rfl
@[simp] theorem State.updMe_sys (s : State) (f : Strand → Strand) : (s.updMe f).sys = s.sys := rfl
@[simp] theorem State.setMe_env (s : State) (t : Strand) : (s.setMe t).env = s.env := rfl
@[simp] theorem State.updMe_env (s : State) (f : Strand → Strand) : (s.updMe f).env = s.env := rfl
@[simp] theorem State.setMe_nfree (s : State) (t : Strand) : (s.setMe t).nfree = s.nfree := rfl
@[simp] theorem State.updMe_nfree (s : State) (f : Strand → Strand) : (s.updMe f).nfree = s.nfree := rfl
@[simp] theorem State.setMe_ticks (s : State) (t : Strand) : (s.setMe t).ticks = s.ticks := rfl
@[simp] theorem State.updMe_ticks (s : State) (f : Strand → Strand) : (s.updMe f).ticks = s.ticks := rfl

/-! ## Registers of a strand -/

/-! ### setS -/

@[simp] theorem Strand.setS_placed (st : Strand) (r : BitVec 5) (v : BitVec 64) : (st.setS r v).placed = st.placed := by
  unfold Strand.setS; split <;> rfl
@[simp] theorem Strand.setS_pc (st : Strand) (r : BitVec 5) (v : BitVec 64) : (st.setS r v).pc = st.pc := by
  unfold Strand.setS; split <;> rfl
@[simp] theorem Strand.setS_p (st : Strand) (r : BitVec 5) (v : BitVec 64) : (st.setS r v).p = st.p := by
  unfold Strand.setS; split <;> rfl
@[simp] theorem Strand.setS_b (st : Strand) (r : BitVec 5) (v : BitVec 64) : (st.setS r v).b = st.b := by
  unfold Strand.setS; split <;> rfl
@[simp] theorem Strand.setS_a (st : Strand) (r : BitVec 5) (v : BitVec 64) : (st.setS r v).a = st.a := by
  unfold Strand.setS; split <;> rfl
@[simp] theorem Strand.setS_h (st : Strand) (r : BitVec 5) (v : BitVec 64) : (st.setS r v).h = st.h := by
  unfold Strand.setS; split <;> rfl
@[simp] theorem Strand.setS_v (st : Strand) (r : BitVec 5) (v : BitVec 64) : (st.setS r v).v = st.v := by
  unfold Strand.setS; split <;> rfl
@[simp] theorem Strand.setS_m (st : Strand) (r : BitVec 5) (v : BitVec 64) : (st.setS r v).m = st.m := by
  unfold Strand.setS; split <;> rfl
@[simp] theorem Strand.setS_act (st : Strand) (r : BitVec 5) (v : BitVec 64) : (st.setS r v).act = st.act := by
  unfold Strand.setS; split <;> rfl
@[simp] theorem Strand.setS_q (st : Strand) (r : BitVec 5) (v : BitVec 64) : (st.setS r v).q = st.q := by
  unfold Strand.setS; split <;> rfl
@[simp] theorem Strand.setS_qv (st : Strand) (r : BitVec 5) (v : BitVec 64) : (st.setS r v).qv = st.qv := by
  unfold Strand.setS; split <;> rfl
@[simp] theorem Strand.setS_qcfg (st : Strand) (r : BitVec 5) (v : BitVec 64) : (st.setS r v).qcfg = st.qcfg := by
  unfold Strand.setS; split <;> rfl
@[simp] theorem Strand.setS_rstack (st : Strand) (r : BitVec 5) (v : BitVec 64) : (st.setS r v).rstack = st.rstack := by
  unfold Strand.setS; split <;> rfl
@[simp] theorem Strand.setS_loops (st : Strand) (r : BitVec 5) (v : BitVec 64) : (st.setS r v).loops = st.loops := by
  unfold Strand.setS; split <;> rfl
@[simp] theorem Strand.setS_xfer (st : Strand) (r : BitVec 5) (v : BitVec 64) : (st.setS r v).xfer = st.xfer := by
  unfold Strand.setS; split <;> rfl
@[simp] theorem Strand.setS_exposed (st : Strand) (r : BitVec 5) (v : BitVec 64) : (st.setS r v).exposed = st.exposed := by
  unfold Strand.setS; split <;> rfl
@[simp] theorem Strand.setS_fmttrap (st : Strand) (r : BitVec 5) (v : BitVec 64) : (st.setS r v).fmttrap = st.fmttrap := by
  unfold Strand.setS; split <;> rfl
@[simp] theorem Strand.setS_fpflags (st : Strand) (r : BitVec 5) (v : BitVec 64) : (st.setS r v).fpflags = st.fpflags := by
  unfold Strand.setS; split <;> rfl
@[simp] theorem Strand.setS_qflags (st : Strand) (r : BitVec 5) (v : BitVec 64) : (st.setS r v).qflags = st.qflags := by
  unfold Strand.setS; split <;> rfl
@[simp] theorem Strand.setS_trapvec (st : Strand) (r : BitVec 5) (v : BitVec 64) : (st.setS r v).trapvec = st.trapvec := by
  unfold Strand.setS; split <;> rfl
@[simp] theorem Strand.setS_trapframe (st : Strand) (r : BitVec 5) (v : BitVec 64) : (st.setS r v).trapframe = st.trapframe := by
  unfold Strand.setS; split <;> rfl
@[simp] theorem Strand.setS_trapcause (st : Strand) (r : BitVec 5) (v : BitVec 64) : (st.setS r v).trapcause = st.trapcause := by
  unfold Strand.setS; split <;> rfl
@[simp] theorem Strand.setS_trapdata (st : Strand) (r : BitVec 5) (v : BitVec 64) : (st.setS r v).trapdata = st.trapdata := by
  unfold Strand.setS; split <;> rfl
@[simp] theorem Strand.setS_intrap (st : Strand) (r : BitVec 5) (v : BitVec 64) : (st.setS r v).intrap = st.intrap := by
  unfold Strand.setS; split <;> rfl
@[simp] theorem Strand.setS_priv (st : Strand) (r : BitVec 5) (v : BitVec 64) : (st.setS r v).priv = st.priv := by
  unfold Strand.setS; split <;> rfl
@[simp] theorem Strand.setS_groups (st : Strand) (r : BitVec 5) (v : BitVec 64) : (st.setS r v).groups = st.groups := by
  unfold Strand.setS; split <;> rfl
@[simp] theorem Strand.setS_members (st : Strand) (r : BitVec 5) (v : BitVec 64) : (st.setS r v).members = st.members := by
  unfold Strand.setS; split <;> rfl
@[simp] theorem Strand.setS_root (st : Strand) (r : BitVec 5) (v : BitVec 64) : (st.setS r v).root = st.root := by
  unfold Strand.setS; split <;> rfl
@[simp] theorem Strand.setS_latch (st : Strand) (r : BitVec 5) (v : BitVec 64) : (st.setS r v).latch = st.latch := by
  unfold Strand.setS; split <;> rfl
@[simp] theorem Strand.setS_wsat (st : Strand) (r : BitVec 5) (v : BitVec 64) : (st.setS r v).wsat = st.wsat := by
  unfold Strand.setS; split <;> rfl
@[simp] theorem Strand.setS_slots (st : Strand) (r : BitVec 5) (v : BitVec 64) : (st.setS r v).slots = st.slots := by
  unfold Strand.setS; split <;> rfl
@[simp] theorem Strand.setS_copyIssued (st : Strand) (r : BitVec 5) (v : BitVec 64) : (st.setS r v).copyIssued = st.copyIssued := by
  unfold Strand.setS; split <;> rfl
@[simp] theorem Strand.setS_copyDone (st : Strand) (r : BitVec 5) (v : BitVec 64) : (st.setS r v).copyDone = st.copyDone := by
  unfold Strand.setS; split <;> rfl
@[simp] theorem Strand.setS_netIssued (st : Strand) (r : BitVec 5) (v : BitVec 64) : (st.setS r v).netIssued = st.netIssued := by
  unfold Strand.setS; split <;> rfl
@[simp] theorem Strand.setS_netDone (st : Strand) (r : BitVec 5) (v : BitVec 64) : (st.setS r v).netDone = st.netDone := by
  unfold Strand.setS; split <;> rfl
@[simp] theorem Strand.setS_lostCopy (st : Strand) (r : BitVec 5) (v : BitVec 64) : (st.setS r v).lostCopy = st.lostCopy := by
  unfold Strand.setS; split <;> rfl
@[simp] theorem Strand.setS_lostNet (st : Strand) (r : BitVec 5) (v : BitVec 64) : (st.setS r v).lostNet = st.lostNet := by
  unfold Strand.setS; split <;> rfl
@[simp] theorem Strand.setS_lostScalar (st : Strand) (r : BitVec 5) (v : BitVec 64) : (st.setS r v).lostScalar = st.lostScalar := by
  unfold Strand.setS; split <;> rfl
@[simp] theorem Strand.setS_triggered (st : Strand) (r : BitVec 5) (v : BitVec 64) : (st.setS r v).triggered = st.triggered := by
  unfold Strand.setS; split <;> rfl
@[simp] theorem Strand.setS_queue (st : Strand) (r : BitVec 5) (v : BitVec 64) : (st.setS r v).queue = st.queue := by
  unfold Strand.setS; split <;> rfl
@[simp] theorem Strand.setS_gather (st : Strand) (r : BitVec 5) (v : BitVec 64) : (st.setS r v).gather = st.gather := by
  unfold Strand.setS; split <;> rfl
@[simp] theorem Strand.setS_copyLate (st : Strand) (r : BitVec 5) (v : BitVec 64) : (st.setS r v).copyLate = st.copyLate := by
  unfold Strand.setS; split <;> rfl
@[simp] theorem Strand.setS_netLate (st : Strand) (r : BitVec 5) (v : BitVec 64) : (st.setS r v).netLate = st.netLate := by
  unfold Strand.setS; split <;> rfl
@[simp] theorem Strand.setS_moving (st : Strand) (r : BitVec 5) (v : BitVec 64) : (st.setS r v).moving = st.moving := by
  unfold Strand.setS; split <;> rfl
@[simp] theorem Strand.setS_storing (st : Strand) (r : BitVec 5) (v : BitVec 64) : (st.setS r v).storing = st.storing := by
  unfold Strand.setS; split <;> rfl
@[simp] theorem Strand.setS_inject (st : Strand) (r : BitVec 5) (v : BitVec 64) : (st.setS r v).inject = st.inject := by
  unfold Strand.setS; split <;> rfl
@[simp] theorem Strand.setS_returning (st : Strand) (r : BitVec 5) (v : BitVec 64) : (st.setS r v).returning = st.returning := by
  unfold Strand.setS; split <;> rfl
@[simp] theorem Strand.setS_heldS (st : Strand) (r : BitVec 5) (v : BitVec 64) : (st.setS r v).heldS = st.heldS := by
  unfold Strand.setS; split <;> rfl
@[simp] theorem Strand.setS_heldP (st : Strand) (r : BitVec 5) (v : BitVec 64) : (st.setS r v).heldP = st.heldP := by
  unfold Strand.setS; split <;> rfl
@[simp] theorem Strand.setS_heldH (st : Strand) (r : BitVec 5) (v : BitVec 64) : (st.setS r v).heldH = st.heldH := by
  unfold Strand.setS; split <;> rfl
@[simp] theorem Strand.setS_trns (st : Strand) (r : BitVec 5) (v : BitVec 64) : (st.setS r v).trns = st.trns := by
  unfold Strand.setS; split <;> rfl
@[simp] theorem Strand.setS_vslot (st : Strand) (r : BitVec 5) (v : BitVec 64) : (st.setS r v).vslot = st.vslot := by
  unfold Strand.setS; split <;> rfl
@[simp] theorem Strand.setS_flight (st : Strand) (r : BitVec 5) (v : BitVec 64) : (st.setS r v).flight = st.flight := by
  unfold Strand.setS; split <;> rfl
@[simp] theorem Strand.setS_lastInterlocked (st : Strand) (r : BitVec 5) (v : BitVec 64) : (st.setS r v).lastInterlocked = st.lastInterlocked := by
  unfold Strand.setS; split <;> rfl
@[simp] theorem Strand.setS_drainDue (st : Strand) (r : BitVec 5) (v : BitVec 64) : (st.setS r v).drainDue = st.drainDue := by
  unfold Strand.setS; split <;> rfl
@[simp] theorem Strand.setS_passing (st : Strand) (r : BitVec 5) (v : BitVec 64) : (st.setS r v).passing = st.passing := by
  unfold Strand.setS; split <;> rfl
@[simp] theorem Strand.setS_sleeping (st : Strand) (r : BitVec 5) (v : BitVec 64) : (st.setS r v).sleeping = st.sleeping := by
  unfold Strand.setS; split <;> rfl
@[simp] theorem Strand.setS_ident (st : Strand) (r : BitVec 5) (v : BitVec 64) : (st.setS r v).ident = st.ident := by
  unfold Strand.setS; split <;> rfl
@[simp] theorem Strand.setS_atSplit (st : Strand) (r : BitVec 5) (v : BitVec 64) : (st.setS r v).atSplit = st.atSplit := by
  unfold Strand.setS; split <;> rfl
@[simp] theorem Strand.setS_trcs (st : Strand) (r : BitVec 5) (v : BitVec 64) : (st.setS r v).trcs = st.trcs := by
  unfold Strand.setS; split <;> rfl

theorem Strand.getS_setS_same (st : Strand) (r : BitVec 5) (v : BitVec 64) (h : r ≠ 0) : (st.setS r v).getS r = v := by
  unfold Strand.setS Strand.getS
  rw [if_neg h, if_neg h]
  simp

theorem Strand.getS_setS_ne (st : Strand) {r q : BitVec 5} (v : BitVec 64) (h : q ≠ r) : (st.setS r v).getS q = st.getS q := by
  have : r.toNat ≠ q.toNat := fun e => h (BitVec.eq_of_toNat_eq e.symm)
  unfold Strand.setS
  split
  · rfl
  · unfold Strand.getS
    split
    · rfl
    · simp [this]

@[simp] theorem Strand.getS_zero (st : Strand) : st.getS 0 = 0 := rfl

@[simp] theorem Strand.setS_zero (st : Strand) (v : BitVec 64) : st.setS 0 v = st := rfl

/-! ### setP -/

@[simp] theorem Strand.setP_placed (st : Strand) (r : BitVec 3) (v : Bool) : (st.setP r v).placed = st.placed := by
  unfold Strand.setP; split <;> rfl
@[simp] theorem Strand.setP_pc (st : Strand) (r : BitVec 3) (v : Bool) : (st.setP r v).pc = st.pc := by
  unfold Strand.setP; split <;> rfl
@[simp] theorem Strand.setP_s (st : Strand) (r : BitVec 3) (v : Bool) : (st.setP r v).s = st.s := by
  unfold Strand.setP; split <;> rfl
@[simp] theorem Strand.setP_b (st : Strand) (r : BitVec 3) (v : Bool) : (st.setP r v).b = st.b := by
  unfold Strand.setP; split <;> rfl
@[simp] theorem Strand.setP_a (st : Strand) (r : BitVec 3) (v : Bool) : (st.setP r v).a = st.a := by
  unfold Strand.setP; split <;> rfl
@[simp] theorem Strand.setP_h (st : Strand) (r : BitVec 3) (v : Bool) : (st.setP r v).h = st.h := by
  unfold Strand.setP; split <;> rfl
@[simp] theorem Strand.setP_v (st : Strand) (r : BitVec 3) (v : Bool) : (st.setP r v).v = st.v := by
  unfold Strand.setP; split <;> rfl
@[simp] theorem Strand.setP_m (st : Strand) (r : BitVec 3) (v : Bool) : (st.setP r v).m = st.m := by
  unfold Strand.setP; split <;> rfl
@[simp] theorem Strand.setP_act (st : Strand) (r : BitVec 3) (v : Bool) : (st.setP r v).act = st.act := by
  unfold Strand.setP; split <;> rfl
@[simp] theorem Strand.setP_q (st : Strand) (r : BitVec 3) (v : Bool) : (st.setP r v).q = st.q := by
  unfold Strand.setP; split <;> rfl
@[simp] theorem Strand.setP_qv (st : Strand) (r : BitVec 3) (v : Bool) : (st.setP r v).qv = st.qv := by
  unfold Strand.setP; split <;> rfl
@[simp] theorem Strand.setP_qcfg (st : Strand) (r : BitVec 3) (v : Bool) : (st.setP r v).qcfg = st.qcfg := by
  unfold Strand.setP; split <;> rfl
@[simp] theorem Strand.setP_rstack (st : Strand) (r : BitVec 3) (v : Bool) : (st.setP r v).rstack = st.rstack := by
  unfold Strand.setP; split <;> rfl
@[simp] theorem Strand.setP_loops (st : Strand) (r : BitVec 3) (v : Bool) : (st.setP r v).loops = st.loops := by
  unfold Strand.setP; split <;> rfl
@[simp] theorem Strand.setP_xfer (st : Strand) (r : BitVec 3) (v : Bool) : (st.setP r v).xfer = st.xfer := by
  unfold Strand.setP; split <;> rfl
@[simp] theorem Strand.setP_exposed (st : Strand) (r : BitVec 3) (v : Bool) : (st.setP r v).exposed = st.exposed := by
  unfold Strand.setP; split <;> rfl
@[simp] theorem Strand.setP_fmttrap (st : Strand) (r : BitVec 3) (v : Bool) : (st.setP r v).fmttrap = st.fmttrap := by
  unfold Strand.setP; split <;> rfl
@[simp] theorem Strand.setP_fpflags (st : Strand) (r : BitVec 3) (v : Bool) : (st.setP r v).fpflags = st.fpflags := by
  unfold Strand.setP; split <;> rfl
@[simp] theorem Strand.setP_qflags (st : Strand) (r : BitVec 3) (v : Bool) : (st.setP r v).qflags = st.qflags := by
  unfold Strand.setP; split <;> rfl
@[simp] theorem Strand.setP_trapvec (st : Strand) (r : BitVec 3) (v : Bool) : (st.setP r v).trapvec = st.trapvec := by
  unfold Strand.setP; split <;> rfl
@[simp] theorem Strand.setP_trapframe (st : Strand) (r : BitVec 3) (v : Bool) : (st.setP r v).trapframe = st.trapframe := by
  unfold Strand.setP; split <;> rfl
@[simp] theorem Strand.setP_trapcause (st : Strand) (r : BitVec 3) (v : Bool) : (st.setP r v).trapcause = st.trapcause := by
  unfold Strand.setP; split <;> rfl
@[simp] theorem Strand.setP_trapdata (st : Strand) (r : BitVec 3) (v : Bool) : (st.setP r v).trapdata = st.trapdata := by
  unfold Strand.setP; split <;> rfl
@[simp] theorem Strand.setP_intrap (st : Strand) (r : BitVec 3) (v : Bool) : (st.setP r v).intrap = st.intrap := by
  unfold Strand.setP; split <;> rfl
@[simp] theorem Strand.setP_priv (st : Strand) (r : BitVec 3) (v : Bool) : (st.setP r v).priv = st.priv := by
  unfold Strand.setP; split <;> rfl
@[simp] theorem Strand.setP_groups (st : Strand) (r : BitVec 3) (v : Bool) : (st.setP r v).groups = st.groups := by
  unfold Strand.setP; split <;> rfl
@[simp] theorem Strand.setP_members (st : Strand) (r : BitVec 3) (v : Bool) : (st.setP r v).members = st.members := by
  unfold Strand.setP; split <;> rfl
@[simp] theorem Strand.setP_root (st : Strand) (r : BitVec 3) (v : Bool) : (st.setP r v).root = st.root := by
  unfold Strand.setP; split <;> rfl
@[simp] theorem Strand.setP_latch (st : Strand) (r : BitVec 3) (v : Bool) : (st.setP r v).latch = st.latch := by
  unfold Strand.setP; split <;> rfl
@[simp] theorem Strand.setP_wsat (st : Strand) (r : BitVec 3) (v : Bool) : (st.setP r v).wsat = st.wsat := by
  unfold Strand.setP; split <;> rfl
@[simp] theorem Strand.setP_slots (st : Strand) (r : BitVec 3) (v : Bool) : (st.setP r v).slots = st.slots := by
  unfold Strand.setP; split <;> rfl
@[simp] theorem Strand.setP_copyIssued (st : Strand) (r : BitVec 3) (v : Bool) : (st.setP r v).copyIssued = st.copyIssued := by
  unfold Strand.setP; split <;> rfl
@[simp] theorem Strand.setP_copyDone (st : Strand) (r : BitVec 3) (v : Bool) : (st.setP r v).copyDone = st.copyDone := by
  unfold Strand.setP; split <;> rfl
@[simp] theorem Strand.setP_netIssued (st : Strand) (r : BitVec 3) (v : Bool) : (st.setP r v).netIssued = st.netIssued := by
  unfold Strand.setP; split <;> rfl
@[simp] theorem Strand.setP_netDone (st : Strand) (r : BitVec 3) (v : Bool) : (st.setP r v).netDone = st.netDone := by
  unfold Strand.setP; split <;> rfl
@[simp] theorem Strand.setP_lostCopy (st : Strand) (r : BitVec 3) (v : Bool) : (st.setP r v).lostCopy = st.lostCopy := by
  unfold Strand.setP; split <;> rfl
@[simp] theorem Strand.setP_lostNet (st : Strand) (r : BitVec 3) (v : Bool) : (st.setP r v).lostNet = st.lostNet := by
  unfold Strand.setP; split <;> rfl
@[simp] theorem Strand.setP_lostScalar (st : Strand) (r : BitVec 3) (v : Bool) : (st.setP r v).lostScalar = st.lostScalar := by
  unfold Strand.setP; split <;> rfl
@[simp] theorem Strand.setP_triggered (st : Strand) (r : BitVec 3) (v : Bool) : (st.setP r v).triggered = st.triggered := by
  unfold Strand.setP; split <;> rfl
@[simp] theorem Strand.setP_queue (st : Strand) (r : BitVec 3) (v : Bool) : (st.setP r v).queue = st.queue := by
  unfold Strand.setP; split <;> rfl
@[simp] theorem Strand.setP_gather (st : Strand) (r : BitVec 3) (v : Bool) : (st.setP r v).gather = st.gather := by
  unfold Strand.setP; split <;> rfl
@[simp] theorem Strand.setP_copyLate (st : Strand) (r : BitVec 3) (v : Bool) : (st.setP r v).copyLate = st.copyLate := by
  unfold Strand.setP; split <;> rfl
@[simp] theorem Strand.setP_netLate (st : Strand) (r : BitVec 3) (v : Bool) : (st.setP r v).netLate = st.netLate := by
  unfold Strand.setP; split <;> rfl
@[simp] theorem Strand.setP_moving (st : Strand) (r : BitVec 3) (v : Bool) : (st.setP r v).moving = st.moving := by
  unfold Strand.setP; split <;> rfl
@[simp] theorem Strand.setP_storing (st : Strand) (r : BitVec 3) (v : Bool) : (st.setP r v).storing = st.storing := by
  unfold Strand.setP; split <;> rfl
@[simp] theorem Strand.setP_inject (st : Strand) (r : BitVec 3) (v : Bool) : (st.setP r v).inject = st.inject := by
  unfold Strand.setP; split <;> rfl
@[simp] theorem Strand.setP_returning (st : Strand) (r : BitVec 3) (v : Bool) : (st.setP r v).returning = st.returning := by
  unfold Strand.setP; split <;> rfl
@[simp] theorem Strand.setP_heldS (st : Strand) (r : BitVec 3) (v : Bool) : (st.setP r v).heldS = st.heldS := by
  unfold Strand.setP; split <;> rfl
@[simp] theorem Strand.setP_heldP (st : Strand) (r : BitVec 3) (v : Bool) : (st.setP r v).heldP = st.heldP := by
  unfold Strand.setP; split <;> rfl
@[simp] theorem Strand.setP_heldH (st : Strand) (r : BitVec 3) (v : Bool) : (st.setP r v).heldH = st.heldH := by
  unfold Strand.setP; split <;> rfl
@[simp] theorem Strand.setP_trns (st : Strand) (r : BitVec 3) (v : Bool) : (st.setP r v).trns = st.trns := by
  unfold Strand.setP; split <;> rfl
@[simp] theorem Strand.setP_vslot (st : Strand) (r : BitVec 3) (v : Bool) : (st.setP r v).vslot = st.vslot := by
  unfold Strand.setP; split <;> rfl
@[simp] theorem Strand.setP_flight (st : Strand) (r : BitVec 3) (v : Bool) : (st.setP r v).flight = st.flight := by
  unfold Strand.setP; split <;> rfl
@[simp] theorem Strand.setP_lastInterlocked (st : Strand) (r : BitVec 3) (v : Bool) : (st.setP r v).lastInterlocked = st.lastInterlocked := by
  unfold Strand.setP; split <;> rfl
@[simp] theorem Strand.setP_drainDue (st : Strand) (r : BitVec 3) (v : Bool) : (st.setP r v).drainDue = st.drainDue := by
  unfold Strand.setP; split <;> rfl
@[simp] theorem Strand.setP_passing (st : Strand) (r : BitVec 3) (v : Bool) : (st.setP r v).passing = st.passing := by
  unfold Strand.setP; split <;> rfl
@[simp] theorem Strand.setP_sleeping (st : Strand) (r : BitVec 3) (v : Bool) : (st.setP r v).sleeping = st.sleeping := by
  unfold Strand.setP; split <;> rfl
@[simp] theorem Strand.setP_ident (st : Strand) (r : BitVec 3) (v : Bool) : (st.setP r v).ident = st.ident := by
  unfold Strand.setP; split <;> rfl
@[simp] theorem Strand.setP_atSplit (st : Strand) (r : BitVec 3) (v : Bool) : (st.setP r v).atSplit = st.atSplit := by
  unfold Strand.setP; split <;> rfl
@[simp] theorem Strand.setP_trcs (st : Strand) (r : BitVec 3) (v : Bool) : (st.setP r v).trcs = st.trcs := by
  unfold Strand.setP; split <;> rfl

theorem Strand.getP_setP_same (st : Strand) (r : BitVec 3) (v : Bool) (h : r ≠ 0) : (st.setP r v).getP r = v := by
  unfold Strand.setP Strand.getP
  rw [if_neg h, if_neg h]
  simp

theorem Strand.getP_setP_ne (st : Strand) {r q : BitVec 3} (v : Bool) (h : q ≠ r) : (st.setP r v).getP q = st.getP q := by
  have : r.toNat ≠ q.toNat := fun e => h (BitVec.eq_of_toNat_eq e.symm)
  unfold Strand.setP
  split
  · rfl
  · unfold Strand.getP
    split
    · rfl
    · simp [this]

@[simp] theorem Strand.getP_zero (st : Strand) : st.getP 0 = true := rfl

@[simp] theorem Strand.setP_zero (st : Strand) (v : Bool) : st.setP 0 v = st := rfl

/-! ### setB -/

@[simp] theorem Strand.setB_placed (st : Strand) (r : BitVec 2) (v : BitVec 32) : (st.setB r v).placed = st.placed := rfl
@[simp] theorem Strand.setB_pc (st : Strand) (r : BitVec 2) (v : BitVec 32) : (st.setB r v).pc = st.pc := rfl
@[simp] theorem Strand.setB_s (st : Strand) (r : BitVec 2) (v : BitVec 32) : (st.setB r v).s = st.s := rfl
@[simp] theorem Strand.setB_p (st : Strand) (r : BitVec 2) (v : BitVec 32) : (st.setB r v).p = st.p := rfl
@[simp] theorem Strand.setB_a (st : Strand) (r : BitVec 2) (v : BitVec 32) : (st.setB r v).a = st.a := rfl
@[simp] theorem Strand.setB_h (st : Strand) (r : BitVec 2) (v : BitVec 32) : (st.setB r v).h = st.h := rfl
@[simp] theorem Strand.setB_v (st : Strand) (r : BitVec 2) (v : BitVec 32) : (st.setB r v).v = st.v := rfl
@[simp] theorem Strand.setB_m (st : Strand) (r : BitVec 2) (v : BitVec 32) : (st.setB r v).m = st.m := rfl
@[simp] theorem Strand.setB_act (st : Strand) (r : BitVec 2) (v : BitVec 32) : (st.setB r v).act = st.act := rfl
@[simp] theorem Strand.setB_q (st : Strand) (r : BitVec 2) (v : BitVec 32) : (st.setB r v).q = st.q := rfl
@[simp] theorem Strand.setB_qv (st : Strand) (r : BitVec 2) (v : BitVec 32) : (st.setB r v).qv = st.qv := rfl
@[simp] theorem Strand.setB_qcfg (st : Strand) (r : BitVec 2) (v : BitVec 32) : (st.setB r v).qcfg = st.qcfg := rfl
@[simp] theorem Strand.setB_rstack (st : Strand) (r : BitVec 2) (v : BitVec 32) : (st.setB r v).rstack = st.rstack := rfl
@[simp] theorem Strand.setB_loops (st : Strand) (r : BitVec 2) (v : BitVec 32) : (st.setB r v).loops = st.loops := rfl
@[simp] theorem Strand.setB_xfer (st : Strand) (r : BitVec 2) (v : BitVec 32) : (st.setB r v).xfer = st.xfer := rfl
@[simp] theorem Strand.setB_exposed (st : Strand) (r : BitVec 2) (v : BitVec 32) : (st.setB r v).exposed = st.exposed := rfl
@[simp] theorem Strand.setB_fmttrap (st : Strand) (r : BitVec 2) (v : BitVec 32) : (st.setB r v).fmttrap = st.fmttrap := rfl
@[simp] theorem Strand.setB_fpflags (st : Strand) (r : BitVec 2) (v : BitVec 32) : (st.setB r v).fpflags = st.fpflags := rfl
@[simp] theorem Strand.setB_qflags (st : Strand) (r : BitVec 2) (v : BitVec 32) : (st.setB r v).qflags = st.qflags := rfl
@[simp] theorem Strand.setB_trapvec (st : Strand) (r : BitVec 2) (v : BitVec 32) : (st.setB r v).trapvec = st.trapvec := rfl
@[simp] theorem Strand.setB_trapframe (st : Strand) (r : BitVec 2) (v : BitVec 32) : (st.setB r v).trapframe = st.trapframe := rfl
@[simp] theorem Strand.setB_trapcause (st : Strand) (r : BitVec 2) (v : BitVec 32) : (st.setB r v).trapcause = st.trapcause := rfl
@[simp] theorem Strand.setB_trapdata (st : Strand) (r : BitVec 2) (v : BitVec 32) : (st.setB r v).trapdata = st.trapdata := rfl
@[simp] theorem Strand.setB_intrap (st : Strand) (r : BitVec 2) (v : BitVec 32) : (st.setB r v).intrap = st.intrap := rfl
@[simp] theorem Strand.setB_priv (st : Strand) (r : BitVec 2) (v : BitVec 32) : (st.setB r v).priv = st.priv := rfl
@[simp] theorem Strand.setB_groups (st : Strand) (r : BitVec 2) (v : BitVec 32) : (st.setB r v).groups = st.groups := rfl
@[simp] theorem Strand.setB_members (st : Strand) (r : BitVec 2) (v : BitVec 32) : (st.setB r v).members = st.members := rfl
@[simp] theorem Strand.setB_root (st : Strand) (r : BitVec 2) (v : BitVec 32) : (st.setB r v).root = st.root := rfl
@[simp] theorem Strand.setB_latch (st : Strand) (r : BitVec 2) (v : BitVec 32) : (st.setB r v).latch = st.latch := rfl
@[simp] theorem Strand.setB_wsat (st : Strand) (r : BitVec 2) (v : BitVec 32) : (st.setB r v).wsat = st.wsat := rfl
@[simp] theorem Strand.setB_slots (st : Strand) (r : BitVec 2) (v : BitVec 32) : (st.setB r v).slots = st.slots := rfl
@[simp] theorem Strand.setB_copyIssued (st : Strand) (r : BitVec 2) (v : BitVec 32) : (st.setB r v).copyIssued = st.copyIssued := rfl
@[simp] theorem Strand.setB_copyDone (st : Strand) (r : BitVec 2) (v : BitVec 32) : (st.setB r v).copyDone = st.copyDone := rfl
@[simp] theorem Strand.setB_netIssued (st : Strand) (r : BitVec 2) (v : BitVec 32) : (st.setB r v).netIssued = st.netIssued := rfl
@[simp] theorem Strand.setB_netDone (st : Strand) (r : BitVec 2) (v : BitVec 32) : (st.setB r v).netDone = st.netDone := rfl
@[simp] theorem Strand.setB_lostCopy (st : Strand) (r : BitVec 2) (v : BitVec 32) : (st.setB r v).lostCopy = st.lostCopy := rfl
@[simp] theorem Strand.setB_lostNet (st : Strand) (r : BitVec 2) (v : BitVec 32) : (st.setB r v).lostNet = st.lostNet := rfl
@[simp] theorem Strand.setB_lostScalar (st : Strand) (r : BitVec 2) (v : BitVec 32) : (st.setB r v).lostScalar = st.lostScalar := rfl
@[simp] theorem Strand.setB_triggered (st : Strand) (r : BitVec 2) (v : BitVec 32) : (st.setB r v).triggered = st.triggered := rfl
@[simp] theorem Strand.setB_queue (st : Strand) (r : BitVec 2) (v : BitVec 32) : (st.setB r v).queue = st.queue := rfl
@[simp] theorem Strand.setB_gather (st : Strand) (r : BitVec 2) (v : BitVec 32) : (st.setB r v).gather = st.gather := rfl
@[simp] theorem Strand.setB_copyLate (st : Strand) (r : BitVec 2) (v : BitVec 32) : (st.setB r v).copyLate = st.copyLate := rfl
@[simp] theorem Strand.setB_netLate (st : Strand) (r : BitVec 2) (v : BitVec 32) : (st.setB r v).netLate = st.netLate := rfl
@[simp] theorem Strand.setB_moving (st : Strand) (r : BitVec 2) (v : BitVec 32) : (st.setB r v).moving = st.moving := rfl
@[simp] theorem Strand.setB_storing (st : Strand) (r : BitVec 2) (v : BitVec 32) : (st.setB r v).storing = st.storing := rfl
@[simp] theorem Strand.setB_inject (st : Strand) (r : BitVec 2) (v : BitVec 32) : (st.setB r v).inject = st.inject := rfl
@[simp] theorem Strand.setB_returning (st : Strand) (r : BitVec 2) (v : BitVec 32) : (st.setB r v).returning = st.returning := rfl
@[simp] theorem Strand.setB_heldS (st : Strand) (r : BitVec 2) (v : BitVec 32) : (st.setB r v).heldS = st.heldS := rfl
@[simp] theorem Strand.setB_heldP (st : Strand) (r : BitVec 2) (v : BitVec 32) : (st.setB r v).heldP = st.heldP := rfl
@[simp] theorem Strand.setB_heldH (st : Strand) (r : BitVec 2) (v : BitVec 32) : (st.setB r v).heldH = st.heldH := rfl
@[simp] theorem Strand.setB_trns (st : Strand) (r : BitVec 2) (v : BitVec 32) : (st.setB r v).trns = st.trns := rfl
@[simp] theorem Strand.setB_vslot (st : Strand) (r : BitVec 2) (v : BitVec 32) : (st.setB r v).vslot = st.vslot := rfl
@[simp] theorem Strand.setB_flight (st : Strand) (r : BitVec 2) (v : BitVec 32) : (st.setB r v).flight = st.flight := rfl
@[simp] theorem Strand.setB_lastInterlocked (st : Strand) (r : BitVec 2) (v : BitVec 32) : (st.setB r v).lastInterlocked = st.lastInterlocked := rfl
@[simp] theorem Strand.setB_drainDue (st : Strand) (r : BitVec 2) (v : BitVec 32) : (st.setB r v).drainDue = st.drainDue := rfl
@[simp] theorem Strand.setB_passing (st : Strand) (r : BitVec 2) (v : BitVec 32) : (st.setB r v).passing = st.passing := rfl
@[simp] theorem Strand.setB_sleeping (st : Strand) (r : BitVec 2) (v : BitVec 32) : (st.setB r v).sleeping = st.sleeping := rfl
@[simp] theorem Strand.setB_ident (st : Strand) (r : BitVec 2) (v : BitVec 32) : (st.setB r v).ident = st.ident := rfl
@[simp] theorem Strand.setB_atSplit (st : Strand) (r : BitVec 2) (v : BitVec 32) : (st.setB r v).atSplit = st.atSplit := rfl
@[simp] theorem Strand.setB_trcs (st : Strand) (r : BitVec 2) (v : BitVec 32) : (st.setB r v).trcs = st.trcs := rfl

@[simp] theorem Strand.getB_setB_same (st : Strand) (r : BitVec 2) (v : BitVec 32) : (st.setB r v).getB r = v := by
  simp [Strand.getB, Strand.setB]

theorem Strand.getB_setB_ne (st : Strand) {r q : BitVec 2} (v : BitVec 32) (h : q ≠ r) : (st.setB r v).getB q = st.getB q := by
  have : r.toNat ≠ q.toNat := fun e => h (BitVec.eq_of_toNat_eq e.symm)
  simp [Strand.getB, Strand.setB, this]

/-! ### setA -/

@[simp] theorem Strand.setA_placed (st : Strand) (r : BitVec 3) (v : AReg) : (st.setA r v).placed = st.placed := rfl
@[simp] theorem Strand.setA_pc (st : Strand) (r : BitVec 3) (v : AReg) : (st.setA r v).pc = st.pc := rfl
@[simp] theorem Strand.setA_s (st : Strand) (r : BitVec 3) (v : AReg) : (st.setA r v).s = st.s := rfl
@[simp] theorem Strand.setA_p (st : Strand) (r : BitVec 3) (v : AReg) : (st.setA r v).p = st.p := rfl
@[simp] theorem Strand.setA_b (st : Strand) (r : BitVec 3) (v : AReg) : (st.setA r v).b = st.b := rfl
@[simp] theorem Strand.setA_h (st : Strand) (r : BitVec 3) (v : AReg) : (st.setA r v).h = st.h := rfl
@[simp] theorem Strand.setA_v (st : Strand) (r : BitVec 3) (v : AReg) : (st.setA r v).v = st.v := rfl
@[simp] theorem Strand.setA_m (st : Strand) (r : BitVec 3) (v : AReg) : (st.setA r v).m = st.m := rfl
@[simp] theorem Strand.setA_act (st : Strand) (r : BitVec 3) (v : AReg) : (st.setA r v).act = st.act := rfl
@[simp] theorem Strand.setA_q (st : Strand) (r : BitVec 3) (v : AReg) : (st.setA r v).q = st.q := rfl
@[simp] theorem Strand.setA_qv (st : Strand) (r : BitVec 3) (v : AReg) : (st.setA r v).qv = st.qv := rfl
@[simp] theorem Strand.setA_qcfg (st : Strand) (r : BitVec 3) (v : AReg) : (st.setA r v).qcfg = st.qcfg := rfl
@[simp] theorem Strand.setA_rstack (st : Strand) (r : BitVec 3) (v : AReg) : (st.setA r v).rstack = st.rstack := rfl
@[simp] theorem Strand.setA_loops (st : Strand) (r : BitVec 3) (v : AReg) : (st.setA r v).loops = st.loops := rfl
@[simp] theorem Strand.setA_xfer (st : Strand) (r : BitVec 3) (v : AReg) : (st.setA r v).xfer = st.xfer := rfl
@[simp] theorem Strand.setA_exposed (st : Strand) (r : BitVec 3) (v : AReg) : (st.setA r v).exposed = st.exposed := rfl
@[simp] theorem Strand.setA_fmttrap (st : Strand) (r : BitVec 3) (v : AReg) : (st.setA r v).fmttrap = st.fmttrap := rfl
@[simp] theorem Strand.setA_fpflags (st : Strand) (r : BitVec 3) (v : AReg) : (st.setA r v).fpflags = st.fpflags := rfl
@[simp] theorem Strand.setA_qflags (st : Strand) (r : BitVec 3) (v : AReg) : (st.setA r v).qflags = st.qflags := rfl
@[simp] theorem Strand.setA_trapvec (st : Strand) (r : BitVec 3) (v : AReg) : (st.setA r v).trapvec = st.trapvec := rfl
@[simp] theorem Strand.setA_trapframe (st : Strand) (r : BitVec 3) (v : AReg) : (st.setA r v).trapframe = st.trapframe := rfl
@[simp] theorem Strand.setA_trapcause (st : Strand) (r : BitVec 3) (v : AReg) : (st.setA r v).trapcause = st.trapcause := rfl
@[simp] theorem Strand.setA_trapdata (st : Strand) (r : BitVec 3) (v : AReg) : (st.setA r v).trapdata = st.trapdata := rfl
@[simp] theorem Strand.setA_intrap (st : Strand) (r : BitVec 3) (v : AReg) : (st.setA r v).intrap = st.intrap := rfl
@[simp] theorem Strand.setA_priv (st : Strand) (r : BitVec 3) (v : AReg) : (st.setA r v).priv = st.priv := rfl
@[simp] theorem Strand.setA_groups (st : Strand) (r : BitVec 3) (v : AReg) : (st.setA r v).groups = st.groups := rfl
@[simp] theorem Strand.setA_members (st : Strand) (r : BitVec 3) (v : AReg) : (st.setA r v).members = st.members := rfl
@[simp] theorem Strand.setA_root (st : Strand) (r : BitVec 3) (v : AReg) : (st.setA r v).root = st.root := rfl
@[simp] theorem Strand.setA_latch (st : Strand) (r : BitVec 3) (v : AReg) : (st.setA r v).latch = st.latch := rfl
@[simp] theorem Strand.setA_wsat (st : Strand) (r : BitVec 3) (v : AReg) : (st.setA r v).wsat = st.wsat := rfl
@[simp] theorem Strand.setA_slots (st : Strand) (r : BitVec 3) (v : AReg) : (st.setA r v).slots = st.slots := rfl
@[simp] theorem Strand.setA_copyIssued (st : Strand) (r : BitVec 3) (v : AReg) : (st.setA r v).copyIssued = st.copyIssued := rfl
@[simp] theorem Strand.setA_copyDone (st : Strand) (r : BitVec 3) (v : AReg) : (st.setA r v).copyDone = st.copyDone := rfl
@[simp] theorem Strand.setA_netIssued (st : Strand) (r : BitVec 3) (v : AReg) : (st.setA r v).netIssued = st.netIssued := rfl
@[simp] theorem Strand.setA_netDone (st : Strand) (r : BitVec 3) (v : AReg) : (st.setA r v).netDone = st.netDone := rfl
@[simp] theorem Strand.setA_lostCopy (st : Strand) (r : BitVec 3) (v : AReg) : (st.setA r v).lostCopy = st.lostCopy := rfl
@[simp] theorem Strand.setA_lostNet (st : Strand) (r : BitVec 3) (v : AReg) : (st.setA r v).lostNet = st.lostNet := rfl
@[simp] theorem Strand.setA_lostScalar (st : Strand) (r : BitVec 3) (v : AReg) : (st.setA r v).lostScalar = st.lostScalar := rfl
@[simp] theorem Strand.setA_triggered (st : Strand) (r : BitVec 3) (v : AReg) : (st.setA r v).triggered = st.triggered := rfl
@[simp] theorem Strand.setA_queue (st : Strand) (r : BitVec 3) (v : AReg) : (st.setA r v).queue = st.queue := rfl
@[simp] theorem Strand.setA_gather (st : Strand) (r : BitVec 3) (v : AReg) : (st.setA r v).gather = st.gather := rfl
@[simp] theorem Strand.setA_copyLate (st : Strand) (r : BitVec 3) (v : AReg) : (st.setA r v).copyLate = st.copyLate := rfl
@[simp] theorem Strand.setA_netLate (st : Strand) (r : BitVec 3) (v : AReg) : (st.setA r v).netLate = st.netLate := rfl
@[simp] theorem Strand.setA_moving (st : Strand) (r : BitVec 3) (v : AReg) : (st.setA r v).moving = st.moving := rfl
@[simp] theorem Strand.setA_storing (st : Strand) (r : BitVec 3) (v : AReg) : (st.setA r v).storing = st.storing := rfl
@[simp] theorem Strand.setA_inject (st : Strand) (r : BitVec 3) (v : AReg) : (st.setA r v).inject = st.inject := rfl
@[simp] theorem Strand.setA_returning (st : Strand) (r : BitVec 3) (v : AReg) : (st.setA r v).returning = st.returning := rfl
@[simp] theorem Strand.setA_heldS (st : Strand) (r : BitVec 3) (v : AReg) : (st.setA r v).heldS = st.heldS := rfl
@[simp] theorem Strand.setA_heldP (st : Strand) (r : BitVec 3) (v : AReg) : (st.setA r v).heldP = st.heldP := rfl
@[simp] theorem Strand.setA_heldH (st : Strand) (r : BitVec 3) (v : AReg) : (st.setA r v).heldH = st.heldH := rfl
@[simp] theorem Strand.setA_trns (st : Strand) (r : BitVec 3) (v : AReg) : (st.setA r v).trns = st.trns := rfl
@[simp] theorem Strand.setA_vslot (st : Strand) (r : BitVec 3) (v : AReg) : (st.setA r v).vslot = st.vslot := rfl
@[simp] theorem Strand.setA_flight (st : Strand) (r : BitVec 3) (v : AReg) : (st.setA r v).flight = st.flight := rfl
@[simp] theorem Strand.setA_lastInterlocked (st : Strand) (r : BitVec 3) (v : AReg) : (st.setA r v).lastInterlocked = st.lastInterlocked := rfl
@[simp] theorem Strand.setA_drainDue (st : Strand) (r : BitVec 3) (v : AReg) : (st.setA r v).drainDue = st.drainDue := rfl
@[simp] theorem Strand.setA_passing (st : Strand) (r : BitVec 3) (v : AReg) : (st.setA r v).passing = st.passing := rfl
@[simp] theorem Strand.setA_sleeping (st : Strand) (r : BitVec 3) (v : AReg) : (st.setA r v).sleeping = st.sleeping := rfl
@[simp] theorem Strand.setA_ident (st : Strand) (r : BitVec 3) (v : AReg) : (st.setA r v).ident = st.ident := rfl
@[simp] theorem Strand.setA_atSplit (st : Strand) (r : BitVec 3) (v : AReg) : (st.setA r v).atSplit = st.atSplit := rfl
@[simp] theorem Strand.setA_trcs (st : Strand) (r : BitVec 3) (v : AReg) : (st.setA r v).trcs = st.trcs := rfl

@[simp] theorem Strand.getA_setA_same (st : Strand) (r : BitVec 3) (v : AReg) : (st.setA r v).getA r = v := by
  simp [Strand.getA, Strand.setA]

theorem Strand.getA_setA_ne (st : Strand) {r q : BitVec 3} (v : AReg) (h : q ≠ r) : (st.setA r v).getA q = st.getA q := by
  have : r.toNat ≠ q.toNat := fun e => h (BitVec.eq_of_toNat_eq e.symm)
  simp [Strand.getA, Strand.setA, this]

/-! ### setH -/

@[simp] theorem Strand.setH_placed (st : Strand) (r : BitVec 4) (v : Handle) : (st.setH r v).placed = st.placed := rfl
@[simp] theorem Strand.setH_pc (st : Strand) (r : BitVec 4) (v : Handle) : (st.setH r v).pc = st.pc := rfl
@[simp] theorem Strand.setH_s (st : Strand) (r : BitVec 4) (v : Handle) : (st.setH r v).s = st.s := rfl
@[simp] theorem Strand.setH_p (st : Strand) (r : BitVec 4) (v : Handle) : (st.setH r v).p = st.p := rfl
@[simp] theorem Strand.setH_b (st : Strand) (r : BitVec 4) (v : Handle) : (st.setH r v).b = st.b := rfl
@[simp] theorem Strand.setH_a (st : Strand) (r : BitVec 4) (v : Handle) : (st.setH r v).a = st.a := rfl
@[simp] theorem Strand.setH_v (st : Strand) (r : BitVec 4) (v : Handle) : (st.setH r v).v = st.v := rfl
@[simp] theorem Strand.setH_m (st : Strand) (r : BitVec 4) (v : Handle) : (st.setH r v).m = st.m := rfl
@[simp] theorem Strand.setH_act (st : Strand) (r : BitVec 4) (v : Handle) : (st.setH r v).act = st.act := rfl
@[simp] theorem Strand.setH_q (st : Strand) (r : BitVec 4) (v : Handle) : (st.setH r v).q = st.q := rfl
@[simp] theorem Strand.setH_qv (st : Strand) (r : BitVec 4) (v : Handle) : (st.setH r v).qv = st.qv := rfl
@[simp] theorem Strand.setH_qcfg (st : Strand) (r : BitVec 4) (v : Handle) : (st.setH r v).qcfg = st.qcfg := rfl
@[simp] theorem Strand.setH_rstack (st : Strand) (r : BitVec 4) (v : Handle) : (st.setH r v).rstack = st.rstack := rfl
@[simp] theorem Strand.setH_loops (st : Strand) (r : BitVec 4) (v : Handle) : (st.setH r v).loops = st.loops := rfl
@[simp] theorem Strand.setH_xfer (st : Strand) (r : BitVec 4) (v : Handle) : (st.setH r v).xfer = st.xfer := rfl
@[simp] theorem Strand.setH_exposed (st : Strand) (r : BitVec 4) (v : Handle) : (st.setH r v).exposed = st.exposed := rfl
@[simp] theorem Strand.setH_fmttrap (st : Strand) (r : BitVec 4) (v : Handle) : (st.setH r v).fmttrap = st.fmttrap := rfl
@[simp] theorem Strand.setH_fpflags (st : Strand) (r : BitVec 4) (v : Handle) : (st.setH r v).fpflags = st.fpflags := rfl
@[simp] theorem Strand.setH_qflags (st : Strand) (r : BitVec 4) (v : Handle) : (st.setH r v).qflags = st.qflags := rfl
@[simp] theorem Strand.setH_trapvec (st : Strand) (r : BitVec 4) (v : Handle) : (st.setH r v).trapvec = st.trapvec := rfl
@[simp] theorem Strand.setH_trapframe (st : Strand) (r : BitVec 4) (v : Handle) : (st.setH r v).trapframe = st.trapframe := rfl
@[simp] theorem Strand.setH_trapcause (st : Strand) (r : BitVec 4) (v : Handle) : (st.setH r v).trapcause = st.trapcause := rfl
@[simp] theorem Strand.setH_trapdata (st : Strand) (r : BitVec 4) (v : Handle) : (st.setH r v).trapdata = st.trapdata := rfl
@[simp] theorem Strand.setH_intrap (st : Strand) (r : BitVec 4) (v : Handle) : (st.setH r v).intrap = st.intrap := rfl
@[simp] theorem Strand.setH_priv (st : Strand) (r : BitVec 4) (v : Handle) : (st.setH r v).priv = st.priv := rfl
@[simp] theorem Strand.setH_groups (st : Strand) (r : BitVec 4) (v : Handle) : (st.setH r v).groups = st.groups := rfl
@[simp] theorem Strand.setH_members (st : Strand) (r : BitVec 4) (v : Handle) : (st.setH r v).members = st.members := rfl
@[simp] theorem Strand.setH_root (st : Strand) (r : BitVec 4) (v : Handle) : (st.setH r v).root = st.root := rfl
@[simp] theorem Strand.setH_latch (st : Strand) (r : BitVec 4) (v : Handle) : (st.setH r v).latch = st.latch := rfl
@[simp] theorem Strand.setH_wsat (st : Strand) (r : BitVec 4) (v : Handle) : (st.setH r v).wsat = st.wsat := rfl
@[simp] theorem Strand.setH_slots (st : Strand) (r : BitVec 4) (v : Handle) : (st.setH r v).slots = st.slots := rfl
@[simp] theorem Strand.setH_copyIssued (st : Strand) (r : BitVec 4) (v : Handle) : (st.setH r v).copyIssued = st.copyIssued := rfl
@[simp] theorem Strand.setH_copyDone (st : Strand) (r : BitVec 4) (v : Handle) : (st.setH r v).copyDone = st.copyDone := rfl
@[simp] theorem Strand.setH_netIssued (st : Strand) (r : BitVec 4) (v : Handle) : (st.setH r v).netIssued = st.netIssued := rfl
@[simp] theorem Strand.setH_netDone (st : Strand) (r : BitVec 4) (v : Handle) : (st.setH r v).netDone = st.netDone := rfl
@[simp] theorem Strand.setH_lostCopy (st : Strand) (r : BitVec 4) (v : Handle) : (st.setH r v).lostCopy = st.lostCopy := rfl
@[simp] theorem Strand.setH_lostNet (st : Strand) (r : BitVec 4) (v : Handle) : (st.setH r v).lostNet = st.lostNet := rfl
@[simp] theorem Strand.setH_lostScalar (st : Strand) (r : BitVec 4) (v : Handle) : (st.setH r v).lostScalar = st.lostScalar := rfl
@[simp] theorem Strand.setH_triggered (st : Strand) (r : BitVec 4) (v : Handle) : (st.setH r v).triggered = st.triggered := rfl
@[simp] theorem Strand.setH_queue (st : Strand) (r : BitVec 4) (v : Handle) : (st.setH r v).queue = st.queue := rfl
@[simp] theorem Strand.setH_gather (st : Strand) (r : BitVec 4) (v : Handle) : (st.setH r v).gather = st.gather := rfl
@[simp] theorem Strand.setH_copyLate (st : Strand) (r : BitVec 4) (v : Handle) : (st.setH r v).copyLate = st.copyLate := rfl
@[simp] theorem Strand.setH_netLate (st : Strand) (r : BitVec 4) (v : Handle) : (st.setH r v).netLate = st.netLate := rfl
@[simp] theorem Strand.setH_moving (st : Strand) (r : BitVec 4) (v : Handle) : (st.setH r v).moving = st.moving := rfl
@[simp] theorem Strand.setH_storing (st : Strand) (r : BitVec 4) (v : Handle) : (st.setH r v).storing = st.storing := rfl
@[simp] theorem Strand.setH_inject (st : Strand) (r : BitVec 4) (v : Handle) : (st.setH r v).inject = st.inject := rfl
@[simp] theorem Strand.setH_returning (st : Strand) (r : BitVec 4) (v : Handle) : (st.setH r v).returning = st.returning := rfl
@[simp] theorem Strand.setH_heldS (st : Strand) (r : BitVec 4) (v : Handle) : (st.setH r v).heldS = st.heldS := rfl
@[simp] theorem Strand.setH_heldP (st : Strand) (r : BitVec 4) (v : Handle) : (st.setH r v).heldP = st.heldP := rfl
@[simp] theorem Strand.setH_heldH (st : Strand) (r : BitVec 4) (v : Handle) : (st.setH r v).heldH = st.heldH := rfl
@[simp] theorem Strand.setH_trns (st : Strand) (r : BitVec 4) (v : Handle) : (st.setH r v).trns = st.trns := rfl
@[simp] theorem Strand.setH_vslot (st : Strand) (r : BitVec 4) (v : Handle) : (st.setH r v).vslot = st.vslot := rfl
@[simp] theorem Strand.setH_flight (st : Strand) (r : BitVec 4) (v : Handle) : (st.setH r v).flight = st.flight := rfl
@[simp] theorem Strand.setH_lastInterlocked (st : Strand) (r : BitVec 4) (v : Handle) : (st.setH r v).lastInterlocked = st.lastInterlocked := rfl
@[simp] theorem Strand.setH_drainDue (st : Strand) (r : BitVec 4) (v : Handle) : (st.setH r v).drainDue = st.drainDue := rfl
@[simp] theorem Strand.setH_passing (st : Strand) (r : BitVec 4) (v : Handle) : (st.setH r v).passing = st.passing := rfl
@[simp] theorem Strand.setH_sleeping (st : Strand) (r : BitVec 4) (v : Handle) : (st.setH r v).sleeping = st.sleeping := rfl
@[simp] theorem Strand.setH_ident (st : Strand) (r : BitVec 4) (v : Handle) : (st.setH r v).ident = st.ident := rfl
@[simp] theorem Strand.setH_atSplit (st : Strand) (r : BitVec 4) (v : Handle) : (st.setH r v).atSplit = st.atSplit := rfl
@[simp] theorem Strand.setH_trcs (st : Strand) (r : BitVec 4) (v : Handle) : (st.setH r v).trcs = st.trcs := rfl

@[simp] theorem Strand.getH_setH_same (st : Strand) (r : BitVec 4) (v : Handle) : (st.setH r v).getH r = v := by
  simp [Strand.getH, Strand.setH]

theorem Strand.getH_setH_ne (st : Strand) {r q : BitVec 4} (v : Handle) (h : q ≠ r) : (st.setH r v).getH q = st.getH q := by
  have : r.toNat ≠ q.toNat := fun e => h (BitVec.eq_of_toNat_eq e.symm)
  simp [Strand.getH, Strand.setH, this]

/-! ### setV -/

@[simp] theorem Strand.setV_placed (st : Strand) (r : BitVec 6) (v : VReg) : (st.setV r v).placed = st.placed := rfl
@[simp] theorem Strand.setV_pc (st : Strand) (r : BitVec 6) (v : VReg) : (st.setV r v).pc = st.pc := rfl
@[simp] theorem Strand.setV_s (st : Strand) (r : BitVec 6) (v : VReg) : (st.setV r v).s = st.s := rfl
@[simp] theorem Strand.setV_p (st : Strand) (r : BitVec 6) (v : VReg) : (st.setV r v).p = st.p := rfl
@[simp] theorem Strand.setV_b (st : Strand) (r : BitVec 6) (v : VReg) : (st.setV r v).b = st.b := rfl
@[simp] theorem Strand.setV_a (st : Strand) (r : BitVec 6) (v : VReg) : (st.setV r v).a = st.a := rfl
@[simp] theorem Strand.setV_h (st : Strand) (r : BitVec 6) (v : VReg) : (st.setV r v).h = st.h := rfl
@[simp] theorem Strand.setV_m (st : Strand) (r : BitVec 6) (v : VReg) : (st.setV r v).m = st.m := rfl
@[simp] theorem Strand.setV_act (st : Strand) (r : BitVec 6) (v : VReg) : (st.setV r v).act = st.act := rfl
@[simp] theorem Strand.setV_q (st : Strand) (r : BitVec 6) (v : VReg) : (st.setV r v).q = st.q := rfl
@[simp] theorem Strand.setV_qv (st : Strand) (r : BitVec 6) (v : VReg) : (st.setV r v).qv = st.qv := rfl
@[simp] theorem Strand.setV_qcfg (st : Strand) (r : BitVec 6) (v : VReg) : (st.setV r v).qcfg = st.qcfg := rfl
@[simp] theorem Strand.setV_rstack (st : Strand) (r : BitVec 6) (v : VReg) : (st.setV r v).rstack = st.rstack := rfl
@[simp] theorem Strand.setV_loops (st : Strand) (r : BitVec 6) (v : VReg) : (st.setV r v).loops = st.loops := rfl
@[simp] theorem Strand.setV_xfer (st : Strand) (r : BitVec 6) (v : VReg) : (st.setV r v).xfer = st.xfer := rfl
@[simp] theorem Strand.setV_exposed (st : Strand) (r : BitVec 6) (v : VReg) : (st.setV r v).exposed = st.exposed := rfl
@[simp] theorem Strand.setV_fmttrap (st : Strand) (r : BitVec 6) (v : VReg) : (st.setV r v).fmttrap = st.fmttrap := rfl
@[simp] theorem Strand.setV_fpflags (st : Strand) (r : BitVec 6) (v : VReg) : (st.setV r v).fpflags = st.fpflags := rfl
@[simp] theorem Strand.setV_qflags (st : Strand) (r : BitVec 6) (v : VReg) : (st.setV r v).qflags = st.qflags := rfl
@[simp] theorem Strand.setV_trapvec (st : Strand) (r : BitVec 6) (v : VReg) : (st.setV r v).trapvec = st.trapvec := rfl
@[simp] theorem Strand.setV_trapframe (st : Strand) (r : BitVec 6) (v : VReg) : (st.setV r v).trapframe = st.trapframe := rfl
@[simp] theorem Strand.setV_trapcause (st : Strand) (r : BitVec 6) (v : VReg) : (st.setV r v).trapcause = st.trapcause := rfl
@[simp] theorem Strand.setV_trapdata (st : Strand) (r : BitVec 6) (v : VReg) : (st.setV r v).trapdata = st.trapdata := rfl
@[simp] theorem Strand.setV_intrap (st : Strand) (r : BitVec 6) (v : VReg) : (st.setV r v).intrap = st.intrap := rfl
@[simp] theorem Strand.setV_priv (st : Strand) (r : BitVec 6) (v : VReg) : (st.setV r v).priv = st.priv := rfl
@[simp] theorem Strand.setV_groups (st : Strand) (r : BitVec 6) (v : VReg) : (st.setV r v).groups = st.groups := rfl
@[simp] theorem Strand.setV_members (st : Strand) (r : BitVec 6) (v : VReg) : (st.setV r v).members = st.members := rfl
@[simp] theorem Strand.setV_root (st : Strand) (r : BitVec 6) (v : VReg) : (st.setV r v).root = st.root := rfl
@[simp] theorem Strand.setV_latch (st : Strand) (r : BitVec 6) (v : VReg) : (st.setV r v).latch = st.latch := rfl
@[simp] theorem Strand.setV_wsat (st : Strand) (r : BitVec 6) (v : VReg) : (st.setV r v).wsat = st.wsat := rfl
@[simp] theorem Strand.setV_slots (st : Strand) (r : BitVec 6) (v : VReg) : (st.setV r v).slots = st.slots := rfl
@[simp] theorem Strand.setV_copyIssued (st : Strand) (r : BitVec 6) (v : VReg) : (st.setV r v).copyIssued = st.copyIssued := rfl
@[simp] theorem Strand.setV_copyDone (st : Strand) (r : BitVec 6) (v : VReg) : (st.setV r v).copyDone = st.copyDone := rfl
@[simp] theorem Strand.setV_netIssued (st : Strand) (r : BitVec 6) (v : VReg) : (st.setV r v).netIssued = st.netIssued := rfl
@[simp] theorem Strand.setV_netDone (st : Strand) (r : BitVec 6) (v : VReg) : (st.setV r v).netDone = st.netDone := rfl
@[simp] theorem Strand.setV_lostCopy (st : Strand) (r : BitVec 6) (v : VReg) : (st.setV r v).lostCopy = st.lostCopy := rfl
@[simp] theorem Strand.setV_lostNet (st : Strand) (r : BitVec 6) (v : VReg) : (st.setV r v).lostNet = st.lostNet := rfl
@[simp] theorem Strand.setV_lostScalar (st : Strand) (r : BitVec 6) (v : VReg) : (st.setV r v).lostScalar = st.lostScalar := rfl
@[simp] theorem Strand.setV_triggered (st : Strand) (r : BitVec 6) (v : VReg) : (st.setV r v).triggered = st.triggered := rfl
@[simp] theorem Strand.setV_queue (st : Strand) (r : BitVec 6) (v : VReg) : (st.setV r v).queue = st.queue := rfl
@[simp] theorem Strand.setV_gather (st : Strand) (r : BitVec 6) (v : VReg) : (st.setV r v).gather = st.gather := rfl
@[simp] theorem Strand.setV_copyLate (st : Strand) (r : BitVec 6) (v : VReg) : (st.setV r v).copyLate = st.copyLate := rfl
@[simp] theorem Strand.setV_netLate (st : Strand) (r : BitVec 6) (v : VReg) : (st.setV r v).netLate = st.netLate := rfl
@[simp] theorem Strand.setV_moving (st : Strand) (r : BitVec 6) (v : VReg) : (st.setV r v).moving = st.moving := rfl
@[simp] theorem Strand.setV_storing (st : Strand) (r : BitVec 6) (v : VReg) : (st.setV r v).storing = st.storing := rfl
@[simp] theorem Strand.setV_inject (st : Strand) (r : BitVec 6) (v : VReg) : (st.setV r v).inject = st.inject := rfl
@[simp] theorem Strand.setV_returning (st : Strand) (r : BitVec 6) (v : VReg) : (st.setV r v).returning = st.returning := rfl
@[simp] theorem Strand.setV_heldS (st : Strand) (r : BitVec 6) (v : VReg) : (st.setV r v).heldS = st.heldS := rfl
@[simp] theorem Strand.setV_heldP (st : Strand) (r : BitVec 6) (v : VReg) : (st.setV r v).heldP = st.heldP := rfl
@[simp] theorem Strand.setV_heldH (st : Strand) (r : BitVec 6) (v : VReg) : (st.setV r v).heldH = st.heldH := rfl
@[simp] theorem Strand.setV_trns (st : Strand) (r : BitVec 6) (v : VReg) : (st.setV r v).trns = st.trns := rfl
@[simp] theorem Strand.setV_vslot (st : Strand) (r : BitVec 6) (v : VReg) : (st.setV r v).vslot = st.vslot := rfl
@[simp] theorem Strand.setV_flight (st : Strand) (r : BitVec 6) (v : VReg) : (st.setV r v).flight = st.flight := rfl
@[simp] theorem Strand.setV_lastInterlocked (st : Strand) (r : BitVec 6) (v : VReg) : (st.setV r v).lastInterlocked = st.lastInterlocked := rfl
@[simp] theorem Strand.setV_drainDue (st : Strand) (r : BitVec 6) (v : VReg) : (st.setV r v).drainDue = st.drainDue := rfl
@[simp] theorem Strand.setV_passing (st : Strand) (r : BitVec 6) (v : VReg) : (st.setV r v).passing = st.passing := rfl
@[simp] theorem Strand.setV_sleeping (st : Strand) (r : BitVec 6) (v : VReg) : (st.setV r v).sleeping = st.sleeping := rfl
@[simp] theorem Strand.setV_ident (st : Strand) (r : BitVec 6) (v : VReg) : (st.setV r v).ident = st.ident := rfl
@[simp] theorem Strand.setV_atSplit (st : Strand) (r : BitVec 6) (v : VReg) : (st.setV r v).atSplit = st.atSplit := rfl
@[simp] theorem Strand.setV_trcs (st : Strand) (r : BitVec 6) (v : VReg) : (st.setV r v).trcs = st.trcs := rfl

@[simp] theorem Strand.getV_setV_same (st : Strand) (r : BitVec 6) (v : VReg) : (st.setV r v).getV r = v := by
  simp [Strand.getV, Strand.setV]

theorem Strand.getV_setV_ne (st : Strand) {r q : BitVec 6} (v : VReg) (h : q ≠ r) : (st.setV r v).getV q = st.getV q := by
  have : r.toNat ≠ q.toNat := fun e => h (BitVec.eq_of_toNat_eq e.symm)
  simp [Strand.getV, Strand.setV, this]

/-! ### setM -/

@[simp] theorem Strand.setM_placed (st : Strand) (r : BitVec 3) (v : BitVec 32) : (st.setM r v).placed = st.placed := rfl
@[simp] theorem Strand.setM_pc (st : Strand) (r : BitVec 3) (v : BitVec 32) : (st.setM r v).pc = st.pc := rfl
@[simp] theorem Strand.setM_s (st : Strand) (r : BitVec 3) (v : BitVec 32) : (st.setM r v).s = st.s := rfl
@[simp] theorem Strand.setM_p (st : Strand) (r : BitVec 3) (v : BitVec 32) : (st.setM r v).p = st.p := rfl
@[simp] theorem Strand.setM_b (st : Strand) (r : BitVec 3) (v : BitVec 32) : (st.setM r v).b = st.b := rfl
@[simp] theorem Strand.setM_a (st : Strand) (r : BitVec 3) (v : BitVec 32) : (st.setM r v).a = st.a := rfl
@[simp] theorem Strand.setM_h (st : Strand) (r : BitVec 3) (v : BitVec 32) : (st.setM r v).h = st.h := rfl
@[simp] theorem Strand.setM_v (st : Strand) (r : BitVec 3) (v : BitVec 32) : (st.setM r v).v = st.v := rfl
@[simp] theorem Strand.setM_act (st : Strand) (r : BitVec 3) (v : BitVec 32) : (st.setM r v).act = st.act := rfl
@[simp] theorem Strand.setM_q (st : Strand) (r : BitVec 3) (v : BitVec 32) : (st.setM r v).q = st.q := rfl
@[simp] theorem Strand.setM_qv (st : Strand) (r : BitVec 3) (v : BitVec 32) : (st.setM r v).qv = st.qv := rfl
@[simp] theorem Strand.setM_qcfg (st : Strand) (r : BitVec 3) (v : BitVec 32) : (st.setM r v).qcfg = st.qcfg := rfl
@[simp] theorem Strand.setM_rstack (st : Strand) (r : BitVec 3) (v : BitVec 32) : (st.setM r v).rstack = st.rstack := rfl
@[simp] theorem Strand.setM_loops (st : Strand) (r : BitVec 3) (v : BitVec 32) : (st.setM r v).loops = st.loops := rfl
@[simp] theorem Strand.setM_xfer (st : Strand) (r : BitVec 3) (v : BitVec 32) : (st.setM r v).xfer = st.xfer := rfl
@[simp] theorem Strand.setM_exposed (st : Strand) (r : BitVec 3) (v : BitVec 32) : (st.setM r v).exposed = st.exposed := rfl
@[simp] theorem Strand.setM_fmttrap (st : Strand) (r : BitVec 3) (v : BitVec 32) : (st.setM r v).fmttrap = st.fmttrap := rfl
@[simp] theorem Strand.setM_fpflags (st : Strand) (r : BitVec 3) (v : BitVec 32) : (st.setM r v).fpflags = st.fpflags := rfl
@[simp] theorem Strand.setM_qflags (st : Strand) (r : BitVec 3) (v : BitVec 32) : (st.setM r v).qflags = st.qflags := rfl
@[simp] theorem Strand.setM_trapvec (st : Strand) (r : BitVec 3) (v : BitVec 32) : (st.setM r v).trapvec = st.trapvec := rfl
@[simp] theorem Strand.setM_trapframe (st : Strand) (r : BitVec 3) (v : BitVec 32) : (st.setM r v).trapframe = st.trapframe := rfl
@[simp] theorem Strand.setM_trapcause (st : Strand) (r : BitVec 3) (v : BitVec 32) : (st.setM r v).trapcause = st.trapcause := rfl
@[simp] theorem Strand.setM_trapdata (st : Strand) (r : BitVec 3) (v : BitVec 32) : (st.setM r v).trapdata = st.trapdata := rfl
@[simp] theorem Strand.setM_intrap (st : Strand) (r : BitVec 3) (v : BitVec 32) : (st.setM r v).intrap = st.intrap := rfl
@[simp] theorem Strand.setM_priv (st : Strand) (r : BitVec 3) (v : BitVec 32) : (st.setM r v).priv = st.priv := rfl
@[simp] theorem Strand.setM_groups (st : Strand) (r : BitVec 3) (v : BitVec 32) : (st.setM r v).groups = st.groups := rfl
@[simp] theorem Strand.setM_members (st : Strand) (r : BitVec 3) (v : BitVec 32) : (st.setM r v).members = st.members := rfl
@[simp] theorem Strand.setM_root (st : Strand) (r : BitVec 3) (v : BitVec 32) : (st.setM r v).root = st.root := rfl
@[simp] theorem Strand.setM_latch (st : Strand) (r : BitVec 3) (v : BitVec 32) : (st.setM r v).latch = st.latch := rfl
@[simp] theorem Strand.setM_wsat (st : Strand) (r : BitVec 3) (v : BitVec 32) : (st.setM r v).wsat = st.wsat := rfl
@[simp] theorem Strand.setM_slots (st : Strand) (r : BitVec 3) (v : BitVec 32) : (st.setM r v).slots = st.slots := rfl
@[simp] theorem Strand.setM_copyIssued (st : Strand) (r : BitVec 3) (v : BitVec 32) : (st.setM r v).copyIssued = st.copyIssued := rfl
@[simp] theorem Strand.setM_copyDone (st : Strand) (r : BitVec 3) (v : BitVec 32) : (st.setM r v).copyDone = st.copyDone := rfl
@[simp] theorem Strand.setM_netIssued (st : Strand) (r : BitVec 3) (v : BitVec 32) : (st.setM r v).netIssued = st.netIssued := rfl
@[simp] theorem Strand.setM_netDone (st : Strand) (r : BitVec 3) (v : BitVec 32) : (st.setM r v).netDone = st.netDone := rfl
@[simp] theorem Strand.setM_lostCopy (st : Strand) (r : BitVec 3) (v : BitVec 32) : (st.setM r v).lostCopy = st.lostCopy := rfl
@[simp] theorem Strand.setM_lostNet (st : Strand) (r : BitVec 3) (v : BitVec 32) : (st.setM r v).lostNet = st.lostNet := rfl
@[simp] theorem Strand.setM_lostScalar (st : Strand) (r : BitVec 3) (v : BitVec 32) : (st.setM r v).lostScalar = st.lostScalar := rfl
@[simp] theorem Strand.setM_triggered (st : Strand) (r : BitVec 3) (v : BitVec 32) : (st.setM r v).triggered = st.triggered := rfl
@[simp] theorem Strand.setM_queue (st : Strand) (r : BitVec 3) (v : BitVec 32) : (st.setM r v).queue = st.queue := rfl
@[simp] theorem Strand.setM_gather (st : Strand) (r : BitVec 3) (v : BitVec 32) : (st.setM r v).gather = st.gather := rfl
@[simp] theorem Strand.setM_copyLate (st : Strand) (r : BitVec 3) (v : BitVec 32) : (st.setM r v).copyLate = st.copyLate := rfl
@[simp] theorem Strand.setM_netLate (st : Strand) (r : BitVec 3) (v : BitVec 32) : (st.setM r v).netLate = st.netLate := rfl
@[simp] theorem Strand.setM_moving (st : Strand) (r : BitVec 3) (v : BitVec 32) : (st.setM r v).moving = st.moving := rfl
@[simp] theorem Strand.setM_storing (st : Strand) (r : BitVec 3) (v : BitVec 32) : (st.setM r v).storing = st.storing := rfl
@[simp] theorem Strand.setM_inject (st : Strand) (r : BitVec 3) (v : BitVec 32) : (st.setM r v).inject = st.inject := rfl
@[simp] theorem Strand.setM_returning (st : Strand) (r : BitVec 3) (v : BitVec 32) : (st.setM r v).returning = st.returning := rfl
@[simp] theorem Strand.setM_heldS (st : Strand) (r : BitVec 3) (v : BitVec 32) : (st.setM r v).heldS = st.heldS := rfl
@[simp] theorem Strand.setM_heldP (st : Strand) (r : BitVec 3) (v : BitVec 32) : (st.setM r v).heldP = st.heldP := rfl
@[simp] theorem Strand.setM_heldH (st : Strand) (r : BitVec 3) (v : BitVec 32) : (st.setM r v).heldH = st.heldH := rfl
@[simp] theorem Strand.setM_trns (st : Strand) (r : BitVec 3) (v : BitVec 32) : (st.setM r v).trns = st.trns := rfl
@[simp] theorem Strand.setM_vslot (st : Strand) (r : BitVec 3) (v : BitVec 32) : (st.setM r v).vslot = st.vslot := rfl
@[simp] theorem Strand.setM_flight (st : Strand) (r : BitVec 3) (v : BitVec 32) : (st.setM r v).flight = st.flight := rfl
@[simp] theorem Strand.setM_lastInterlocked (st : Strand) (r : BitVec 3) (v : BitVec 32) : (st.setM r v).lastInterlocked = st.lastInterlocked := rfl
@[simp] theorem Strand.setM_drainDue (st : Strand) (r : BitVec 3) (v : BitVec 32) : (st.setM r v).drainDue = st.drainDue := rfl
@[simp] theorem Strand.setM_passing (st : Strand) (r : BitVec 3) (v : BitVec 32) : (st.setM r v).passing = st.passing := rfl
@[simp] theorem Strand.setM_sleeping (st : Strand) (r : BitVec 3) (v : BitVec 32) : (st.setM r v).sleeping = st.sleeping := rfl
@[simp] theorem Strand.setM_ident (st : Strand) (r : BitVec 3) (v : BitVec 32) : (st.setM r v).ident = st.ident := rfl
@[simp] theorem Strand.setM_atSplit (st : Strand) (r : BitVec 3) (v : BitVec 32) : (st.setM r v).atSplit = st.atSplit := rfl
@[simp] theorem Strand.setM_trcs (st : Strand) (r : BitVec 3) (v : BitVec 32) : (st.setM r v).trcs = st.trcs := rfl

@[simp] theorem Strand.getM_setM_same (st : Strand) (r : BitVec 3) (v : BitVec 32) : (st.setM r v).getM r = v := by
  simp [Strand.getM, Strand.setM]

theorem Strand.getM_setM_ne (st : Strand) {r q : BitVec 3} (v : BitVec 32) (h : q ≠ r) : (st.setM r v).getM q = st.getM q := by
  have : r.toNat ≠ q.toNat := fun e => h (BitVec.eq_of_toNat_eq e.symm)
  simp [Strand.getM, Strand.setM, this]

/-! ### setQ -/

@[simp] theorem Strand.setQ_placed (st : Strand) (r : BitVec 4) (v : BitVec 32) : (st.setQ r v).placed = st.placed := rfl
@[simp] theorem Strand.setQ_pc (st : Strand) (r : BitVec 4) (v : BitVec 32) : (st.setQ r v).pc = st.pc := rfl
@[simp] theorem Strand.setQ_s (st : Strand) (r : BitVec 4) (v : BitVec 32) : (st.setQ r v).s = st.s := rfl
@[simp] theorem Strand.setQ_p (st : Strand) (r : BitVec 4) (v : BitVec 32) : (st.setQ r v).p = st.p := rfl
@[simp] theorem Strand.setQ_b (st : Strand) (r : BitVec 4) (v : BitVec 32) : (st.setQ r v).b = st.b := rfl
@[simp] theorem Strand.setQ_a (st : Strand) (r : BitVec 4) (v : BitVec 32) : (st.setQ r v).a = st.a := rfl
@[simp] theorem Strand.setQ_h (st : Strand) (r : BitVec 4) (v : BitVec 32) : (st.setQ r v).h = st.h := rfl
@[simp] theorem Strand.setQ_v (st : Strand) (r : BitVec 4) (v : BitVec 32) : (st.setQ r v).v = st.v := rfl
@[simp] theorem Strand.setQ_m (st : Strand) (r : BitVec 4) (v : BitVec 32) : (st.setQ r v).m = st.m := rfl
@[simp] theorem Strand.setQ_act (st : Strand) (r : BitVec 4) (v : BitVec 32) : (st.setQ r v).act = st.act := rfl
@[simp] theorem Strand.setQ_qv (st : Strand) (r : BitVec 4) (v : BitVec 32) : (st.setQ r v).qv = st.qv := rfl
@[simp] theorem Strand.setQ_qcfg (st : Strand) (r : BitVec 4) (v : BitVec 32) : (st.setQ r v).qcfg = st.qcfg := rfl
@[simp] theorem Strand.setQ_rstack (st : Strand) (r : BitVec 4) (v : BitVec 32) : (st.setQ r v).rstack = st.rstack := rfl
@[simp] theorem Strand.setQ_loops (st : Strand) (r : BitVec 4) (v : BitVec 32) : (st.setQ r v).loops = st.loops := rfl
@[simp] theorem Strand.setQ_xfer (st : Strand) (r : BitVec 4) (v : BitVec 32) : (st.setQ r v).xfer = st.xfer := rfl
@[simp] theorem Strand.setQ_exposed (st : Strand) (r : BitVec 4) (v : BitVec 32) : (st.setQ r v).exposed = st.exposed := rfl
@[simp] theorem Strand.setQ_fmttrap (st : Strand) (r : BitVec 4) (v : BitVec 32) : (st.setQ r v).fmttrap = st.fmttrap := rfl
@[simp] theorem Strand.setQ_fpflags (st : Strand) (r : BitVec 4) (v : BitVec 32) : (st.setQ r v).fpflags = st.fpflags := rfl
@[simp] theorem Strand.setQ_qflags (st : Strand) (r : BitVec 4) (v : BitVec 32) : (st.setQ r v).qflags = st.qflags := rfl
@[simp] theorem Strand.setQ_trapvec (st : Strand) (r : BitVec 4) (v : BitVec 32) : (st.setQ r v).trapvec = st.trapvec := rfl
@[simp] theorem Strand.setQ_trapframe (st : Strand) (r : BitVec 4) (v : BitVec 32) : (st.setQ r v).trapframe = st.trapframe := rfl
@[simp] theorem Strand.setQ_trapcause (st : Strand) (r : BitVec 4) (v : BitVec 32) : (st.setQ r v).trapcause = st.trapcause := rfl
@[simp] theorem Strand.setQ_trapdata (st : Strand) (r : BitVec 4) (v : BitVec 32) : (st.setQ r v).trapdata = st.trapdata := rfl
@[simp] theorem Strand.setQ_intrap (st : Strand) (r : BitVec 4) (v : BitVec 32) : (st.setQ r v).intrap = st.intrap := rfl
@[simp] theorem Strand.setQ_priv (st : Strand) (r : BitVec 4) (v : BitVec 32) : (st.setQ r v).priv = st.priv := rfl
@[simp] theorem Strand.setQ_groups (st : Strand) (r : BitVec 4) (v : BitVec 32) : (st.setQ r v).groups = st.groups := rfl
@[simp] theorem Strand.setQ_members (st : Strand) (r : BitVec 4) (v : BitVec 32) : (st.setQ r v).members = st.members := rfl
@[simp] theorem Strand.setQ_root (st : Strand) (r : BitVec 4) (v : BitVec 32) : (st.setQ r v).root = st.root := rfl
@[simp] theorem Strand.setQ_latch (st : Strand) (r : BitVec 4) (v : BitVec 32) : (st.setQ r v).latch = st.latch := rfl
@[simp] theorem Strand.setQ_wsat (st : Strand) (r : BitVec 4) (v : BitVec 32) : (st.setQ r v).wsat = st.wsat := rfl
@[simp] theorem Strand.setQ_slots (st : Strand) (r : BitVec 4) (v : BitVec 32) : (st.setQ r v).slots = st.slots := rfl
@[simp] theorem Strand.setQ_copyIssued (st : Strand) (r : BitVec 4) (v : BitVec 32) : (st.setQ r v).copyIssued = st.copyIssued := rfl
@[simp] theorem Strand.setQ_copyDone (st : Strand) (r : BitVec 4) (v : BitVec 32) : (st.setQ r v).copyDone = st.copyDone := rfl
@[simp] theorem Strand.setQ_netIssued (st : Strand) (r : BitVec 4) (v : BitVec 32) : (st.setQ r v).netIssued = st.netIssued := rfl
@[simp] theorem Strand.setQ_netDone (st : Strand) (r : BitVec 4) (v : BitVec 32) : (st.setQ r v).netDone = st.netDone := rfl
@[simp] theorem Strand.setQ_lostCopy (st : Strand) (r : BitVec 4) (v : BitVec 32) : (st.setQ r v).lostCopy = st.lostCopy := rfl
@[simp] theorem Strand.setQ_lostNet (st : Strand) (r : BitVec 4) (v : BitVec 32) : (st.setQ r v).lostNet = st.lostNet := rfl
@[simp] theorem Strand.setQ_lostScalar (st : Strand) (r : BitVec 4) (v : BitVec 32) : (st.setQ r v).lostScalar = st.lostScalar := rfl
@[simp] theorem Strand.setQ_triggered (st : Strand) (r : BitVec 4) (v : BitVec 32) : (st.setQ r v).triggered = st.triggered := rfl
@[simp] theorem Strand.setQ_queue (st : Strand) (r : BitVec 4) (v : BitVec 32) : (st.setQ r v).queue = st.queue := rfl
@[simp] theorem Strand.setQ_gather (st : Strand) (r : BitVec 4) (v : BitVec 32) : (st.setQ r v).gather = st.gather := rfl
@[simp] theorem Strand.setQ_copyLate (st : Strand) (r : BitVec 4) (v : BitVec 32) : (st.setQ r v).copyLate = st.copyLate := rfl
@[simp] theorem Strand.setQ_netLate (st : Strand) (r : BitVec 4) (v : BitVec 32) : (st.setQ r v).netLate = st.netLate := rfl
@[simp] theorem Strand.setQ_moving (st : Strand) (r : BitVec 4) (v : BitVec 32) : (st.setQ r v).moving = st.moving := rfl
@[simp] theorem Strand.setQ_storing (st : Strand) (r : BitVec 4) (v : BitVec 32) : (st.setQ r v).storing = st.storing := rfl
@[simp] theorem Strand.setQ_inject (st : Strand) (r : BitVec 4) (v : BitVec 32) : (st.setQ r v).inject = st.inject := rfl
@[simp] theorem Strand.setQ_returning (st : Strand) (r : BitVec 4) (v : BitVec 32) : (st.setQ r v).returning = st.returning := rfl
@[simp] theorem Strand.setQ_heldS (st : Strand) (r : BitVec 4) (v : BitVec 32) : (st.setQ r v).heldS = st.heldS := rfl
@[simp] theorem Strand.setQ_heldP (st : Strand) (r : BitVec 4) (v : BitVec 32) : (st.setQ r v).heldP = st.heldP := rfl
@[simp] theorem Strand.setQ_heldH (st : Strand) (r : BitVec 4) (v : BitVec 32) : (st.setQ r v).heldH = st.heldH := rfl
@[simp] theorem Strand.setQ_trns (st : Strand) (r : BitVec 4) (v : BitVec 32) : (st.setQ r v).trns = st.trns := rfl
@[simp] theorem Strand.setQ_vslot (st : Strand) (r : BitVec 4) (v : BitVec 32) : (st.setQ r v).vslot = st.vslot := rfl
@[simp] theorem Strand.setQ_flight (st : Strand) (r : BitVec 4) (v : BitVec 32) : (st.setQ r v).flight = st.flight := rfl
@[simp] theorem Strand.setQ_lastInterlocked (st : Strand) (r : BitVec 4) (v : BitVec 32) : (st.setQ r v).lastInterlocked = st.lastInterlocked := rfl
@[simp] theorem Strand.setQ_drainDue (st : Strand) (r : BitVec 4) (v : BitVec 32) : (st.setQ r v).drainDue = st.drainDue := rfl
@[simp] theorem Strand.setQ_passing (st : Strand) (r : BitVec 4) (v : BitVec 32) : (st.setQ r v).passing = st.passing := rfl
@[simp] theorem Strand.setQ_sleeping (st : Strand) (r : BitVec 4) (v : BitVec 32) : (st.setQ r v).sleeping = st.sleeping := rfl
@[simp] theorem Strand.setQ_ident (st : Strand) (r : BitVec 4) (v : BitVec 32) : (st.setQ r v).ident = st.ident := rfl
@[simp] theorem Strand.setQ_atSplit (st : Strand) (r : BitVec 4) (v : BitVec 32) : (st.setQ r v).atSplit = st.atSplit := rfl
@[simp] theorem Strand.setQ_trcs (st : Strand) (r : BitVec 4) (v : BitVec 32) : (st.setQ r v).trcs = st.trcs := rfl

@[simp] theorem Strand.getQ_setQ_same (st : Strand) (r : BitVec 4) (v : BitVec 32) : (st.setQ r v).getQ r = v := by
  simp [Strand.getQ, Strand.setQ]

theorem Strand.getQ_setQ_ne (st : Strand) {r q : BitVec 4} (v : BitVec 32) (h : q ≠ r) : (st.setQ r v).getQ q = st.getQ q := by
  have : r.toNat ≠ q.toNat := fun e => h (BitVec.eq_of_toNat_eq e.symm)
  simp [Strand.getQ, Strand.setQ, this]

/-! ### setQV -/

@[simp] theorem Strand.setQV_placed (st : Strand) (r : BitVec 2) (v : BitVec 1024) : (st.setQV r v).placed = st.placed := rfl
@[simp] theorem Strand.setQV_pc (st : Strand) (r : BitVec 2) (v : BitVec 1024) : (st.setQV r v).pc = st.pc := rfl
@[simp] theorem Strand.setQV_s (st : Strand) (r : BitVec 2) (v : BitVec 1024) : (st.setQV r v).s = st.s := rfl
@[simp] theorem Strand.setQV_p (st : Strand) (r : BitVec 2) (v : BitVec 1024) : (st.setQV r v).p = st.p := rfl
@[simp] theorem Strand.setQV_b (st : Strand) (r : BitVec 2) (v : BitVec 1024) : (st.setQV r v).b = st.b := rfl
@[simp] theorem Strand.setQV_a (st : Strand) (r : BitVec 2) (v : BitVec 1024) : (st.setQV r v).a = st.a := rfl
@[simp] theorem Strand.setQV_h (st : Strand) (r : BitVec 2) (v : BitVec 1024) : (st.setQV r v).h = st.h := rfl
@[simp] theorem Strand.setQV_v (st : Strand) (r : BitVec 2) (v : BitVec 1024) : (st.setQV r v).v = st.v := rfl
@[simp] theorem Strand.setQV_m (st : Strand) (r : BitVec 2) (v : BitVec 1024) : (st.setQV r v).m = st.m := rfl
@[simp] theorem Strand.setQV_act (st : Strand) (r : BitVec 2) (v : BitVec 1024) : (st.setQV r v).act = st.act := rfl
@[simp] theorem Strand.setQV_q (st : Strand) (r : BitVec 2) (v : BitVec 1024) : (st.setQV r v).q = st.q := rfl
@[simp] theorem Strand.setQV_qcfg (st : Strand) (r : BitVec 2) (v : BitVec 1024) : (st.setQV r v).qcfg = st.qcfg := rfl
@[simp] theorem Strand.setQV_rstack (st : Strand) (r : BitVec 2) (v : BitVec 1024) : (st.setQV r v).rstack = st.rstack := rfl
@[simp] theorem Strand.setQV_loops (st : Strand) (r : BitVec 2) (v : BitVec 1024) : (st.setQV r v).loops = st.loops := rfl
@[simp] theorem Strand.setQV_xfer (st : Strand) (r : BitVec 2) (v : BitVec 1024) : (st.setQV r v).xfer = st.xfer := rfl
@[simp] theorem Strand.setQV_exposed (st : Strand) (r : BitVec 2) (v : BitVec 1024) : (st.setQV r v).exposed = st.exposed := rfl
@[simp] theorem Strand.setQV_fmttrap (st : Strand) (r : BitVec 2) (v : BitVec 1024) : (st.setQV r v).fmttrap = st.fmttrap := rfl
@[simp] theorem Strand.setQV_fpflags (st : Strand) (r : BitVec 2) (v : BitVec 1024) : (st.setQV r v).fpflags = st.fpflags := rfl
@[simp] theorem Strand.setQV_qflags (st : Strand) (r : BitVec 2) (v : BitVec 1024) : (st.setQV r v).qflags = st.qflags := rfl
@[simp] theorem Strand.setQV_trapvec (st : Strand) (r : BitVec 2) (v : BitVec 1024) : (st.setQV r v).trapvec = st.trapvec := rfl
@[simp] theorem Strand.setQV_trapframe (st : Strand) (r : BitVec 2) (v : BitVec 1024) : (st.setQV r v).trapframe = st.trapframe := rfl
@[simp] theorem Strand.setQV_trapcause (st : Strand) (r : BitVec 2) (v : BitVec 1024) : (st.setQV r v).trapcause = st.trapcause := rfl
@[simp] theorem Strand.setQV_trapdata (st : Strand) (r : BitVec 2) (v : BitVec 1024) : (st.setQV r v).trapdata = st.trapdata := rfl
@[simp] theorem Strand.setQV_intrap (st : Strand) (r : BitVec 2) (v : BitVec 1024) : (st.setQV r v).intrap = st.intrap := rfl
@[simp] theorem Strand.setQV_priv (st : Strand) (r : BitVec 2) (v : BitVec 1024) : (st.setQV r v).priv = st.priv := rfl
@[simp] theorem Strand.setQV_groups (st : Strand) (r : BitVec 2) (v : BitVec 1024) : (st.setQV r v).groups = st.groups := rfl
@[simp] theorem Strand.setQV_members (st : Strand) (r : BitVec 2) (v : BitVec 1024) : (st.setQV r v).members = st.members := rfl
@[simp] theorem Strand.setQV_root (st : Strand) (r : BitVec 2) (v : BitVec 1024) : (st.setQV r v).root = st.root := rfl
@[simp] theorem Strand.setQV_latch (st : Strand) (r : BitVec 2) (v : BitVec 1024) : (st.setQV r v).latch = st.latch := rfl
@[simp] theorem Strand.setQV_wsat (st : Strand) (r : BitVec 2) (v : BitVec 1024) : (st.setQV r v).wsat = st.wsat := rfl
@[simp] theorem Strand.setQV_slots (st : Strand) (r : BitVec 2) (v : BitVec 1024) : (st.setQV r v).slots = st.slots := rfl
@[simp] theorem Strand.setQV_copyIssued (st : Strand) (r : BitVec 2) (v : BitVec 1024) : (st.setQV r v).copyIssued = st.copyIssued := rfl
@[simp] theorem Strand.setQV_copyDone (st : Strand) (r : BitVec 2) (v : BitVec 1024) : (st.setQV r v).copyDone = st.copyDone := rfl
@[simp] theorem Strand.setQV_netIssued (st : Strand) (r : BitVec 2) (v : BitVec 1024) : (st.setQV r v).netIssued = st.netIssued := rfl
@[simp] theorem Strand.setQV_netDone (st : Strand) (r : BitVec 2) (v : BitVec 1024) : (st.setQV r v).netDone = st.netDone := rfl
@[simp] theorem Strand.setQV_lostCopy (st : Strand) (r : BitVec 2) (v : BitVec 1024) : (st.setQV r v).lostCopy = st.lostCopy := rfl
@[simp] theorem Strand.setQV_lostNet (st : Strand) (r : BitVec 2) (v : BitVec 1024) : (st.setQV r v).lostNet = st.lostNet := rfl
@[simp] theorem Strand.setQV_lostScalar (st : Strand) (r : BitVec 2) (v : BitVec 1024) : (st.setQV r v).lostScalar = st.lostScalar := rfl
@[simp] theorem Strand.setQV_triggered (st : Strand) (r : BitVec 2) (v : BitVec 1024) : (st.setQV r v).triggered = st.triggered := rfl
@[simp] theorem Strand.setQV_queue (st : Strand) (r : BitVec 2) (v : BitVec 1024) : (st.setQV r v).queue = st.queue := rfl
@[simp] theorem Strand.setQV_gather (st : Strand) (r : BitVec 2) (v : BitVec 1024) : (st.setQV r v).gather = st.gather := rfl
@[simp] theorem Strand.setQV_copyLate (st : Strand) (r : BitVec 2) (v : BitVec 1024) : (st.setQV r v).copyLate = st.copyLate := rfl
@[simp] theorem Strand.setQV_netLate (st : Strand) (r : BitVec 2) (v : BitVec 1024) : (st.setQV r v).netLate = st.netLate := rfl
@[simp] theorem Strand.setQV_moving (st : Strand) (r : BitVec 2) (v : BitVec 1024) : (st.setQV r v).moving = st.moving := rfl
@[simp] theorem Strand.setQV_storing (st : Strand) (r : BitVec 2) (v : BitVec 1024) : (st.setQV r v).storing = st.storing := rfl
@[simp] theorem Strand.setQV_inject (st : Strand) (r : BitVec 2) (v : BitVec 1024) : (st.setQV r v).inject = st.inject := rfl
@[simp] theorem Strand.setQV_returning (st : Strand) (r : BitVec 2) (v : BitVec 1024) : (st.setQV r v).returning = st.returning := rfl
@[simp] theorem Strand.setQV_heldS (st : Strand) (r : BitVec 2) (v : BitVec 1024) : (st.setQV r v).heldS = st.heldS := rfl
@[simp] theorem Strand.setQV_heldP (st : Strand) (r : BitVec 2) (v : BitVec 1024) : (st.setQV r v).heldP = st.heldP := rfl
@[simp] theorem Strand.setQV_heldH (st : Strand) (r : BitVec 2) (v : BitVec 1024) : (st.setQV r v).heldH = st.heldH := rfl
@[simp] theorem Strand.setQV_trns (st : Strand) (r : BitVec 2) (v : BitVec 1024) : (st.setQV r v).trns = st.trns := rfl
@[simp] theorem Strand.setQV_vslot (st : Strand) (r : BitVec 2) (v : BitVec 1024) : (st.setQV r v).vslot = st.vslot := rfl
@[simp] theorem Strand.setQV_flight (st : Strand) (r : BitVec 2) (v : BitVec 1024) : (st.setQV r v).flight = st.flight := rfl
@[simp] theorem Strand.setQV_lastInterlocked (st : Strand) (r : BitVec 2) (v : BitVec 1024) : (st.setQV r v).lastInterlocked = st.lastInterlocked := rfl
@[simp] theorem Strand.setQV_drainDue (st : Strand) (r : BitVec 2) (v : BitVec 1024) : (st.setQV r v).drainDue = st.drainDue := rfl
@[simp] theorem Strand.setQV_passing (st : Strand) (r : BitVec 2) (v : BitVec 1024) : (st.setQV r v).passing = st.passing := rfl
@[simp] theorem Strand.setQV_sleeping (st : Strand) (r : BitVec 2) (v : BitVec 1024) : (st.setQV r v).sleeping = st.sleeping := rfl
@[simp] theorem Strand.setQV_ident (st : Strand) (r : BitVec 2) (v : BitVec 1024) : (st.setQV r v).ident = st.ident := rfl
@[simp] theorem Strand.setQV_atSplit (st : Strand) (r : BitVec 2) (v : BitVec 1024) : (st.setQV r v).atSplit = st.atSplit := rfl
@[simp] theorem Strand.setQV_trcs (st : Strand) (r : BitVec 2) (v : BitVec 1024) : (st.setQV r v).trcs = st.trcs := rfl

@[simp] theorem Strand.getQV_setQV_same (st : Strand) (r : BitVec 2) (v : BitVec 1024) : (st.setQV r v).getQV r = v := by
  simp [Strand.getQV, Strand.setQV]

theorem Strand.getQV_setQV_ne (st : Strand) {r q : BitVec 2} (v : BitVec 1024) (h : q ≠ r) : (st.setQV r v).getQV q = st.getQV q := by
  have : r.toNat ≠ q.toNat := fun e => h (BitVec.eq_of_toNat_eq e.symm)
  simp [Strand.getQV, Strand.setQV, this]

/-! ### raiseFp -/

@[simp] theorem Strand.raiseFp_placed (st : Strand) (f : BitVec 5) : (st.raiseFp f).placed = st.placed := rfl
@[simp] theorem Strand.raiseFp_pc (st : Strand) (f : BitVec 5) : (st.raiseFp f).pc = st.pc := rfl
@[simp] theorem Strand.raiseFp_s (st : Strand) (f : BitVec 5) : (st.raiseFp f).s = st.s := rfl
@[simp] theorem Strand.raiseFp_p (st : Strand) (f : BitVec 5) : (st.raiseFp f).p = st.p := rfl
@[simp] theorem Strand.raiseFp_b (st : Strand) (f : BitVec 5) : (st.raiseFp f).b = st.b := rfl
@[simp] theorem Strand.raiseFp_a (st : Strand) (f : BitVec 5) : (st.raiseFp f).a = st.a := rfl
@[simp] theorem Strand.raiseFp_h (st : Strand) (f : BitVec 5) : (st.raiseFp f).h = st.h := rfl
@[simp] theorem Strand.raiseFp_v (st : Strand) (f : BitVec 5) : (st.raiseFp f).v = st.v := rfl
@[simp] theorem Strand.raiseFp_m (st : Strand) (f : BitVec 5) : (st.raiseFp f).m = st.m := rfl
@[simp] theorem Strand.raiseFp_act (st : Strand) (f : BitVec 5) : (st.raiseFp f).act = st.act := rfl
@[simp] theorem Strand.raiseFp_q (st : Strand) (f : BitVec 5) : (st.raiseFp f).q = st.q := rfl
@[simp] theorem Strand.raiseFp_qv (st : Strand) (f : BitVec 5) : (st.raiseFp f).qv = st.qv := rfl
@[simp] theorem Strand.raiseFp_qcfg (st : Strand) (f : BitVec 5) : (st.raiseFp f).qcfg = st.qcfg := rfl
@[simp] theorem Strand.raiseFp_rstack (st : Strand) (f : BitVec 5) : (st.raiseFp f).rstack = st.rstack := rfl
@[simp] theorem Strand.raiseFp_loops (st : Strand) (f : BitVec 5) : (st.raiseFp f).loops = st.loops := rfl
@[simp] theorem Strand.raiseFp_xfer (st : Strand) (f : BitVec 5) : (st.raiseFp f).xfer = st.xfer := rfl
@[simp] theorem Strand.raiseFp_exposed (st : Strand) (f : BitVec 5) : (st.raiseFp f).exposed = st.exposed := rfl
@[simp] theorem Strand.raiseFp_fmttrap (st : Strand) (f : BitVec 5) : (st.raiseFp f).fmttrap = st.fmttrap := rfl
@[simp] theorem Strand.raiseFp_qflags (st : Strand) (f : BitVec 5) : (st.raiseFp f).qflags = st.qflags := rfl
@[simp] theorem Strand.raiseFp_trapvec (st : Strand) (f : BitVec 5) : (st.raiseFp f).trapvec = st.trapvec := rfl
@[simp] theorem Strand.raiseFp_trapframe (st : Strand) (f : BitVec 5) : (st.raiseFp f).trapframe = st.trapframe := rfl
@[simp] theorem Strand.raiseFp_trapcause (st : Strand) (f : BitVec 5) : (st.raiseFp f).trapcause = st.trapcause := rfl
@[simp] theorem Strand.raiseFp_trapdata (st : Strand) (f : BitVec 5) : (st.raiseFp f).trapdata = st.trapdata := rfl
@[simp] theorem Strand.raiseFp_intrap (st : Strand) (f : BitVec 5) : (st.raiseFp f).intrap = st.intrap := rfl
@[simp] theorem Strand.raiseFp_priv (st : Strand) (f : BitVec 5) : (st.raiseFp f).priv = st.priv := rfl
@[simp] theorem Strand.raiseFp_groups (st : Strand) (f : BitVec 5) : (st.raiseFp f).groups = st.groups := rfl
@[simp] theorem Strand.raiseFp_members (st : Strand) (f : BitVec 5) : (st.raiseFp f).members = st.members := rfl
@[simp] theorem Strand.raiseFp_root (st : Strand) (f : BitVec 5) : (st.raiseFp f).root = st.root := rfl
@[simp] theorem Strand.raiseFp_latch (st : Strand) (f : BitVec 5) : (st.raiseFp f).latch = st.latch := rfl
@[simp] theorem Strand.raiseFp_wsat (st : Strand) (f : BitVec 5) : (st.raiseFp f).wsat = st.wsat := rfl
@[simp] theorem Strand.raiseFp_slots (st : Strand) (f : BitVec 5) : (st.raiseFp f).slots = st.slots := rfl
@[simp] theorem Strand.raiseFp_copyIssued (st : Strand) (f : BitVec 5) : (st.raiseFp f).copyIssued = st.copyIssued := rfl
@[simp] theorem Strand.raiseFp_copyDone (st : Strand) (f : BitVec 5) : (st.raiseFp f).copyDone = st.copyDone := rfl
@[simp] theorem Strand.raiseFp_netIssued (st : Strand) (f : BitVec 5) : (st.raiseFp f).netIssued = st.netIssued := rfl
@[simp] theorem Strand.raiseFp_netDone (st : Strand) (f : BitVec 5) : (st.raiseFp f).netDone = st.netDone := rfl
@[simp] theorem Strand.raiseFp_lostCopy (st : Strand) (f : BitVec 5) : (st.raiseFp f).lostCopy = st.lostCopy := rfl
@[simp] theorem Strand.raiseFp_lostNet (st : Strand) (f : BitVec 5) : (st.raiseFp f).lostNet = st.lostNet := rfl
@[simp] theorem Strand.raiseFp_lostScalar (st : Strand) (f : BitVec 5) : (st.raiseFp f).lostScalar = st.lostScalar := rfl
@[simp] theorem Strand.raiseFp_triggered (st : Strand) (f : BitVec 5) : (st.raiseFp f).triggered = st.triggered := rfl
@[simp] theorem Strand.raiseFp_queue (st : Strand) (f : BitVec 5) : (st.raiseFp f).queue = st.queue := rfl
@[simp] theorem Strand.raiseFp_gather (st : Strand) (f : BitVec 5) : (st.raiseFp f).gather = st.gather := rfl
@[simp] theorem Strand.raiseFp_copyLate (st : Strand) (f : BitVec 5) : (st.raiseFp f).copyLate = st.copyLate := rfl
@[simp] theorem Strand.raiseFp_netLate (st : Strand) (f : BitVec 5) : (st.raiseFp f).netLate = st.netLate := rfl
@[simp] theorem Strand.raiseFp_moving (st : Strand) (f : BitVec 5) : (st.raiseFp f).moving = st.moving := rfl
@[simp] theorem Strand.raiseFp_storing (st : Strand) (f : BitVec 5) : (st.raiseFp f).storing = st.storing := rfl
@[simp] theorem Strand.raiseFp_inject (st : Strand) (f : BitVec 5) : (st.raiseFp f).inject = st.inject := rfl
@[simp] theorem Strand.raiseFp_returning (st : Strand) (f : BitVec 5) : (st.raiseFp f).returning = st.returning := rfl
@[simp] theorem Strand.raiseFp_heldS (st : Strand) (f : BitVec 5) : (st.raiseFp f).heldS = st.heldS := rfl
@[simp] theorem Strand.raiseFp_heldP (st : Strand) (f : BitVec 5) : (st.raiseFp f).heldP = st.heldP := rfl
@[simp] theorem Strand.raiseFp_heldH (st : Strand) (f : BitVec 5) : (st.raiseFp f).heldH = st.heldH := rfl
@[simp] theorem Strand.raiseFp_trns (st : Strand) (f : BitVec 5) : (st.raiseFp f).trns = st.trns := rfl
@[simp] theorem Strand.raiseFp_vslot (st : Strand) (f : BitVec 5) : (st.raiseFp f).vslot = st.vslot := rfl
@[simp] theorem Strand.raiseFp_flight (st : Strand) (f : BitVec 5) : (st.raiseFp f).flight = st.flight := rfl
@[simp] theorem Strand.raiseFp_lastInterlocked (st : Strand) (f : BitVec 5) : (st.raiseFp f).lastInterlocked = st.lastInterlocked := rfl
@[simp] theorem Strand.raiseFp_drainDue (st : Strand) (f : BitVec 5) : (st.raiseFp f).drainDue = st.drainDue := rfl
@[simp] theorem Strand.raiseFp_passing (st : Strand) (f : BitVec 5) : (st.raiseFp f).passing = st.passing := rfl
@[simp] theorem Strand.raiseFp_sleeping (st : Strand) (f : BitVec 5) : (st.raiseFp f).sleeping = st.sleeping := rfl
@[simp] theorem Strand.raiseFp_ident (st : Strand) (f : BitVec 5) : (st.raiseFp f).ident = st.ident := rfl
@[simp] theorem Strand.raiseFp_atSplit (st : Strand) (f : BitVec 5) : (st.raiseFp f).atSplit = st.atSplit := rfl
@[simp] theorem Strand.raiseFp_trcs (st : Strand) (f : BitVec 5) : (st.raiseFp f).trcs = st.trcs := rfl
/-! ### raiseQ -/

@[simp] theorem Strand.raiseQ_placed (st : Strand) (f : BitVec 3) : (st.raiseQ f).placed = st.placed := rfl
@[simp] theorem Strand.raiseQ_pc (st : Strand) (f : BitVec 3) : (st.raiseQ f).pc = st.pc := rfl
@[simp] theorem Strand.raiseQ_s (st : Strand) (f : BitVec 3) : (st.raiseQ f).s = st.s := rfl
@[simp] theorem Strand.raiseQ_p (st : Strand) (f : BitVec 3) : (st.raiseQ f).p = st.p := rfl
@[simp] theorem Strand.raiseQ_b (st : Strand) (f : BitVec 3) : (st.raiseQ f).b = st.b := rfl
@[simp] theorem Strand.raiseQ_a (st : Strand) (f : BitVec 3) : (st.raiseQ f).a = st.a := rfl
@[simp] theorem Strand.raiseQ_h (st : Strand) (f : BitVec 3) : (st.raiseQ f).h = st.h := rfl
@[simp] theorem Strand.raiseQ_v (st : Strand) (f : BitVec 3) : (st.raiseQ f).v = st.v := rfl
@[simp] theorem Strand.raiseQ_m (st : Strand) (f : BitVec 3) : (st.raiseQ f).m = st.m := rfl
@[simp] theorem Strand.raiseQ_act (st : Strand) (f : BitVec 3) : (st.raiseQ f).act = st.act := rfl
@[simp] theorem Strand.raiseQ_q (st : Strand) (f : BitVec 3) : (st.raiseQ f).q = st.q := rfl
@[simp] theorem Strand.raiseQ_qv (st : Strand) (f : BitVec 3) : (st.raiseQ f).qv = st.qv := rfl
@[simp] theorem Strand.raiseQ_qcfg (st : Strand) (f : BitVec 3) : (st.raiseQ f).qcfg = st.qcfg := rfl
@[simp] theorem Strand.raiseQ_rstack (st : Strand) (f : BitVec 3) : (st.raiseQ f).rstack = st.rstack := rfl
@[simp] theorem Strand.raiseQ_loops (st : Strand) (f : BitVec 3) : (st.raiseQ f).loops = st.loops := rfl
@[simp] theorem Strand.raiseQ_xfer (st : Strand) (f : BitVec 3) : (st.raiseQ f).xfer = st.xfer := rfl
@[simp] theorem Strand.raiseQ_exposed (st : Strand) (f : BitVec 3) : (st.raiseQ f).exposed = st.exposed := rfl
@[simp] theorem Strand.raiseQ_fmttrap (st : Strand) (f : BitVec 3) : (st.raiseQ f).fmttrap = st.fmttrap := rfl
@[simp] theorem Strand.raiseQ_fpflags (st : Strand) (f : BitVec 3) : (st.raiseQ f).fpflags = st.fpflags := rfl
@[simp] theorem Strand.raiseQ_trapvec (st : Strand) (f : BitVec 3) : (st.raiseQ f).trapvec = st.trapvec := rfl
@[simp] theorem Strand.raiseQ_trapframe (st : Strand) (f : BitVec 3) : (st.raiseQ f).trapframe = st.trapframe := rfl
@[simp] theorem Strand.raiseQ_trapcause (st : Strand) (f : BitVec 3) : (st.raiseQ f).trapcause = st.trapcause := rfl
@[simp] theorem Strand.raiseQ_trapdata (st : Strand) (f : BitVec 3) : (st.raiseQ f).trapdata = st.trapdata := rfl
@[simp] theorem Strand.raiseQ_intrap (st : Strand) (f : BitVec 3) : (st.raiseQ f).intrap = st.intrap := rfl
@[simp] theorem Strand.raiseQ_priv (st : Strand) (f : BitVec 3) : (st.raiseQ f).priv = st.priv := rfl
@[simp] theorem Strand.raiseQ_groups (st : Strand) (f : BitVec 3) : (st.raiseQ f).groups = st.groups := rfl
@[simp] theorem Strand.raiseQ_members (st : Strand) (f : BitVec 3) : (st.raiseQ f).members = st.members := rfl
@[simp] theorem Strand.raiseQ_root (st : Strand) (f : BitVec 3) : (st.raiseQ f).root = st.root := rfl
@[simp] theorem Strand.raiseQ_latch (st : Strand) (f : BitVec 3) : (st.raiseQ f).latch = st.latch := rfl
@[simp] theorem Strand.raiseQ_wsat (st : Strand) (f : BitVec 3) : (st.raiseQ f).wsat = st.wsat := rfl
@[simp] theorem Strand.raiseQ_slots (st : Strand) (f : BitVec 3) : (st.raiseQ f).slots = st.slots := rfl
@[simp] theorem Strand.raiseQ_copyIssued (st : Strand) (f : BitVec 3) : (st.raiseQ f).copyIssued = st.copyIssued := rfl
@[simp] theorem Strand.raiseQ_copyDone (st : Strand) (f : BitVec 3) : (st.raiseQ f).copyDone = st.copyDone := rfl
@[simp] theorem Strand.raiseQ_netIssued (st : Strand) (f : BitVec 3) : (st.raiseQ f).netIssued = st.netIssued := rfl
@[simp] theorem Strand.raiseQ_netDone (st : Strand) (f : BitVec 3) : (st.raiseQ f).netDone = st.netDone := rfl
@[simp] theorem Strand.raiseQ_lostCopy (st : Strand) (f : BitVec 3) : (st.raiseQ f).lostCopy = st.lostCopy := rfl
@[simp] theorem Strand.raiseQ_lostNet (st : Strand) (f : BitVec 3) : (st.raiseQ f).lostNet = st.lostNet := rfl
@[simp] theorem Strand.raiseQ_lostScalar (st : Strand) (f : BitVec 3) : (st.raiseQ f).lostScalar = st.lostScalar := rfl
@[simp] theorem Strand.raiseQ_triggered (st : Strand) (f : BitVec 3) : (st.raiseQ f).triggered = st.triggered := rfl
@[simp] theorem Strand.raiseQ_queue (st : Strand) (f : BitVec 3) : (st.raiseQ f).queue = st.queue := rfl
@[simp] theorem Strand.raiseQ_gather (st : Strand) (f : BitVec 3) : (st.raiseQ f).gather = st.gather := rfl
@[simp] theorem Strand.raiseQ_copyLate (st : Strand) (f : BitVec 3) : (st.raiseQ f).copyLate = st.copyLate := rfl
@[simp] theorem Strand.raiseQ_netLate (st : Strand) (f : BitVec 3) : (st.raiseQ f).netLate = st.netLate := rfl
@[simp] theorem Strand.raiseQ_moving (st : Strand) (f : BitVec 3) : (st.raiseQ f).moving = st.moving := rfl
@[simp] theorem Strand.raiseQ_storing (st : Strand) (f : BitVec 3) : (st.raiseQ f).storing = st.storing := rfl
@[simp] theorem Strand.raiseQ_inject (st : Strand) (f : BitVec 3) : (st.raiseQ f).inject = st.inject := rfl
@[simp] theorem Strand.raiseQ_returning (st : Strand) (f : BitVec 3) : (st.raiseQ f).returning = st.returning := rfl
@[simp] theorem Strand.raiseQ_heldS (st : Strand) (f : BitVec 3) : (st.raiseQ f).heldS = st.heldS := rfl
@[simp] theorem Strand.raiseQ_heldP (st : Strand) (f : BitVec 3) : (st.raiseQ f).heldP = st.heldP := rfl
@[simp] theorem Strand.raiseQ_heldH (st : Strand) (f : BitVec 3) : (st.raiseQ f).heldH = st.heldH := rfl
@[simp] theorem Strand.raiseQ_trns (st : Strand) (f : BitVec 3) : (st.raiseQ f).trns = st.trns := rfl
@[simp] theorem Strand.raiseQ_vslot (st : Strand) (f : BitVec 3) : (st.raiseQ f).vslot = st.vslot := rfl
@[simp] theorem Strand.raiseQ_flight (st : Strand) (f : BitVec 3) : (st.raiseQ f).flight = st.flight := rfl
@[simp] theorem Strand.raiseQ_lastInterlocked (st : Strand) (f : BitVec 3) : (st.raiseQ f).lastInterlocked = st.lastInterlocked := rfl
@[simp] theorem Strand.raiseQ_drainDue (st : Strand) (f : BitVec 3) : (st.raiseQ f).drainDue = st.drainDue := rfl
@[simp] theorem Strand.raiseQ_passing (st : Strand) (f : BitVec 3) : (st.raiseQ f).passing = st.passing := rfl
@[simp] theorem Strand.raiseQ_sleeping (st : Strand) (f : BitVec 3) : (st.raiseQ f).sleeping = st.sleeping := rfl
@[simp] theorem Strand.raiseQ_ident (st : Strand) (f : BitVec 3) : (st.raiseQ f).ident = st.ident := rfl
@[simp] theorem Strand.raiseQ_atSplit (st : Strand) (f : BitVec 3) : (st.raiseQ f).atSplit = st.atSplit := rfl
@[simp] theorem Strand.raiseQ_trcs (st : Strand) (f : BitVec 3) : (st.raiseQ f).trcs = st.trcs := rfl
/-! ### A read of one kind of register after a write of another -/

@[simp] theorem Strand.getP_setS (st : Strand) (r : BitVec 5) (v : BitVec 64) (k : BitVec 3) : (st.setS r v).getP k = st.getP k := by
  simp [Strand.getP]
@[simp] theorem Strand.getB_setS (st : Strand) (r : BitVec 5) (v : BitVec 64) (k : BitVec 2) : (st.setS r v).getB k = st.getB k := by
  simp [Strand.getB]
@[simp] theorem Strand.getA_setS (st : Strand) (r : BitVec 5) (v : BitVec 64) (k : BitVec 3) : (st.setS r v).getA k = st.getA k := by
  simp [Strand.getA]
@[simp] theorem Strand.getH_setS (st : Strand) (r : BitVec 5) (v : BitVec 64) (k : BitVec 4) : (st.setS r v).getH k = st.getH k := by
  simp [Strand.getH]
@[simp] theorem Strand.getV_setS (st : Strand) (r : BitVec 5) (v : BitVec 64) (k : BitVec 6) : (st.setS r v).getV k = st.getV k := by
  simp [Strand.getV]
@[simp] theorem Strand.getM_setS (st : Strand) (r : BitVec 5) (v : BitVec 64) (k : BitVec 3) : (st.setS r v).getM k = st.getM k := by
  simp [Strand.getM]
@[simp] theorem Strand.getQ_setS (st : Strand) (r : BitVec 5) (v : BitVec 64) (k : BitVec 4) : (st.setS r v).getQ k = st.getQ k := by
  simp [Strand.getQ]
@[simp] theorem Strand.getQV_setS (st : Strand) (r : BitVec 5) (v : BitVec 64) (k : BitVec 2) : (st.setS r v).getQV k = st.getQV k := by
  simp [Strand.getQV]
@[simp] theorem Strand.getS_setP (st : Strand) (r : BitVec 3) (v : Bool) (k : BitVec 5) : (st.setP r v).getS k = st.getS k := by
  simp [Strand.getS]
@[simp] theorem Strand.getB_setP (st : Strand) (r : BitVec 3) (v : Bool) (k : BitVec 2) : (st.setP r v).getB k = st.getB k := by
  simp [Strand.getB]
@[simp] theorem Strand.getA_setP (st : Strand) (r : BitVec 3) (v : Bool) (k : BitVec 3) : (st.setP r v).getA k = st.getA k := by
  simp [Strand.getA]
@[simp] theorem Strand.getH_setP (st : Strand) (r : BitVec 3) (v : Bool) (k : BitVec 4) : (st.setP r v).getH k = st.getH k := by
  simp [Strand.getH]
@[simp] theorem Strand.getV_setP (st : Strand) (r : BitVec 3) (v : Bool) (k : BitVec 6) : (st.setP r v).getV k = st.getV k := by
  simp [Strand.getV]
@[simp] theorem Strand.getM_setP (st : Strand) (r : BitVec 3) (v : Bool) (k : BitVec 3) : (st.setP r v).getM k = st.getM k := by
  simp [Strand.getM]
@[simp] theorem Strand.getQ_setP (st : Strand) (r : BitVec 3) (v : Bool) (k : BitVec 4) : (st.setP r v).getQ k = st.getQ k := by
  simp [Strand.getQ]
@[simp] theorem Strand.getQV_setP (st : Strand) (r : BitVec 3) (v : Bool) (k : BitVec 2) : (st.setP r v).getQV k = st.getQV k := by
  simp [Strand.getQV]
@[simp] theorem Strand.getS_setB (st : Strand) (r : BitVec 2) (v : BitVec 32) (k : BitVec 5) : (st.setB r v).getS k = st.getS k := by
  simp [Strand.getS]
@[simp] theorem Strand.getP_setB (st : Strand) (r : BitVec 2) (v : BitVec 32) (k : BitVec 3) : (st.setB r v).getP k = st.getP k := by
  simp [Strand.getP]
@[simp] theorem Strand.getA_setB (st : Strand) (r : BitVec 2) (v : BitVec 32) (k : BitVec 3) : (st.setB r v).getA k = st.getA k := by
  simp [Strand.getA]
@[simp] theorem Strand.getH_setB (st : Strand) (r : BitVec 2) (v : BitVec 32) (k : BitVec 4) : (st.setB r v).getH k = st.getH k := by
  simp [Strand.getH]
@[simp] theorem Strand.getV_setB (st : Strand) (r : BitVec 2) (v : BitVec 32) (k : BitVec 6) : (st.setB r v).getV k = st.getV k := by
  simp [Strand.getV]
@[simp] theorem Strand.getM_setB (st : Strand) (r : BitVec 2) (v : BitVec 32) (k : BitVec 3) : (st.setB r v).getM k = st.getM k := by
  simp [Strand.getM]
@[simp] theorem Strand.getQ_setB (st : Strand) (r : BitVec 2) (v : BitVec 32) (k : BitVec 4) : (st.setB r v).getQ k = st.getQ k := by
  simp [Strand.getQ]
@[simp] theorem Strand.getQV_setB (st : Strand) (r : BitVec 2) (v : BitVec 32) (k : BitVec 2) : (st.setB r v).getQV k = st.getQV k := by
  simp [Strand.getQV]
@[simp] theorem Strand.getS_setA (st : Strand) (r : BitVec 3) (v : AReg) (k : BitVec 5) : (st.setA r v).getS k = st.getS k := by
  simp [Strand.getS]
@[simp] theorem Strand.getP_setA (st : Strand) (r : BitVec 3) (v : AReg) (k : BitVec 3) : (st.setA r v).getP k = st.getP k := by
  simp [Strand.getP]
@[simp] theorem Strand.getB_setA (st : Strand) (r : BitVec 3) (v : AReg) (k : BitVec 2) : (st.setA r v).getB k = st.getB k := by
  simp [Strand.getB]
@[simp] theorem Strand.getH_setA (st : Strand) (r : BitVec 3) (v : AReg) (k : BitVec 4) : (st.setA r v).getH k = st.getH k := by
  simp [Strand.getH]
@[simp] theorem Strand.getV_setA (st : Strand) (r : BitVec 3) (v : AReg) (k : BitVec 6) : (st.setA r v).getV k = st.getV k := by
  simp [Strand.getV]
@[simp] theorem Strand.getM_setA (st : Strand) (r : BitVec 3) (v : AReg) (k : BitVec 3) : (st.setA r v).getM k = st.getM k := by
  simp [Strand.getM]
@[simp] theorem Strand.getQ_setA (st : Strand) (r : BitVec 3) (v : AReg) (k : BitVec 4) : (st.setA r v).getQ k = st.getQ k := by
  simp [Strand.getQ]
@[simp] theorem Strand.getQV_setA (st : Strand) (r : BitVec 3) (v : AReg) (k : BitVec 2) : (st.setA r v).getQV k = st.getQV k := by
  simp [Strand.getQV]
@[simp] theorem Strand.getS_setH (st : Strand) (r : BitVec 4) (v : Handle) (k : BitVec 5) : (st.setH r v).getS k = st.getS k := by
  simp [Strand.getS]
@[simp] theorem Strand.getP_setH (st : Strand) (r : BitVec 4) (v : Handle) (k : BitVec 3) : (st.setH r v).getP k = st.getP k := by
  simp [Strand.getP]
@[simp] theorem Strand.getB_setH (st : Strand) (r : BitVec 4) (v : Handle) (k : BitVec 2) : (st.setH r v).getB k = st.getB k := by
  simp [Strand.getB]
@[simp] theorem Strand.getA_setH (st : Strand) (r : BitVec 4) (v : Handle) (k : BitVec 3) : (st.setH r v).getA k = st.getA k := by
  simp [Strand.getA]
@[simp] theorem Strand.getV_setH (st : Strand) (r : BitVec 4) (v : Handle) (k : BitVec 6) : (st.setH r v).getV k = st.getV k := by
  simp [Strand.getV]
@[simp] theorem Strand.getM_setH (st : Strand) (r : BitVec 4) (v : Handle) (k : BitVec 3) : (st.setH r v).getM k = st.getM k := by
  simp [Strand.getM]
@[simp] theorem Strand.getQ_setH (st : Strand) (r : BitVec 4) (v : Handle) (k : BitVec 4) : (st.setH r v).getQ k = st.getQ k := by
  simp [Strand.getQ]
@[simp] theorem Strand.getQV_setH (st : Strand) (r : BitVec 4) (v : Handle) (k : BitVec 2) : (st.setH r v).getQV k = st.getQV k := by
  simp [Strand.getQV]
@[simp] theorem Strand.getS_setV (st : Strand) (r : BitVec 6) (v : VReg) (k : BitVec 5) : (st.setV r v).getS k = st.getS k := by
  simp [Strand.getS]
@[simp] theorem Strand.getP_setV (st : Strand) (r : BitVec 6) (v : VReg) (k : BitVec 3) : (st.setV r v).getP k = st.getP k := by
  simp [Strand.getP]
@[simp] theorem Strand.getB_setV (st : Strand) (r : BitVec 6) (v : VReg) (k : BitVec 2) : (st.setV r v).getB k = st.getB k := by
  simp [Strand.getB]
@[simp] theorem Strand.getA_setV (st : Strand) (r : BitVec 6) (v : VReg) (k : BitVec 3) : (st.setV r v).getA k = st.getA k := by
  simp [Strand.getA]
@[simp] theorem Strand.getH_setV (st : Strand) (r : BitVec 6) (v : VReg) (k : BitVec 4) : (st.setV r v).getH k = st.getH k := by
  simp [Strand.getH]
@[simp] theorem Strand.getM_setV (st : Strand) (r : BitVec 6) (v : VReg) (k : BitVec 3) : (st.setV r v).getM k = st.getM k := by
  simp [Strand.getM]
@[simp] theorem Strand.getQ_setV (st : Strand) (r : BitVec 6) (v : VReg) (k : BitVec 4) : (st.setV r v).getQ k = st.getQ k := by
  simp [Strand.getQ]
@[simp] theorem Strand.getQV_setV (st : Strand) (r : BitVec 6) (v : VReg) (k : BitVec 2) : (st.setV r v).getQV k = st.getQV k := by
  simp [Strand.getQV]
@[simp] theorem Strand.getS_setM (st : Strand) (r : BitVec 3) (v : BitVec 32) (k : BitVec 5) : (st.setM r v).getS k = st.getS k := by
  simp [Strand.getS]
@[simp] theorem Strand.getP_setM (st : Strand) (r : BitVec 3) (v : BitVec 32) (k : BitVec 3) : (st.setM r v).getP k = st.getP k := by
  simp [Strand.getP]
@[simp] theorem Strand.getB_setM (st : Strand) (r : BitVec 3) (v : BitVec 32) (k : BitVec 2) : (st.setM r v).getB k = st.getB k := by
  simp [Strand.getB]
@[simp] theorem Strand.getA_setM (st : Strand) (r : BitVec 3) (v : BitVec 32) (k : BitVec 3) : (st.setM r v).getA k = st.getA k := by
  simp [Strand.getA]
@[simp] theorem Strand.getH_setM (st : Strand) (r : BitVec 3) (v : BitVec 32) (k : BitVec 4) : (st.setM r v).getH k = st.getH k := by
  simp [Strand.getH]
@[simp] theorem Strand.getV_setM (st : Strand) (r : BitVec 3) (v : BitVec 32) (k : BitVec 6) : (st.setM r v).getV k = st.getV k := by
  simp [Strand.getV]
@[simp] theorem Strand.getQ_setM (st : Strand) (r : BitVec 3) (v : BitVec 32) (k : BitVec 4) : (st.setM r v).getQ k = st.getQ k := by
  simp [Strand.getQ]
@[simp] theorem Strand.getQV_setM (st : Strand) (r : BitVec 3) (v : BitVec 32) (k : BitVec 2) : (st.setM r v).getQV k = st.getQV k := by
  simp [Strand.getQV]
@[simp] theorem Strand.getS_setQ (st : Strand) (r : BitVec 4) (v : BitVec 32) (k : BitVec 5) : (st.setQ r v).getS k = st.getS k := by
  simp [Strand.getS]
@[simp] theorem Strand.getP_setQ (st : Strand) (r : BitVec 4) (v : BitVec 32) (k : BitVec 3) : (st.setQ r v).getP k = st.getP k := by
  simp [Strand.getP]
@[simp] theorem Strand.getB_setQ (st : Strand) (r : BitVec 4) (v : BitVec 32) (k : BitVec 2) : (st.setQ r v).getB k = st.getB k := by
  simp [Strand.getB]
@[simp] theorem Strand.getA_setQ (st : Strand) (r : BitVec 4) (v : BitVec 32) (k : BitVec 3) : (st.setQ r v).getA k = st.getA k := by
  simp [Strand.getA]
@[simp] theorem Strand.getH_setQ (st : Strand) (r : BitVec 4) (v : BitVec 32) (k : BitVec 4) : (st.setQ r v).getH k = st.getH k := by
  simp [Strand.getH]
@[simp] theorem Strand.getV_setQ (st : Strand) (r : BitVec 4) (v : BitVec 32) (k : BitVec 6) : (st.setQ r v).getV k = st.getV k := by
  simp [Strand.getV]
@[simp] theorem Strand.getM_setQ (st : Strand) (r : BitVec 4) (v : BitVec 32) (k : BitVec 3) : (st.setQ r v).getM k = st.getM k := by
  simp [Strand.getM]
@[simp] theorem Strand.getQV_setQ (st : Strand) (r : BitVec 4) (v : BitVec 32) (k : BitVec 2) : (st.setQ r v).getQV k = st.getQV k := by
  simp [Strand.getQV]
@[simp] theorem Strand.getS_setQV (st : Strand) (r : BitVec 2) (v : BitVec 1024) (k : BitVec 5) : (st.setQV r v).getS k = st.getS k := by
  simp [Strand.getS]
@[simp] theorem Strand.getP_setQV (st : Strand) (r : BitVec 2) (v : BitVec 1024) (k : BitVec 3) : (st.setQV r v).getP k = st.getP k := by
  simp [Strand.getP]
@[simp] theorem Strand.getB_setQV (st : Strand) (r : BitVec 2) (v : BitVec 1024) (k : BitVec 2) : (st.setQV r v).getB k = st.getB k := by
  simp [Strand.getB]
@[simp] theorem Strand.getA_setQV (st : Strand) (r : BitVec 2) (v : BitVec 1024) (k : BitVec 3) : (st.setQV r v).getA k = st.getA k := by
  simp [Strand.getA]
@[simp] theorem Strand.getH_setQV (st : Strand) (r : BitVec 2) (v : BitVec 1024) (k : BitVec 4) : (st.setQV r v).getH k = st.getH k := by
  simp [Strand.getH]
@[simp] theorem Strand.getV_setQV (st : Strand) (r : BitVec 2) (v : BitVec 1024) (k : BitVec 6) : (st.setQV r v).getV k = st.getV k := by
  simp [Strand.getV]
@[simp] theorem Strand.getM_setQV (st : Strand) (r : BitVec 2) (v : BitVec 1024) (k : BitVec 3) : (st.setQV r v).getM k = st.getM k := by
  simp [Strand.getM]
@[simp] theorem Strand.getQ_setQV (st : Strand) (r : BitVec 2) (v : BitVec 1024) (k : BitVec 4) : (st.setQV r v).getQ k = st.getQ k := by
  simp [Strand.getQ]
@[simp] theorem Strand.getS_raiseFp (st : Strand) (f : BitVec 5) (k : BitVec 5) : (st.raiseFp f).getS k = st.getS k := by
  simp [Strand.getS]
@[simp] theorem Strand.getP_raiseFp (st : Strand) (f : BitVec 5) (k : BitVec 3) : (st.raiseFp f).getP k = st.getP k := by
  simp [Strand.getP]
@[simp] theorem Strand.getB_raiseFp (st : Strand) (f : BitVec 5) (k : BitVec 2) : (st.raiseFp f).getB k = st.getB k := by
  simp [Strand.getB]
@[simp] theorem Strand.getA_raiseFp (st : Strand) (f : BitVec 5) (k : BitVec 3) : (st.raiseFp f).getA k = st.getA k := by
  simp [Strand.getA]
@[simp] theorem Strand.getH_raiseFp (st : Strand) (f : BitVec 5) (k : BitVec 4) : (st.raiseFp f).getH k = st.getH k := by
  simp [Strand.getH]
@[simp] theorem Strand.getV_raiseFp (st : Strand) (f : BitVec 5) (k : BitVec 6) : (st.raiseFp f).getV k = st.getV k := by
  simp [Strand.getV]
@[simp] theorem Strand.getM_raiseFp (st : Strand) (f : BitVec 5) (k : BitVec 3) : (st.raiseFp f).getM k = st.getM k := by
  simp [Strand.getM]
@[simp] theorem Strand.getQ_raiseFp (st : Strand) (f : BitVec 5) (k : BitVec 4) : (st.raiseFp f).getQ k = st.getQ k := by
  simp [Strand.getQ]
@[simp] theorem Strand.getQV_raiseFp (st : Strand) (f : BitVec 5) (k : BitVec 2) : (st.raiseFp f).getQV k = st.getQV k := by
  simp [Strand.getQV]
@[simp] theorem Strand.getS_raiseQ (st : Strand) (f : BitVec 3) (k : BitVec 5) : (st.raiseQ f).getS k = st.getS k := by
  simp [Strand.getS]
@[simp] theorem Strand.getP_raiseQ (st : Strand) (f : BitVec 3) (k : BitVec 3) : (st.raiseQ f).getP k = st.getP k := by
  simp [Strand.getP]
@[simp] theorem Strand.getB_raiseQ (st : Strand) (f : BitVec 3) (k : BitVec 2) : (st.raiseQ f).getB k = st.getB k := by
  simp [Strand.getB]
@[simp] theorem Strand.getA_raiseQ (st : Strand) (f : BitVec 3) (k : BitVec 3) : (st.raiseQ f).getA k = st.getA k := by
  simp [Strand.getA]
@[simp] theorem Strand.getH_raiseQ (st : Strand) (f : BitVec 3) (k : BitVec 4) : (st.raiseQ f).getH k = st.getH k := by
  simp [Strand.getH]
@[simp] theorem Strand.getV_raiseQ (st : Strand) (f : BitVec 3) (k : BitVec 6) : (st.raiseQ f).getV k = st.getV k := by
  simp [Strand.getV]
@[simp] theorem Strand.getM_raiseQ (st : Strand) (f : BitVec 3) (k : BitVec 3) : (st.raiseQ f).getM k = st.getM k := by
  simp [Strand.getM]
@[simp] theorem Strand.getQ_raiseQ (st : Strand) (f : BitVec 3) (k : BitVec 4) : (st.raiseQ f).getQ k = st.getQ k := by
  simp [Strand.getQ]
@[simp] theorem Strand.getQV_raiseQ (st : Strand) (f : BitVec 3) (k : BitVec 2) : (st.raiseQ f).getQV k = st.getQV k := by
  simp [Strand.getQV]

end Sys2Proof.Machine
end

