-- ==== Sys2Proof/Laws/Position.lean ====
section
/-! SUPPORT. Moving on (R64, R69, R72): what it changes, and that it commutes with every other change of a strand. -/
namespace Sys2Proof.Machine

/-- The strand with its position replaced: PC, loop levels, address registers, standing transfer, the drain point that stands
before its next vector word, and the word at the splitter. -/
def Strand.at_ (st : Strand) (pc : BitVec 32) (loops : Vector Loop 6) (a : Vector AReg 8) (x : Option Transfer) (due : Bool)
    (w : Option AtSplit) : Strand :=
  { st with pc := pc, loops := loops, a := a, xfer := x, drainDue := due, atSplit := w }

theorem Strand.eq_at_of_rest {st t : Strand} (h : t.rest = st.rest) :
    t = st.at_ t.pc t.loops t.a t.xfer t.drainDue t.atSplit := by
  cases st; cases t
  simp only [Strand.rest, Strand.mk.injEq, Strand.at_] at h ⊢
  simp_all

@[simp] theorem Strand.stride_rest (st : Strand) (l : Loop) : (st.stride l).rest = st.rest := by
  unfold Strand.stride
  generalize List.finRange 8 = ks
  induction ks generalizing st with
  | nil => rfl
  | cons k ks ih =>
    rw [List.foldl_cons, ih]
    split <;> rfl

theorem Strand.rest_loops (st : Strand) (l : Vector Loop 6) : ({ st with loops := l } : Strand).rest = st.rest := rfl

theorem Strand.endLoops_rest (k : Nat) (h : k ≤ 6) (pc next : BitVec 32) (st : Strand) :
    (Strand.endLoops k h pc next st).1.rest = st.rest := by
  induction k generalizing st with
  | zero => rfl
  | succ k ih =>
    unfold Strand.endLoops
    dsimp only
    split_ifs
    · exact ih _ _
    · rw [ih, Strand.rest_loops, Strand.stride_rest]
    · rw [Strand.rest_loops, Strand.stride_rest]
    · exact ih _ _

theorem Strand.exitTo_rest (st : Strand) (a : BitVec 32) : (st.exitTo a).rest = st.rest := by
  unfold Strand.exitTo
  split <;> rfl

theorem Strand.passWord_rest (st : Strand) (pc : BitVec 32) (w : Nat) (x : Option Transfer) :
    (st.passWord pc w x).rest = st.rest := by
  unfold Strand.passWord
  dsimp only
  have h := Strand.endLoops_rest 6 (by omega) pc (st.pc + BitVec.ofNat 32 (4 * w)) st
  cases x with
  | none => exact h
  | some x =>
    dsimp only
    split_ifs
    · exact h
    · exact (Strand.exitTo_rest _ _).trans h
    · exact h

theorem Strand.modeDrain_rest (st old : Strand) : (st.modeDrain old).rest = st.rest := rfl

/-- Moving on changes the PC, the loop levels, the address registers (by strides), the standing transfer and the drain point
before the next vector word alone. -/
theorem Strand.moveOn_rest (st : Strand) (pc : BitVec 32) (w : Nat) (x : Option Transfer) :
    (st.moveOn pc w x).rest = st.rest := st.passWord_rest pc w x

/-- With no active level and no standing transfer, the splitter moves to the next address and changes nothing else. -/
theorem Strand.endLoops_idle (k : Nat) (h : k ≤ 6) (pc next : BitVec 32) (st : Strand)
    (hl : ∀ (j : Nat) (hj : j < 6), st.loops[j].active = false) : Strand.endLoops k h pc next st = (st, next) := by
  induction k with
  | zero => rfl
  | succ k ih =>
    unfold Strand.endLoops
    simp only [hl k (by omega), Bool.not_false, if_true]
    exact ih _

theorem Strand.passWord_idle (st : Strand) (pc : BitVec 32) (w : Nat)
    (hl : ∀ (j : Nat) (hj : j < 6), st.loops[j].active = false) :
    st.passWord pc w none = { st with pc := st.pc + BitVec.ofNat 32 (4 * w) } := by
  unfold Strand.passWord
  rw [Strand.endLoops_idle _ _ _ _ _ hl]

/-- The vector mode depends on the loop levels and MODE alone. -/
theorem Strand.interlocked_congr {a b : Strand} (hl : a.loops = b.loops) (hx : a.exposed = b.exposed) :
    a.interlocked = b.interlocked := by
  unfold Strand.interlocked Strand.innermost Strand.innermostLevel
  rw [hl, hx]

theorem Strand.modeDrain_same {a b : Strand} (h : a.interlocked = b.interlocked) : a.modeDrain b = a := by
  cases a
  simp [Strand.modeDrain, h]

theorem Strand.moveOn_idle (st : Strand) (pc : BitVec 32) (w : Nat)
    (hl : ∀ (j : Nat) (hj : j < 6), st.loops[j].active = false) :
    st.moveOn pc w none = { st with pc := st.pc + BitVec.ofNat 32 (4 * w), atSplit := none } := by
  unfold Strand.moveOn
  have h : ({ st with pc := st.pc + BitVec.ofNat 32 (4 * w) } : Strand).modeDrain st = { st with pc := st.pc + BitVec.ofNat 32 (4 * w) } :=
    Strand.modeDrain_same (Strand.interlocked_congr rfl rfl)
  rw [Strand.passWord_idle _ _ _ hl, h]

/-- A strand with the position of another. -/
def Strand.graft (st b : Strand) : Strand := st.at_ b.pc b.loops b.a b.xfer b.drainDue b.atSplit

theorem Strand.graft_stride (st b : Strand) (l : Loop) : (st.graft b).stride l = st.graft (b.stride l) := by
  unfold Strand.stride
  generalize List.finRange 8 = ks
  induction ks generalizing b with
  | nil => rfl
  | cons k ks ih =>
    rw [List.foldl_cons, List.foldl_cons, ← ih]
    congr 1
    split <;> rfl

theorem Strand.graft_loops (st b : Strand) (L : Vector Loop 6) :
    ({ st.graft b with loops := L } : Strand) = st.graft { b with loops := L } := rfl

theorem Strand.graft_endLoops (k : Nat) (h : k ≤ 6) (pc next : BitVec 32) (st b : Strand) :
    Strand.endLoops k h pc next (st.graft b) =
      (st.graft (Strand.endLoops k h pc next b).1, (Strand.endLoops k h pc next b).2) := by
  induction k generalizing b with
  | zero => rfl
  | succ k ih =>
    unfold Strand.endLoops
    have hl : (st.graft b).loops = b.loops := rfl
    dsimp only
    rw [hl]
    split_ifs
    · exact ih _ _
    · rw [Strand.graft_stride, Strand.graft_loops, ih]; rfl
    · rw [Strand.graft_stride, Strand.graft_loops]; rfl
    · exact ih _ _

theorem Strand.graft_exitTo (st b : Strand) (a : BitVec 32) : (st.graft b).exitTo a = st.graft (b.exitTo a) := by
  unfold Strand.exitTo
  have hl : (st.graft b).loops = b.loops := rfl
  rw [hl]
  split <;> rfl

theorem Strand.graft_passWord (st b : Strand) (pc : BitVec 32) (w : Nat) (x : Option Transfer) :
    (st.graft b).passWord pc w x = st.graft (b.passWord pc w x) := by
  unfold Strand.passWord
  have hp : (st.graft b).pc = b.pc := rfl
  rw [hp, Strand.graft_endLoops]
  dsimp only
  cases x with
  | none => rfl
  | some x =>
    dsimp only
    split_ifs
    · rfl
    · rw [Strand.graft_exitTo]; rfl
    · rfl

/-- Moving past a word leaves MODE. -/
theorem Strand.passWord_exposed (st : Strand) (pc : BitVec 32) (w : Nat) (x : Option Transfer) :
    (st.passWord pc w x).exposed = st.exposed := by
  have := congrArg Strand.exposed (st.passWord_rest pc w x)
  exact this

/-- Moving on acts on the position alone, in strands of one MODE. -/
theorem Strand.graft_moveOn (st b : Strand) (pc : BitVec 32) (w : Nat) (x : Option Transfer) (hx : st.exposed = b.exposed) :
    (st.graft b).moveOn pc w x = st.graft (b.moveOn pc w x) := by
  unfold Strand.moveOn
  rw [Strand.graft_passWord]
  have h1 : (st.graft (b.passWord pc w x)).interlocked = (b.passWord pc w x).interlocked :=
    Strand.interlocked_congr rfl (hx.trans (b.passWord_exposed pc w x).symm)
  have h2 : (st.graft b).interlocked = b.interlocked := Strand.interlocked_congr rfl hx
  unfold Strand.modeDrain
  rw [h1, h2]
  rfl

theorem Strand.graft_self (st : Strand) : st.graft st = st := rfl

/-- A field outside the position, MODE left alone, may be changed before or after moving on. -/
theorem Strand.moveOn_update (f : Strand → Strand) (hf : ∀ st b : Strand, f (st.graft b) = (f st).graft b)
    (st : Strand) (hx : (f st).exposed = st.exposed) (pc : BitVec 32) (w : Nat) (x : Option Transfer) :
    f (st.moveOn pc w x) = (f st).moveOn pc w x := by
  have h1 : st.moveOn pc w x = st.graft (st.moveOn pc w x) := by
    conv_lhs => rw [← Strand.graft_self st, Strand.graft_moveOn _ _ _ _ _ rfl]
  have h2 : f st = (f st).graft st := by
    conv_lhs => rw [← Strand.graft_self st, hf]
  rw [h1, hf, h2, Strand.graft_moveOn _ _ _ _ _ (by exact hx)]
  rfl
end Sys2Proof.Machine
end

