-- ==== Sys2Proof/Laws/Issue.lean ====
section
/-! SUPPORT. How a word comes to its effect: a control word that is clear is performed at once (R40), and an engine word of
a calm strand is split, runs and retires in one step (R41, R42). -/

namespace Sys2Proof.Machine

/-! ## Control words -/

/-- Where no soft error comes, a word's accesses meet none. -/
theorem State.meetSoft_quiet {s : State} (h : s.env.soft = []) (i : Instr) (pc : BitVec 32) : s.meetSoft i pc = s := by
  unfold State.meetSoft
  rw [h]

/-- With no fault armed a word runs as it is. -/
theorem struck_unarmed {α : Type} {s : State} (h : s.armed = []) (begun : Bool) (cls : BitVec 3) (body : M α) :
    struck begun cls body s = body s := by
  unfold struck
  simp only [h, List.find?_nil]
  split <;> split <;> rfl

/-- A clear control word has its effect and the splitter moves on. -/
theorem control_clear {i : Instr} {s x : State} {body : M Unit} (h : Clear i s) (hb : body s = .ok ((), x)) :
    control i body s = .next ((x.traceWord s.me i).updMe fun u => u.moveOn s.me.pc i.words s.me.xfer) := by
  unfold control
  simp only [h.blocked, h.held, h.pending, h.waits, Bool.false_eq_true, if_false, State.meetSoft_quiet h.soft,
    struck_unarmed h.armed, hb]

/-- A clear control word that stops is stopped at split. -/
theorem control_stop {i : Instr} {s : State} {body : M Unit} {e : Stop} (h : Clear i s) (hb : body s = .error e) :
    control i body s = s.stopAtSplit i e := by
  unfold control
  simp only [h.blocked, h.held, h.pending, h.waits, Bool.false_eq_true, if_false, State.meetSoft_quiet h.soft,
    struck_unarmed h.armed, hb, ite_self]

/-! ## What splitting and retiring touch -/

@[simp] theorem Strand.withBook_book (st : Strand) : st.withBook st.book = st := rfl

@[simp] theorem Strand.withBook_withBook (st : Strand) (j k : Book) : (st.withBook j).withBook k = st.withBook k := rfl

@[simp] theorem Strand.book_withBook (st : Strand) (k : Book) : (st.withBook k).book = k := rfl

/-- A state whose trace buffer is replaced. -/
def State.withTrace (s : State) (l : List TraceRec) (lost : Bool) : State := { s with trace := l, traceLost := lost }

@[simp] theorem State.withTrace_me (s : State) (l : List TraceRec) (b : Bool) : (s.withTrace l b).me = s.me := rfl

@[simp] theorem State.withTrace_noTrace (s : State) (l : List TraceRec) (b : Bool) :
    (s.withTrace l b).noTrace = s.noTrace := rfl

@[simp] theorem State.withBook_me (s : State) (k : Book) : (s.withBook k).me = s.me.withBook k := by
  simp [State.withBook]

/-! ## The entry and the split -/

theorem Strand.postInc_rest (st : Strand) (i : Instr) : (st.postInc i).rest = st.rest := by
  unfold Strand.postInc
  split <;> first | rfl | (dsimp only; split <;> rfl)

theorem Strand.postInc_book (st : Strand) (i : Instr) :
    (st.postInc i) = { st with a := (st.postInc i).a } := by
  unfold Strand.postInc
  split <;> first | rfl | (dsimp only; split <;> rfl)

/-- What splitting makes of the book of a calm strand. -/
def State.bookOf (s : State) (i : Instr) : Book := (s.split i).me.book

theorem Strand.leave_of {t : Strand} {i : Instr} {pc : BitVec 32} {x : Option Transfer}
    (h : ∀ q a b c, i ≠ .probe q a b c) : t.leave i pc x = t.moveOn pc i.words x := by
  unfold Strand.leave
  split
  · exact absurd rfl (h _ _ _ _)
  · rfl


/-- A strand with the book cleared. -/
def Strand.unbook (st : Strand) : Strand :=
  st.withBook ⟨[], false, 0, 0, 0, Vector.replicate 6 Loop.idle, Vector.replicate 8 ⟨0, 0, 0⟩, none, none⟩

theorem Strand.eq_withBook {u st : Strand} (h : u.unbook = st.unbook) : u = st.withBook u.book := by
  cases u; cases st
  simp only [Strand.unbook, Strand.withBook, Strand.mk.injEq, Strand.book] at h ⊢
  simp_all

theorem Strand.unbook_of_rest {u st : Strand} (h : u.rest = st.rest) : u.unbook = st.unbook := by
  have := congrArg Strand.unbook h
  exact this

theorem Strand.enqueue_unbook (st : Strand) (e : QEntry) : (st.enqueue e).unbook = st.unbook := by
  unfold Strand.enqueue
  split <;> rfl

theorem Strand.number_unbook (st : Strand) (i : Instr) : (st.number i).unbook = st.unbook := by
  unfold Strand.number
  split_ifs <;> rfl

theorem Strand.number_queue (st : Strand) (i : Instr) : (st.number i).queue = st.queue := by
  unfold Strand.number
  split_ifs <;> rfl

theorem Strand.postInc_unbook (st : Strand) (i : Instr) : (st.postInc i).unbook = st.unbook :=
  Strand.unbook_of_rest (st.postInc_rest i)

theorem Strand.moveOn_unbook (st : Strand) (pc : BitVec 32) (w : Nat) (x : Option Transfer) :
    (st.moveOn pc w x).unbook = st.unbook := Strand.unbook_of_rest (st.moveOn_rest pc w x)

/-- The strand right after the split of a word that is no PROBE and no CPYM. -/
theorem State.split_me {s : State} {i : Instr} (hf : followOf i = none) (hp : ∀ q a b c, i ≠ .probe q a b c) :
    (s.split i).me =
      (((s.me.enqueue (s.entryOf s.me i s.me.pc false)).postInc i).number i).moveOn s.me.pc i.words s.me.xfer := by
  unfold State.split
  dsimp only
  rw [hf]
  simp only [State.setMe_me]
  exact Strand.leave_of hp

theorem State.split_unbook {s : State} {i : Instr} (hf : followOf i = none) (hp : ∀ q a b c, i ≠ .probe q a b c) :
    (s.split i).me.unbook = s.me.unbook := by
  rw [State.split_me hf hp, Strand.moveOn_unbook, Strand.number_unbook, Strand.postInc_unbook, Strand.enqueue_unbook]

/-- Splitting touches the book of the current strand alone. -/
theorem State.split_eq {s : State} {i : Instr} (hf : followOf i = none) (hp : ∀ q a b c, i ≠ .probe q a b c) :
    s.split i = s.withBook (s.bookOf i) := by
  have h := Strand.eq_withBook (State.split_unbook (s := s) hf hp)
  have : s.split i = s.setMe (s.split i).me := by
    unfold State.split
    simp
  rw [this, h]
  rfl

/-- The queue after the split of a calm strand's word. -/
theorem State.bookOf_queue {s : State} {i : Instr} (h : s.me.queue = []) (hf : followOf i = none)
    (hp : ∀ q a b c, i ≠ .probe q a b c) : (s.bookOf i).queue = [s.entry i] := by
  have h1 : ∀ (u : Strand) (w : Nat) (x : Option Transfer), (u.moveOn s.me.pc w x).queue = u.queue := by
    intro u w x
    have := congrArg Strand.queue (u.moveOn_rest s.me.pc w x)
    exact this
  have h2 : ∀ u : Strand, (u.postInc i).queue = u.queue := by
    intro u
    have := congrArg Strand.queue (u.postInc_rest i)
    exact this
  show (s.split i).me.queue = _
  rw [State.split_me hf hp, h1, Strand.number_queue, h2]
  unfold Strand.enqueue State.entry
  by_cases hv : i.eng = some .vector
  · simp [State.entryOf, hv, h]
  · simp [State.entryOf, hv, h]

/-! ## A calm strand -/

theorem Calm.blocked {s : State} (h : Calm s) : s.me.blocked = false := by
  simp [Strand.blocked, h.queue]

theorem Calm.pends {s : State} (h : Calm s) (u : Uses) : s.me.pends u = false := by
  simp [Strand.pends, Strand.pendS, Strand.pendP, Strand.pendH, h.queue, h.flight, h.trns, writesOf, noUses]

theorem Calm.heldReg {s : State} (h : Calm s) (u : Uses) : s.me.heldReg u = none := by
  have hn : ∀ {α : Type} (l : List α), l.find? (fun _ => false) = none := fun l => by induction l <;> simp_all
  simp [Strand.heldReg, h.heldS, h.heldP, h.heldH, hn]

theorem Strand.begunWords_nil (st : Strand) (before : List QEntry) : st.begunWords before [] = [] := rfl

theorem Calm.outstanding {s : State} (h : Calm s) : s.me.outstanding = 0 := by
  simp [Strand.outstanding, h.queue, h.trns, h.flight]

theorem Calm.room {s : State} (h : Calm s) (i : Instr) (n : Nat) (hn : n ≤ 48) : s.me.room i n = true := by
  unfold Strand.room
  simp only [h.outstanding, Nat.zero_add, hn, decide_true, Bool.and_true]
  split
  · simp only [Strand.queued, h.queue, List.filter_nil, List.length_nil, Nat.zero_sub]
    unfold queueDepth
    split <;> rfl
  · rfl

theorem Calm.roomFor {s : State} (h : Calm s) (i : Instr) : s.me.roomFor i = true := by
  unfold Strand.roomFor
  split
  · exact h.room i 1 (by omega)
  · simp [h.room _ 2 (by omega)]

/-- A calm strand's control words are clear. -/
theorem Calm.clear {s : State} (h : Calm s) (i : Instr) (hw : s.splitWaits i = false) : Clear i s :=
  ⟨h.blocked, h.heldReg _, h.pends _, hw, h.armed, h.soft, h.atSplit⟩

/-- With nothing in flight the pipeline is drained already. -/
theorem Strand.drainPipe_calm {st : Strand} (h : st.flight = []) : st.drainPipe = st := by
  simp [Strand.drainPipe, Strand.landDue, h]
  cases st
  simp at h
  simp [h]

theorem syncHolds_first (i : Instr) : syncHolds [] i = false := by
  unfold syncHolds
  split <;> simp [anyVector]

/-- The first word of an otherwise empty queue is ready, as far as its strand decides. -/
theorem State.readyIn_first {s : State} (e : QEntry) (hb : s.env.busy = []) : s.readyIn [] e = true := by
  unfold State.readyIn
  simp only [isHeld, hb, queueHolds, fenceHolds, anyVector, syncHolds_first, List.any_nil, Bool.not_false,
    Bool.and_false, Bool.and_true, Bool.true_and, List.headD_nil, List.not_mem_nil, decide_false, rangeHeld, feetOf,
    List.getLast?_nil, Option.map_none, Option.getD_none, MatrixEngine.tileHeld]
  split <;> simp

/-! ## Turns (R49, R50) -/

theorem Strand.head_none {st : Strand} {g : Engine} (q before : List QEntry) (h : ∀ e ∈ q, e.instr.eng ≠ some g) :
    st.head g before q = none := by
  induction q generalizing before with
  | nil => rfl
  | cons e t ih =>
    unfold Strand.head
    rw [if_neg fun x => h e (List.mem_cons_self ..) x.1]
    exact ih _ fun x hx => h x (List.mem_cons_of_mem _ hx)

/-- A strand that has no word queued for an engine has no ready head there. -/
theorem State.readyHead_none {s : State} {k : Fin 4} {g : Engine} (h : ∀ e ∈ s.strands[k].queue, e.instr.eng ≠ some g) :
    s.readyHead k g = none := by
  unfold State.readyHead
  have hm : ({ s with cur := k } : State).me = s.strands[k] := rfl
  simp only [hm]
  rw [Strand.head_none _ _ h]

/-- A strand that no other comes before is served. -/
theorem State.turn_of {s : State} {g : Engine} (h : s.hasTurn g) (f : Instr → Bool) : s.turn g f = true := by
  unfold State.turn
  simp only [List.all_eq_true, List.mem_finRange, forall_const, Bool.or_eq_true, decide_eq_true_eq]
  intro k
  rcases h with h | h
  · left
    have : s.cur - s.served[engineNumber g] - 1 = 0 := by rw [h]; omega
    rw [this]
    exact Nat.zero_le _
  · by_cases hk : k = s.cur
    · left; rw [hk]
    · right
      rw [State.readyHead_none (h k hk)]
      rfl

/-- Splitting a word leaves the turns as they were. -/
theorem State.hasTurn_book {s : State} {g : Engine} (h : s.hasTurn g) (k : Book) : (s.withBook k).hasTurn g := by
  rcases h with h | h
  · exact .inl h
  · refine .inr fun j hj => ?_
    have : (s.withBook k).strands[j] = s.strands[j] := State.setMe_other _ _ _ hj
    rw [this]
    exact h j hj

/-- Splitting a word leaves the number of copy words in flight (R228). -/
theorem State.copiesInFlight_book (s : State) (k : Book) : (s.withBook k).copiesInFlight = s.copiesInFlight := by
  have hl : (s.withBook k).strands.toList = s.strands.toList.set s.cur.val (s.me.withBook k) := Vector.toList_set s.cur.isLt
  have hs : s.strands.toList[s.cur.val]? = some s.me := by simp [State.me]
  have hf : (s.strands.toList.map fun st => st.gather.length + st.moving.length)[s.cur.val]? =
      some ((s.me.withBook k).gather.length + (s.me.withBook k).moving.length) := by
    rw [List.getElem?_map, hs]; rfl
  unfold State.copiesInFlight
  rw [hl, show (s.withBook k).orphans = s.orphans from rfl, List.map_append, List.map_append, List.map_set]
  congr 2
  obtain ⟨h1, h2⟩ := List.getElem?_eq_some_iff.1 hf
  rw [← h2, List.set_getElem_self]

/-! ## Running and retiring -/

theorem State.pushTrace_same (s : State) (q : BitVec 6) (t a b : BitVec 64) (n k : Nat) :
    (s.pushTrace q t a b n k).noTrace = s.noTrace := by
  unfold State.pushTrace
  split <;> rfl

theorem State.traceFor_same (s : State) (st : Strand) (c : BitVec 3) (n : Nat) (a b : BitVec 64) :
    (s.traceFor st c n a b).noTrace = s.noTrace := by
  unfold State.traceFor
  split
  · split
    · exact State.pushTrace_same ..
    · rfl
  · rfl

@[simp] theorem State.traceWord_same (s : State) (st : Strand) (i : Instr) : (s.traceWord st i).noTrace = s.noTrace := by
  unfold State.traceWord
  split
  · exact (State.traceFor_same ..).trans (State.traceFor_same ..)
  · rfl

/-- The record of a word that begins changes the trace buffer alone. -/
theorem State.traceBegin_eq (s : State) (st : Strand) (begun : Bool) (e : QEntry) :
    ∃ l b, s.traceBegin st begun e = s.withTrace l b := by
  unfold State.traceBegin State.traceFor State.pushTrace State.putTrace
  split
  · exact ⟨s.trace, s.traceLost, rfl⟩
  · split
    · split
      · split
        · exact ⟨_, _, rfl⟩
        · exact ⟨s.trace, true, rfl⟩
      · exact ⟨s.trace, s.traceLost, rfl⟩
    · exact ⟨s.trace, s.traceLost, rfl⟩

theorem State.finished_same (s : State) (st : Strand) (e : QEntry) :
    (s.finished st e).noTrace = (s.updMe fun u => u.completed e.instr e.num).noTrace := State.traceFor_same ..

theorem State.setQueued_noTrace (s : State) (q : List QEntry) :
    (s.setQueued q).noTrace = s.noTrace.setQueued q := rfl

/-- The address registers after a post-increment. -/
def incA (i : Instr) (a : Vector AReg 8) : Vector AReg 8 := (({ Strand.launch with a := a } : Strand).postInc i).a

theorem Strand.postInc_eq (st : Strand) (i : Instr) : st.postInc i = { st with a := incA i st.a } := by
  unfold incA Strand.postInc
  split <;> first | rfl | (dsimp only; split <;> rfl)

theorem Strand.number_exposed (st : Strand) (i : Instr) : (st.number i).exposed = st.exposed := by
  unfold Strand.number
  split_ifs <;> rfl

theorem Strand.completed_withBook (st : Strand) (k : Book) (i : Instr) (n : BitVec 32) :
    (st.withBook k).completed i n = (st.completed i n).withBook k := by
  unfold Strand.completed
  split_ifs <;> rfl

theorem Strand.completed_book (st : Strand) (i : Instr) (n : BitVec 32) : (st.completed i n).book = st.book := by
  unfold Strand.completed
  split_ifs <;> rfl

theorem Strand.completed_exposed (st : Strand) (i : Instr) (n : BitVec 32) : (st.completed i n).exposed = st.exposed := by
  unfold Strand.completed
  split_ifs <;> rfl

theorem Strand.completed_placed (st : Strand) (i : Instr) (n : BitVec 32) : (st.completed i n).placed = st.placed := by
  unfold Strand.completed
  split_ifs <;> rfl

/-- What a word's bookkeeping makes of a strand: its counters move on, and its book takes the word's number, its post-increments
and its drain point. -/
theorem Strand.bookkeep_eq (st : Strand) (i : Instr) :
    st.bookkeep i = (st.completed i (st.nextNum i)).withBook
      ⟨st.queue, decide (i.eng ≠ some .vector) && (drainsPipe i || st.drainDue),
        (st.number i).copyIssued, (st.number i).netIssued, st.pc, st.loops, incA i st.a, st.xfer, st.atSplit⟩ := by
  unfold Strand.bookkeep
  rw [Strand.postInc_eq]
  unfold Strand.completed Strand.number
  split_ifs <;> rfl

/-- A word retires as it was split: the book of the split, with the completed counters of its class moved on. -/
theorem Strand.retire {st X : Strand} {i : Instr} {e : QEntry} {k : Book} (hX : X.book = st.book)
    (hx : X.exposed = st.exposed) (hq : st.queue = []) (he : e.instr = i)
    (hk : ((((st.enqueue e).postInc i).number i).moveOn st.pc i.words st.xfer).book = k) :
    ({ (X.withBook k).completed i (st.nextNum i) with queue := [] } : Strand) =
      (X.bookkeep i).moveOn st.pc i.words st.xfer := by
  simp only [Strand.book, Book.mk.injEq] at hX
  obtain ⟨h1, h2, h3, h4, h5, h6, h7, h8, h9⟩ := hX
  have hn : X.nextNum i = st.nextNum i := by unfold Strand.nextNum; rw [h3, h4]
  have hc : (X.number i).copyIssued = (st.number i).copyIssued ∧ (X.number i).netIssued = (st.number i).netIssued := by
    unfold Strand.number
    split_ifs <;> exact ⟨by simp [h3], by simp [h4]⟩
  have hT : ((st.enqueue e).postInc i).number i = st.withBook ⟨[if i.eng = some .vector then { e with drain := st.drainDue } else e],
      decide (i.eng ≠ some .vector) && (drainsPipe i || st.drainDue), (st.number i).copyIssued, (st.number i).netIssued, st.pc,
      st.loops, incA i st.a, st.xfer, st.atSplit⟩ := by
    rw [Strand.postInc_eq]
    unfold Strand.enqueue Strand.number
    rw [he]
    split_ifs <;> simp_all [Strand.withBook, Bool.or_comm]
  generalize hM : (((st.enqueue e).postInc i).number i).moveOn st.pc i.words st.xfer = M at hk
  have hr : M.rest = (((st.enqueue e).postInc i).number i).rest := by rw [← hM]; exact Strand.moveOn_rest ..
  have hg : X.bookkeep i = (X.bookkeep i).graft (((st.enqueue e).postInc i).number i) := by
    rw [hT, Strand.bookkeep_eq]
    simp [Strand.graft, Strand.at_, Strand.withBook, h2, h5, h6, h7, h8, h9]
  have hex : (X.bookkeep i).exposed = (((st.enqueue e).postInc i).number i).exposed := by
    rw [hT, Strand.bookkeep_eq]
    exact (Strand.completed_exposed ..).trans hx
  rw [hg, Strand.graft_moveOn _ _ _ _ _ hex, hM, Strand.completed_withBook, Strand.bookkeep_eq, hn, hc.1, hc.2]
  have c1 : M.copyIssued = (st.number i).copyIssued := by
    have := congrArg Strand.copyIssued hr
    rw [hT] at this
    exact this
  have c2 : M.netIssued = (st.number i).netIssued := by
    have := congrArg Strand.netIssued hr
    rw [hT] at this
    exact this
  subst hk
  rw [← c1, ← c2]
  simp [Strand.graft, Strand.at_, Strand.withBook, Strand.book, h1, hq]

theorem State.attempt_quiet {s : State} {e : QEntry} (ha : s.armed = []) (hs : s.env.soft = []) (hf : s.me.flight = [])
    (begun : Bool) : ∃ l b, s.attemptWord begun e = runWord e.instr e (s.withTrace l b) := by
  have hd : s.drainFor e = s := by
    unfold State.drainFor
    split
    · simp [State.updMe, Strand.drainPipe_calm hf]
    · rfl
  obtain ⟨l, b, h⟩ := s.traceBegin_eq s.me begun e
  refine ⟨l, b, ?_⟩
  unfold State.attemptWord
  rw [hd, State.meetSoft_quiet hs, h]
  exact struck_unarmed (s := s.withTrace l b) ha ..

/-- The word that heads the queue of a calm strand runs in the step of its split. -/
theorem sweep_first {s y : State} {e : QEntry} (hq : s.me.queue = [e]) (hg : s.me.hasBegun [] e = false)
    (ha : s.armed = []) (hso : s.env.soft = [])
    (hr : s.ready [] e = true) (hfl : s.me.flight = [])
    (hrun : ∀ l b, ∃ z, runWord e.instr e (s.withTrace l b) = .ok (true, z) ∧ z.Same y) :
    ∃ z : State, z.Same y ∧ s.runEngines =
      if ((z.finished s.me e).serve e.instr).me.placed.isSome
      then .next (((z.finished s.me e).serve e.instr).setQueued []) else .next ((z.finished s.me e).serve e.instr) := by
  have hs : s.setQueued [e] = s := by
    have : ({ s.me with queue := [e] } : Strand) = s.me := by rw [← hq]
    simp [State.setQueued, State.updMe, this]
  obtain ⟨l, b, ht⟩ := State.attempt_quiet (e := e) ha hso hfl (s.me.hasBegun [] e)
  obtain ⟨z, hz, hy⟩ := hrun l b
  refine ⟨z, hy, ?_⟩
  have hb : passBy e [] = [] := by
    unfold passBy
    split <;> rfl
  unfold State.runEngines
  rw [hq]
  rw [hg] at ht
  have htry : s.tryWord [] e [] = .ends ((z.finished s.me e).serve e.instr) := by
    unfold State.tryWord
    simp only [hg, ht, hz, State.serveNew, Bool.false_eq_true, if_false]
  simp only [sweep, List.nil_append, hs, hr, if_true, htry, hb, List.append_nil, ite_self]
  cases hp : ((z.finished s.me e).serve e.instr).me.placed <;> rfl

/-- A word of a calm strand, other than a BAR, has not begun before its split. -/
theorem Calm.notBegun {s : State} {i : Instr} (h : Calm s) (hb : ∀ q a b c, i ≠ .bar q a b c) (k : Book) :
    (s.withBook k).me.hasBegun [] (s.entry i) = false := by
  have h1 : (s.withBook k).me.gather = [] := by rw [State.withBook_me]; exact h.gather
  have h2 : (s.withBook k).me.moving = [] := by rw [State.withBook_me]; exact h.moving
  have h3 : (s.withBook k).me.storing = none := by rw [State.withBook_me]; exact h.storing
  have h4 : (s.withBook k).me.sleeping = none := by rw [State.withBook_me]; exact h.sleep
  have hi : (s.entry i).instr = i := rfl
  have hl : ∀ c n, (s.withBook k).me.leftOf c n = none := by
    intro c n
    unfold Strand.leftOf Strand.begunOf
    rw [h1, h2, h3]
    split_ifs <;> rfl
  unfold Strand.hasBegun Strand.begun
  rw [hi]
  simp only [hl, h4, List.any_nil, Bool.false_eq_true, ite_self, Option.isSome_none, Bool.false_or]
  split
  · rfl
  · exact absurd rfl (hb _ _ _ _)
  · rfl

/-- The word of a calm strand is taken by its engine in its turn. -/
theorem State.ready_first {s : State} {i : Instr} {e : QEntry} (h : Calm s) (k : Book)
    (hi : e.instr = i) (hm : i.eng ≠ some .matrix ∨ MatrixFree s) : (s.withBook k).ready [] e = true := by
  unfold State.ready
  rw [State.readyIn_first (s := s.withBook k) e h.busy, Bool.true_and]
  unfold State.takes
  rw [hi]
  have ht := fun g f => State.turn_of (State.hasTurn_book (h.turn g) k) f
  split
  · rfl
  · rfl
  · rename_i g hv hg
    by_cases hgm : g = .matrix
    · subst hgm
      have hm := hm.resolve_left fun x => x hg
      have hc : (s.withBook k).matrix.chain = none := hm.chain
      have ho : (s.withBook k).slotOwner = s.slotOwner := rfl
      have hs : (s.withBook k).matrixStores = false := by
        have hr := hm.rows
        unfold State.matrixStores at hr ⊢
        simp only [Bool.or_eq_false_iff, List.any_eq_false] at hr ⊢
        refine ⟨fun x hx => ?_, hr.2⟩
        have : (s.withBook k).strands.toList = s.strands.toList.set s.cur.val (s.me.withBook k) := by
          exact Vector.toList_set s.cur.isLt
        rw [this] at hx
        rcases List.mem_or_eq_of_mem_set hx with hx | hx
        · exact hr.1 x hx
        · rw [hx]
          have : (s.me.withBook k).storing = s.me.storing := rfl
          rw [this, h.storing]
          simp
      simp only [if_true, State.matrixTurn, hs, hc, ho, Bool.false_eq_true, if_false]
      have hc : (s.withBook k).cur = s.cur := rfl
      rcases hm.slot with h1 | h1 <;> simp [h1, ht, hc]
    · have hcp : (s.withBook k).copiesInFlight < 8 := (s.copiesInFlight_book k).trans_lt h.copies
      simp [hgm, ht, hcp]

theorem State.serve_noTrace (s : State) (i : Instr) : (s.serve i).noTrace = s.noTrace.serve i := by
  unfold State.serve
  split <;> rfl

theorem State.serve_setMe (s : State) (i : Instr) (t : Strand) : (s.setMe t).serve i = (s.serve i).setMe t := by
  unfold State.serve
  split <;> rfl

theorem State.serve_me (s : State) (i : Instr) : (s.serve i).me = s.me := by
  unfold State.serve
  split <;> rfl

theorem State.serve_updMe (s : State) (i : Instr) (f : Strand → Strand) : (s.updMe f).serve i = (s.serve i).updMe f := by
  unfold State.updMe
  rw [State.serve_setMe, State.serve_me]

/-- The trace records of a control word aside, a word's past is its effect, its bookkeeping and the move past it. -/
theorem State.past_noTrace (s x : State) (i : Instr) : (s.past i x).noTrace =
    ((x.updMe fun u => (u.bookkeep i).moveOn s.me.pc i.words s.me.xfer).serve i).noTrace := by
  unfold State.past
  rw [State.serve_noTrace, State.serve_noTrace]
  congr 1
  exact congrArg (fun y : State => y.updMe fun u => (u.bookkeep i).moveOn s.me.pc i.words s.me.xfer) (x.traceWord_same s.me i)

/-- An engine word of a calm strand completes in the step of its split: `x` is the state with its effect, which reads and
leaves alone what splitting touches, and adds nothing but trace records to what it does there. -/
theorem issue_completes {s x : State} {i : Instr} (h : Calm s) (hf : followOf i = none)
    (hp : ∀ q a b c, i ≠ .probe q a b c) (ht : s.splitTrap i = none)
    (hm : i.eng ≠ some .matrix ∨ MatrixFree s) (hg : ∀ k, (s.withBook k).me.hasBegun [] (s.entry i) = false)
    (hrun : ∀ l b, ∃ z, runWord i (s.entry i) ((s.withBook (s.bookOf i)).withTrace l b) = .ok (true, z) ∧
      z.Same (x.withBook (s.bookOf i)))
    (hx : x.me.book = s.me.book) (he : x.me.exposed = s.me.exposed) (hpl : x.me.placed.isSome = true) :
    ∃ t, issue i s = .next t ∧ t.Same (s.past i x) := by
  have hsp := State.split_eq (s := s) hf hp
  have hq := State.bookOf_queue (s := s) h.queue hf hp
  have hin : (s.entry i).instr = i := rfl
  have hnum : (s.entry i).num = s.me.nextNum i := rfl
  have hnm : ∀ z : State, z.noTrace.me = z.me := fun _ => rfl
  obtain ⟨z, hz, hrz⟩ := sweep_first (s := s.withBook (s.bookOf i)) (e := s.entry i) (y := x.withBook (s.bookOf i))
    (by rw [State.withBook_me]; exact hq) (hg _) h.armed h.soft (State.ready_first h _ rfl hm)
    (by rw [State.withBook_me]; exact h.flight) hrun
  have hfin : (z.finished (s.withBook (s.bookOf i)).me (s.entry i)).noTrace =
      ((x.withBook (s.bookOf i)).updMe fun u => u.completed i (s.me.nextNum i)).noTrace := by
    rw [State.finished_same, hin, hnum]
    have h1 : ∀ w : State, (w.updMe fun u => u.completed i (s.me.nextNum i)).noTrace =
        w.noTrace.updMe fun u => u.completed i (s.me.nextNum i) := fun _ => rfl
    rw [h1, h1, hz]
  have hpz : ((z.finished (s.withBook (s.bookOf i)).me (s.entry i)).serve i).me.placed.isSome = true := by
    have h1 := congrArg (fun w : State => w.me.placed) hfin
    simp only [hnm, State.updMe_me, State.withBook_me, Strand.completed_placed] at h1
    rw [State.serve_me]
    simp only [State.withBook_me]
    rw [h1]
    exact hpl
  rw [hin, if_pos hpz] at hrz
  refine ⟨((z.finished (s.withBook (s.bookOf i)).me (s.entry i)).serve i).setQueued [], ?_, ?_⟩
  · unfold issue
    simp only [h.blocked, h.heldReg, h.pends, h.roomFor, ht, Bool.false_eq_true, if_false, Bool.not_true]
    rw [hsp, hrz]
  · unfold State.Same
    rw [State.past_noTrace, State.setQueued_noTrace, State.serve_noTrace, hfin, ← State.serve_noTrace, ← State.setQueued_noTrace]
    unfold State.setQueued State.withBook
    rw [State.updMe_updMe, ← State.serve_updMe, State.updMe_updMe]
    unfold State.updMe
    congr 3
    have hB : s.bookOf i =
      ((((s.me.enqueue (s.entryOf s.me i s.me.pc false)).postInc i).number i).moveOn s.me.pc i.words s.me.xfer).book := by
      show (s.split i).me.book = _
      rw [State.split_me hf hp]
    exact Strand.retire (e := s.entryOf s.me i s.me.pc false) hx he h.queue rfl hB.symm

end Sys2Proof.Machine
end

