-- ==== Sys2Proof/Laws/Lanes.lean ====
section
/-! SUPPORT. Lanes and elements (R87): a register put together from lanes, and a lane put together from elements, give
back what was put in; the flags are the union of those of the elements. -/

namespace Sys2Proof.Machine

/-! ## Digits -/

/-- The number whose n digits in base B are `f`. -/
def digits (B : Nat) (f : Nat → Nat) (n : Nat) : Nat := (List.range n).foldl (fun acc k => acc + f k * B ^ k) 0

theorem digits_succ (B : Nat) (f : Nat → Nat) (n : Nat) : digits B f (n + 1) = digits B f n + f n * B ^ n := by
  simp [digits, List.range_succ]

theorem digits_lt (B : Nat) (f : Nat → Nat) (hf : ∀ k, f k < B) (n : Nat) : digits B f n < B ^ n := by
  induction n with
  | zero => simp [digits]
  | succ n ih =>
    rw [digits_succ, pow_succ]
    have := hf n
    calc digits B f n + f n * B ^ n < B ^ n + f n * B ^ n := by omega
      _ = (f n + 1) * B ^ n := by ring
      _ ≤ B * B ^ n := Nat.mul_le_mul_right _ (by omega)
      _ = B ^ n * B := by ring

theorem digits_get (B : Nat) (hB : 0 < B) (f : Nat → Nat) (hf : ∀ k, f k < B) (n k : Nat) (hk : k < n) :
    digits B f n / B ^ k % B = f k := by
  induction n with
  | zero => omega
  | succ n ih =>
    rw [digits_succ]
    by_cases h : k = n
    · subst h
      rw [Nat.add_mul_div_right _ _ (by positivity), Nat.div_eq_of_lt (digits_lt B f hf k), Nat.zero_add]
      exact Nat.mod_eq_of_lt (hf k)
    · have hk' : k < n := by omega
      obtain ⟨m, rfl⟩ : ∃ m, n = k + 1 + m := ⟨n - (k + 1), by omega⟩
      have : f (k + 1 + m) * B ^ (k + 1 + m) = B ^ k * (B * (f (k + 1 + m) * B ^ m)) := by ring
      rw [this, Nat.add_mul_div_left _ _ (by positivity), Nat.add_mul_mod_self_left, ih hk']

theorem digits_eq {B : Nat} {f : Nat → Nat} {n : Nat} : (List.range n).foldl (fun acc k => acc + f k * B ^ k) 0 = digits B f n := rfl

/-! ## Unions of flags -/

/-- A flag of a union is a flag of one of its parts. -/
theorem union_get {w : Nat} (g : Nat → BitVec w) (l : List Nat) (acc : BitVec w) (j : Nat) :
    (l.foldl (fun a k => a ||| g k) acc).getLsbD j = (acc.getLsbD j || l.any fun k => (g k).getLsbD j) := by
  induction l generalizing acc with
  | nil => simp
  | cons x l ih => rw [List.foldl_cons, ih]; simp [Bool.or_assoc]

/-! ## Elements of a lane -/

theorem mapElems_eq (n w : Nat) (f : Nat → Nat × BitVec 5) :
    mapElems n w f = (digits (2 ^ w) (fun k => (f k).1 % 2 ^ w) n, (List.range n).foldl (fun a k => a ||| (f k).2) 0) := by
  unfold mapElems digits
  generalize List.range n = l
  have : ∀ (l : List Nat) (a : Nat) (b : BitVec 5),
      l.foldl (fun acc k => let (x, g) := f k; (acc.1 + x % 2 ^ w * 2 ^ (w * k), acc.2 ||| g)) (a, b) =
      (l.foldl (fun acc k => acc + (f k).1 % 2 ^ w * (2 ^ w) ^ k) a, l.foldl (fun a k => a ||| (f k).2) b) := by
    intro l
    induction l with
    | nil => intro a b; rfl
    | cons x l ih =>
      intro a b
      rw [List.foldl_cons, List.foldl_cons, List.foldl_cons, ← ih]
      congr 1
      simp [pow_mul]
  exact this l 0 0

theorem mapElems_lt (n w : Nat) (f : Nat → Nat × BitVec 5) : (mapElems n w f).1 < 2 ^ (w * n) := by
  rw [mapElems_eq, pow_mul]
  exact digits_lt _ _ (fun k => Nat.mod_lt _ (by positivity)) n

/-- Element k of a lane put together from elements. -/
theorem mapElems_elem (n w : Nat) (f : Nat → Nat × BitVec 5) (k : Nat) (hk : k < n) :
    elem w (mapElems n w f).1 k = (f k).1 % 2 ^ w := by
  rw [mapElems_eq]
  unfold elem
  rw [pow_mul]
  exact digits_get (2 ^ w) (by positivity) _ (fun k => Nat.mod_lt _ (by positivity)) n k hk

theorem mapElems_flags (n w : Nat) (f : Nat → Nat × BitVec 5) (j : Nat) :
    (mapElems n w f).2.getLsbD j = (List.range n).any fun k => (f k).2.getLsbD j := by
  rw [mapElems_eq]
  simp only [union_get]
  simp

/-! ## Lanes of a register -/

/-- Lane l of a register whose lanes are digits. -/
theorem lane_digits (f : Nat → Nat) (hf : ∀ k, f k < 2 ^ 32) (l : Nat) (hl : l < 32) :
    lane (BitVec.ofNat 1024 (digits (2 ^ 32) f 32)) l = BitVec.ofNat 32 (f l) := by
  apply BitVec.eq_of_toNat_eq
  have hlt := digits_lt (2 ^ 32) f hf 32
  have hg := digits_get (2 ^ 32) (by norm_num) f hf 32 l hl
  rw [← pow_mul] at hlt
  unfold lane
  rw [BitVec.extractLsb'_toNat, BitVec.toNat_ofNat, BitVec.toNat_ofNat, Nat.mod_eq_of_lt hlt, Nat.shiftRight_eq_div_pow,
    pow_mul, hg, Nat.mod_eq_of_lt (hf l)]

/-- Lane l of a register put together from lanes. -/
theorem lane_ofLanes (f : Nat → BitVec 32) (l : Nat) (hl : l < 32) : lane (ofLanes f) l = f l := by
  have : ofLanes f = BitVec.ofNat 1024 (digits (2 ^ 32) (fun l => (f l).toNat) 32) := by
    unfold ofLanes digits
    simp only [pow_mul]
  rw [this, lane_digits _ (fun k => (f k).isLt) l hl]
  simp

theorem mapLanes_eq (act : BitVec 32) (f : Nat → Nat × BitVec 5) :
    mapLanes act f = (BitVec.ofNat 1024 (digits (2 ^ 32) (fun l => if act.getLsbD l then (f l).1 % 2 ^ 32 else 0) 32),
      (List.range 32).foldl (fun a l => a ||| (if act.getLsbD l then (f l).2 else 0)) 0) := by
  unfold mapLanes digits
  generalize List.range 32 = l
  have : ∀ (l : List Nat) (a : Nat) (b : BitVec 5),
      l.foldl (fun acc l => if act.getLsbD l then
        let (x, g) := f l; (acc.1 + x % 2 ^ 32 * 2 ^ (32 * l), acc.2 ||| g) else acc) (a, b) =
      (l.foldl (fun acc k => acc + (if act.getLsbD k then (f k).1 % 2 ^ 32 else 0) * (2 ^ 32) ^ k) a,
        l.foldl (fun a k => a ||| (if act.getLsbD k then (f k).2 else 0)) b) := by
    intro l
    induction l with
    | nil => intro a b; rfl
    | cons x l ih =>
      intro a b
      rw [List.foldl_cons, List.foldl_cons, List.foldl_cons, ← ih]
      congr 1
      by_cases h : act.getLsbD x = true <;> simp [h, pow_mul]
  rw [this]

/-- Lane l of a register put together from its active lanes. -/
theorem lane_mapLanes (act : BitVec 32) (f : Nat → Nat × BitVec 5) (l : Nat) (hl : l < 32) :
    lane (mapLanes act f).1 l = if act.getLsbD l then BitVec.ofNat 32 (f l).1 else 0 := by
  rw [mapLanes_eq]
  have : ∀ k, (if act.getLsbD k then (f k).1 % 2 ^ 32 else 0) < 2 ^ 32 := by
    intro k
    split
    · exact Nat.mod_lt _ (by norm_num)
    · norm_num
  rw [lane_digits _ this l hl]
  split
  · apply BitVec.eq_of_toNat_eq
    simp
  · rfl

theorem mapLanes_flags (act : BitVec 32) (f : Nat → Nat × BitVec 5) (j : Nat) :
    (mapLanes act f).2.getLsbD j = true ↔ ∃ l, l < 32 ∧ act.getLsbD l = true ∧ (f l).2.getLsbD j = true := by
  rw [mapLanes_eq]
  dsimp only
  rw [union_get (fun l => if act.getLsbD l then (f l).2 else 0)]
  simp only [BitVec.ofNat_eq_ofNat, BitVec.getLsbD_zero, Bool.false_or, List.any_eq_true, List.mem_range]
  constructor
  · rintro ⟨l, hl, h⟩
    by_cases ha : act.getLsbD l = true
    · exact ⟨l, hl, ha, by simpa [ha] using h⟩
    · simp [ha] at h
  · rintro ⟨l, hl, ha, h⟩
    exact ⟨l, hl, by simpa [ha] using h⟩

/-- The elements of a lane fill it. -/
theorem perLane_width (tag : Nat) : elemWidth tag * perLane tag = 32 := by
  unfold elemWidth perLane
  split_ifs <;> rfl

/-- An elementwise result is elementwise. -/
theorem elementwise_lanewise (act : BitVec 32) (tag : Nat) (a b d : BitVec 1024) (f : Nat → Nat → Nat → Nat × BitVec 5) :
    Lanewise act tag a b d f (elementwise act tag a b d f).1 (elementwise act tag a b d f).2 := by
  constructor
  · intro l k hl hk ha
    unfold elementwise
    dsimp only
    rw [lane_mapLanes _ _ l hl, if_pos ha, BitVec.toNat_ofNat, Nat.mod_eq_of_lt, mapElems_elem _ _ _ k hk]
    have := mapElems_lt (perLane tag) (elemWidth tag) fun k =>
      f (elem (elemWidth tag) (lane a l).toNat k) (elem (elemWidth tag) (lane b l).toNat k) (elem (elemWidth tag) (lane d l).toNat k)
    rwa [perLane_width] at this
  · intro j
    unfold elementwise
    dsimp only
    rw [mapLanes_flags]
    simp only [mapElems_flags, List.any_eq_true, List.mem_range]
    constructor
    · rintro ⟨l, hl, ha, k, hk, h⟩
      exact ⟨l, k, hl, hk, ha, h⟩
    · rintro ⟨l, k, hl, hk, ha, h⟩
      exact ⟨l, hl, ha, k, hk, h⟩

/-! ## Tags -/

/-- Operands that carry one accepted tag are read as that tag (R123). -/
theorem tagGroup_ok {s : State} {word : Word} {accepted : List Nat} {ops : List (BitVec 6 × Nat)} {tag : Nat}
    (h : ∀ o ∈ ops, (s.me.getV o.1).tag.toNat = tag) (ha : tag ∈ accepted) (hne : ops ≠ []) :
    tagGroup word accepted ops s = .ok (tag, s) := by
  have hhead : (ops.map fun o => (s.me.getV o.1).tag.toNat).headD 0 = tag := by
    cases ops with
    | nil => exact absurd rfl hne
    | cons o t => exact h o (by simp)
  have hf : tagFailures s.me accepted ops = [] := by
    unfold tagFailures
    dsimp only
    rw [hhead]
    apply List.filterMap_eq_nil_iff.mpr
    intro o ho
    simp [h o ho, ha]
  unfold tagGroup
  rw [hf]
  simp only [firstFailure, hhead]

end Sys2Proof.Machine
end

