-- ==== Sys2Proof/Laws/Memory.lean ====
section
/-! SUPPORT. The laws of memory: reading after writing, and that every operation on memory keeps its canonical form. -/

namespace Sys2Proof.Machine

/-! ## Cells -/

theorem cellsFrom_cons (lo : Option Nat) (k : Nat) (b : Byte) (t : List Host.Cell) :
    cellsFrom lo ((k, b) :: t) = true ↔ (∀ l, lo = some l → l < k) ∧ b ≠ 0 ∧ cellsFrom (some k) t = true := by
  cases lo <;> simp [cellsFrom, and_assoc]

/-- A lower bound may be lowered. -/
theorem cellsFrom_lower {a b : Nat} {m : List Host.Cell} (h : cellsFrom (some b) m = true) (hab : a ≤ b) :
    cellsFrom (some a) m = true := by
  cases m with
  | nil => rfl
  | cons x t =>
    obtain ⟨k, c⟩ := x
    rw [cellsFrom_cons] at h ⊢
    exact ⟨fun l hl => by have := h.1 b rfl; cases hl; omega, h.2⟩

/-- A bound may be dropped. -/
theorem cellsFrom_none {lo : Option Nat} {m : List Host.Cell} (h : cellsFrom lo m = true) : cellsFrom none m = true := by
  cases m with
  | nil => rfl
  | cons x t =>
    rw [cellsFrom_cons] at h ⊢
    exact ⟨by simp, h.2⟩

/-- Nothing is listed at or below the lower bound. -/
theorem cellGet_below {b a : Nat} {m : List Host.Cell} (h : cellsFrom (some b) m = true) (ha : a ≤ b) : cellGet m a = 0 := by
  cases m with
  | nil => rfl
  | cons x t =>
    obtain ⟨k, c⟩ := x
    have := (cellsFrom_cons ..).mp h |>.1 b rfl
    simp [cellGet, show a < k by omega]

/-- A write keeps the canonical form above a bound that lies below its address. -/
theorem cellSet_from {m : List Host.Cell} {lo : Option Nat} {a : Nat} (b : Byte) (h : cellsFrom lo m = true)
    (ha : ∀ l, lo = some l → l < a) : cellsFrom lo (cellSet m a b) = true := by
  induction m generalizing lo with
  | nil =>
    by_cases hb : b = 0
    · simp [cellSet, hb, cellsFrom]
    · rw [cellSet, if_neg hb, cellsFrom_cons]; exact ⟨ha, hb, rfl⟩
  | cons x t ih =>
    obtain ⟨k, c⟩ := x
    have hx := (cellsFrom_cons ..).mp h
    unfold cellSet
    split
    · split
      · exact h
      · rw [cellsFrom_cons]
        exact ⟨ha, ‹_›, (cellsFrom_cons ..).mpr ⟨fun l hl => by cases hl; assumption, hx.2⟩⟩
    · split
      · split
        · cases lo with
          | none => exact cellsFrom_none hx.2.2
          | some l => exact cellsFrom_lower hx.2.2 (by have := hx.1 l rfl; omega)
        · subst_vars
          rw [cellsFrom_cons]; exact ⟨ha, ‹_›, hx.2.2⟩
      · rw [cellsFrom_cons]
        exact ⟨hx.1, hx.2.1, ih hx.2.2 fun l hl => by cases hl; omega⟩

/-- A write keeps the canonical form. -/
theorem cellSet_wf {m : List Host.Cell} (a : Nat) (b : Byte) (h : Memory.wf m = true) : Memory.wf (cellSet m a b) = true :=
  cellSet_from b h (by simp)

theorem cellGet_cellSet_from {m : List Host.Cell} {lo : Option Nat} (a : Nat) (b : Byte) (h : cellsFrom lo m = true) (x : Nat) :
    cellGet (cellSet m a b) x = if x = a then b else cellGet m x := by
  induction m generalizing lo with
  | nil =>
    by_cases hb : b = 0
    · simp [cellSet, hb, cellGet]
    · rw [cellSet, if_neg hb]
      simp only [cellGet]
      split
      · rw [if_neg (by omega)]
      · rfl
  | cons y t ih =>
    obtain ⟨k, c⟩ := y
    have hx := (cellsFrom_cons ..).mp h
    have below : ∀ z, z ≤ k → cellGet t z = 0 := fun z hz => cellGet_below hx.2.2 hz
    unfold cellSet
    split
    · by_cases hb : b = 0
      · rw [if_pos hb]
        by_cases hxa : x = a
        · rw [if_pos hxa, hxa, hb]; simp [cellGet, *]
        · rw [if_neg hxa]
      · rw [if_neg hb]
        by_cases hxa : x = a
        · subst hxa; simp [cellGet]
        · rw [if_neg hxa]
          rw [cellGet]
          by_cases hlt : x < a
          · rw [if_pos hlt]; simp [cellGet, show x < k by omega]
          · rw [if_neg hlt, if_neg hxa]
    · split
      · rename_i hak
        subst hak
        by_cases hb : b = 0
        · rw [if_pos hb]
          by_cases hxa : x = a
          · subst hxa; rw [if_pos rfl, hb, below _ le_rfl]
          · rw [if_neg hxa]
            by_cases hlt : x < a
            · simp [cellGet, hlt, below x (by omega)]
            · simp [cellGet, hlt, hxa]
        · rw [if_neg hb]
          by_cases hxa : x = a
          · subst hxa; simp [cellGet]
          · simp [cellGet, hxa]
      · have hi := ih hx.2.2
        by_cases hxa : x = a
        · subst hxa
          rw [if_pos rfl] at hi ⊢
          simp [cellGet, *]
        · rw [if_neg hxa] at hi ⊢
          simp only [cellGet, hi]

/-- Reading after writing: the byte written at its address, and every other byte as before. -/
theorem cellGet_cellSet {m : List Host.Cell} (a : Nat) (b : Byte) (h : Memory.wf m = true) (x : Nat) :
    cellGet (cellSet m a b) x = if x = a then b else cellGet m x := cellGet_cellSet_from a b h x

/-- Bytes written one after another keep the canonical form. -/
theorem cellsWrite_wf {m : List Host.Cell} (a : Nat) (bs : List Byte) (h : Memory.wf m = true) :
    Memory.wf (cellsWrite m a bs) = true := by
  induction bs generalizing m a with
  | nil => exact h
  | cons b t ih => exact ih _ (cellSet_wf a b h)

/-- A byte after a write of several: of the written ones where they lie, else as before. -/
theorem cellGet_cellsWrite {m : List Host.Cell} (p : Nat) (bs : List Byte) (h : Memory.wf m = true) (a : Nat) :
    cellGet (cellsWrite m p bs) a = if p ≤ a ∧ a < p + bs.length then bs.getD (a - p) 0 else cellGet m a := by
  induction bs generalizing m p with
  | nil =>
    rw [if_neg (by simp only [List.length_nil]; omega)]
    rfl
  | cons b t ih =>
    show cellGet (cellsWrite (cellSet m p b) (p + 1) t) a = _
    rw [ih (p + 1) (cellSet_wf p b h), cellGet_cellSet p b h, List.length_cons]
    by_cases hp : a = p
    · subst hp
      rw [if_neg (by omega), if_pos rfl, if_pos (by omega)]
      simp
    · by_cases hr : p + 1 ≤ a ∧ a < p + 1 + t.length
      · rw [if_pos hr, if_pos (by omega), show a - p = a - (p + 1) + 1 by omega]
        simp
      · rw [if_neg hr, if_neg hp, if_neg (by omega)]

/-- Bytes read where they are all known. -/
theorem cellsRead_eq {m : List Host.Cell} {p : Nat} {bs : List Byte} (h : ∀ k (hk : k < bs.length), cellGet m (p + k) = bs[k]) :
    cellsRead m p bs.length = bs := by
  induction bs generalizing p with
  | nil => rfl
  | cons b t ih =>
    show cellGet m p :: cellsRead m (p + 1) t.length = _
    rw [ih fun k hk => by rw [show p + 1 + k = p + (k + 1) by omega]; exact h (k + 1) (by simp; omega)]
    exact congrArg (· :: t) (h 0 (by simp))

/-- Bytes that leave the near buffer keep the canonical form. -/
theorem drainBytes_wf {m : List Host.Cell} (line : Nat) (bs : List NearByte) (h : Memory.wf m = true) :
    Memory.wf (drainBytes m line bs) = true := by
  induction bs generalizing m with
  | nil => exact h
  | cons b t ih => exact ih (cellSet_wf _ _ h)

/-- Bytes written at scattered places keep the canonical form. -/
theorem cellsScatter_wf {m : List Host.Cell} (cs : List (Nat × Byte)) (h : Memory.wf m = true) :
    Memory.wf (cs.foldl (fun m c => cellSet m c.1 c.2) m) = true := by
  induction cs generalizing m with
  | nil => exact h
  | cons c t ih => exact ih (cellSet_wf _ _ h)

/-! ## What each operation does to memory -/

/-- A loop whose every turn keeps a field keeps it. -/
theorem foldl_keep {α β γ : Type} (f : α → β → α) (g : α → γ) (h : ∀ a b, g (f a b) = g a) (l : List β) (a : α) :
    g (l.foldl f a) = g a := by
  induction l generalizing a with
  | nil => rfl
  | cons b t ih => exact (ih _).trans (h a b)

theorem State.chipWrite_mem (s : State) (p : Nat) (bytes : List Byte) (poison : Bool) :
    (s.chipWrite p bytes poison).mem = cellsWrite s.mem p bytes :=
  foldl_keep (State.poisonGranule p bytes.length poison) State.mem (fun _ _ => rfl) _ _

theorem State.chipScatter_mem (s : State) (cells : List (Nat × Byte)) (poison : Bool) :
    (s.chipScatter cells poison).mem = cells.foldl (fun m c => cellSet m c.1 c.2) s.mem :=
  foldl_keep (State.poisonPlaces (cells.map fun c : Nat × Byte => c.1) poison) State.mem (fun _ _ => rfl) _ _

theorem State.mainWrite_mem (s : State) (p : Nat) (bytes : List Byte) (poison : Bool) :
    (s.mainWrite p bytes poison).mem = cellsWrite s.mem p bytes :=
  foldl_keep (fun (t : State) l => t.setLinePoison l (poison || (!covers 64 p bytes.length l && t.linePoisoned l))) State.mem
    (fun _ _ => rfl) _ _

theorem State.landLine_mem (s : State) (l : NearLine) : (s.landLine l).mem = drainBytes s.mem l.line l.bytes := rfl

theorem State.drainLine_mem (s : State) (l : NearLine) :
    (s.drainLine l).mem = if s.farLine l then s.mem else drainBytes s.mem l.line l.bytes := by
  unfold State.drainLine
  split
  · rfl
  · exact State.landLine_mem _ _

theorem State.setFull_mem (s : State) (gs : List Nat) (b : Bool) : (s.setFull gs b).mem = s.mem := rfl

theorem State.feStore_mem (s : State) (fe : BitVec 2) (gs : List Nat) : (s.feStore fe gs).mem = s.mem := by
  unfold State.feStore; split
  · rfl
  · split <;> rfl

theorem State.feTaken_mem (s : State) (cls : BitVec 3) (fe : BitVec 2) (gs : List Nat) : (s.feTaken cls fe gs).mem = s.mem := by
  unfold State.feTaken; split
  · rfl
  · split <;> rfl

theorem State.dropNear_mem (s : State) (p n : Nat) : (s.dropNear p n).mem = s.mem := rfl


/-! ## Every operation on memory keeps the canonical form -/

theorem State.chipWrite_wf {s : State} (p : Nat) (bytes : List Byte) (poison : Bool) (h : Memory.wf s.mem = true) :
    Memory.wf (s.chipWrite p bytes poison).mem = true := by
  rw [State.chipWrite_mem]; exact cellsWrite_wf p bytes h

theorem State.chipScatter_wf {s : State} (cells : List (Nat × Byte)) (poison : Bool) (h : Memory.wf s.mem = true) :
    Memory.wf (s.chipScatter cells poison).mem = true := by
  rw [State.chipScatter_mem]; exact cellsScatter_wf cells h

theorem State.mainWrite_wf {s : State} (p : Nat) (bytes : List Byte) (poison : Bool) (h : Memory.wf s.mem = true) :
    Memory.wf (s.mainWrite p bytes poison).mem = true := by
  rw [State.mainWrite_mem]; exact cellsWrite_wf p bytes h

theorem State.landLine_wf {s : State} (l : NearLine) (h : Memory.wf s.mem = true) : Memory.wf (s.landLine l).mem = true :=
  drainBytes_wf _ _ h

theorem State.drainLine_wf {s : State} (l : NearLine) (h : Memory.wf s.mem = true) : Memory.wf (s.drainLine l).mem = true := by
  rw [State.drainLine_mem]
  split
  · exact h
  · exact drainBytes_wf _ _ h

theorem State.drainLines_wf {s : State} (ls : List NearLine) (h : Memory.wf s.mem = true) :
    Memory.wf (ls.foldl State.drainLine s).mem = true := by
  induction ls generalizing s with
  | nil => exact h
  | cons l t ih => exact ih (State.drainLine_wf l h)

theorem State.landLines_wf {s : State} (ls : List NearLine) (h : Memory.wf s.mem = true) :
    Memory.wf (ls.foldl State.landLine s).mem = true := by
  induction ls generalizing s with
  | nil => exact h
  | cons l t ih => exact ih (State.landLine_wf l h)

theorem State.arrive_wf {s : State} (n : Nat) (h : Memory.wf s.mem = true) : Memory.wf (s.arrive n).mem = true :=
  State.landLines_wf _ h

theorem State.behind_wf {s : State} (p n : Nat) (h : Memory.wf s.mem = true) : Memory.wf (s.behind p n).mem = true := by
  unfold State.behind
  split
  · exact State.arrive_wf _ h
  · exact h

/-- What `drainWhere` answers: a stack in self-refresh holds a line, or the lines have left the buffer. -/
theorem drainWhere_cases (f : NearLine → Bool) (s : State) :
    (∃ k, drainWhere f s = .error (.held k)) ∨ drainWhere f s = .ok ((), (s.near.filter f).foldl State.drainLine s) := by
  unfold drainWhere
  split
  · exact .inl ⟨_, rfl⟩
  · exact .inr rfl

/-! ## Operations that keep the canonical form -/

/-- An operation keeps the canonical form of memory. -/
structure Keeps {α : Type} (m : M α) : Prop where
  out : ∀ (s : State) (a : α) (t : State), Memory.wf s.mem = true → m s = .ok (a, t) → Memory.wf t.mem = true

theorem Keeps.pure {α : Type} (a : α) : Keeps (Pure.pure a : M α) := by
  refine ⟨fun s b t h e => ?_⟩
  cases e
  exact h

theorem Keeps.stop {α : Type} (e : Stop) : Keeps (stop e : M α) := by
  refine ⟨fun s b t h x => ?_⟩
  cases x

theorem Keeps.ask {α : Type} (f : State → α) : Keeps (ask f) := by
  refine ⟨fun s b t h e => ?_⟩
  cases e
  exact h

theorem Keeps.upd {f : State → State} (hf : ∀ s, Memory.wf s.mem = true → Memory.wf (f s).mem = true) : Keeps (upd f) := by
  refine ⟨fun s b t h e => ?_⟩
  cases e
  exact hf s h

theorem Keeps.bind {α β : Type} {m : M α} {f : α → M β} (hm : Keeps m) (hf : ∀ a, Keeps (f a)) : Keeps (m >>= f) := by
  refine ⟨fun s b t h e => ?_⟩
  have he : (StateT.bind m f) s = .ok (b, t) := e
  unfold StateT.bind at he
  cases hr : m s with
  | error x => rw [hr] at he; cases he
  | ok x =>
    rw [hr] at he
    exact (hf x.1).out x.2 b t (hm.out s x.1 x.2 h hr) he

theorem Keeps.each {α : Type} {f : α → M Unit} (hf : ∀ x, Keeps (f x)) (l : List α) : Keeps (each f l) := by
  induction l with
  | nil => exact Keeps.pure _
  | cons x t ih => exact (hf x).bind fun _ => ih

theorem Keeps.collect {α β : Type} {f : α → M β} (hf : ∀ x, Keeps (f x)) (l : List α) : Keeps (collect f l) := by
  induction l with
  | nil => exact Keeps.pure _
  | cons x t ih => exact (hf x).bind fun _ => ih.bind fun _ => Keeps.pure _

theorem Keeps.attempt {α : Type} {m : M α} (hm : Keeps m) : Keeps (attempt m) := by
  refine ⟨fun s a t h e => ?_⟩
  unfold Machine.attempt at e
  split at e
  · cases e
    exact hm.out _ _ _ h ‹_›
  · split at e
    · cases e
      exact h
    · cases e

theorem drainWhere_keeps (f : NearLine → Bool) : Keeps (drainWhere f) := by
  refine ⟨fun s a t h e => ?_⟩
  obtain ⟨k, x⟩ | x := drainWhere_cases f s
  · rw [x] at e; cases e
  · rw [x] at e; cases e; exact State.drainLines_wf _ h

theorem performAt_keeps (scope : BitVec 3) (f : Writer → Bool) : Keeps (performAt scope f) := by
  refine ⟨fun s a t h e => ?_⟩
  unfold performAt at e
  split at e
  · cases e; exact h
  · split at e
    · cases e; exact h
    · split at e
      · exact (drainWhere_keeps _).out _ _ _ h e
      · split at e
        · cases e
        · split at e
          · cases e
            exact State.arrive_wf _ ((drainWhere_keeps _).out _ _ _ h ‹_›)
          · cases e

theorem nearWriteLine_keeps (who : Who) (unordered : Bool) (p : Nat) (bytes : List Byte) (poison : Bool) (line : Nat) :
    Keeps (nearWriteLine who unordered p bytes poison line) := by
  refine ⟨fun s a t h e => ?_⟩
  unfold nearWriteLine at e
  simp only at e
  split at e
  · cases e; exact h
  · split at e
    · cases e; exact h
    · split at e
      · cases e
      · split at e
        · cases e
        · cases e; exact State.drainLine_wf _ h

theorem mainReady_keeps (p n : Nat) : Keeps (mainReady p n) := by
  refine ⟨fun s a t h e => ?_⟩
  unfold mainReady at e
  split_ifs at e <;> cases e
  exacts [h, h]

theorem mainRead_keeps (p n : Nat) : Keeps (mainRead p n) := (mainReady_keeps p n).bind fun _ => Keeps.ask _

/-- A store to main memory keeps the canonical form. -/
theorem mainStore_keeps (who : Who) (strong unordered : Bool) (p : Nat) (bytes : List Byte) (poison : Bool) :
    Keeps (mainStore who strong unordered p bytes poison) := by
  unfold mainStore
  have node : Keeps (upd fun s => s.updNode fun n => { n with
      storedPoison := n.storedPoison || poison, unreplayable := n.unreplayable || decide (mainDevice p ≠ s.sys.device) }) :=
    Keeps.upd fun _ h => h
  refine (Keeps.ask _).bind fun s => ?_
  split_ifs
  · exact node
  · exact (Keeps.stop _).bind fun _ => node
  · exact (mainReady_keeps _ _).bind fun _ => (Keeps.upd fun t h => State.mainWrite_wf _ _ _
      (show Memory.wf ((t.behind p bytes.length).dropNear p bytes.length).mem = true from State.behind_wf _ _ h)).bind
        fun _ => node
  · exact (Keeps.stop _).bind fun _ => node
  · exact (Keeps.stop _).bind fun _ => node
  · exact (Keeps.each (fun _ => nearWriteLine_keeps ..) _).bind fun _ => node

/-! ## Words that land part by part -/

theorem landPut_keeps (who : Who) (fe : BitVec 2) (l : Loc) (bytes : List Byte) (poison : Bool) :
    Keeps (landPut who fe l bytes poison) := by
  unfold landPut
  split_ifs
  · exact mainStore_keeps ..
  · exact Keeps.upd fun s h => by rw [State.feStore_mem]; exact State.chipWrite_wf _ _ _ h

theorem landPuts_keeps (who : Who) (fe : BitVec 2) (ps : List Piece) (b : Option Nat) : Keeps (landPuts who fe ps b) := by
  induction ps generalizing b with
  | nil => exact Keeps.pure _
  | cons x t ih =>
    cases x with
    | put l bytes poison =>
      unfold landPuts
      split_ifs
      · exact Keeps.pure _
      · refine (Keeps.attempt (landPut_keeps ..)).bind fun r => ?_
        cases r with
        | none => exact Keeps.pure _
        | some _ => exact ih _
    | elem _ _ _ => exact Keeps.pure _
    | move _ _ => exact Keeps.pure _
    | sum _ _ _ => exact Keeps.pure _
    | sumOf _ _ _ _ => exact Keeps.pure _
    | scan _ _ _ _ => exact Keeps.pure _

theorem locParts_keeps (l : Loc) (n : Nat) : Keeps (locParts l n) := by
  unfold locParts
  refine Keeps.collect (fun x => ?_) _
  split_ifs
  · exact (mainRead_keeps _ _).bind fun _ => Keeps.pure _
  · exact (Keeps.ask _).bind fun _ => Keeps.pure _

theorem State.addAt_wf {s : State} (fmt : BitVec 4) (d : Nat) (x : List Byte × Bool) (h : Memory.wf s.mem = true) :
    Memory.wf (s.addAt fmt d x).mem = true := State.chipWrite_wf _ _ _ h

theorem perform_keeps (who : Who) (fe : BitVec 2) (ps : List Piece) (b : Option Nat) : Keeps (perform who fe ps b) := by
  induction ps generalizing b with
  | nil => exact Keeps.pure _
  | cons x t ih =>
    cases x with
    | put l bytes poison =>
      unfold perform
      refine (landPuts_keeps ..).bind fun r => ?_
      simp only
      split_ifs
      · exact ih _
      · exact Keeps.pure _
    | elem _ _ _ => exact ih _
    | scan _ _ _ _ => exact ih _
    | sum _ _ _ =>
      unfold perform
      split_ifs
      · exact Keeps.pure _
      · exact (Keeps.upd fun _ h => State.addAt_wf _ _ _ h).bind fun _ => ih _
    | sumOf _ _ _ _ =>
      unfold perform
      split_ifs
      · exact Keeps.pure _
      · exact (Keeps.upd fun _ h => State.addAt_wf _ _ _ h).bind fun _ => ih _
    | move n pairs =>
      unfold perform
      split_ifs
      · exact Keeps.pure _
      · refine (Keeps.attempt (Keeps.collect (fun _ => (locParts_keeps ..).bind fun _ => Keeps.pure _) _)).bind fun r => ?_
        cases r with
        | none => exact Keeps.pure _
        | some _ =>
          refine (landPuts_keeps ..).bind fun r => ?_
          simp only
          split_ifs
          · exact ih _
          · exact Keeps.pure _

/-- A word that lands part by part keeps the canonical form. -/
theorem partwise_keeps (cls : BitVec 3) (who : Who) (fe dfe : BitVec 2) (early : State → Option (List Nat)) (starts : Bool)
    {plan : M (List Piece)} (hp : Keeps plan) : Keeps (partwise cls who fe dfe early starts plan) := by
  have parts : Keeps partsNow := by
    refine ⟨fun s a t h e => ?_⟩
    unfold partsNow at e
    split at e <;> cases e <;> exact h
  unfold partwise
  refine (Keeps.ask _).bind fun st => (Keeps.ask _).bind fun gs => ?_
  have rest : ∀ todo, Keeps (if ((st.leftOf cls who.num).isNone && st.clash cls todo gs) = true then stall
      else do
        let b ← partsNow
        let left ← perform who fe todo b
        if (st.leftOf cls who.num).isNone && !starts && decide (left = todo) && decide (b ≠ some 0) && !todo.isEmpty then stall
        else
          upd fun s => s.feStore dfe (landed todo left)
          updMe fun st => st.setLeft cls who.num (if left.isEmpty then none else some left)
          pure left.isEmpty : M Bool) := by
    intro todo
    split_ifs
    · exact Keeps.stop _
    refine parts.bind fun b => (perform_keeps ..).bind fun left => ?_
    split_ifs
    · exact Keeps.stop _
    all_goals
      refine (Keeps.upd fun s h => by rw [State.feStore_mem]; exact h).bind fun _ => Keeps.bind ?_ fun _ => Keeps.pure _
      exact ⟨fun s b t h e => by cases e; exact h⟩
  dsimp only
  split
  · exact Keeps.stop _
  split
  · exact (Keeps.pure _).bind fun todo => rest todo
  · exact hp.bind fun todo => rest todo

/-- A word of which all parts land in one run ends: what is left of it is nothing. -/
theorem partwise_whole {cls : BitVec 3} {who : Who} {fe dfe : BitVec 2} {early : State → Option (List Nat)} {starts : Bool}
    {plan : M (List Piece)} {s t u : State} {todo : List Piece} (hn : s.me.leftOf cls who.num = none)
    (hc : s.me.begunOf cls = []) (hp : plan s = .ok (todo, t)) (hb : t.env.pieces = [])
    (hr : perform who fe todo none t = .ok ([], u)) :
    partwise cls who fe dfe early starts plan s =
      .ok (true, (u.feStore dfe (landed todo [])).updMe fun st => st.setLeft cls who.num none) := by
  have b : ∀ {α β : Type} {m : M α} {f : α → M β} {s t : State} {a : α}, m s = .ok (a, t) → (m >>= f) s = f a t := by
    intro α β m f s t a h
    show (StateT.bind m f) s = _
    unfold StateT.bind
    rw [h]
    rfl
  have hparts : partsNow t = .ok (none, t) := by
    unfold partsNow
    rw [hb]
  have hcl : ∀ ps gs, s.me.clash cls ps gs = false := by
    intro ps gs
    unfold Strand.clash
    simp [hc]
  unfold partwise
  rw [b (show me s = .ok (s.me, s) from rfl), b (show ask early s = .ok (early s, s) from rfl), hn]
  simp only [hcl, Bool.and_false, Bool.false_eq_true, if_false]
  rw [b hp, b hparts, b hr]
  cases todo <;> cases starts <;> rfl

/-- Writes that all land are performed one after another. -/
theorem perform_puts {who : Who} {fe : BitVec 2} {g : State → Piece → State} {ps : List Piece} {s : State}
    (h : ∀ x ∈ ps, ∃ l bytes poison, x = .put l bytes poison ∧
      ∀ t, landPut who fe l bytes poison t = .ok ((), g t x)) :
    perform who fe ps none s = .ok ([], ps.foldl g s) := by
  induction ps generalizing s with
  | nil => rfl
  | cons x t ih =>
    obtain ⟨l, bytes, poison, rfl, hx⟩ := h x (by simp)
    have ht : ∀ w : State, attempt (landPut who fe l bytes poison) w = .ok (some (), g w (.put l bytes poison)) := by
      intro w
      unfold attempt
      rw [hx]
    have hl : landPuts who fe [.put l bytes poison] none s = .ok ((none, []), g s (.put l bytes poison)) := by
      unfold landPuts
      simp only [reduceCtorEq, if_false]
      show StateT.bind _ _ s = _
      unfold StateT.bind
      rw [ht]
      rfl
    unfold perform
    show StateT.bind _ _ s = _
    unfold StateT.bind
    rw [hl]
    exact ih fun y hy => h y (by simp [hy])

/-- Reset's memory has the canonical form. -/
theorem reset_mem_wf : Memory.wf State.reset.mem = true := rfl

/-! ## Where spaces lie (R207) -/

/-- A space that resolves is on chip. -/
theorem State.resolve_above {s : State} {space : BitVec 2} {ea n p : Nat} (h : s.resolve space ea n = some p) :
    2 ^ 60 ≤ p := by
  unfold State.resolve at h
  split at h <;> split at h <;> simp only [Option.some.injEq, reduceCtorEq] at h <;> subst h <;> unfold chipPlace <;> omega

end Sys2Proof.Machine
end

