-- ==== Sys2Proof/Laws/PerInstr.lean ====
section
/-! SUPPORT. Statements for all instructions, made per instruction: the encoding of an instruction has as many words as its
shape fixes (R12, R16, R17); an event has none. -/

namespace Sys2Proof

/-- The encoding of an instruction has its number of words. -/
def Laws.EncodedLength.Statement (i : Instr) : Prop := (encode i).length = i.words

theorem encode_length (i : Instr) : (encode i).length = i.words := by
  induction i with
  | cpymLinear q ad dsp asrc ssp sn dfe sfe follow ih =>
    show (encode follow).length + 1 = 1 + follow.words
    omega
  | cpymPattern q dslot sslot h dfe sfe follow ih =>
    show (encode follow).length + 1 = 1 + follow.words
    omega
  | _ => rfl

theorem Laws.EncodedLength.nop (q : Itq) : Laws.EncodedLength.Statement (.nop q) := encode_length _

theorem Laws.EncodedLength.add (q : Itq) (d a b : BitVec 5) : Laws.EncodedLength.Statement (.add q d a b) := encode_length _

theorem Laws.EncodedLength.sub (q : Itq) (d a b : BitVec 5) : Laws.EncodedLength.Statement (.sub q d a b) := encode_length _

theorem Laws.EncodedLength.and (q : Itq) (d a b : BitVec 5) : Laws.EncodedLength.Statement (.and q d a b) := encode_length _

theorem Laws.EncodedLength.or (q : Itq) (d a b : BitVec 5) : Laws.EncodedLength.Statement (.or q d a b) := encode_length _

theorem Laws.EncodedLength.xor (q : Itq) (d a b : BitVec 5) : Laws.EncodedLength.Statement (.xor q d a b) := encode_length _

theorem Laws.EncodedLength.shl (q : Itq) (d a b : BitVec 5) : Laws.EncodedLength.Statement (.shl q d a b) := encode_length _

theorem Laws.EncodedLength.shr (q : Itq) (d a b : BitVec 5) : Laws.EncodedLength.Statement (.shr q d a b) := encode_length _

theorem Laws.EncodedLength.sra (q : Itq) (d a b : BitVec 5) : Laws.EncodedLength.Statement (.sra q d a b) := encode_length _

theorem Laws.EncodedLength.mul (q : Itq) (d a b : BitVec 5) : Laws.EncodedLength.Statement (.mul q d a b) := encode_length _

theorem Laws.EncodedLength.mulh (q : Itq) (d a b : BitVec 5) : Laws.EncodedLength.Statement (.mulh q d a b) := encode_length _

theorem Laws.EncodedLength.mulhu (q : Itq) (d a b : BitVec 5) : Laws.EncodedLength.Statement (.mulhu q d a b) := encode_length _

theorem Laws.EncodedLength.min (q : Itq) (d a b : BitVec 5) : Laws.EncodedLength.Statement (.min q d a b) := encode_length _

theorem Laws.EncodedLength.max (q : Itq) (d a b : BitVec 5) : Laws.EncodedLength.Statement (.max q d a b) := encode_length _

theorem Laws.EncodedLength.minu (q : Itq) (d a b : BitVec 5) : Laws.EncodedLength.Statement (.minu q d a b) := encode_length _

theorem Laws.EncodedLength.maxu (q : Itq) (d a b : BitVec 5) : Laws.EncodedLength.Statement (.maxu q d a b) := encode_length _

theorem Laws.EncodedLength.addi (q : Itq) (d a : BitVec 5) (imm : BitVec 11) : Laws.EncodedLength.Statement (.addi q d a imm) := encode_length _

theorem Laws.EncodedLength.andi (q : Itq) (d a : BitVec 5) (imm : BitVec 11) : Laws.EncodedLength.Statement (.andi q d a imm) := encode_length _

theorem Laws.EncodedLength.ori (q : Itq) (d a : BitVec 5) (imm : BitVec 11) : Laws.EncodedLength.Statement (.ori q d a imm) := encode_length _

theorem Laws.EncodedLength.xori (q : Itq) (d a : BitVec 5) (imm : BitVec 11) : Laws.EncodedLength.Statement (.xori q d a imm) := encode_length _

theorem Laws.EncodedLength.shli (q : Itq) (d a : BitVec 5) (imm : BitVec 11) : Laws.EncodedLength.Statement (.shli q d a imm) := encode_length _

theorem Laws.EncodedLength.shri (q : Itq) (d a : BitVec 5) (imm : BitVec 11) : Laws.EncodedLength.Statement (.shri q d a imm) := encode_length _

theorem Laws.EncodedLength.srai (q : Itq) (d a : BitVec 5) (imm : BitVec 11) : Laws.EncodedLength.Statement (.srai q d a imm) := encode_length _

theorem Laws.EncodedLength.movi (q : Itq) (d : BitVec 5) (imm : BitVec 16) : Laws.EncodedLength.Statement (.movi q d imm) := encode_length _

theorem Laws.EncodedLength.insh0 (q : Itq) (d : BitVec 5) (imm : BitVec 16) : Laws.EncodedLength.Statement (.insh0 q d imm) := encode_length _

theorem Laws.EncodedLength.insh1 (q : Itq) (d : BitVec 5) (imm : BitVec 16) : Laws.EncodedLength.Statement (.insh1 q d imm) := encode_length _

theorem Laws.EncodedLength.insh2 (q : Itq) (d : BitVec 5) (imm : BitVec 16) : Laws.EncodedLength.Statement (.insh2 q d imm) := encode_length _

theorem Laws.EncodedLength.insh3 (q : Itq) (d : BitVec 5) (imm : BitVec 16) : Laws.EncodedLength.Statement (.insh3 q d imm) := encode_length _

theorem Laws.EncodedLength.popc (q : Itq) (d a : BitVec 5) : Laws.EncodedLength.Statement (.popc q d a) := encode_length _

theorem Laws.EncodedLength.clz (q : Itq) (d a : BitVec 5) : Laws.EncodedLength.Statement (.clz q d a) := encode_length _

theorem Laws.EncodedLength.cmp (q : Itq) (pd : BitVec 3) (a b : BitVec 5) (cond : BitVec 4) : Laws.EncodedLength.Statement (.cmp q pd a b cond) := encode_length _

theorem Laws.EncodedLength.cmpi (q : Itq) (pd : BitVec 3) (a : BitVec 5) (cond : BitVec 3) (imm : BitVec 10) : Laws.EncodedLength.Statement (.cmpi q pd a cond imm) := encode_length _

theorem Laws.EncodedLength.plog (q : Itq) (pd pa pb fn : BitVec 3) : Laws.EncodedLength.Statement (.plog q pd pa pb fn) := encode_length _

theorem Laws.EncodedLength.sel (q : Itq) (d a b : BitVec 5) (p : BitVec 3) : Laws.EncodedLength.Statement (.sel q d a b p) := encode_length _

theorem Laws.EncodedLength.pbr (q : Itq) (bt : BitVec 2) (imm : BitVec 19) : Laws.EncodedLength.Statement (.pbr q bt imm) := encode_length _

theorem Laws.EncodedLength.pbrr (q : Itq) (bt : BitVec 2) (a : BitVec 5) : Laws.EncodedLength.Statement (.pbrr q bt a) := encode_length _

theorem Laws.EncodedLength.br (q : Itq) (bt : BitVec 2) (p : BitVec 3) (neg : BitVec 1) : Laws.EncodedLength.Statement (.br q bt p neg) := encode_length _

theorem Laws.EncodedLength.call (q : Itq) (bt : BitVec 2) (p : BitVec 3) (neg : BitVec 1) : Laws.EncodedLength.Statement (.call q bt p neg) := encode_length _

theorem Laws.EncodedLength.ret (q : Itq) (p : BitVec 3) (neg : BitVec 1) : Laws.EncodedLength.Statement (.ret q p neg) := encode_length _

theorem Laws.EncodedLength.loop (q : Itq) (level : BitVec 3) (sc : BitVec 5) (len : BitVec 9) (mode : BitVec 1) : Laws.EncodedLength.Statement (.loop q level sc len mode) := encode_length _

theorem Laws.EncodedLength.lstr (q : Itq) (level a : BitVec 3) (sb : BitVec 5) : Laws.EncodedLength.Statement (.lstr q level a sb) := encode_length _

theorem Laws.EncodedLength.lbrk (q : Itq) (p : BitVec 3) (neg : BitVec 1) : Laws.EncodedLength.Statement (.lbrk q p neg) := encode_length _

theorem Laws.EncodedLength.ldsW (q : Itq) (r : BitVec 5) (a : BitVec 3) (space fe : BitVec 2) (imm : BitVec 9) : Laws.EncodedLength.Statement (.ldsW q r a space fe imm) := encode_length _

theorem Laws.EncodedLength.ldsD (q : Itq) (r : BitVec 5) (a : BitVec 3) (space fe : BitVec 2) (imm : BitVec 9) : Laws.EncodedLength.Statement (.ldsD q r a space fe imm) := encode_length _

theorem Laws.EncodedLength.stsW (q : Itq) (r : BitVec 5) (a : BitVec 3) (space fe : BitVec 2) (imm : BitVec 9) : Laws.EncodedLength.Statement (.stsW q r a space fe imm) := encode_length _

theorem Laws.EncodedLength.stsD (q : Itq) (r : BitVec 5) (a : BitVec 3) (space fe : BitVec 2) (imm : BitVec 9) : Laws.EncodedLength.Statement (.stsD q r a space fe imm) := encode_length _

theorem Laws.EncodedLength.ldg (q : Itq) (r : BitVec 5) (h : BitVec 4) (sb : BitVec 5) (size : BitVec 2) : Laws.EncodedLength.Statement (.ldg q r h sb size) := encode_length _

theorem Laws.EncodedLength.stg (q : Itq) (r : BitVec 5) (h : BitVec 4) (sb : BitVec 5) (size : BitVec 2) : Laws.EncodedLength.Statement (.stg q r h sb size) := encode_length _

theorem Laws.EncodedLength.amov (q : Itq) (a : BitVec 3) (sa sb : BitVec 5) : Laws.EncodedLength.Statement (.amov q a sa sb) := encode_length _

theorem Laws.EncodedLength.ainc (q : Itq) (a : BitVec 3) (imm : BitVec 18) : Laws.EncodedLength.Statement (.ainc q a imm) := encode_length _

theorem Laws.EncodedLength.csrr (q : Itq) (r : BitVec 5) (csr : BitVec 12) : Laws.EncodedLength.Statement (.csrr q r csr) := encode_length _

theorem Laws.EncodedLength.csrw (q : Itq) (r : BitVec 5) (csr : BitVec 12) : Laws.EncodedLength.Statement (.csrw q r csr) := encode_length _

theorem Laws.EncodedLength.rsbottomRead (q : Itq) (r : BitVec 5) : Laws.EncodedLength.Statement (.rsbottomRead q r) := encode_length _

theorem Laws.EncodedLength.rsbottomWrite (q : Itq) (r : BitVec 5) : Laws.EncodedLength.Statement (.rsbottomWrite q r) := encode_length _

theorem Laws.EncodedLength.getid (q : Itq) (d : BitVec 5) (kind : BitVec 4) : Laws.EncodedLength.Statement (.getid q d kind) := encode_length _

theorem Laws.EncodedLength.time (q : Itq) (d : BitVec 5) : Laws.EncodedLength.Statement (.time q d) := encode_length _

theorem Laws.EncodedLength.vfadd (q : Itq) (vd va vb : BitVec 6) : Laws.EncodedLength.Statement (.vfadd q vd va vb) := encode_length _

theorem Laws.EncodedLength.vfsub (q : Itq) (vd va vb : BitVec 6) : Laws.EncodedLength.Statement (.vfsub q vd va vb) := encode_length _

theorem Laws.EncodedLength.vfmul (q : Itq) (vd va vb : BitVec 6) : Laws.EncodedLength.Statement (.vfmul q vd va vb) := encode_length _

theorem Laws.EncodedLength.vfma (q : Itq) (vd va vb : BitVec 6) : Laws.EncodedLength.Statement (.vfma q vd va vb) := encode_length _

theorem Laws.EncodedLength.vfms (q : Itq) (vd va vb : BitVec 6) : Laws.EncodedLength.Statement (.vfms q vd va vb) := encode_length _

theorem Laws.EncodedLength.vfnma (q : Itq) (vd va vb : BitVec 6) : Laws.EncodedLength.Statement (.vfnma q vd va vb) := encode_length _

theorem Laws.EncodedLength.vfmin (q : Itq) (vd va vb : BitVec 6) : Laws.EncodedLength.Statement (.vfmin q vd va vb) := encode_length _

theorem Laws.EncodedLength.vfmax (q : Itq) (vd va vb : BitVec 6) : Laws.EncodedLength.Statement (.vfmax q vd va vb) := encode_length _

theorem Laws.EncodedLength.vfsgn (q : Itq) (vd va vb : BitVec 6) (fn : BitVec 3) : Laws.EncodedLength.Statement (.vfsgn q vd va vb fn) := encode_length _

theorem Laws.EncodedLength.vfdiv (q : Itq) (vd va vb : BitVec 6) : Laws.EncodedLength.Statement (.vfdiv q vd va vb) := encode_length _

theorem Laws.EncodedLength.vfsqrt (q : Itq) (vd va : BitVec 6) : Laws.EncodedLength.Statement (.vfsqrt q vd va) := encode_length _

theorem Laws.EncodedLength.vfun (q : Itq) (vd va : BitVec 6) (fn : BitVec 3) : Laws.EncodedLength.Statement (.vfun q vd va fn) := encode_length _

theorem Laws.EncodedLength.vadd (q : Itq) (vd va vb : BitVec 6) (fn : BitVec 3) : Laws.EncodedLength.Statement (.vadd q vd va vb fn) := encode_length _

theorem Laws.EncodedLength.vsub (q : Itq) (vd va vb : BitVec 6) (fn : BitVec 3) : Laws.EncodedLength.Statement (.vsub q vd va vb fn) := encode_length _

theorem Laws.EncodedLength.vmul (q : Itq) (vd va vb : BitVec 6) : Laws.EncodedLength.Statement (.vmul q vd va vb) := encode_length _

theorem Laws.EncodedLength.vmulh (q : Itq) (vd va vb : BitVec 6) (fn : BitVec 3) : Laws.EncodedLength.Statement (.vmulh q vd va vb fn) := encode_length _

theorem Laws.EncodedLength.vand (q : Itq) (vd va vb : BitVec 6) : Laws.EncodedLength.Statement (.vand q vd va vb) := encode_length _

theorem Laws.EncodedLength.vor (q : Itq) (vd va vb : BitVec 6) : Laws.EncodedLength.Statement (.vor q vd va vb) := encode_length _

theorem Laws.EncodedLength.vxor (q : Itq) (vd va vb : BitVec 6) : Laws.EncodedLength.Statement (.vxor q vd va vb) := encode_length _

theorem Laws.EncodedLength.vshl (q : Itq) (vd va vb : BitVec 6) : Laws.EncodedLength.Statement (.vshl q vd va vb) := encode_length _

theorem Laws.EncodedLength.vshr (q : Itq) (vd va vb : BitVec 6) : Laws.EncodedLength.Statement (.vshr q vd va vb) := encode_length _

theorem Laws.EncodedLength.vsra (q : Itq) (vd va vb : BitVec 6) : Laws.EncodedLength.Statement (.vsra q vd va vb) := encode_length _

theorem Laws.EncodedLength.vmin (q : Itq) (vd va vb : BitVec 6) (fn : BitVec 3) : Laws.EncodedLength.Statement (.vmin q vd va vb fn) := encode_length _

theorem Laws.EncodedLength.vmax (q : Itq) (vd va vb : BitVec 6) (fn : BitVec 3) : Laws.EncodedLength.Statement (.vmax q vd va vb fn) := encode_length _

theorem Laws.EncodedLength.vfops (q : Itq) (vd va : BitVec 6) (sb : BitVec 5) (fn : BitVec 4) : Laws.EncodedLength.Statement (.vfops q vd va sb fn) := encode_length _

theorem Laws.EncodedLength.viops (q : Itq) (vd va : BitVec 6) (sb : BitVec 5) (fn : BitVec 4) : Laws.EncodedLength.Statement (.viops q vd va sb fn) := encode_length _

theorem Laws.EncodedLength.vfcmp (q : Itq) (md : BitVec 3) (va vb : BitVec 6) (cond : BitVec 4) : Laws.EncodedLength.Statement (.vfcmp q md va vb cond) := encode_length _

theorem Laws.EncodedLength.vcmp (q : Itq) (md : BitVec 3) (va vb : BitVec 6) (cond : BitVec 4) : Laws.EncodedLength.Statement (.vcmp q md va vb cond) := encode_length _

theorem Laws.EncodedLength.vmlog (q : Itq) (md ma mb fn : BitVec 3) : Laws.EncodedLength.Statement (.vmlog q md ma mb fn) := encode_length _

theorem Laws.EncodedLength.vact (q : Itq) (ma : BitVec 3) : Laws.EncodedLength.Statement (.vact q ma) := encode_length _

theorem Laws.EncodedLength.vany (q : Itq) (pd ma : BitVec 3) : Laws.EncodedLength.Statement (.vany q pd ma) := encode_length _

theorem Laws.EncodedLength.vall (q : Itq) (pd ma : BitVec 3) : Laws.EncodedLength.Statement (.vall q pd ma) := encode_length _

theorem Laws.EncodedLength.vmpop (q : Itq) (d : BitVec 5) (ma : BitVec 3) : Laws.EncodedLength.Statement (.vmpop q d ma) := encode_length _

theorem Laws.EncodedLength.vsel (q : Itq) (vd va vb : BitVec 6) (mk : BitVec 3) : Laws.EncodedLength.Statement (.vsel q vd va vb mk) := encode_length _

theorem Laws.EncodedLength.vfred (q : Itq) (vd va : BitVec 6) (sb : BitVec 5) (fn : BitVec 4) : Laws.EncodedLength.Statement (.vfred q vd va sb fn) := encode_length _

theorem Laws.EncodedLength.vred (q : Itq) (vd va : BitVec 6) (sb : BitVec 5) (fn : BitVec 4) : Laws.EncodedLength.Statement (.vred q vd va sb fn) := encode_length _

theorem Laws.EncodedLength.vfscan (q : Itq) (vd va : BitVec 6) (fn : BitVec 3) : Laws.EncodedLength.Statement (.vfscan q vd va fn) := encode_length _

theorem Laws.EncodedLength.vbcs (q : Itq) (vd : BitVec 6) (sb : BitVec 5) (fn : BitVec 4) : Laws.EncodedLength.Statement (.vbcs q vd sb fn) := encode_length _

theorem Laws.EncodedLength.vbcl (q : Itq) (vd va : BitVec 6) (sb : BitVec 5) : Laws.EncodedLength.Statement (.vbcl q vd va sb) := encode_length _

theorem Laws.EncodedLength.vperm (q : Itq) (vd va vb : BitVec 6) : Laws.EncodedLength.Statement (.vperm q vd va vb) := encode_length _

theorem Laws.EncodedLength.vrot (q : Itq) (vd va : BitVec 6) (sb : BitVec 5) (fn : BitVec 4) : Laws.EncodedLength.Statement (.vrot q vd va sb fn) := encode_length _

theorem Laws.EncodedLength.vext (q : Itq) (vd va : BitVec 6) (sb : BitVec 5) (fn : BitVec 4) : Laws.EncodedLength.Statement (.vext q vd va sb fn) := encode_length _

theorem Laws.EncodedLength.vins (q : Itq) (vd va : BitVec 6) (sb : BitVec 5) : Laws.EncodedLength.Statement (.vins q vd va sb) := encode_length _

theorem Laws.EncodedLength.vmov (q : Itq) (vd va : BitVec 6) : Laws.EncodedLength.Statement (.vmov q vd va) := encode_length _

theorem Laws.EncodedLength.vmovMaskToReg (q : Itq) (vd va : BitVec 6) : Laws.EncodedLength.Statement (.vmovMaskToReg q vd va) := encode_length _

theorem Laws.EncodedLength.vmovRegToMask (q : Itq) (vd va : BitVec 6) : Laws.EncodedLength.Statement (.vmovRegToMask q vd va) := encode_length _

theorem Laws.EncodedLength.vmovi (q : Itq) (vd : BitVec 6) (imm : BitVec 15) : Laws.EncodedLength.Statement (.vmovi q vd imm) := encode_length _

theorem Laws.EncodedLength.viota (q : Itq) (vd : BitVec 6) (fn : BitVec 3) : Laws.EncodedLength.Statement (.viota q vd fn) := encode_length _

theorem Laws.EncodedLength.vcvt (q : Itq) (vd va : BitVec 6) (tag : BitVec 4) (sat : BitVec 1) (rnd : BitVec 2) : Laws.EncodedLength.Statement (.vcvt q vd va tag sat rnd) := encode_length _

theorem Laws.EncodedLength.vtag (q : Itq) (vd va : BitVec 6) (tag : BitVec 4) : Laws.EncodedLength.Statement (.vtag q vd va tag) := encode_length _

theorem Laws.EncodedLength.vamo (q : Itq) (vd : BitVec 6) (a : BitVec 3) (space fe : BitVec 2) (fmt inc : BitVec 4) (vx : BitVec 6) (op : BitVec 4) : Laws.EncodedLength.Statement (.vamo q vd a space fe fmt inc vx op) := encode_length _

theorem Laws.EncodedLength.vld (q : Itq) (vd : BitVec 6) (a : BitVec 3) (space fe : BitVec 2) (fmt inc : BitVec 4) : Laws.EncodedLength.Statement (.vld q vd a space fe fmt inc) := encode_length _

theorem Laws.EncodedLength.vst (q : Itq) (vd : BitVec 6) (a : BitVec 3) (space fe : BitVec 2) (fmt inc : BitVec 4) : Laws.EncodedLength.Statement (.vst q vd a space fe fmt inc) := encode_length _

theorem Laws.EncodedLength.vldx (q : Itq) (vd : BitVec 6) (a : BitVec 3) (space fe : BitVec 2) (fmt inc : BitVec 4) (vx : BitVec 6) : Laws.EncodedLength.Statement (.vldx q vd a space fe fmt inc vx) := encode_length _

theorem Laws.EncodedLength.vstx (q : Itq) (vd : BitVec 6) (a : BitVec 3) (space fe : BitVec 2) (fmt inc : BitVec 4) (vx : BitVec 6) : Laws.EncodedLength.Statement (.vstx q vd a space fe fmt inc vx) := encode_length _

theorem Laws.EncodedLength.vldl (q : Itq) (vd : BitVec 6) (a : BitVec 3) (space fe : BitVec 2) (fmt inc : BitVec 4) : Laws.EncodedLength.Statement (.vldl q vd a space fe fmt inc) := encode_length _

theorem Laws.EncodedLength.vstl (q : Itq) (vd : BitVec 6) (a : BitVec 3) (space fe : BitVec 2) (fmt inc : BitVec 4) : Laws.EncodedLength.Statement (.vstl q vd a space fe fmt inc) := encode_length _

theorem Laws.EncodedLength.mcfg (q : Itq) (gang : BitVec 2) : Laws.EncodedLength.Statement (.mcfg q gang) := encode_length _

theorem Laws.EncodedLength.mldw (q : Itq) (g : BitVec 3) (fmt : BitVec 4) (a : BitVec 3) (space : BitVec 2) (ae : BitVec 3) (vq : BitVec 1) (k0 n1 : BitVec 10) (whole : BitVec 1) : Laws.EncodedLength.Statement (.mldw q g fmt a space ae vq k0 n1 whole) := encode_length _

theorem Laws.EncodedLength.mldws (q : Itq) (g : BitVec 3) (fmt : BitVec 4) (a : BitVec 3) (space : BitVec 2) (ae am : BitVec 3) (k0 n1 : BitVec 10) (whole : BitVec 1) : Laws.EncodedLength.Statement (.mldws q g fmt a space ae am k0 n1 whole) := encode_length _

theorem Laws.EncodedLength.mswap (q : Itq) (g : BitVec 3) (all : BitVec 1) : Laws.EncodedLength.Statement (.mswap q g all) := encode_length _

theorem Laws.EncodedLength.mmul (q : Itq) (t : BitVec 4) (g : BitVec 3) (rows1 : BitVec 5) (afmt : BitVec 4) (start fin wide : BitVec 1) (a : BitVec 3) (space fe : BitVec 2) (stride : BitVec 16) : Laws.EncodedLength.Statement (.mmul q t g rows1 afmt start fin wide a space fe stride) := encode_length _

theorem Laws.EncodedLength.mrd (q : Itq) (t : BitVec 4) (row0 count1 : BitVec 5) (a : BitVec 3) (space fe : BitVec 2) (stride : BitVec 16) : Laws.EncodedLength.Statement (.mrd q t row0 count1 a space fe stride) := encode_length _

theorem Laws.EncodedLength.mrdv (q : Itq) (t : BitVec 4) (row : BitVec 5) (v : BitVec 6) : Laws.EncodedLength.Statement (.mrdv q t row v) := encode_length _

theorem Laws.EncodedLength.mclr (q : Itq) (t : BitVec 4) (d : BitVec 5) (op : BitVec 2) : Laws.EncodedLength.Statement (.mclr q t d op) := encode_length _

theorem Laws.EncodedLength.mpois (q : Itq) (t : BitVec 4) : Laws.EncodedLength.Statement (.mpois q t) := encode_length _

theorem Laws.EncodedLength.mrdk (q : Itq) (mac : BitVec 3) (v : BitVec 6) (sk : BitVec 5) : Laws.EncodedLength.Statement (.mrdk q mac v sk) := encode_length _

theorem Laws.EncodedLength.mwrk (q : Itq) (mac : BitVec 3) (v : BitVec 6) (sk : BitVec 5) : Laws.EncodedLength.Statement (.mwrk q mac v sk) := encode_length _

theorem Laws.EncodedLength.mslot (q : Itq) (sa : BitVec 5) (now : BitVec 1) : Laws.EncodedLength.Statement (.mslot q sa now) := encode_length _

theorem Laws.EncodedLength.qcfg (q : Itq) (target : BitVec 4) (axis : BitVec 1) (mode : BitVec 2) (sat : BitVec 1) (dd : BitVec 3) : Laws.EncodedLength.Statement (.qcfg q target axis mode sat dd) := encode_length _

theorem Laws.EncodedLength.qstv (q : Itq) (a : BitVec 3) (space : BitVec 2) (v : BitVec 6) (qr : BitVec 4) (sb : BitVec 5) (axisend : BitVec 1) : Laws.EncodedLength.Statement (.qstv q a space v qr sb axisend) := encode_length _

theorem Laws.EncodedLength.qstt (q : Itq) (t : BitVec 4) (row0 count1 sb : BitVec 5) (axisend : BitVec 1) (a : BitVec 3) (space : BitVec 2) (qr : BitVec 4) (stride : BitVec 16) : Laws.EncodedLength.Statement (.qstt q t row0 count1 sb axisend a space qr stride) := encode_length _

theorem Laws.EncodedLength.qscl (q : Itq) (d sa : BitVec 5) : Laws.EncodedLength.Statement (.qscl q d sa) := encode_length _

theorem Laws.EncodedLength.qrld (q : Itq) (kind : BitVec 1) (qr : BitVec 4) (a : BitVec 3) (space fe : BitVec 2) (ord : BitVec 1) (scope : BitVec 3) : Laws.EncodedLength.Statement (.qrld q kind qr a space fe ord scope) := encode_length _

theorem Laws.EncodedLength.qrst (q : Itq) (kind : BitVec 1) (qr : BitVec 4) (a : BitVec 3) (space fe : BitVec 2) (ord : BitVec 1) (scope : BitVec 3) : Laws.EncodedLength.Statement (.qrst q kind qr a space fe ord scope) := encode_length _

theorem Laws.EncodedLength.qrclr (q : Itq) (kind : BitVec 1) (qr : BitVec 4) : Laws.EncodedLength.Statement (.qrclr q kind qr) := encode_length _

theorem Laws.EncodedLength.qrmov (q : Itq) (kind : BitVec 1) (qd qa : BitVec 4) : Laws.EncodedLength.Statement (.qrmov q kind qd qa) := encode_length _

theorem Laws.EncodedLength.qflg (q : Itq) (d : BitVec 5) (clr : BitVec 1) : Laws.EncodedLength.Statement (.qflg q d clr) := encode_length _

theorem Laws.EncodedLength.lntol (q : Itq) (set : BitVec 7) (sb : BitVec 5) : Laws.EncodedLength.Statement (.lntol q set sb) := encode_length _

theorem Laws.EncodedLength.lnfit (q : Itq) (vp : BitVec 6) (mk : BitVec 3) (fb : BitVec 8) (fn : BitVec 4) : Laws.EncodedLength.Statement (.lnfit q vp mk fb fn) := encode_length _

theorem Laws.EncodedLength.lnld (q : Itq) (sf : BitVec 5) (a : BitVec 3) (space : BitVec 2) (n1 : BitVec 7) (fn : BitVec 4) : Laws.EncodedLength.Statement (.lnld q sf a space n1 fn) := encode_length _

theorem Laws.EncodedLength.lnst (q : Itq) (sf : BitVec 5) (a : BitVec 3) (space : BitVec 2) (n1 : BitVec 7) : Laws.EncodedLength.Statement (.lnst q sf a space n1) := encode_length _

theorem Laws.EncodedLength.lnstTable (q : Itq) (a : BitVec 3) (space : BitVec 2) (kind : BitVec 4) : Laws.EncodedLength.Statement (.lnstTable q a space kind) := encode_length _

theorem Laws.EncodedLength.lnchk (q : Itq) (md : BitVec 3) (t : BitVec 4) (row0 count1 : BitVec 5) (fset : BitVec 7) : Laws.EncodedLength.Statement (.lnchk q md t row0 count1 fset) := encode_length _

theorem Laws.EncodedLength.lnapl (q : Itq) (vd : BitVec 6) (t : BitVec 4) (row : BitVec 5) (fix : BitVec 1) (fb : BitVec 8) : Laws.EncodedLength.Statement (.lnapl q vd t row fix fb) := encode_length _

theorem Laws.EncodedLength.lncor (q : Itq) (vd : BitVec 6) (t : BitVec 4) (row : BitVec 5) (grad : BitVec 1) (fb : BitVec 8) : Laws.EncodedLength.Statement (.lncor q vd t row grad fb) := encode_length _

theorem Laws.EncodedLength.lnrfl (q : Itq) (d : BitVec 5) (a : BitVec 3) (space : BitVec 2) (n1 : BitVec 10) : Laws.EncodedLength.Statement (.lnrfl q d a space n1) := encode_length _

theorem Laws.EncodedLength.lncnt (q : Itq) (vd : BitVec 6) (fb : BitVec 8) (clr : BitVec 1) : Laws.EncodedLength.Statement (.lncnt q vd fb clr) := encode_length _

theorem Laws.EncodedLength.lnclrCounts (q : Itq) (set : BitVec 7) : Laws.EncodedLength.Statement (.lnclrCounts q set) := encode_length _

theorem Laws.EncodedLength.lnclrList (q : Itq) : Laws.EncodedLength.Statement (.lnclrList q) := encode_length _

theorem Laws.EncodedLength.lnclrLines (q : Itq) (set : BitVec 7) : Laws.EncodedLength.Statement (.lnclrLines q set) := encode_length _

theorem Laws.EncodedLength.lnfold (q : Itq) (vd va : BitVec 6) (sf : BitVec 5) (col acc : BitVec 1) : Laws.EncodedLength.Statement (.lnfold q vd va sf col acc) := encode_length _

theorem Laws.EncodedLength.srec (q : Itq) (slot : BitVec 4) (a : BitVec 3) (space : BitVec 2) : Laws.EncodedLength.Statement (.srec q slot a space) := encode_length _

theorem Laws.EncodedLength.cpyLinear (q : Itq) (ad : BitVec 3) (dsp : BitVec 2) (asrc : BitVec 3) (ssp : BitVec 2) (sn : BitVec 5) (dfe sfe : BitVec 2) : Laws.EncodedLength.Statement (.cpyLinear q ad dsp asrc ssp sn dfe sfe) := encode_length _

theorem Laws.EncodedLength.cpyPattern (q : Itq) (dslot sslot h : BitVec 4) (dfe sfe : BitVec 2) : Laws.EncodedLength.Statement (.cpyPattern q dslot sslot h dfe sfe) := encode_length _

theorem Laws.EncodedLength.cpymLinear (q : Itq) (ad : BitVec 3) (dsp : BitVec 2) (asrc : BitVec 3) (ssp : BitVec 2) (sn : BitVec 5) (dfe sfe : BitVec 2) (follow : Instr) : Laws.EncodedLength.Statement (.cpymLinear q ad dsp asrc ssp sn dfe sfe follow) := encode_length _

theorem Laws.EncodedLength.cpymPattern (q : Itq) (dslot sslot h : BitVec 4) (dfe sfe : BitVec 2) (follow : Instr) : Laws.EncodedLength.Statement (.cpymPattern q dslot sslot h dfe sfe follow) := encode_length _

theorem Laws.EncodedLength.cwin (q : Itq) (slot : BitVec 4) (a : BitVec 3) (space : BitVec 2) (h : BitVec 4) (sw sr : BitVec 5) : Laws.EncodedLength.Statement (.cwin q slot a space h sw sr) := encode_length _

theorem Laws.EncodedLength.cadv (q : Itq) (slot : BitVec 4) (sn : BitVec 5) (h : BitVec 4) (nh : BitVec 1) : Laws.EncodedLength.Statement (.cadv q slot sn h nh) := encode_length _

theorem Laws.EncodedLength.cgath (q : Itq) (a : BitVec 3) (space : BitVec 2) (ai : BitVec 3) (ispace : BitVec 2) (sn : BitVec 5) (esz : BitVec 3) (lfe rfe : BitVec 2) : Laws.EncodedLength.Statement (.cgath q a space ai ispace sn esz lfe rfe) := encode_length _

theorem Laws.EncodedLength.cscat (q : Itq) (a : BitVec 3) (space : BitVec 2) (ai : BitVec 3) (ispace : BitVec 2) (sn : BitVec 5) (esz : BitVec 3) (lfe rfe : BitVec 2) : Laws.EncodedLength.Statement (.cscat q a space ai ispace sn esz lfe rfe) := encode_length _

theorem Laws.EncodedLength.cred (q : Itq) (ad : BitVec 3) (dsp : BitVec 2) (asrc : BitVec 3) (ssp : BitVec 2) (sn : BitVec 5) (fmt : BitVec 4) (dfe sfe : BitVec 2) : Laws.EncodedLength.Statement (.cred q ad dsp asrc ssp sn fmt dfe sfe) := encode_length _

theorem Laws.EncodedLength.cvqxBook (q : Itq) (asrc : BitVec 3) (ssp sfe : BitVec 2) : Laws.EncodedLength.Statement (.cvqxBook q asrc ssp sfe) := encode_length _

theorem Laws.EncodedLength.cvqxExpand (q : Itq) (ad : BitVec 3) (dsp : BitVec 2) (asrc : BitVec 3) (ssp : BitVec 2) (sn : BitVec 5) (dfe sfe : BitVec 2) : Laws.EncodedLength.Statement (.cvqxExpand q ad dsp asrc ssp sn dfe sfe) := encode_length _

theorem Laws.EncodedLength.sisect (q : Itq) (d sp se : BitVec 5) (ka kb out : BitVec 1) (h : BitVec 4) (spa spb : BitVec 2) (ao : BitVec 3) (osp : BitVec 2) : Laws.EncodedLength.Statement (.sisect q d sp se ka kb out h spa spb ao osp) := encode_length _

theorem Laws.EncodedLength.cseq (q : Itq) (d : BitVec 5) (cls which : BitVec 1) : Laws.EncodedLength.Statement (.cseq q d cls which) := encode_length _

theorem Laws.EncodedLength.fence (q : Itq) (scope : BitVec 3) : Laws.EncodedLength.Statement (.fence q scope) := encode_length _

theorem Laws.EncodedLength.xfence (q : Itq) (ca cb scope : BitVec 3) : Laws.EncodedLength.Statement (.xfence q ca cb scope) := encode_length _

theorem Laws.EncodedLength.ldaq (q : Itq) (r : BitVec 5) (size : BitVec 1) (a : BitVec 3) (space fe : BitVec 2) (scope : BitVec 3) : Laws.EncodedLength.Statement (.ldaq q r size a space fe scope) := encode_length _

theorem Laws.EncodedLength.ldaqHandle (q : Itq) (r : BitVec 5) (size : BitVec 1) (h : BitVec 4) (sb : BitVec 5) (scope : BitVec 3) : Laws.EncodedLength.Statement (.ldaqHandle q r size h sb scope) := encode_length _

theorem Laws.EncodedLength.strl (q : Itq) (r : BitVec 5) (size : BitVec 1) (a : BitVec 3) (space fe : BitVec 2) (scope : BitVec 3) : Laws.EncodedLength.Statement (.strl q r size a space fe scope) := encode_length _

theorem Laws.EncodedLength.strlHandle (q : Itq) (r : BitVec 5) (size : BitVec 1) (h : BitVec 4) (sb : BitVec 5) (scope : BitVec 3) : Laws.EncodedLength.Statement (.strlHandle q r size h sb scope) := encode_length _

theorem Laws.EncodedLength.amo (q : Itq) (d : BitVec 5) (g size : BitVec 1) (loc : BitVec 9) (ord : BitVec 2) (scope : BitVec 3) (sc : BitVec 5) (op : BitVec 4) : Laws.EncodedLength.Statement (.amo q d g size loc ord scope sc op) := encode_length _

theorem Laws.EncodedLength.cas (q : Itq) (d : BitVec 5) (g size : BitVec 1) (loc : BitVec 9) (ord : BitVec 2) (scope : BitVec 3) (sc sn : BitVec 5) : Laws.EncodedLength.Statement (.cas q d g size loc ord scope sc sn) := encode_length _

theorem Laws.EncodedLength.bar (q : Itq) (group : BitVec 8) (d : BitVec 5) (scope : BitVec 3) : Laws.EncodedLength.Statement (.bar q group d scope) := encode_length _

theorem Laws.EncodedLength.waitseq (q : Itq) (d sa : BitVec 5) (cls : BitVec 2) (scope : BitVec 3) : Laws.EncodedLength.Statement (.waitseq q d sa cls scope) := encode_length _

theorem Laws.EncodedLength.wfe (q : Itq) : Laws.EncodedLength.Statement (.wfe q) := encode_length _

theorem Laws.EncodedLength.sev (q : Itq) (kind strand : BitVec 2) (core : BitVec 7) (scope : BitVec 3) : Laws.EncodedLength.Statement (.sev q kind strand core scope) := encode_length _

theorem Laws.EncodedLength.slpat (q : Itq) (sa : BitVec 5) : Laws.EncodedLength.Statement (.slpat q sa) := encode_length _

theorem Laws.EncodedLength.trn (q : Itq) (h : BitVec 4) (sa : BitVec 5) : Laws.EncodedLength.Statement (.trn q h sa) := encode_length _

theorem Laws.EncodedLength.probe (q : Itq) (h : BitVec 4) (sa : BitVec 5) (acc : BitVec 2) : Laws.EncodedLength.Statement (.probe q h sa acc) := encode_length _

theorem Laws.EncodedLength.hvld (q : Itq) (pd : BitVec 3) (h : BitVec 4) (d : BitVec 5) : Laws.EncodedLength.Statement (.hvld q pd h d) := encode_length _

theorem Laws.EncodedLength.trig (q : Itq) : Laws.EncodedLength.Statement (.trig q) := encode_length _

theorem Laws.EncodedLength.exit (q : Itq) : Laws.EncodedLength.Statement (.exit q) := encode_length _

theorem Laws.EncodedLength.trap (q : Itq) (code : BitVec 16) : Laws.EncodedLength.Statement (.trap q code) := encode_length _

theorem Laws.EncodedLength.eret (q : Itq) : Laws.EncodedLength.Statement (.eret q) := encode_length _

theorem Laws.EncodedLength.task (q : Itq) (d : BitVec 5) (a : BitVec 3) (space : BitVec 2) (sq : BitVec 5) : Laws.EncodedLength.Statement (.task q d a space sq) := encode_length _

theorem Laws.EncodedLength.tokq (q : Itq) (d sq st : BitVec 5) : Laws.EncodedLength.Statement (.tokq q d sq st) := encode_length _

theorem Laws.EncodedLength.trc (q : Itq) (sa sb : BitVec 5) (code : BitVec 12) : Laws.EncodedLength.Statement (.trc q sa sb code) := encode_length _

theorem Laws.EncodedLength.drain (q : Itq) (scope : BitVec 3) : Laws.EncodedLength.Statement (.drain q scope) := encode_length _

theorem Laws.EncodedLength.invqIssue (q : Itq) (d sa sb : BitVec 5) : Laws.EncodedLength.Statement (.invqIssue q d sa sb) := encode_length _

theorem Laws.EncodedLength.invqAck (q : Itq) (d : BitVec 5) : Laws.EncodedLength.Statement (.invqAck q d) := encode_length _

theorem Laws.EncodedLength.mchkPop (q : Itq) (d : BitVec 5) (h : BitVec 4) (sb : BitVec 5) (cls : BitVec 3) : Laws.EncodedLength.Statement (.mchkPop q d h sb cls) := encode_length _

theorem Laws.EncodedLength.mchkInject (q : Itq) (cls : BitVec 3) : Laws.EncodedLength.Statement (.mchkInject q cls) := encode_length _

theorem Laws.EncodedLength.ctxsvStrand (q : Itq) (d sa : BitVec 5) (h : BitVec 4) (sb : BitVec 5) : Laws.EncodedLength.Statement (.ctxsvStrand q d sa h sb) := encode_length _

theorem Laws.EncodedLength.ctxsvCore (q : Itq) (d sa : BitVec 5) (h : BitVec 4) (sb : BitVec 5) : Laws.EncodedLength.Statement (.ctxsvCore q d sa h sb) := encode_length _

theorem Laws.EncodedLength.ctxldStrand (q : Itq) (d sa : BitVec 5) (h : BitVec 4) (sb : BitVec 5) : Laws.EncodedLength.Statement (.ctxldStrand q d sa h sb) := encode_length _

theorem Laws.EncodedLength.ctxldCore (q : Itq) (d sa : BitVec 5) (h : BitVec 4) (sb : BitVec 5) : Laws.EncodedLength.Statement (.ctxldCore q d sa h sb) := encode_length _

theorem Laws.EncodedLength.slotTableApply : Laws.EncodedLength.Statement .slotTableApply := encode_length _

theorem Laws.EncodedLength.slotBoundary : Laws.EncodedLength.Statement .slotBoundary := encode_length _

theorem Laws.EncodedLength.sleepDeadline : Laws.EncodedLength.Statement .sleepDeadline := encode_length _

theorem Laws.EncodedLength.trnResultLands (smallLate : Bool) (largeLate : Bool) : Laws.EncodedLength.Statement (.trnResultLands smallLate largeLate) := encode_length _

theorem Laws.EncodedLength.invalidateBroadcast : Laws.EncodedLength.Statement .invalidateBroadcast := encode_length _

theorem Laws.EncodedLength.invalidateAcknowledge : Laws.EncodedLength.Statement .invalidateAcknowledge := encode_length _

theorem Laws.EncodedLength.trapEntry (cause : UserCause) : Laws.EncodedLength.Statement (.trapEntry cause) := encode_length _

theorem Laws.EncodedLength.fatalContextError (cause : FatalCause) (addr : BitVec 64) : Laws.EncodedLength.Statement (.fatalContextError cause addr) := encode_length _

theorem Laws.EncodedLength.machineCheck (cause : CheckCause) : Laws.EncodedLength.Statement (.machineCheck cause) := encode_length _

theorem Laws.EncodedLength.fullEmptyWake : Laws.EncodedLength.Statement .fullEmptyWake := encode_length _

theorem Laws.EncodedLength.nearBufferDrain : Laws.EncodedLength.Statement .nearBufferDrain := encode_length _

theorem Laws.EncodedLength.nearBufferForcedDrain : Laws.EncodedLength.Statement .nearBufferForcedDrain := encode_length _

theorem Laws.EncodedLength.remoteRequest (req : RemoteReq) : Laws.EncodedLength.Statement (.remoteRequest req) := encode_length _

theorem Laws.EncodedLength.retryReissue : Laws.EncodedLength.Statement .retryReissue := encode_length _

theorem Laws.EncodedLength.partnerLost (strand : Fin 4) (net : Bool) : Laws.EncodedLength.Statement (.partnerLost strand net) := encode_length _

theorem Laws.EncodedLength.reset (flash : FlashImages) : Laws.EncodedLength.Statement (.reset flash) := encode_length _

theorem Laws.EncodedLength.recoveryImage (which : ImageKind) (img : FlashImage) : Laws.EncodedLength.Statement (.recoveryImage which img) := encode_length _

theorem Laws.EncodedLength.launchDoorbell (queue : BitVec 6) (tail : BitVec 64) : Laws.EncodedLength.Statement (.launchDoorbell queue tail) := encode_length _

theorem Laws.EncodedLength.taskRecordLaunch (queue : BitVec 6) : Laws.EncodedLength.Statement (.taskRecordLaunch queue) := encode_length _

theorem Laws.EncodedLength.releaseHeldNode (queue : BitVec 6) : Laws.EncodedLength.Statement (.releaseHeldNode queue) := encode_length _

theorem Laws.EncodedLength.cancelHeldNode (queue : BitVec 6) : Laws.EncodedLength.Statement (.cancelHeldNode queue) := encode_length _

theorem Laws.EncodedLength.configureExpertQueue (queue : BitVec 6) : Laws.EncodedLength.Statement (.configureExpertQueue queue) := encode_length _

theorem Laws.EncodedLength.nodePlacement (queue : BitVec 6) : Laws.EncodedLength.Statement (.nodePlacement queue) := encode_length _

theorem Laws.EncodedLength.nodeCompletion (queue : BitVec 6) : Laws.EncodedLength.Statement (.nodeCompletion queue) := encode_length _

theorem Laws.EncodedLength.expertQueueTimeout (eq : BitVec 10) : Laws.EncodedLength.Statement (.expertQueueTimeout eq) := encode_length _

theorem Laws.EncodedLength.expertQueueFire (eq : BitVec 10) : Laws.EncodedLength.Statement (.expertQueueFire eq) := encode_length _

theorem Laws.EncodedLength.energyIntegration : Laws.EncodedLength.Statement .energyIntegration := encode_length _

theorem Laws.EncodedLength.energyIntervalStart : Laws.EncodedLength.Statement .energyIntervalStart := encode_length _

theorem Laws.EncodedLength.energyConfig (interval : Nat) (budget : Nat) : Laws.EncodedLength.Statement (.energyConfig interval budget) := encode_length _

theorem Laws.EncodedLength.stateSummary (buffer : Nat) : Laws.EncodedLength.Statement (.stateSummary buffer) := encode_length _

theorem Laws.EncodedLength.ptpMessage (offset : Int) : Laws.EncodedLength.Statement (.ptpMessage offset) := encode_length _

theorem Laws.EncodedLength.holdoverExpiry : Laws.EncodedLength.Statement .holdoverExpiry := encode_length _

theorem Laws.EncodedLength.traceRecordMove : Laws.EncodedLength.Statement .traceRecordMove := encode_length _

theorem Laws.EncodedLength.hbmParityAlert (stack : Nat) (channel : Nat) (line : Nat) (write : Bool) (fails : Nat) : Laws.EncodedLength.Statement (.hbmParityAlert stack channel line write fails) := encode_length _

theorem Laws.EncodedLength.hbmScrub (row : ScrubResult) : Laws.EncodedLength.Statement (.hbmScrub row) := encode_length _

theorem Laws.EncodedLength.criticalTemperature (stack : Nat) : Laws.EncodedLength.Statement (.criticalTemperature stack) := encode_length _

theorem Laws.EncodedLength.selfRefreshExit (stack : Nat) : Laws.EncodedLength.Statement (.selfRefreshExit stack) := encode_length _

theorem Laws.EncodedLength.stallReport (stack : Nat) : Laws.EncodedLength.Statement (.stallReport stack) := encode_length _

theorem Laws.EncodedLength.launchQueueBinding (queue : BitVec 6) (b : QueueBinding) : Laws.EncodedLength.Statement (.launchQueueBinding queue b) := encode_length _

theorem Laws.EncodedLength.abandonFlitArrival (strand : Fin 4) (net : Bool) : Laws.EncodedLength.Statement (.abandonFlitArrival strand net) := encode_length _

theorem Laws.EncodedLength.noBetterClockAnnounced : Laws.EncodedLength.Statement .noBetterClockAnnounced := encode_length _

theorem Laws.EncodedLength.attestationReport : Laws.EncodedLength.Statement .attestationReport := encode_length _

end Sys2Proof
end

