-- ==== Sys2Proof/Laws/Run.lean ====
section
/-! SUPPORT. How the operations of the machine run, piece by piece: binds, loops, accesses, and vector words. -/

namespace Sys2Proof.Machine

/-! ## Binds and loops -/

theorem M.bind_ok {α β : Type} {m : M α} {f : α → M β} {s t : State} {a : α} (h : m s = .ok (a, t)) :
    (m >>= f) s = f a t := by
  show (StateT.bind m f) s = _
  unfold StateT.bind
  rw [h]
  rfl

theorem M.pure_run {α : Type} (a : α) (s : State) : (pure a : M α) s = .ok (a, s) := rfl

theorem M.bind_error {α β : Type} {m : M α} {f : α → M β} {s : State} {e : Stop} (h : m s = .error e) :
    (m >>= f) s = .error e := by
  show (StateT.bind m f) s = _
  unfold StateT.bind
  rw [h]
  rfl

theorem me_run (s : State) : me s = .ok (s.me, s) := rfl

theorem ask_run {α : Type} (f : State → α) (s : State) : ask f s = .ok (f s, s) := rfl

theorem upd_run (f : State → State) (s : State) : upd f s = .ok ((), f s) := rfl

theorem updMe_run (f : Strand → Strand) (s : State) : updMe f s = .ok ((), s.updMe f) := rfl

theorem completes_ok {m : M Unit} {s t : State} (h : m s = .ok ((), t)) : completes m s = .ok (true, t) :=
  M.bind_ok h

theorem completes_error {m : M Unit} {s : State} {e : Stop} (h : m s = .error e) : completes m s = .error e :=
  M.bind_error h

/-- A loop whose every turn answers without changing the state. -/
theorem collect_ok {α β : Type} {f : α → M β} {g : α → β} {l : List α} {s : State}
    (h : ∀ x ∈ l, f x s = .ok (g x, s)) : collect f l s = .ok (l.map g, s) := by
  induction l with
  | nil => rfl
  | cons x l ih =>
    unfold collect
    rw [M.bind_ok (h x (by simp)), M.bind_ok (ih fun y hy => h y (by simp [hy]))]
    rfl

/-- A loop whose every turn changes the state by a step of its own. -/
theorem each_ok {α : Type} {f : α → M Unit} {g : State → α → State} {l : List α} {s : State}
    (h : ∀ x ∈ l, ∀ t, f x t = .ok ((), g t x)) : each f l s = .ok ((), l.foldl g s) := by
  induction l generalizing s with
  | nil => rfl
  | cons x l ih =>
    unfold each
    rw [M.bind_ok (h x (by simp) s), ih fun y hy => h y (by simp [hy])]
    rfl

/-! ## Tests and accesses -/

theorem aligned_ok {x k : Nat} (s : State) (h : x % k = 0) : aligned x k s = .ok ((), s) := by
  unfold aligned
  rw [if_pos h]
  rfl

theorem aligned_trap {x k : Nat} (s : State) (h : x % k ≠ 0) :
    aligned x k s = .error (.user ⟨0x0A, BitVec.ofNat 64 x⟩) := by
  unfold aligned
  rw [if_neg h]
  rfl

theorem place_ok {s : State} {space : BitVec 2} {ea n p : Nat} (h : s.resolve space ea n = some p) :
    place space ea n s = .ok (p, s) := by
  unfold place
  rw [h]

theorem feLoad_ok {s : State} {cls : BitVec 3} {fe : BitVec 2} {gs : List Nat} (h : s.feReady cls fe gs = true) :
    feLoad cls fe gs s = .ok ((), s.feTaken cls fe gs) := by
  unfold feLoad
  rw [if_pos h]

theorem feLoad_zero (s : State) (cls : BitVec 3) (gs : List Nat) : feLoad cls 0 gs s = .ok ((), s) := rfl

theorem consume_ok {poison : Bool} (addr : Nat) (s : State) (h : poison = false) : consume poison addr s = .ok ((), s) := by
  unfold consume
  rw [h]
  rfl

/-- A read of a space that nothing holds up. -/
theorem spRead_ok {s : State} {cls : BitVec 3} {space : BitVec 2} {ea n p : Nat} {fe : BitVec 2}
    (hp : s.resolve space ea n = some p) (hf : s.feReady cls fe (granules p n) = true) :
    spRead cls space ea n fe s =
      .ok ((s.feTaken cls fe (granules p n)).chipRead p n, s.feTaken cls fe (granules p n)) := by
  unfold spRead
  rw [M.bind_ok (place_ok hp), M.bind_ok (feLoad_ok hf)]
  rfl

theorem spRead_ignore {s : State} {cls : BitVec 3} {space : BitVec 2} {ea n p : Nat}
    (hp : s.resolve space ea n = some p) : spRead cls space ea n 0 s = .ok (s.chipRead p n, s) :=
  spRead_ok hp rfl

theorem spReadClean_ignore {s : State} {cls : BitVec 3} {space : BitVec 2} {ea n p : Nat}
    (hp : s.resolve space ea n = some p) (hc : (s.chipRead p n).2 = false) :
    spReadClean cls space ea n 0 s = .ok ((s.chipRead p n).1, s) := by
  unfold spReadClean
  rw [M.bind_ok (spRead_ignore hp)]
  dsimp only
  rw [M.bind_ok (consume_ok _ _ hc)]
  rfl

theorem spWrite_ok {s : State} {space : BitVec 2} {ea p : Nat} {bytes : List Byte} {poison : Bool} {fe : BitVec 2}
    (hp : s.resolve space ea bytes.length = some p) :
    spWrite space ea bytes poison fe s =
      .ok ((), (s.chipWrite p bytes poison).feStore fe (granules p bytes.length)) := by
  unfold spWrite
  rw [M.bind_ok (place_ok hp)]
  rfl

/-! ## What the book leaves alone -/

@[simp] theorem Strand.withBook_placed (st : Strand) (k : Book) : (st.withBook k).placed = st.placed := rfl
@[simp] theorem Strand.withBook_s (st : Strand) (k : Book) : (st.withBook k).s = st.s := rfl
@[simp] theorem Strand.withBook_p (st : Strand) (k : Book) : (st.withBook k).p = st.p := rfl
@[simp] theorem Strand.withBook_b (st : Strand) (k : Book) : (st.withBook k).b = st.b := rfl
@[simp] theorem Strand.withBook_h (st : Strand) (k : Book) : (st.withBook k).h = st.h := rfl
@[simp] theorem Strand.withBook_v (st : Strand) (k : Book) : (st.withBook k).v = st.v := rfl
@[simp] theorem Strand.withBook_m (st : Strand) (k : Book) : (st.withBook k).m = st.m := rfl
@[simp] theorem Strand.withBook_act (st : Strand) (k : Book) : (st.withBook k).act = st.act := rfl
@[simp] theorem Strand.withBook_q (st : Strand) (k : Book) : (st.withBook k).q = st.q := rfl
@[simp] theorem Strand.withBook_qv (st : Strand) (k : Book) : (st.withBook k).qv = st.qv := rfl
@[simp] theorem Strand.withBook_qcfg (st : Strand) (k : Book) : (st.withBook k).qcfg = st.qcfg := rfl
@[simp] theorem Strand.withBook_rstack (st : Strand) (k : Book) : (st.withBook k).rstack = st.rstack := rfl
@[simp] theorem Strand.withBook_exposed (st : Strand) (k : Book) : (st.withBook k).exposed = st.exposed := rfl
@[simp] theorem Strand.withBook_fmttrap (st : Strand) (k : Book) : (st.withBook k).fmttrap = st.fmttrap := rfl
@[simp] theorem Strand.withBook_fpflags (st : Strand) (k : Book) : (st.withBook k).fpflags = st.fpflags := rfl
@[simp] theorem Strand.withBook_qflags (st : Strand) (k : Book) : (st.withBook k).qflags = st.qflags := rfl
@[simp] theorem Strand.withBook_trapvec (st : Strand) (k : Book) : (st.withBook k).trapvec = st.trapvec := rfl
@[simp] theorem Strand.withBook_trapframe (st : Strand) (k : Book) : (st.withBook k).trapframe = st.trapframe := rfl
@[simp] theorem Strand.withBook_trapcause (st : Strand) (k : Book) : (st.withBook k).trapcause = st.trapcause := rfl
@[simp] theorem Strand.withBook_trapdata (st : Strand) (k : Book) : (st.withBook k).trapdata = st.trapdata := rfl
@[simp] theorem Strand.withBook_intrap (st : Strand) (k : Book) : (st.withBook k).intrap = st.intrap := rfl
@[simp] theorem Strand.withBook_priv (st : Strand) (k : Book) : (st.withBook k).priv = st.priv := rfl
@[simp] theorem Strand.withBook_groups (st : Strand) (k : Book) : (st.withBook k).groups = st.groups := rfl
@[simp] theorem Strand.withBook_members (st : Strand) (k : Book) : (st.withBook k).members = st.members := rfl
@[simp] theorem Strand.withBook_root (st : Strand) (k : Book) : (st.withBook k).root = st.root := rfl
@[simp] theorem Strand.withBook_latch (st : Strand) (k : Book) : (st.withBook k).latch = st.latch := rfl
@[simp] theorem Strand.withBook_wsat (st : Strand) (k : Book) : (st.withBook k).wsat = st.wsat := rfl
@[simp] theorem Strand.withBook_slots (st : Strand) (k : Book) : (st.withBook k).slots = st.slots := rfl
@[simp] theorem Strand.withBook_copyDone (st : Strand) (k : Book) : (st.withBook k).copyDone = st.copyDone := rfl
@[simp] theorem Strand.withBook_netDone (st : Strand) (k : Book) : (st.withBook k).netDone = st.netDone := rfl
@[simp] theorem Strand.withBook_lostCopy (st : Strand) (k : Book) : (st.withBook k).lostCopy = st.lostCopy := rfl
@[simp] theorem Strand.withBook_lostNet (st : Strand) (k : Book) : (st.withBook k).lostNet = st.lostNet := rfl
@[simp] theorem Strand.withBook_lostScalar (st : Strand) (k : Book) : (st.withBook k).lostScalar = st.lostScalar := rfl
@[simp] theorem Strand.withBook_triggered (st : Strand) (k : Book) : (st.withBook k).triggered = st.triggered := rfl
@[simp] theorem Strand.withBook_gather (st : Strand) (k : Book) : (st.withBook k).gather = st.gather := rfl
@[simp] theorem Strand.withBook_moving (st : Strand) (k : Book) : (st.withBook k).moving = st.moving := rfl
@[simp] theorem Strand.withBook_storing (st : Strand) (k : Book) : (st.withBook k).storing = st.storing := rfl
@[simp] theorem Strand.withBook_copyLate (st : Strand) (k : Book) : (st.withBook k).copyLate = st.copyLate := rfl
@[simp] theorem Strand.withBook_netLate (st : Strand) (k : Book) : (st.withBook k).netLate = st.netLate := rfl
@[simp] theorem Strand.withBook_inject (st : Strand) (k : Book) : (st.withBook k).inject = st.inject := rfl
@[simp] theorem Strand.withBook_returning (st : Strand) (k : Book) : (st.withBook k).returning = st.returning := rfl
@[simp] theorem Strand.withBook_heldS (st : Strand) (k : Book) : (st.withBook k).heldS = st.heldS := rfl
@[simp] theorem Strand.withBook_heldP (st : Strand) (k : Book) : (st.withBook k).heldP = st.heldP := rfl
@[simp] theorem Strand.withBook_heldH (st : Strand) (k : Book) : (st.withBook k).heldH = st.heldH := rfl
@[simp] theorem Strand.withBook_trns (st : Strand) (k : Book) : (st.withBook k).trns = st.trns := rfl
@[simp] theorem Strand.withBook_vslot (st : Strand) (k : Book) : (st.withBook k).vslot = st.vslot := rfl
@[simp] theorem Strand.withBook_flight (st : Strand) (k : Book) : (st.withBook k).flight = st.flight := rfl
@[simp] theorem Strand.withBook_lastInterlocked (st : Strand) (k : Book) : (st.withBook k).lastInterlocked = st.lastInterlocked := rfl
@[simp] theorem Strand.withBook_passing (st : Strand) (k : Book) : (st.withBook k).passing = st.passing := rfl
@[simp] theorem Strand.withBook_sleeping (st : Strand) (k : Book) : (st.withBook k).sleeping = st.sleeping := rfl
@[simp] theorem Strand.withBook_ident (st : Strand) (k : Book) : (st.withBook k).ident = st.ident := rfl
@[simp] theorem Strand.withBook_trcs (st : Strand) (k : Book) : (st.withBook k).trcs = st.trcs := rfl
@[simp] theorem Strand.withBook_getS (st : Strand) (k : Book) (r : BitVec 5) : (st.withBook k).getS r = st.getS r := rfl
@[simp] theorem Strand.withBook_getP (st : Strand) (k : Book) (r : BitVec 3) : (st.withBook k).getP r = st.getP r := rfl
@[simp] theorem Strand.withBook_getB (st : Strand) (k : Book) (r : BitVec 2) : (st.withBook k).getB r = st.getB r := rfl
@[simp] theorem Strand.withBook_getH (st : Strand) (k : Book) (r : BitVec 4) : (st.withBook k).getH r = st.getH r := rfl
@[simp] theorem Strand.withBook_getV (st : Strand) (k : Book) (r : BitVec 6) : (st.withBook k).getV r = st.getV r := rfl
@[simp] theorem Strand.withBook_getM (st : Strand) (k : Book) (r : BitVec 3) : (st.withBook k).getM r = st.getM r := rfl
@[simp] theorem Strand.withBook_getQ (st : Strand) (k : Book) (r : BitVec 4) : (st.withBook k).getQ r = st.getQ r := rfl
@[simp] theorem Strand.withBook_getQV (st : Strand) (k : Book) (r : BitVec 2) : (st.withBook k).getQV r = st.getQV r := rfl
@[simp] theorem Strand.withBook_mask (st : Strand) (k : Book) (r : BitVec 3) : (st.withBook k).mask r = st.mask r := rfl
@[simp] theorem Strand.withBook_active (st : Strand) (k : Book) : (st.withBook k).active = st.active := rfl
@[simp] theorem Strand.withBook_poisoned (st : Strand) (k : Book) (rs : List (BitVec 6)) :
    (st.withBook k).poisoned rs = st.poisoned rs := rfl
@[simp] theorem State.withBook_cur (s : State) (k : Book) : (s.withBook k).cur = s.cur := rfl
@[simp] theorem State.withBook_served (s : State) (k : Book) : (s.withBook k).served = s.served := rfl
@[simp] theorem State.withBook_orphans (s : State) (k : Book) : (s.withBook k).orphans = s.orphans := rfl
@[simp] theorem State.withBook_links (s : State) (k : Book) : (s.withBook k).links = s.links := rfl
@[simp] theorem State.withBook_matrix (s : State) (k : Book) : (s.withBook k).matrix = s.matrix := rfl
@[simp] theorem State.withBook_line (s : State) (k : Book) : (s.withBook k).line = s.line := rfl
@[simp] theorem State.withBook_codebook (s : State) (k : Book) : (s.withBook k).codebook = s.codebook := rfl
@[simp] theorem State.withBook_mem (s : State) (k : Book) : (s.withBook k).mem = s.mem := rfl
@[simp] theorem State.withBook_full (s : State) (k : Book) : (s.withBook k).full = s.full := rfl
@[simp] theorem State.withBook_poison (s : State) (k : Book) : (s.withBook k).poison = s.poison := rfl
@[simp] theorem State.withBook_linePoison (s : State) (k : Book) : (s.withBook k).linePoison = s.linePoison := rfl
@[simp] theorem State.withBook_near (s : State) (k : Book) : (s.withBook k).near = s.near := rfl
@[simp] theorem State.withBook_waiters (s : State) (k : Book) : (s.withBook k).waiters = s.waiters := rfl
@[simp] theorem State.withBook_retries (s : State) (k : Book) : (s.withBook k).retries = s.retries := rfl
@[simp] theorem State.withBook_drains (s : State) (k : Book) : (s.withBook k).drains = s.drains := rfl
@[simp] theorem State.withBook_icache (s : State) (k : Book) : (s.withBook k).icache = s.icache := rfl
@[simp] theorem State.withBook_trace (s : State) (k : Book) : (s.withBook k).trace = s.trace := rfl
@[simp] theorem State.withBook_traceLost (s : State) (k : Book) : (s.withBook k).traceLost = s.traceLost := rfl
@[simp] theorem State.withBook_armed (s : State) (k : Book) : (s.withBook k).armed = s.armed := rfl
@[simp] theorem State.withBook_coreCtx (s : State) (k : Book) : (s.withBook k).coreCtx = s.coreCtx := rfl
@[simp] theorem State.withBook_now (s : State) (k : Book) : (s.withBook k).now = s.now := rfl
@[simp] theorem State.withBook_cycle (s : State) (k : Book) : (s.withBook k).cycle = s.cycle := rfl
@[simp] theorem State.withBook_sys (s : State) (k : Book) : (s.withBook k).sys = s.sys := rfl
@[simp] theorem State.withBook_env (s : State) (k : Book) : (s.withBook k).env = s.env := rfl
@[simp] theorem State.withBook_nfree (s : State) (k : Book) : (s.withBook k).nfree = s.nfree := rfl
@[simp] theorem State.withBook_ticks (s : State) (k : Book) : (s.withBook k).ticks = s.ticks := rfl

/-! ## What a trace record leaves alone -/

@[simp] theorem State.withTrace_strands (s : State) (l : List TraceRec) (b : Bool) : (s.withTrace l b).strands = s.strands := rfl
@[simp] theorem State.withTrace_cur (s : State) (l : List TraceRec) (b : Bool) : (s.withTrace l b).cur = s.cur := rfl
@[simp] theorem State.withTrace_served (s : State) (l : List TraceRec) (b : Bool) : (s.withTrace l b).served = s.served := rfl
@[simp] theorem State.withTrace_orphans (s : State) (l : List TraceRec) (b : Bool) : (s.withTrace l b).orphans = s.orphans := rfl
@[simp] theorem State.withTrace_matrix (s : State) (l : List TraceRec) (b : Bool) : (s.withTrace l b).matrix = s.matrix := rfl
@[simp] theorem State.withTrace_line (s : State) (l : List TraceRec) (b : Bool) : (s.withTrace l b).line = s.line := rfl
@[simp] theorem State.withTrace_codebook (s : State) (l : List TraceRec) (b : Bool) : (s.withTrace l b).codebook = s.codebook := rfl
@[simp] theorem State.withTrace_mem (s : State) (l : List TraceRec) (b : Bool) : (s.withTrace l b).mem = s.mem := rfl
@[simp] theorem State.withTrace_full (s : State) (l : List TraceRec) (b : Bool) : (s.withTrace l b).full = s.full := rfl
@[simp] theorem State.withTrace_poison (s : State) (l : List TraceRec) (b : Bool) : (s.withTrace l b).poison = s.poison := rfl
@[simp] theorem State.withTrace_linePoison (s : State) (l : List TraceRec) (b : Bool) : (s.withTrace l b).linePoison = s.linePoison := rfl
@[simp] theorem State.withTrace_near (s : State) (l : List TraceRec) (b : Bool) : (s.withTrace l b).near = s.near := rfl
@[simp] theorem State.withTrace_links (s : State) (l : List TraceRec) (b : Bool) : (s.withTrace l b).links = s.links := rfl
@[simp] theorem State.withTrace_waiters (s : State) (l : List TraceRec) (b : Bool) : (s.withTrace l b).waiters = s.waiters := rfl
@[simp] theorem State.withTrace_retries (s : State) (l : List TraceRec) (b : Bool) : (s.withTrace l b).retries = s.retries := rfl
@[simp] theorem State.withTrace_drains (s : State) (l : List TraceRec) (b : Bool) : (s.withTrace l b).drains = s.drains := rfl
@[simp] theorem State.withTrace_icache (s : State) (l : List TraceRec) (b : Bool) : (s.withTrace l b).icache = s.icache := rfl
@[simp] theorem State.withTrace_armed (s : State) (l : List TraceRec) (b : Bool) : (s.withTrace l b).armed = s.armed := rfl
@[simp] theorem State.withTrace_coreCtx (s : State) (l : List TraceRec) (b : Bool) : (s.withTrace l b).coreCtx = s.coreCtx := rfl
@[simp] theorem State.withTrace_now (s : State) (l : List TraceRec) (b : Bool) : (s.withTrace l b).now = s.now := rfl
@[simp] theorem State.withTrace_cycle (s : State) (l : List TraceRec) (b : Bool) : (s.withTrace l b).cycle = s.cycle := rfl
@[simp] theorem State.withTrace_sys (s : State) (l : List TraceRec) (b : Bool) : (s.withTrace l b).sys = s.sys := rfl
@[simp] theorem State.withTrace_env (s : State) (l : List TraceRec) (b : Bool) : (s.withTrace l b).env = s.env := rfl
@[simp] theorem State.withTrace_nfree (s : State) (l : List TraceRec) (b : Bool) : (s.withTrace l b).nfree = s.nfree := rfl
@[simp] theorem State.withTrace_ticks (s : State) (l : List TraceRec) (b : Bool) : (s.withTrace l b).ticks = s.ticks := rfl

theorem State.withTrace_updMe (s : State) (l : List TraceRec) (b : Bool) (f : Strand → Strand) :
    (s.withTrace l b).updMe f = (s.updMe f).withTrace l b := rfl

@[simp] theorem State.withTrace_resolve (s : State) (l : List TraceRec) (b : Bool) (space : BitVec 2) (ea n : Nat) :
    (s.withTrace l b).resolve space ea n = s.resolve space ea n := rfl

@[simp] theorem State.withTrace_feReady (s : State) (l : List TraceRec) (b : Bool) (cls : BitVec 3) (fe : BitVec 2)
    (gs : List Nat) : (s.withTrace l b).feReady cls fe gs = s.feReady cls fe gs := rfl

theorem State.withTrace_feTaken (s : State) (l : List TraceRec) (b : Bool) (cls : BitVec 3) (fe : BitVec 2) (gs : List Nat) :
    (s.withTrace l b).feTaken cls fe gs = (s.feTaken cls fe gs).withTrace l b := by
  unfold State.feTaken
  split_ifs <;> rfl

@[simp] theorem State.withTrace_chipRead (s : State) (l : List TraceRec) (b : Bool) (p n : Nat) :
    (s.withTrace l b).chipRead p n = s.chipRead p n := rfl

/-- States that differ in trace records alone are the same. -/
theorem State.withTrace_same (s : State) (l : List TraceRec) (b : Bool) : (s.withTrace l b).Same s := rfl

/-! ## Accesses and the book -/

@[simp] theorem State.withBook_resolve (s : State) (k : Book) (space : BitVec 2) (ea n : Nat) :
    (s.withBook k).resolve space ea n = s.resolve space ea n := rfl

@[simp] theorem State.withBook_feReady (s : State) (k : Book) (cls : BitVec 3) (fe : BitVec 2) (gs : List Nat) :
    (s.withBook k).feReady cls fe gs = s.feReady cls fe gs := rfl

theorem State.withBook_feTaken (s : State) (k : Book) (cls : BitVec 3) (fe : BitVec 2) (gs : List Nat) :
    (s.withBook k).feTaken cls fe gs = (s.feTaken cls fe gs).withBook k := by
  unfold State.feTaken
  split_ifs <;> rfl

@[simp] theorem State.withBook_chipRead (s : State) (k : Book) (p n : Nat) :
    (s.withBook k).chipRead p n = s.chipRead p n := rfl

theorem State.withBook_updMe (s : State) (k : Book) (f : Strand → Strand)
    (h : ∀ st : Strand, f (st.withBook k) = (f st).withBook k) :
    (s.withBook k).updMe f = (s.updMe f).withBook k := by
  simp [State.withBook, State.updMe, h]

/-! ## Vector words -/

theorem VWrite.land_withBook (w : VWrite) (st : Strand) (k : Book) : w.land (st.withBook k) = (w.land st).withBook k := by
  unfold VWrite.land
  split
  · rfl
  · split <;> rfl
  · rfl
  · unfold Strand.setS
    split <;> rfl
  · unfold Strand.setP
    split <;> rfl

theorem Strand.issued_withBook (st : Strand) (k : Book) (b : Bool) (lat slots : Nat) (ws : List VWrite) (fl : BitVec 5) :
    (st.withBook k).issued b lat slots ws fl = (st.issued b lat slots ws fl).withBook k := by
  unfold Strand.issued
  cases b with
  | false => rfl
  | true =>
    simp only [if_true]
    have : ∀ (l : List VWrite) (u : Strand), l.foldl (fun t w => w.land t) (u.withBook k) =
        (l.foldl (fun t w => w.land t) u).withBook k := by
      intro l
      induction l with
      | nil => intro u; rfl
      | cons w l ih => intro u; rw [List.foldl_cons, List.foldl_cons, VWrite.land_withBook, ih]
    exact this ws { st.raiseFp fl with lastInterlocked := true }

theorem Strand.issued_book (st : Strand) (b : Bool) (lat slots : Nat) (ws : List VWrite) (fl : BitVec 5) :
    (st.issued b lat slots ws fl).book = st.book := by
  have h := st.issued_withBook st.book b lat slots ws fl
  rw [Strand.withBook_book] at h
  rw [h, Strand.book_withBook]

theorem VWrite.land_placed (w : VWrite) (st : Strand) : (w.land st).placed = st.placed := by
  unfold VWrite.land
  split
  · rfl
  · split <;> rfl
  · rfl
  · unfold Strand.setS
    split <;> rfl
  · unfold Strand.setP
    split <;> rfl

theorem VWrite.land_exposed (w : VWrite) (st : Strand) : (w.land st).exposed = st.exposed := by
  unfold VWrite.land
  split
  · rfl
  · split <;> rfl
  · rfl
  · exact Strand.setS_exposed ..
  · exact Strand.setP_exposed ..

theorem Strand.issued_exposed (st : Strand) (b : Bool) (lat slots : Nat) (ws : List VWrite) (fl : BitVec 5) :
    (st.issued b lat slots ws fl).exposed = st.exposed := by
  unfold Strand.issued
  cases b with
  | false => rfl
  | true =>
    simp only [if_true]
    have : ∀ (l : List VWrite) (u : Strand), (l.foldl (fun t w => w.land t) u).exposed = u.exposed := by
      intro l
      induction l with
      | nil => intro u; rfl
      | cons w l ih => intro u; rw [List.foldl_cons, ih, VWrite.land_exposed]
    rw [this]
    rfl

theorem Strand.issued_placed (st : Strand) (b : Bool) (lat slots : Nat) (ws : List VWrite) (fl : BitVec 5) :
    (st.issued b lat slots ws fl).placed = st.placed := by
  unfold Strand.issued
  cases b with
  | false => rfl
  | true =>
    simp only [if_true]
    have : ∀ (l : List VWrite) (u : Strand), (l.foldl (fun t w => w.land t) u).placed = u.placed := by
      intro l
      induction l with
      | nil => intro u; rfl
      | cons w l ih => intro u; rw [List.foldl_cons, ih, VWrite.land_placed]
    rw [this]
    rfl

/-- A vector word with nothing in flight: its body runs, and it issues with what the body answers. -/
theorem vecWord_run {e : QEntry} {lat slots : Nat} {body : M (List VWrite × BitVec 5)} {s t : State} {ws : List VWrite}
    {fl : BitVec 5} (hf : s.me.flight = []) (hb : body s = .ok ((ws, fl), t)) :
    vecWord e lat slots body s = .ok ((), t.updMe fun st => st.issued e.interlocked lat slots ws fl) := by
  have h1 : (s.updMe fun st => if e.interlocked || st.lastInterlocked || e.drain then st.drainPipe
      else st.landDue st.vslot) = s := by
    have : (if e.interlocked || s.me.lastInterlocked || e.drain then s.me.drainPipe else s.me.landDue s.me.vslot) = s.me := by
      split
      · exact Strand.drainPipe_calm hf
      · unfold Strand.landDue
        simp only [hf, List.takeWhile_nil, List.dropWhile_nil, List.foldl_nil]
        rw [← hf]
    rw [State.updMe, this, State.setMe_self]
  unfold vecWord
  rw [M.bind_ok (updMe_run _ s), h1, M.bind_ok hb]
  rfl

/-- An engine word of a calm strand whose effect neither reads nor writes what splitting touches, and adds nothing but trace
records to it, completes. -/
theorem completes_of_run {s x : State} {i : Instr} (h : Calm s) (he : exec i s = issue i s) (hf : followOf i = none)
    (hp : ∀ q a b c, i ≠ .probe q a b c) (ht : s.splitTrap i = none) (hm : i.eng ≠ some .matrix ∨ MatrixFree s)
    (hg : ∀ k, (s.withBook k).me.hasBegun [] (s.entry i) = false)
    (hrun : ∀ k l b, ∃ z, runWord i (s.entry i) ((s.withBook k).withTrace l b) = .ok (true, z) ∧ z.Same (x.withBook k))
    (hx : x.me.book = s.me.book) (hxe : x.me.exposed = s.me.exposed) (hpl : x.me.placed = s.me.placed) :
    Completes i s x := by
  unfold Completes
  rw [he]
  exact issue_completes h hf hp ht hm hg (hrun _) hx hxe (by rw [hpl]; exact h.placed)

/-- A vector word whose body reads the strand alone completes when its strand is calm. -/
theorem vec_completes {s x : State} {i : Instr} {lat slots : Nat} {body : QEntry → M (List VWrite × BitVec 5)}
    {ws : List VWrite} {fl : BitVec 5} (h : Calm s) (hv : i.eng = some .vector)
    (hf : followOf i = none) (hp : ∀ q a b c, i ≠ .probe q a b c) (ht : s.splitTrap i = none)
    (hrun : ∀ e, runWord i e = completes (vecWord e lat slots (body e)))
    (hbody : ∀ k l b, body (s.entry i) ((s.withBook k).withTrace l b) = .ok ((ws, fl), (x.withBook k).withTrace l b))
    (hx : x.me = s.me) :
    ∃ t, issue i s = .next t ∧
      t.Same (s.past i (x.updMe fun u => u.issued s.me.interlocked lat slots ws fl)) := by
  refine issue_completes h hf hp ht (Or.inl (by rw [hv]; decide))
    (h.notBegun fun q a b c hi => by rw [hi] at hv; cases hv) ?_ ?_ ?_ ?_
  · intro l b
    refine ⟨_, ?_, State.withTrace_same _ l b⟩
    rw [hrun]
    apply completes_ok
    rw [vecWord_run (by rw [State.withTrace_me, State.withBook_me]; exact h.flight) (hbody _ l b)]
    have : (s.entry i).interlocked = s.me.interlocked := rfl
    rw [this, State.withTrace_updMe, State.withBook_updMe _ _ _ fun st => Strand.issued_withBook st _ _ _ _ _ _]
  · rw [State.updMe_me, Strand.issued_book, hx]
  · rw [State.updMe_me, Strand.issued_exposed, hx]
  · rw [State.updMe_me, Strand.issued_placed, hx]
    exact h.placed

end Sys2Proof.Machine
end

