-- ==== Sys2Proof/Tests/Slice0.lean ====
section
/-! SUPPORT. Tests: ill-formed instructions, the words of the spec decoded, refused words, a concrete state for the hypotheses
of every statement, and one-step results worked out from the spec by hand. -/

open Sys2Proof Sys2Proof.Machine

set_option Elab.async false

/-! ## Ill-formed instructions: one for every check of `Instr.wf` -/

theorem test_wf_shift_amount : (Instr.shli .every 1 1 64).wf = false ∧ (Instr.shri .every 1 1 64).wf = false ∧
    (Instr.srai .every 1 1 2047).wf = false ∧ (Instr.shli .every 1 1 63).wf = true := by decide
theorem test_wf_conditions : (Instr.cmp .every 1 1 1 6).wf = false ∧ (Instr.cmpi .every 1 1 7 0).wf = false ∧
    (Instr.vfcmp .every 1 1 1 8).wf = false ∧ (Instr.vcmp .every 1 1 1 7).wf = false := by decide
theorem test_wf_logic : (Instr.plog .every 1 1 1 7).wf = false ∧ (Instr.plog .every 1 1 1 5).wf = false ∧
    (Instr.vmlog .every 1 1 1 6).wf = false ∧ (Instr.vmlog .every 1 1 0 7).wf = false := by decide
theorem test_wf_loops : (Instr.loop .every 6 1 4 0).wf = false ∧ (Instr.loop .every 0 1 0 0).wf = false ∧
    (Instr.lstr .every 7 1 1).wf = false := by decide
theorem test_wf_scalar_accesses : (Instr.ldsW .every 1 1 0 3 0).wf = false ∧ (Instr.ldsD .every 1 1 0 3 0).wf = false ∧
    (Instr.stsW .every 1 1 0 3 0).wf = false ∧ (Instr.stsD .every 1 1 0 3 0).wf = false ∧
    (Instr.ldg .every 1 1 1 2).wf = false ∧ (Instr.stg .every 1 1 1 3).wf = false := by decide
theorem test_wf_control_registers : (Instr.csrr .every 1 0x004).wf = false ∧ (Instr.csrw .every 1 0x012).wf = false ∧
    (Instr.getid .every 1 10).wf = false ∧ (Instr.csrr .every 1 0x012).wf = true := by decide
theorem test_wf_vector_functions : (Instr.vfsgn .every 1 1 1 4).wf = false ∧ (Instr.vfsgn .every 1 1 1 0).wf = false ∧
    (Instr.vadd .every 1 1 1 1).wf = false ∧ (Instr.vsub .every 1 1 1 4).wf = false ∧
    (Instr.vmulh .every 1 1 1 2).wf = false ∧ (Instr.vmin .every 1 1 1 2).wf = false ∧
    (Instr.vmax .every 1 1 1 2).wf = false ∧ (Instr.vfops .every 1 1 1 8).wf = false ∧
    (Instr.viops .every 1 1 1 14).wf = false ∧ (Instr.vfscan .every 1 1 4).wf = false ∧
    (Instr.vrot .every 1 1 1 3).wf = false ∧ (Instr.viota .every 1 2).wf = false := by decide
theorem test_wf_reductions : (Instr.vfred .every 1 1 0 4).wf = false ∧ (Instr.vfred .every 1 1 1 0).wf = false ∧
    (Instr.vfred .every 1 1 1 8).wf = false ∧ (Instr.vred .every 1 1 1 0).wf = false ∧
    (Instr.vred .every 1 1 1 8).wf = false := by decide
theorem test_wf_lanes_and_tags : (Instr.vbcs .every 1 1 0).wf = false ∧ (Instr.vext .every 1 1 1 2).wf = false ∧
    (Instr.vext .every 32 1 1 0).wf = false ∧ (Instr.vins .every 1 32 1).wf = false ∧
    (Instr.vmovMaskToReg .every 1 8).wf = false ∧ (Instr.vmovRegToMask .every 8 1).wf = false ∧
    (Instr.vcvt .every 1 1 10 0 0).wf = false ∧ (Instr.vtag .every 1 1 0).wf = false ∧
    (Instr.vtag .every 1 1 14).wf = false := by decide
theorem test_wf_vector_memory : (Instr.vamo .every 1 1 0 1 4 0 1 0).wf = false ∧ (Instr.vamo .every 1 1 0 0 1 0 1 0).wf = false ∧
    (Instr.vamo .every 1 1 0 0 4 0 1 9).wf = false ∧ (Instr.vld .every 1 1 0 3 1 0).wf = false ∧
    (Instr.vld .every 1 1 0 0 0 0).wf = false ∧ (Instr.vst .every 1 1 0 0 14 0).wf = false ∧
    (Instr.vldx .every 1 1 0 0 10 0 1).wf = false ∧ (Instr.vstx .every 1 1 0 0 11 0 1).wf = false ∧
    (Instr.vldl .every 1 1 1 0 1 0).wf = false ∧ (Instr.vstl .every 1 1 0 1 1 0).wf = false := by decide
theorem test_wf_planes : (Instr.mldw .every 0 8 1 0 0 0 0 0 1).wf = false ∧ (Instr.mldw .every 0 6 1 0 0 1 0 0 1).wf = false ∧
    (Instr.mldw .every 0 6 1 0 1 0 0 0 1).wf = false ∧ (Instr.mldw .every 0 6 1 0 0 0 1 0 1).wf = false ∧
    (Instr.mldw .every 0 10 1 0 0 0 32 0 0).wf = false ∧ (Instr.mldw .every 0 6 1 0 0 0 1023 1 0).wf = false ∧
    (Instr.mldws .every 0 7 1 0 0 1 0 0 1).wf = false ∧ (Instr.mldws .every 0 10 1 0 0 1 16 31 0).wf = false ∧
    (Instr.mswap .every 1 1).wf = false := by decide
theorem test_wf_tiles : (Instr.mmul .every 0 0 0 9 1 1 0 1 0 0 0).wf = false ∧ (Instr.mmul .every 0 1 0 7 1 1 1 1 0 0 0).wf = false ∧
    (Instr.mmul .every 0 0 0 7 1 1 0 1 0 3 0).wf = false ∧ (Instr.mrd .every 0 31 1 1 0 0 0).wf = false ∧
    (Instr.mrd .every 0 0 0 1 0 3 0).wf = false ∧ (Instr.mrdv .every 0 0 63).wf = false ∧
    (Instr.mclr .every 0 0 3).wf = false ∧ (Instr.mrdk .every 0 63 1).wf = false ∧ (Instr.mwrk .every 0 63 1).wf = false ∧
    (Instr.mrd .every 0 31 0 1 0 0 0).wf = true := by decide
theorem test_wf_quantiser : (Instr.qcfg .every 1 0 0 0 0).wf = false ∧ (Instr.qcfg .every 7 0 3 0 0).wf = false ∧
    (Instr.qcfg .every 10 0 2 0 0).wf = false ∧ (Instr.qstt .every 0 16 16 1 0 1 0 0 0).wf = false ∧
    (Instr.qrld .every 1 4 1 0 0 0 0).wf = false ∧ (Instr.qrld .every 0 1 1 0 3 0 0).wf = false ∧
    (Instr.qrst .every 0 1 1 0 0 1 7).wf = false ∧ (Instr.qrst .every 0 1 1 0 0 0 1).wf = false ∧
    (Instr.qrclr .every 1 4).wf = false ∧ (Instr.qrmov .every 1 0 4).wf = false := by decide
theorem test_wf_lines : (Instr.lnfit .every 1 1 0 0).wf = false ∧ (Instr.lnfit .every 1 1 0 7).wf = false ∧
    (Instr.lnld .every 1 1 0 0 7).wf = false ∧ (Instr.lnstTable .every 1 0 1).wf = false ∧
    (Instr.lnstTable .every 1 0 7).wf = false ∧ (Instr.lnchk .every 1 0 31 1 0).wf = false ∧
    (Instr.lnchk .every 7 0 0 0 0).wf = false ∧ (Instr.lnfold .every 61 1 1 0 0).wf = false ∧
    (Instr.lnfold .every 1 63 1 0 0).wf = false := by decide
theorem test_wf_copies : (Instr.cpyLinear .every 1 0 2 0 1 3 0).wf = false ∧ (Instr.cpyPattern .every 1 2 0 0 3).wf = false ∧
    (Instr.cpymLinear .every 1 0 2 0 1 3 0 (.mcfg .every 0)).wf = false ∧
    (Instr.cpymLinear .every 1 0 2 0 1 0 0 (.mcfg .first 0)).wf = false ∧
    (Instr.cpymLinear .every 1 0 2 0 1 0 0 (.mslot .every 1 0)).wf = false ∧
    (Instr.cpymPattern .every 1 2 0 0 0 (.nop .every)).wf = false ∧
    (Instr.cpymPattern .every 1 2 0 0 0 (.mclr .every 0 0 3)).wf = false ∧ (Instr.cadv .every 0 1 1 0).wf = false ∧
    (Instr.cgath .every 1 0 1 0 1 1 0 0).wf = false ∧ (Instr.cgath .every 1 0 1 0 1 2 1 0).wf = false ∧
    (Instr.cgath .every 1 0 1 0 1 2 0 3).wf = false ∧ (Instr.cscat .every 1 0 1 0 1 1 0 0).wf = false ∧
    (Instr.cscat .every 1 0 1 0 1 2 3 0).wf = false ∧ (Instr.cred .every 1 0 2 0 1 3 0 0).wf = false ∧
    (Instr.cred .every 1 0 2 0 1 1 0 3).wf = false ∧ (Instr.cvqxBook .every 1 0 3).wf = false ∧
    (Instr.cvqxExpand .every 1 0 2 0 1 3 0).wf = false := by decide
theorem test_wf_intersection : (Instr.sisect .every 1 3 4 0 0 0 0 0 0 0 0).wf = false ∧
    (Instr.sisect .every 1 0 4 0 0 0 0 0 0 0 0).wf = false ∧ (Instr.sisect .every 1 2 5 0 0 0 0 0 0 0 0).wf = false ∧
    (Instr.sisect .every 1 2 0 0 0 0 0 0 0 0 0).wf = false ∧ (Instr.sisect .every 2 2 4 0 0 0 0 0 0 0 0).wf = false ∧
    (Instr.sisect .every 3 2 4 0 0 0 0 0 0 0 0).wf = false ∧ (Instr.sisect .every 1 2 4 1 0 0 0 1 0 0 0).wf = false ∧
    (Instr.sisect .every 1 2 4 0 1 0 0 0 1 0 0).wf = false ∧ (Instr.sisect .every 1 2 4 0 0 0 0 0 0 1 0).wf = false := by
  decide
theorem test_wf_sync : (Instr.fence .every 7).wf = false ∧ (Instr.xfence .every 0 0 7).wf = false ∧
    (Instr.ldaq .every 1 0 1 0 3 0).wf = false ∧ (Instr.ldaqHandle .every 1 0 1 1 7).wf = false ∧
    (Instr.strl .every 1 0 1 0 0 7).wf = false ∧ (Instr.strlHandle .every 1 0 1 1 7).wf = false ∧
    (Instr.amo .every 1 0 0 1 0 0 1 0).wf = false ∧ (Instr.amo .every 1 1 0 1 0 0 1 10).wf = false ∧
    (Instr.amo .every 1 1 0 1 0 0 1 9).wf = false ∧ (Instr.cas .every 1 0 0 1 0 0 1 1).wf = false ∧
    (Instr.cas .every 1 1 0 1 0 7 1 1).wf = false ∧ (Instr.bar .every 1 1 0).wf = false ∧
    (Instr.bar .every 1 1 7).wf = false ∧ (Instr.waitseq .every 1 1 2 0).wf = false ∧
    (Instr.sev .every 3 0 0 0).wf = false ∧ (Instr.sev .every 0 0 1 0).wf = false ∧ (Instr.sev .every 1 1 0 0).wf = false ∧
    (Instr.sev .every 2 0 96 0).wf = false ∧ (Instr.probe .every 1 1 2).wf = false ∧
    (Instr.drain .every 7).wf = false := by decide

/-! ## Decoding: a word of every instruction -/

/-! ### Words that the spec writes out (R20-R31 and the worked encodings of its chapters) -/

theorem test_decode_spec_control_1 :
    decodeTableWord 32 0x00230880 = some (.add .every 3 1 2) ∧
    decodeTableWord 32 0x01E84240 = some (.maxu .every 8 8 9) ∧
    decodeTableWord 32 0x0218ABE8 = some (.addi .every 24 21 1000) ∧
    decodeTableWord 32 0x02E90200 = some (.movi .every 9 512) ∧
    decodeTableWord 32 0x03E6D403 = some (.cmpi .every 1 22 5 3) ∧
    decodeTableWord 32 0x0415C000 = some (.plog .every 5 3 4 0) ∧
    decodeTableWord 32 0x04374830 = some (.sel .every 23 9 0 6) ∧
    decodeTableWord 32 0x04400006 = some (.pbr .every 0 6) ∧
    decodeTableWord 32 0x04990000 = some (.br .every 3 1 0) ∧
    decodeTableWord 32 0x04E04338 = some (.loop .every 0 2 51 1) ∧
    decodeTableWord 32 0x05008C00 = some (.lstr .every 0 1 3) ∧
    decodeTableWord 32 0x05430002 = some (.ldsW .every 3 0 0 0 2) ∧
    decodeTableWord 32 0x15842001 = some (.stsW .last 4 1 0 0 1) ∧
    decodeTableWord 32 0x05C70880 = some (.ldg .every 7 0 17 0) ∧
    decodeTableWord 32 0x06300020 = some (.ainc .every 4 32) ∧
    decodeTableWord 32 0x06818000 = some (.getid .every 1 8) := by
  decide +kernel

theorem test_decode_spec_control_2 :
    decodeTableWord 32 0x06B40000 = some (.time .every 20) := by
  decide +kernel

theorem test_decode_spec_vector :
    decodeTableWord 32 0x20000020 = some (.vfadd .every 0 0 4) ∧
    decodeTableWord 32 0x30650838 = some (.vfma .last 10 4 7) ∧
    decodeTableWord 32 0x2168A201 = some (.vfun .every 17 17 1) ∧
    decodeTableWord 32 0x2388A243 = some (.vfops .every 17 17 4 3) ∧
    decodeTableWord 32 0x24283108 = some (.vcmp .every 2 3 4 2) ∧
    decodeTableWord 32 0x2508A000 = some (.vfred .every 17 16 0 0) ∧
    decodeTableWord 32 0x26CA00F0 = some (.vcvt .every 20 0 7 1 0) ∧
    decodeTableWord 32 0x27411211 = some (.vld .every 2 1 0 2 1 1) ∧
    decodeTableWord 64 0xE48000002782A010 = some (.vldx .every 5 2 0 0 1 0 9) := by
  decide +kernel

theorem test_decode_spec_matrix :
    decodeTableWord 32 0x40000000 = some (.mcfg .every 0) ∧
    decodeTableWord 64 0xE0000100402290C0 = some (.mldw .every 0 10 2 0 3 0 0 0 1) ∧
    decodeTableWord 64 0xE000010040429950 = some (.mldws .every 0 10 3 0 5 2 0 0 1) ∧
    decodeTableWord 32 0x40620000 = some (.mswap .every 0 1) ∧
    decodeTableWord 64 0xE4000000408000F8 = some (.mmul .every 0 0 0 7 1 1 0 1 0 0 0) ∧
    decodeTableWord 64 0xE000000040A00080 = some (.mrd .every 0 0 1 0 0 0 0) ∧
    decodeTableWord 32 0x40C00F00 = some (.mrdv .every 0 0 60) ∧
    decodeTableWord 32 0x40E00000 = some (.mclr .every 0 0 0) ∧
    decodeTableWord 32 0x4142CA00 = some (.mwrk .every 0 44 20) := by
  decide +kernel

theorem test_decode_spec_quantiser :
    decodeTableWord 32 0x600EA000 = some (.qcfg .every 7 0 2 1 0) ∧
    decodeTableWord 32 0x60305018 = some (.qstv .every 4 0 20 0 12 0) ∧
    decodeTableWord 32 0x606C4000 = some (.qscl .every 12 8) ∧
    decodeTableWord 32 0x60A44B02 = some (.qrst .every 0 4 2 1 1 1 2) ∧
    decodeTableWord 32 0x61160000 = some (.qflg .every 22 0) := by
  decide +kernel

theorem test_decode_spec_line :
    decodeTableWord 32 0x80000A00 = some (.lntol .every 0 5) ∧
    decodeTableWord 64 0xE2000000803D1000 = some (.lnfit .every 58 1 0 1) ∧
    decodeTableWord 32 0x805A6070 = some (.lnld .every 26 3 0 7 0) ∧
    decodeTableWord 64 0xE000000080840000 = some (.lnchk .every 1 0 0 0 0) ∧
    decodeTableWord 64 0xE000000080D70000 = some (.lncor .every 46 0 0 0 0) ∧
    decodeTableWord 32 0x80F9C7FE = some (.lnrfl .every 25 6 0 1023) ∧
    decodeTableWord 32 0x811F0000 = some (.lncnt .every 62 0 0) ∧
    decodeTableWord 64 0xE000000081544940 = some (.lnfold .every 40 36 20 0 0) := by
  decide +kernel

theorem test_decode_spec_copy :
    decodeTableWord 32 0xA0004000 = some (.srec .every 0 1 0) ∧
    decodeTableWord 32 0xA0310000 = some (.cpyPattern .every 1 0 0 0 0) ∧
    decodeTableWord 64 0xE4000000A1345330 = some (.sisect .every 20 10 12 1 1 0 2 0 0 0 0) ∧
    decodeTableWord 32 0xA1490000 = some (.cseq .every 9 0 0) := by
  decide +kernel

theorem test_decode_spec_sync_1 :
    decodeTableWord 32 0xC0000001 = some (.fence .every 1) ∧
    decodeTableWord 32 0xC0425001 = some (.ldaq .every 2 1 2 0 0 1) ∧
    decodeTableWord 32 0xC0615001 = some (.strl .every 1 1 2 0 0 1) ∧
    decodeTableWord 64 0xE5000000C0968204 = some (.amo .every 22 1 0 16 0 4 5 0) ∧
    decodeTableWord 64 0xE5300000C0A36009 = some (.cas .every 3 0 1 256 1 1 5 6) ∧
    decodeTableWord 32 0xC0C02004 = some (.bar .every 1 0 4) ∧
    decodeTableWord 32 0xC0E34003 = some (.waitseq .every 3 8 0 3) ∧
    decodeTableWord 32 0xC1000000 = some (.wfe .every) ∧
    decodeTableWord 32 0xC1220001 = some (.sev .every 0 1 0 1) ∧
    decodeTableWord 32 0xC1580000 = some (.slpat .every 24) ∧
    decodeTableWord 32 0xC164E000 = some (.trn .every 2 14) ∧
    decodeTableWord 32 0xC184E000 = some (.probe .every 2 14 0) ∧
    decodeTableWord 32 0xC1AC8000 = some (.hvld .every 3 2 0) ∧
    decodeTableWord 32 0xC1C00000 = some (.trig .every) ∧
    decodeTableWord 32 0xC1E00000 = some (.exit .every) ∧
    decodeTableWord 32 0xC2000012 = some (.trap .every 18) := by
  decide +kernel

theorem test_decode_spec_sync_2 :
    decodeTableWord 32 0xC2200000 = some (.eret .every) ∧
    decodeTableWord 32 0xC2632140 = some (.tokq .every 3 4 5) ∧
    decodeTableWord 64 0xE0020000C294A800 = some (.trc .every 20 21 1) ∧
    decodeTableWord 32 0xC2A00004 = some (.drain .every 4) ∧
    decodeTableWord 32 0xC60452C0 = some (.invqIssue .every 4 10 11) ∧
    decodeTableWord 32 0xC6246480 = some (.mchkPop .every 4 6 9 0) ∧
    decodeTableWord 32 0xC6200024 = some (.mchkInject .every 1) ∧
    decodeTableWord 32 0xC643542C = some (.ctxsvStrand .every 3 10 8 11) ∧
    decodeTableWord 32 0xC663542E = some (.ctxldCore .every 3 10 8 11) := by
  decide +kernel

/-! ### Words written out from the fields of the opcode table -/

theorem test_decode_table_control_1 :
    decodeTableWord 32 0x08000000 = some (.nop .first) ∧
    decodeTableWord 32 0x10425D80 = some (.sub .last 2 11 22) ∧
    decodeTableWord 32 0x0070E0C0 = some (.and .every 16 28 3) ∧
    decodeTableWord 32 0x088E42C0 = some (.or .first 14 8 11) ∧
    decodeTableWord 32 0x10A51CC0 = some (.xor .last 5 3 19) ∧
    decodeTableWord 32 0x08C4CD00 = some (.shl .first 4 25 20) ∧
    decodeTableWord 32 0x08F52DC0 = some (.shr .first 21 5 23) ∧
    decodeTableWord 32 0x11061500 = some (.sra .last 6 2 20) ∧
    decodeTableWord 32 0x1129A040 = some (.mul .last 9 20 1) ∧
    decodeTableWord 32 0x01492BC0 = some (.mulh .every 9 5 15) ∧
    decodeTableWord 32 0x09646540 = some (.mulhu .first 4 12 21) ∧
    decodeTableWord 32 0x119E7900 = some (.min .last 30 15 4) ∧
    decodeTableWord 32 0x11B25AC0 = some (.max .last 18 11 11) ∧
    decodeTableWord 32 0x01D5CF40 = some (.minu .every 21 25 29) ∧
    decodeTableWord 32 0x02285C73 = some (.andi .every 8 11 1139) ∧
    decodeTableWord 32 0x024C0D84 = some (.ori .every 12 1 1412) := by
  decide +kernel

theorem test_decode_table_control_2 :
    decodeTableWord 32 0x12777946 = some (.xori .last 23 15 326) ∧
    decodeTableWord 32 0x128D0001 = some (.shli .last 13 0 1) ∧
    decodeTableWord 32 0x02B10803 = some (.shri .every 17 1 3) ∧
    decodeTableWord 32 0x12CF7801 = some (.srai .last 15 15 1) ∧
    decodeTableWord 32 0x0B12541D = some (.insh0 .first 18 21533) ∧
    decodeTableWord 32 0x132A7BE2 = some (.insh1 .last 10 31714) ∧
    decodeTableWord 32 0x035E6B8E = some (.insh2 .every 30 27534) ∧
    decodeTableWord 32 0x0B64AA27 = some (.insh3 .first 4 43559) ∧
    decodeTableWord 32 0x03987800 = some (.popc .every 24 15) ∧
    decodeTableWord 32 0x13AC3800 = some (.clz .last 12 7) ∧
    decodeTableWord 32 0x13CC4C20 = some (.cmp .last 3 2 12 2) ∧
    decodeTableWord 32 0x0C78D800 = some (.pbrr .first 3 27) ∧
    decodeTableWord 32 0x04B58000 = some (.call .every 2 5 1) ∧
    decodeTableWord 32 0x14C48000 = some (.ret .last 4 1) ∧
    decodeTableWord 32 0x15258000 = some (.lbrk .last 5 1) ∧
    decodeTableWord 32 0x0D7C95D7 = some (.ldsD .first 28 4 2 2 471) := by
  decide +kernel

theorem test_decode_table_control_3 :
    decodeTableWord 32 0x05AD2B03 = some (.stsD .every 13 1 1 1 259) ∧
    decodeTableWord 32 0x0DFEC0A0 = some (.stg .first 30 12 1 1) ∧
    decodeTableWord 32 0x1618BF00 = some (.amov .last 6 5 31) ∧
    decodeTableWord 32 0x06490030 = some (.csrr .every 9 3) ∧
    decodeTableWord 32 0x066B0010 = some (.csrw .every 11 1) ∧
    decodeTableWord 32 0x0E4E0510 = some (.rsbottomRead .first 14) ∧
    decodeTableWord 32 0x16620510 = some (.rsbottomWrite .last 2) := by
  decide +kernel

theorem test_decode_table_vector_1 :
    decodeTableWord 32 0x20287540 = some (.vfsub .every 16 58 40) ∧
    decodeTableWord 32 0x2855AED8 = some (.vfmul .first 43 23 27) ∧
    decodeTableWord 32 0x28942408 = some (.vfms .first 40 18 1) ∧
    decodeTableWord 32 0x28AECB18 = some (.vfnma .first 29 37 35) ∧
    decodeTableWord 32 0x30D69348 = some (.vfmin .last 45 9 41) ∧
    decodeTableWord 32 0x28F05D68 = some (.vfmax .first 32 46 45) ∧
    decodeTableWord 32 0x291A0352 = some (.vfsgn .first 52 1 42 2) ∧
    decodeTableWord 32 0x3132C350 = some (.vfdiv .last 37 33 42) ∧
    decodeTableWord 32 0x3159E800 = some (.vfsqrt .last 51 52) ∧
    decodeTableWord 32 0x220FE55A = some (.vadd .every 31 50 43 2) ∧
    decodeTableWord 32 0x32264ADA = some (.vsub .last 12 37 27 2) ∧
    decodeTableWord 32 0x2A53A3D8 = some (.vmul .first 39 17 59) ∧
    decodeTableWord 32 0x22603E30 = some (.vmulh .every 0 31 6 0) ∧
    decodeTableWord 32 0x229283D8 = some (.vand .every 37 1 59) ∧
    decodeTableWord 32 0x22B76280 = some (.vor .every 46 49 16) ∧
    decodeTableWord 32 0x22C87D80 = some (.vxor .every 16 62 48) := by
  decide +kernel

theorem test_decode_table_vector_2 :
    decodeTableWord 32 0x2AF51318 = some (.vshl .first 42 9 35) ∧
    decodeTableWord 32 0x23172848 = some (.vshr .every 46 20 9) ∧
    decodeTableWord 32 0x333DFE38 = some (.vsra .last 59 63 7) ∧
    decodeTableWord 32 0x335F2EF1 = some (.vmin .last 62 23 30 1) ∧
    decodeTableWord 32 0x2B6E0419 = some (.vmax .first 28 2 3 1) ∧
    decodeTableWord 32 0x33B9D045 = some (.viops .last 51 40 4 5) ∧
    decodeTableWord 32 0x2C17C914 = some (.vfcmp .first 5 60 36 5) ∧
    decodeTableWord 32 0x344BE200 = some (.vmlog .last 2 7 6 1) ∧
    decodeTableWord 32 0x34740000 = some (.vact .last 5) ∧
    decodeTableWord 32 0x34988000 = some (.vany .last 6 1) ∧
    decodeTableWord 32 0x34B18000 = some (.vall .last 4 3) ∧
    decodeTableWord 32 0x34D48000 = some (.vmpop .last 20 4) ∧
    decodeTableWord 32 0x34EC45DF = some (.vsel .last 24 34 59 7) ∧
    decodeTableWord 32 0x25238C03 = some (.vred .every 7 6 0 3) ∧
    decodeTableWord 32 0x355BAC02 = some (.vfscan .last 55 22 2) ∧
    decodeTableWord 32 0x258E0059 = some (.vbcs .every 28 5 9) := by
  decide +kernel

theorem test_decode_table_vector_3 :
    decodeTableWord 32 0x2DB0D4E0 = some (.vbcl .first 33 42 14) ∧
    decodeTableWord 32 0x2DD2ED00 = some (.vperm .first 37 54 32) ∧
    decodeTableWord 32 0x2DE50051 = some (.vrot .first 10 0 5 1) ∧
    decodeTableWord 32 0x36008201 = some (.vext .last 1 1 0 1) ∧
    decodeTableWord 32 0x2621AE70 = some (.vins .every 3 23 7) ∧
    decodeTableWord 32 0x2E566C00 = some (.vmov .first 44 54) ∧
    decodeTableWord 32 0x36400401 = some (.vmovMaskToReg .last 0 2) ∧
    decodeTableWord 32 0x2E411E02 = some (.vmovRegToMask .first 2 15) ∧
    decodeTableWord 32 0x266B3F4D = some (.vmovi .every 22 16205) ∧
    decodeTableWord 32 0x36938001 = some (.viota .last 39 1) ∧
    decodeTableWord 32 0x26FE1E40 = some (.vtag .every 60 15 2) ∧
    decodeTableWord 32 0x276AC66E = some (.vst .every 21 4 1 2 6 14) ∧
    decodeTableWord 64 0xF70000002FB11E7D = some (.vstx .first 34 1 3 2 7 13 46) ∧
    decodeTableWord 32 0x2FC0008A = some (.vldl .first 0 0 0 0 8 10) ∧
    decodeTableWord 32 0x37E03003 = some (.vstl .last 0 3 0 0 0 3) := by
  decide +kernel

theorem test_decode_table_matrix :
    decodeTableWord 32 0x49020000 = some (.mpois .first 1) ∧
    decodeTableWord 32 0x412E6300 = some (.mrdk .every 3 38 6) ∧
    decodeTableWord 64 0xF0000000460A0000 = some (.mslot .every 10 1) := by
  decide +kernel

theorem test_decode_table_quantiser :
    decodeTableWord 64 0xED23636060537256 = some (.qstt .every 9 23 4 21 1 3 1 2 13878) ∧
    decodeTableWord 32 0x6891AB01 = some (.qrld .first 1 1 5 1 1 1 1) ∧
    decodeTableWord 32 0x68D30000 = some (.qrclr .first 1 3) ∧
    decodeTableWord 32 0x60F20000 = some (.qrmov .every 1 2 0) := by
  decide +kernel

theorem test_decode_table_line :
    decodeTableWord 32 0x886A5C00 = some (.lnst .first 10 2 3 64) ∧
    decodeTableWord 64 0xE1C0000090B321A0 = some (.lnapl .last 38 4 6 1 14) ∧
    decodeTableWord 32 0x81270000 = some (.lnclrCounts .every 112) ∧
    decodeTableWord 32 0x89280000 = some (.lnclrList .first) ∧
    decodeTableWord 32 0x91371000 = some (.lnclrLines .last 113) ∧
    decodeTableWord 32 0x8060D805 = some (.lnstTable .every 6 3 5) := by
  decide +kernel

theorem test_decode_table_copy :
    decodeTableWord 32 0xA82FF7D2 = some (.cpyLinear .first 7 3 7 1 30 2 1) ∧
    decodeTableWord 64 0x40C00F00A042FC2C = some (.cpymLinear .every 1 1 7 3 1 1 2 (.mrdv .every 0 0 60)) ∧
    decodeTableWord 64 0x50C00F00B05B990C = some (.cpymPattern .last 11 9 9 1 2 (.mrdv .last 0 0 60)) ∧
    decodeTableWord 64 0xF6000000B07C5538 = some (.cwin .last 14 1 1 5 7 22) ∧
    decodeTableWord 32 0xA08DC180 = some (.cadv .every 6 28 1 1) ∧
    decodeTableWord 64 0xE0000000B0A20518 = some (.cgath .last 0 2 0 0 20 3 0 0) ∧
    decodeTableWord 64 0xF2000000A8DBF720 = some (.cscat .first 6 3 7 2 28 4 2 1) ∧
    decodeTableWord 64 0xE9400000A8F1FCC0 = some (.cred .first 4 1 7 3 19 4 2 2) ∧
    decodeTableWord 64 0xE2000000B100D800 = some (.cvqxBook .last 6 3 1) ∧
    decodeTableWord 64 0xEC000000A1095260 = some (.cvqxExpand .every 2 1 2 2 9 1 2) := by
  decide +kernel

theorem test_decode_table_sync :
    decodeTableWord 32 0xD020004D = some (.xfence .last 1 1 5) ∧
    decodeTableWord 32 0xC843FA41 = some (.ldaqHandle .first 3 1 14 18 1) ∧
    decodeTableWord 32 0xD07EFAE6 = some (.strlHandle .last 30 1 14 23 6) ∧
    decodeTableWord 64 0xF6000000D242F800 = some (.task .last 2 7 3 22) ∧
    decodeTableWord 32 0xC6060020 = some (.invqAck .every 6) ∧
    decodeTableWord 32 0xCE45A10E = some (.ctxsvCore .first 5 20 2 3) ∧
    decodeTableWord 32 0xC663A668 = some (.ctxldStrand .every 3 20 12 26) := by
  decide +kernel

/-- VAMO (R22, R150): 001 00 111001, vd 5, a 2, space 0, fe 0, fmt 4, inc 0; then 111, vx 9, op 3. -/
theorem test_decode_vamo : decodeTableWord 64 0xE49800002722A040 = some (.vamo .every 5 2 0 0 4 0 9 3) := by decide +kernel

/-! ## Words that are refused, with the reason codes of R32 -/

theorem test_refuse_reserved_bit : decode true [0x00230881] = .error (fail .reservedBit) := by decide +kernel
theorem test_refuse_opcode : decode true [0x06C00000] = .error (fail .unallocated) := by decide +kernel
theorem test_refuse_qualifier : decode true [0x38650838] = .error (fail .qualifier) := by decide +kernel
theorem test_refuse_privileged : decode false [0xC6200000] = .error (fail .privileged) ∧
    decode false [0xC6800000] = .error (fail .privileged) ∧ decode true [0xC6800000] = .error (fail .unallocated) := by
  decide +kernel
theorem test_refuse_continuation : decode true [0xE0000000] = .error (fail .strayContinuation) := by decide +kernel
theorem test_refuse_outside_loop : (Strand.launch).qualifierBad 0x30650838 = true ∧
    ({ Strand.launch with loops := Strand.launch.loops.set 0 firstLevel }).qualifierBad 0x30650838 = false := by decide +kernel
theorem test_refuse_missing_continuation : decode true [0xA1345330] = .error (fail .missingContinuation) := by decide +kernel
theorem test_refuse_follow_on : decode true [0xA0486140, 0x00230880] = .error (fail .followOn) := by decide +kernel

/-! ## A small state -/

namespace Sys2Proof.Tests

/-- The placement of the test strand. -/
def pl : Placement := ⟨3, 0, 1, 0, 0x100000, [(0x100000, false)], 0x4000, 0, 0, #v[5, 0xFF, 0xFF, 0xFF]⟩

/-- The place of a byte of the modelled core's scratchpad. -/
def scr (o : Nat) : Nat := 2 ^ 60 + o

/-- The test strand: A1 to A4 at 0x1000 on, A5 past the last doubleword of the scratchpad, A6 at no multiple of 4, A7 at its
last 512 bytes; valid handles H1 to H4 of pages 1 to 4, of kinds 0, 1 and 2 and one without W; register V k of tag k below 14,
F32 in V16 to V31, I32 in V32 to V47, and a poisoned F32 in V48. -/
def strand : Strand :=
  let hs : Vector Handle 16 := Vector.ofFn fun k =>
    if k.val = 1 then ⟨.valid, false, 0, true, false, 7, 1, 1⟩
    else if k.val = 2 then ⟨.valid, false, 1, true, false, 7, 2, 2⟩
    else if k.val = 3 then ⟨.valid, false, 2, true, false, 7, 3, 3⟩
    else if k.val = 4 then ⟨.valid, false, 1, false, false, 7, 4, 4⟩
    else if k.val = 5 then ⟨.valid, true, 1, true, false, 7, 512, 512⟩
    else Handle.none
  let vs : Vector VReg 64 := Vector.ofFn fun k =>
    if k.val < 14 then ⟨0, BitVec.ofNat 4 k.val, 0, false⟩
    else if k.val < 16 then VReg.launch
    else if k.val < 32 then ⟨ofLanes fun l => BitVec.ofNat 32 (0x3F800000 + l * 0x10000), 1, 0, false⟩
    else if k.val < 48 then ⟨ofLanes fun l => BitVec.ofNat 32 l, 4, 0, false⟩
    else if k.val = 48 then ⟨0, 1, 0, true⟩
    else VReg.launch
  { Strand.launch with
    placed := some pl
    pc := 0x100
    s := #v[0, 5, 3, 0xFFFFFFFFFFFFFFFE, 8, 0x1002, 65528, 65536, 16, 32, 1, 0x8000000000000000, 0x2000, 0x2040, 0x2010,
            0x2048, 128, 64, 2, 0x10000, 0x1000, 0x7FFFFFFFFFFFFFFF, 0x3F800000, 65472, 400, 0, 0, 0, 0, 0, 0, 0]
    a := #v[⟨0x1000, 0, 0⟩, ⟨0x1000, 0, 0⟩, ⟨0x2000, 0, 0⟩, ⟨0x3000, 0, 0⟩, ⟨0x1010, 0x1000, 0x40⟩, ⟨0x300000, 0, 0⟩,
            ⟨0x1002, 0, 0⟩, ⟨0x2FFE00, 0, 0⟩]
    h := hs
    v := vs
    rstack := [0x40]
    priv := true
    exposed := false
    groups := #v[5, 0xFF, 0xFF, 0xFF]
    trapvec := 0x800
    trapframe := 0x8000 }

/-- The test machine: the reset state with the test strand in slot 0. -/
def base : State :=
  { State.reset with strands := State.reset.strands.set 0 strand, now := 1000, sys := { State.reset.sys with devices := 2 } }

/-! A row of facts that evaluation decides together, and then the others. -/

theorem also4 {a b c d x : Prop} (h : a ∧ b ∧ c ∧ d) (y : x) : a ∧ b ∧ c ∧ d ∧ x := by simp only [h, y, and_self]

theorem also5 {a b c d e x : Prop} (h : a ∧ b ∧ c ∧ d ∧ e) (y : x) : a ∧ b ∧ c ∧ d ∧ e ∧ x := by simp only [h, y, and_self]

theorem also6 {a b c d e f x : Prop} (h : a ∧ b ∧ c ∧ d ∧ e ∧ f) (y : x) : a ∧ b ∧ c ∧ d ∧ e ∧ f ∧ x := by simp only [h, y, and_self]

theorem also7 {a b c d e f g x : Prop} (h : a ∧ b ∧ c ∧ d ∧ e ∧ f ∧ g) (y : x) : a ∧ b ∧ c ∧ d ∧ e ∧ f ∧ g ∧ x := by simp only [h, y, and_self]

/-- What `Calm` asks for, each to be evaluated. -/
def calmParts (s : State) : List Bool :=
  let st := s.me
  [decide (st.placed.isSome = true), decide (st.queue = []), decide (st.gather = []), decide (st.moving = []),
    decide (st.storing = none), decide (st.inject = []), decide (st.flight = []), decide (st.trns = []), decide (st.heldS = 0),
    decide (st.heldP = 0), decide (st.heldH = 0), decide (st.sleeping = none), decide (st.passing = false),
    decide (s.armed = []), decide (s.env.busy = []), decide (s.env.soft = []), decide (s.env.pieces = []),
    decide (∀ k : Fin 8, s.cur = s.served[k] + 1), decide (s.copiesInFlight < 8), decide (s.waiters = []),
    decide (st.atSplit = none), decide (s.env.silent = false)]

/-- `Calm`, to be evaluated. -/
def calmB (s : State) : Bool := (calmParts s).all id

theorem calm_of {s : State} (h : calmB s = true) : Calm s := by
  have part : ∀ b ∈ calmParts s, b = true := List.all_eq_true.mp h
  have turn : ∀ k : Fin 8, s.cur = s.served[k] + 1 :=
    of_decide_eq_true (part _ (by unfold calmParts; simp only [List.mem_cons, true_or, or_true]))
  constructor
  case turn => exact fun g => Or.inl (turn _)
  all_goals exact of_decide_eq_true (part _ (by unfold calmParts; simp only [List.mem_cons, true_or, or_true]))

/-- `Clear` for every one of a list of control words, to be evaluated. -/
theorem clear_of {s : State} {l : List Instr} (h : calmB s = true) (hw : l.all (fun i => !s.splitWaits i) = true) :
    ∀ i ∈ l, Clear i s := fun i hi =>
  (calm_of h).clear i (by have := List.all_eq_true.mp hw i hi; simpa using this)

/-- `Drains`, of a machine with no buffered line and none on a link. -/
theorem drains_of {s : State} (h : s.near = [] ∧ s.links = []) : Drains s := by
  constructor
  · rw [h.1]; intro l hl; cases hl
  · rw [h.2]; intro l hl; cases hl

theorem room_of {s : State} {k : BitVec 2} {p : Nat} (h : s.nearStuck = false ∧
    (k = 0 ∨ (s.near.any fun l => decide (l.line = p / 64)) = true ∨ s.near.length < 64)) : NearRoom s k p := ⟨h.1, h.2⟩

theorem calm_base : Calm base := calm_of (by decide +kernel)

/-- The test machine with another strand in slot 0. -/
def with0 (f : Strand → Strand) : State := base.updMe f

/-- The state that an instruction leaves; the test machine itself when it does not complete. -/
def after (i : Instr) (s : State) : State :=
  match exec i s with
  | .next t => t
  | _ => base

theorem inv_base : Inv base := by
  refine ⟨by decide +kernel, ?_, ?_, ?_, ?_, by decide +kernel, ?_, ?_, ?_, ?_⟩
  · unfold setSorted; decide +kernel
  · unfold setSorted; decide +kernel
  · unfold setSorted; decide +kernel
  · unfold nearOk; decide +kernel
  · unfold tabSorted; decide +kernel
  · unfold tabSorted; decide +kernel
  · unfold tabSorted; decide +kernel
  · unfold tabSorted; decide +kernel

/-! ## Witnesses: control words -/

theorem witness_scalar_words : ∀ i ∈ ([.add .every 3 1 2, .sub .every 3 1 2, .and .every 3 1 2, .or .every 3 1 2,
    .xor .every 3 1 2, .shl .every 3 1 2, .shr .every 3 1 2, .sra .every 3 1 2, .mul .every 3 1 2, .mulh .every 3 1 2,
    .mulhu .every 3 1 2, .min .every 3 1 2, .max .every 3 1 2, .minu .every 3 1 2, .maxu .every 0 31 31,
    .addi .every 3 1 0x400, .andi .every 3 1 1, .ori .every 3 1 1, .xori .every 3 1 1, .shli .every 3 1 63,
    .shri .every 3 1 0, .srai .every 3 1 63, .movi .every 3 0x8000, .insh0 .every 3 1, .insh1 .every 3 1, .insh2 .every 3 1,
    .insh3 .every 3 1, .popc .every 3 1, .clz .every 3 0, .nop .every, .cmp .every 1 1 2 0, .cmp .every 1 1 2 1,
    .cmp .every 1 1 2 2, .cmp .every 1 1 2 3, .cmp .every 1 1 2 4, .cmp .every 0 1 2 5, .cmpi .every 1 1 0 0,
    .cmpi .every 1 1 1 0, .cmpi .every 1 1 2 0x200, .cmpi .every 1 1 3 0, .cmpi .every 1 1 4 0, .cmpi .every 1 1 5 0x3FF,
    .plog .every 1 2 3 0, .plog .every 1 2 3 1, .plog .every 1 2 3 2, .plog .every 1 2 3 3, .plog .every 1 2 3 4,
    .plog .every 1 2 0 5, .plog .every 1 2 0 6, .sel .every 3 1 2 0, .sel .every 3 1 2 7] : List Instr), Clear i base :=
  clear_of (by decide +kernel) (by decide +kernel)

theorem witness_hardwired : (3 : BitVec 5) ≠ 0 ∧ (31 : BitVec 5) ≠ 0 ∧ (1 : BitVec 3) ≠ 0 ∧ (7 : BitVec 3) ≠ 0 := by decide

theorem witness_branch_registers : (∀ i ∈ ([.pbr .every 3 0x40000, .pbrr .every 1 4, .pbrr .every 1 5] : List Instr), Clear i base) ∧
    ((base.me.getS 4).setWidth 32).toNat % 4 = 0 ∧ ((base.me.getS 5).setWidth 32).toNat % 4 ≠ 0 :=
  ⟨clear_of (by decide +kernel) (by decide +kernel), by decide +kernel⟩

/-- The test machine with n return addresses. -/
def stacked (n : Nat) : State := with0 fun u => { u with rstack := List.replicate n 0x40 }

/-- P0 with neg = 0 takes the transfer, with neg = 1 it does not. -/
theorem witness_transfers : (∀ i ∈ ([.br .every 1 0 0, .br .every 1 0 1, .call .every 1 0 1, .ret .every 0 1, .ret .every 0 0] : List Instr),
      Clear i base) ∧
    Clear (.call .every 1 0 0) (stacked 15) ∧ (stacked 15).me.rstack.length < 16 ∧
    Clear (.call .every 1 0 0) (stacked 16) ∧ 16 ≤ (stacked 16).me.rstack.length ∧
    Clear (.ret .every 0 0) (stacked 0) ∧ (stacked 0).me.rstack = [] ∧ base.me.rstack = [0x40] ∧
    (base.me.getP 0 ^^ decide ((0 : BitVec 1) = 1)) = true ∧ (base.me.getP 0 ^^ decide ((1 : BitVec 1) = 1)) = false :=
  ⟨clear_of (by decide +kernel) (by decide +kernel),
    (calm_of (s := stacked 15) (by decide +kernel)).clear _ (by decide +kernel), by decide +kernel,
    (calm_of (s := stacked 16) (by decide +kernel)).clear _ (by decide +kernel), by decide +kernel,
    (calm_of (s := stacked 0) (by decide +kernel)).clear _ (by decide +kernel), by decide +kernel⟩

/-- Two levels are active about the delay instruction, the inner one of which does not hold the target. -/
theorem witness_delay_instructions :
    2 ≤ (⟨0x200, 0x10C, 2, true⟩ : Transfer).left ∧ (⟨0x200, 0x10C, 1, true⟩ : Transfer).left < 2 ∧
    (⟨0x200, 0x10C, 1, true⟩ : Transfer).taken = true ∧ (⟨0x200, 0x10C, 1, false⟩ : Transfer).taken = false ∧
    (let level := fun (fin : BitVec 32) => (⟨true, 0xF0, fin, 3, 1, false, false, Vector.replicate 8 4⟩ : Loop)
     let v := Strand.moveOn { strand with loops := (strand.loops.set 0 (level 0x300)).set 1 (level 0x180) } 0x100 1 none
     v.loops[0].active = true ∧ v.loops[1].active = true ∧ v.loops[2].active = false ∧
     v.loops[0].start ≤ (0x200 : BitVec 32) ∧ (0x200 : BitVec 32) ≤ v.loops[0].fin ∧ ¬ (0x200 : BitVec 32) ≤ v.loops[1].fin) := by
  decide +kernel

/-- The test machine in the body of a loop of n iterations, in iteration k. -/
def looping (n k : BitVec 32) (brk : Bool) : State := with0 fun u =>
  { u with loops := u.loops.set 0 ⟨true, 0xF0, 0x100, n, k, brk, false, Vector.replicate 8 4⟩ }

theorem witness_loop_words : (∀ i ∈ ([.loop .every 5 0 1 0, .loop .every 0 1 0x1FF 1, .lstr .every 5 7 1] : List Instr), Clear i base) ∧
    (5 : BitVec 3).toNat < 6 ∧ ((base.me.getS 0).setWidth 32 : BitVec 32) = 0 ∧ ((base.me.getS 1).setWidth 32 : BitVec 32) ≠ 0 ∧
    Clear (.lbrk .every 0 0) (looping 3 1 false) ∧ (looping 3 1 false).me.loops[(0 : Fin 6)].active = true ∧
    (∀ j : Fin 6, 0 < j → (looping 3 1 false).me.loops[j].active = false) :=
  ⟨clear_of (by decide +kernel) (by decide +kernel), by decide, by decide +kernel, by decide +kernel,
    (calm_of (by decide +kernel)).clear _ (by decide +kernel), by decide +kernel⟩

/-- At the last word of the bodies of two levels: the inner one is at its last iteration, or marked, or neither, and the outer one
at an earlier one. -/
theorem witness_end_of_iteration :
    let level := fun (start iter : BitVec 32) (brk : Bool) =>
      (⟨true, start, 0x100, 3, iter, brk, false, Vector.replicate 8 4⟩ : Loop)
    (∀ l ∈ [level 0xF0 1 false, level 0x100 3 false, level 0x100 1 true],
      let st : Strand := { strand with loops := (strand.loops.set 0 (level 0xF0 1 false)).set 1 l }
      st.pc = 0x100 ∧ st.loops[0] = level 0xF0 1 false ∧ st.loops[1] = l ∧ st.loops[2].active = false) ∧
    (0xF0 : BitVec 32) ≤ 0x100 ∧ (0x100 : BitVec 32) < 0x100 + BitVec.ofNat 32 (4 * 1) := by
  decide +kernel

theorem witness_moving_on : (∀ (k : Nat) (_ : k < 6), base.me.loops[k].active = false) ∧ base.me.xfer = none := by
  decide +kernel

theorem witness_address_registers : ∀ i ∈ ([.amov .every 7 1 2, .ainc .every 1 0x20000, .ainc .every 4 0x1FFFF] : List Instr),
    Clear i base := clear_of (by decide +kernel) (by decide +kernel)

/-- The test machine with the first KiB from 0x1000 full. -/
def filled : State := { base with full := List.range' (scr 0x1000 / 16) 64 }

/-- A7 with imm 63 is the last doubleword of the scratchpad; a take of A1 with fe = 2 from full granules. -/
theorem witness_scratchpad_scalars : (∀ i ∈ ([.ldsW .every 3 1 0 2 0, .ldsD .every 3 7 0 0 63, .stsW .every 3 1 0 2 0,
      .stsD .every 3 7 0 0 63] : List Instr), Clear i filled) ∧ filled.env.soft = [] ∧
    (BitVec.ofInt 32 ((filled.me.getA 7).addr.toNat + 8 * (63 : BitVec 9).toInt)).toNat % 8 = 0 ∧
    filled.resolve 0 (BitVec.ofInt 32 ((filled.me.getA 7).addr.toNat + 8 * (63 : BitVec 9).toInt)).toNat 8 = some (scr 0x2FFFF8) ∧
    filled.feReady 0 0 (granules (scr 0x2FFFF8) 8) = true ∧ (filled.chipRead (scr 0x2FFFF8) 8).2 = false ∧
    (filled.me.getA 1).addr.toNat % 4 = 0 ∧ filled.resolve 0 (filled.me.getA 1).addr.toNat 4 = some (scr 0x1000) ∧
    filled.feReady 0 2 (granules (scr 0x1000) 4) = true ∧ (filled.chipRead (scr 0x1000) 4).2 = false :=
  ⟨clear_of (by decide +kernel) (by decide +kernel), by decide +kernel⟩

theorem witness_scratchpad_alignment : (∀ i ∈ ([.ldsW .every 3 6 0 0 0, .ldsD .every 3 6 0 0 0, .stsW .every 3 6 0 0 0,
      .stsD .every 3 6 0 0 0] : List Instr), Clear i base) ∧
    (BitVec.ofInt 32 ((base.me.getA 6).addr.toNat + (4 : Nat) * (0 : BitVec 9).toInt)).toNat % 4 ≠ 0 ∧
    (BitVec.ofInt 32 ((base.me.getA 6).addr.toNat + (8 : Nat) * (0 : BitVec 9).toInt)).toNat % 8 ≠ 0 :=
  ⟨clear_of (by decide +kernel) (by decide +kernel), by decide +kernel⟩

theorem mainOk_of {s : State} {p n : Nat} (h : s.env.silent = false ∧ (mainDevice p = s.sys.device ∨ mainDevice p < s.sys.devices) ∧
    mainLocal p + n ≤ Config.mainBytes ∧ s.stackHeld p = false) : MainOk s p n := ⟨h.1, h.2.1, h.2.2.1, h.2.2.2⟩

/-- The last doubleword (S6 = 65528) of a strong and of a normal page. -/
theorem witness_main_scalars : (∀ i ∈ ([.ldg .every 9 1 6 1, .stg .every 9 1 6 1, .stg .every 9 2 6 1] : List Instr), Clear i base) ∧
    (base.me.getH 1).state = .valid ∧ (base.me.getH 2).state = .valid ∧ (base.me.getS 6).toNat % 8 = 0 ∧
    (base.me.getS 6).toNat + 8 ≤ (base.me.getH 1).pageSize ∧ (base.me.getS 6).toNat + 8 ≤ (base.me.getH 2).pageSize ∧
    MainOk base (1 * 65536 + 65528) 8 ∧ MainOk base (2 * 65536 + 65528) 8 ∧
    base.mainPoisoned (65536 + 65528) 8 ((65536 + 65528) / 64) = false ∧
    (base.me.getH 1).w = true ∧ (base.me.getH 1).kind = 0 ∧ (base.me.getH 2).w = true ∧ (base.me.getH 2).kind = 1 ∧
    NearRoom base 0 (65536 + 65528) ∧ NearRoom base 1 (2 * 65536 + 65528) :=
  ⟨clear_of (by decide +kernel) (by decide +kernel), also5 (by decide +kernel) ⟨mainOk_of (by decide +kernel),
    mainOk_of (by decide +kernel), also5 (by decide +kernel) ⟨room_of (by decide +kernel),
    room_of (by decide +kernel)⟩⟩⟩

/-- S5 = 0x1002 is no multiple of 4; the first line of the page of H2 is poisoned. -/
theorem witness_main_stops : (∀ i ∈ ([.ldg .every 9 2 5 0, .stg .every 9 2 5 0, .ldg .every 9 2 5 1, .stg .every 9 2 5 1] : List Instr),
      Clear i base) ∧ (base.me.getS 5).toNat % 4 ≠ 0 ∧ (base.me.getS 5).toNat % 8 ≠ 0 ∧
    (let s : State := { base with linePoison := [2048] }
     Clear (.ldg .every 9 2 31 1) s ∧ (s.me.getS 31).toNat = 0 ∧ (s.me.getH 2).state = .valid ∧ 0 + 8 ≤ (s.me.getH 2).pageSize ∧
     MainOk s (2 * 65536 + 0) 8 ∧ s.mainPoisoned (2 * 65536 + 0) 8 ((2 * 65536 + 0) / 64) = true) :=
  ⟨clear_of (by decide +kernel) (by decide +kernel), by decide +kernel, by decide +kernel,
    (calm_of (by decide +kernel)).clear _ (by decide +kernel), by decide +kernel, by decide +kernel, by decide +kernel,
    mainOk_of (by decide +kernel), by decide +kernel⟩

/-- The empty handle H0, the first word after a page (S7 = 65536), and a page without W. -/
theorem witness_main_fatal : (∀ i ∈ ([.ldg .every 9 0 4 0, .stg .every 9 0 4 0, .ldg .every 9 2 7 0, .stg .every 9 2 7 0,
      .stg .every 9 4 4 0] : List Instr), Clear i base) ∧ (base.me.getH 0).state ≠ .valid ∧ (base.me.getS 4).toNat % 4 = 0 ∧
    (base.me.getH 2).state = .valid ∧ (base.me.getS 7).toNat % 4 = 0 ∧ (base.me.getH 2).pageSize < (base.me.getS 7).toNat + 4 ∧
    (base.me.getH 4).state = .valid ∧ (base.me.getS 4).toNat + 4 ≤ (base.me.getH 4).pageSize ∧ (base.me.getH 4).w = false :=
  ⟨clear_of (by decide +kernel) (by decide +kernel), by decide +kernel⟩

theorem witness_identity : base.me.placed = some pl ∧ ∀ i ∈ ([.getid .every 3 0, .getid .every 3 1, .getid .every 3 2,
    .getid .every 3 3, .getid .every 3 4, .getid .every 3 5, .getid .every 3 6, .getid .every 3 7, .getid .every 3 8,
    .getid .every 3 9, .time .every 3] : List Instr), Clear i base :=
  ⟨by decide +kernel, clear_of (by decide +kernel) (by decide +kernel)⟩

theorem witness_return_stack_bottom : base.me.rstack = [] ++ [0x40] ∧ base.me.rstack.length < 16 ∧ (stacked 0).me.rstack = [] ∧
    16 ≤ (stacked 16).me.rstack.length := by decide +kernel

theorem witness_control_registers : (∀ c ∈ [0x000#12, 0x001, 0x002, 0x003, 0x010, 0x011, 0x012, 0x013, 0x020, 0x021, 0x022,
      0x023, 0x030, 0x031, 0x032, 0x040, 0x050, 0x800, 0x801, 0x810, 0x820, 0x821], Clear (.csrr .every 3 c) base) ∧
    (∀ c ∈ [0x001#12, 0x002, 0x003, 0x010, 0x011, 0x800, 0x801, 0x821], Clear (.csrw .every 3 c) base) ∧
    Clear (.rsbottomRead .every 3) base ∧ Clear (.rsbottomWrite .every 3) base ∧ Clear (.rsbottomRead .every 3) (stacked 0) ∧
    Clear (.rsbottomWrite .every 3) (stacked 16) :=
  ⟨fun c hc => calm_base.clear _ (by revert c; decide +kernel), fun c hc => calm_base.clear _ (by revert c; decide +kernel),
    calm_base.clear _ (by decide +kernel), calm_base.clear _ (by decide +kernel),
    (calm_of (by decide +kernel)).clear _ (by decide +kernel), (calm_of (by decide +kernel)).clear _ (by decide +kernel)⟩

/-! ## Witnesses: vector words -/

/-- V1 to V3 are F16, BF16 and F32 in some order, V16 to V18 are F32, and V20 as a second operand. -/
theorem witness_vector_float : Calm base ∧ (∀ t ∈ tagsF, t ∈ [1, 2, 3]) ∧
    (∀ k ∈ [1#6, 2, 3], (base.me.getV k).tag.toNat = k.toNat ∧ k.toNat ∈ tagsF) ∧
    (base.me.getV 16).tag.toNat = 1 ∧ (base.me.getV 17).tag.toNat = 1 ∧ (base.me.getV 18).tag.toNat = 1 ∧ (1 : BitVec 3).toNat < 2 :=
  ⟨calm_base, by decide +kernel⟩

theorem witness_vector_integer : Calm base ∧ (∀ t ∈ tagsI, t < 14 ∧ (base.me.getV (BitVec.ofNat 6 t)).tag.toNat = t) ∧
    (base.me.getV 13).tag.toNat = 13 := ⟨calm_base, by decide +kernel⟩

theorem witness_integer_elements : (255 < 2 ^ 8 ∧ 128 < 2 ^ 8) ∧ 0xFFFF < 2 ^ 16 ∧ 0xFFFFFFFF < 2 ^ 32 := by decide

/-- An FMA with the accumulator's tag (fn 6 and 7 read D), and an integer broadcast. -/
theorem witness_vector_broadcast : Calm base ∧ (∀ fn : BitVec 4, (fopOf fn.toNat).readsD = true → (base.me.getV 18).tag.toNat = 1) ∧
    (base.me.getV 16).tag.toNat ∈ tagsF ∧ (∃ fn : BitVec 4, (fopOf fn.toNat).readsD = true) ∧
    (base.me.getV 32).tag.toNat ∈ tagsI := ⟨calm_base, by decide +kernel⟩

theorem witness_vector_masks : Calm base ∧ (base.me.getV 16).tag = 1 ∧ (base.me.getV 17).tag = 1 ∧
    (base.me.getV 16).poison = false ∧ (base.me.getV 17).poison = false ∧ (base.me.getV 32).tag = (base.me.getV 33).tag ∧
    (base.me.getV 32).tag = 4 ∧ (base.me.getV 12).tag = 12 ∧ (base.me.getV 32).poison = false ∧ (base.me.getV 12).poison = false :=
  ⟨calm_base, by decide +kernel⟩

theorem witness_vector_movement : Calm base ∧ (base.me.getV 16).tag = (base.me.getV 17).tag ∧
    (base.me.getV 16).tag.toNat ∈ tagsLanes ∧ (base.me.getV 10).tag.toNat ∈ tagsAny ∧ (base.me.getV 13).tag = 13 ∧
    (base.me.getV 13).poison = false ∧ (base.me.getV 12).tag = 12 ∧ (base.me.getV 16).tag.toNat ∈ tagsAny ∧
    (base.me.getV 16).poison = false ∧ (base.me.getV 11).tag.toNat ∈ tagsAny := ⟨calm_base, by decide +kernel⟩

theorem witness_vector_reductions : Calm base ∧ 3 < 4 ∧ 7 < 8 ∧ (base.me.getV 2).tag.toNat ∈ tagsF ∧ (base.me.getV 16).poison = false ∧
    (base.me.getV 12).tag.toNat ∈ tagsI ∧ (base.me.getV 32).poison = false ∧ (3 : BitVec 3).toNat < 4 ∧
    (base.me.getV 16).tag.toNat = 1 := ⟨calm_base, by decide +kernel⟩

/-- F32 to E4M3 reads V28 to V31; E4M3 in V7 to F32 writes V60 to V63. -/
theorem witness_vector_convert : Calm base ∧ (base.me.getV 28).tag.toNat ∈ tagsCvt ∧
    (∀ k ∈ [28#6, 29, 30, 31], (base.me.getV k).tag.toNat = (base.me.getV 28).tag.toNat) ∧
    perLane 1 < perLane 7 ∧ (28 : BitVec 6).toNat + perLane 7 / perLane 1 ≤ 64 ∧ (63 : BitVec 6).toNat + 1 ≤ 64 ∧
    (base.me.getV 7).tag.toNat ∈ tagsCvt ∧ (7 : BitVec 6).toNat + 1 ≤ 64 ∧ (60 : BitVec 6).toNat + perLane 7 / perLane 1 ≤ 64 :=
  ⟨calm_base, by decide +kernel⟩

theorem witness_result_lands : strand.flight = [] ∧ (0x80000000 : BitVec 32) ≠ 0 ∧ 13 < 16 ∧ 0 < 1 := by decide +kernel

/-- All lanes at 0x1000; the last 128 bytes of the scratchpad would be at 0x2FFF80; block exponents through A0 for A1; and
lane addresses from V12 (all lanes at A1). -/
theorem witness_vector_accesses : Calm filled ∧ filled.me.active ≠ 0 ∧
    (filled.me.getA 1).addr.toNat % 16 = 0 ∧
    filled.resolve 0 ((filled.me.getA 1).addr.toNat + (laneSpan (lanesOf filled.me.active)).1) (laneSpan (lanesOf filled.me.active)).2 = some (scr 0x1000) ∧
    filled.feReady 1 2 (laneGranules (scr 0x1000 - (laneSpan (lanesOf filled.me.active)).1) (lanesOf filled.me.active)) = true ∧
    isBlockFmt 1 = false ∧ isBlockFmt 10 = true ∧ isBlockFmt 11 = true ∧ (filled.me.getA (1 ^^^ 1)).addr.toNat % 2 = 0 ∧
    (∀ f ∈ [10, 11], ∀ b ∈ blocksOf f (lanesOf filled.me.active),
      filled.resolve 0 ((filled.me.getA (1 ^^^ 1)).addr.toNat + 2 * b) 2 = some (scr (0x1000 + 2 * b))) ∧
    (filled.me.getA 1).addr.toNat % 128 = 0 ∧
    (filled.me.getV 12).tag = 12 ∧ (filled.me.getV 12).poison = false ∧
    (∀ l ∈ lanesOf filled.me.active, laneAddr 0x1000 (filled.me.getV 12) l % 4 = 0 ∧
      filled.resolve 0 (laneAddr 0x1000 (filled.me.getV 12) l) 4 = some (scr 0x1000)) ∧
    filled.feReady 1 1 ((lanesOf filled.me.active).map fun _ => scr 0x1000 / 16).dedup = true ∧
    (filled.me.getV 1).tag.toNat ∈ storeTags 1 ∧ (filled.me.getV 10).tag.toNat ∈ storeTags 10 ∧
    (filled.me.getV 1).tag.toNat ∈ tagsLanes ∧ (filled.me.getV 4).tag = 4 := ⟨calm_of (by decide +kernel), by decide +kernel⟩

/-- A queued VFSQRT of an earlier step. -/
def rooted : QEntry := { base.entry (.vfsqrt .every 3 32) with fresh := false }

theorem witness_format_trap : Calm base ∧ (base.me.getV 32).tag.toNat ∉ tagsF ∧ base.me.fmttrap = true ∧
    rooted.instr = .vfsqrt .every 3 32 ∧ rooted.fresh = false ∧ rooted.held = false ∧ rooted.since ≤ base.cycle ∧
    Calm (with0 fun u => { u with fmttrap := false }) ∧ (with0 fun u => { u with fmttrap := false }).me.fmttrap = false :=
  ⟨calm_base, also6 (by decide +kernel) ⟨calm_of (by decide +kernel), by decide +kernel⟩⟩

/-! ## Witnesses: the matrix engine, the quantiser and the line engine -/

theorem free_of {s : State} (h : s.matrix.chain = none ∧ s.matrixStores = false ∧ (s.slotOwner = none ∨ s.slotOwner = some s.cur)) : MatrixFree s :=
  ⟨h.1, h.2.1, h.2.2⟩

theorem free_base : MatrixFree base := free_of (by decide +kernel)

/-- The last group of gang 0; the table of S31 = 0 (owner 0 everywhere). -/
theorem witness_matrix_control : Calm base ∧ MatrixFree base ∧ (7 : BitVec 3).toNat < 2 ^ (3 - base.matrix.gang.toNat) ∧
    (∀ k (_ : k < 16), ((Vector.ofFn fun k : Fin 16 => (base.me.getS 31).extractLsb' (4 * k.val) 4)[k]).toNat < 4) :=
  ⟨calm_base, free_base, by decide +kernel⟩

theorem witness_matrix_rows : Calm base ∧ MatrixFree base ∧ (62 : BitVec 6).toNat + 2 ≤ 64 ∧
    (∀ j, j < 2 → (base.me.getV (30 + BitVec.ofNat 6 j)).tag = 1) := ⟨calm_base, free_base, by decide +kernel⟩

/-- One row of INT8, 32 rows of B8, B4, codebook indices and E4M3, and a whole gang; the exponents at 0x2000. -/
theorem witness_weight_load : Calm base ∧ MatrixFree base ∧
    (∀ i ∈ ([.mldw .every 7 6 1 0 0 0 127 0 0, .mldw .every 0 10 1 0 2 0 96 31 0, .mldw .every 0 11 1 0 2 0 0 31 0,
      .mldw .every 0 10 1 0 2 1 0 31 0, .mldw .every 0 7 1 0 0 0 0 31 0, .mldw .every 0 6 1 0 0 0 0 0 1] : List Instr), i.wf = true) ∧
    (7 : BitVec 3).toNat < 2 ^ (3 - base.matrix.gang.toNat) ∧ 127 + 1 ≤ 128 * 2 ^ base.matrix.gang.toNat ∧
    96 + 32 ≤ 128 * 2 ^ base.matrix.gang.toNat ∧ (base.me.getA 1).addr.toNat % 16 = 0 ∧ (base.me.getA 2).addr.toNat % 2 = 0 ∧
    base.resolve 0 (base.me.getA 1).addr.toNat (64 * 1) = some (scr 0x1000) ∧
    base.resolve 0 (base.me.getA 1).addr.toNat (64 * 128) = some (scr 0x1000) ∧
    base.resolve 0 (base.me.getA 1).addr.toNat (16 * 32) = some (scr 0x1000) ∧
    (∀ b, b < 1 → base.resolve 0 ((base.me.getA 2).addr.toNat + 2 * 128 * b) (2 * 128) = some (scr 0x2000) ∧
      base.resolve 0 ((base.me.getA 2).addr.toNat + 2 * 64 * b) (2 * 64) = some (scr 0x2000)) :=
  ⟨calm_base, free_base, by decide +kernel⟩

/-- The test machine with selector words 0x44444444 (groups with positions 0 and 1) for two chunks at 0x2000. -/
def sparseMeta : State := { base with mem := (List.range 512).map fun k => (scr 0x2000 + k, 0x44#8) }

/-- One INT8 row (row 15, the last of chunk 0), and 32 B8 rows from row 96 on (chunks 6 and 7), with metadata at 0x2000 and exponents
at 0x3000. -/
theorem witness_sparse_load : Calm sparseMeta ∧ MatrixFree sparseMeta ∧ (Instr.mldws .every 0 6 1 0 0 2 15 0 0).wf = true ∧
    (Instr.mldws .every 0 10 1 0 3 2 96 31 0).wf = true ∧
    (15 + 1 + 15) / 16 - 15 / 16 = 1 ∧ (96 + 32 + 15) / 16 - 96 / 16 = 2 ∧ (sparseMeta.me.getA 1).addr.toNat % 16 = 0 ∧
    (sparseMeta.me.getA 2).addr.toNat % 4 = 0 ∧ (sparseMeta.me.getA 3).addr.toNat % 2 = 0 ∧
    sparseMeta.resolve 0 0x1000 64 = some (scr 0x1000) ∧ sparseMeta.resolve 0 0x1000 (64 * 32) = some (scr 0x1000) ∧
    (∀ x, x < 2 * 64 → sparseMeta.resolve 0 (0x2000 + 4 * x) 4 = some (scr (0x2000 + 4 * x))) ∧
    (∀ b, b < 1 → sparseMeta.resolve 0 (0x3000 + 2 * 64 * b) (2 * 64) = some (scr 0x3000)) ∧
    (∀ x, x < 2 * 64 → ∀ j, j < 8 → leNat (cellsRead sparseMeta.mem (scr (0x2000 + 4 * x)) 4) / 2 ^ (4 * j) % 16 = 4) :=
  ⟨calm_of (by decide +kernel), free_of (by decide +kernel), by decide +kernel⟩

/-- A tile of FP32 values in T15, a tile of I32 values in T1, and INT8 planes in the second macro. -/
def tiled : State :=
  { filled with matrix := { filled.matrix with
      tiles := (filled.matrix.tiles.set 15 { Tile.clear with tag := 1 }).set 1 { Tile.clear with tag := 4 }
      macros := filled.matrix.macros.set 1 ⟨{ Plane.reset with fmt := .int8 }, { Plane.reset with fmt := .int8 }, 0⟩ } }

/-- A chain that closes at once on E4M3 rows, one on INT8 rows against INT8 planes, and additions to T15 and to T1. -/
theorem witness_matrix_multiply : Calm tiled ∧ MatrixFree tiled ∧
    (∀ i ∈ ([.mmul .every 15 0 0 7 1 1 0 1 0 2 0, .mmul .every 1 1 31 6 1 1 0 1 0 0 1, .mmul .every 15 0 0 10 0 1 0 1 0 0 8,
      .mmul .every 8 0 0 7 1 1 1 1 0 0 0] : List Instr), i.wf = true) ∧
    (7 : BitVec 3).toNat < 2 ^ (3 - tiled.matrix.gang.toNat) ∧ ((tiled.matrix.mac 0).live.fmt = .b8 ∧ (tiled.matrix.mac 1).live.fmt = .int8) ∧
    15 + 1 ≤ 16 ∧ 8 + 8 ≤ 16 ∧ (∀ k, k < 8 → k ≠ 1 → (tiled.matrix.mac k).live.fmt = .b8 ∧ (tiled.matrix.mac k).live.sparse = false) ∧
    (tiled.me.getA 1).addr.toNat % 16 = 0 ∧ (tiled.me.getA (1 ^^^ 1)).addr.toNat % 2 = 0 ∧
    (tiled.matrix.tile 15).tag = 1 ∧ (tiled.matrix.tile 1).tag = 4 ∧
    tiled.resolve 0 ((0x1000 + 0 * 128) % 2 ^ 32) 128 = some (scr 0x1000) ∧
    (∀ r, r < 32 → tiled.resolve 0 ((0x1000 + r * 16) % 2 ^ 32) 128 = some (scr (0x1000 + r * 16))) ∧
    tiled.resolve 0 ((0x1000 + 0 * 8) % 2 ^ 32) 8 = some (scr 0x1000) ∧
    tiled.feReady 2 2 (granules (scr 0x1000) 128).dedup = true := ⟨calm_of (by decide +kernel), free_of (by decide +kernel), by decide +kernel⟩

/-- The test machine with an open chain of its strand, of one row, on T15: 255 words of it have run. -/
def chained : State :=
  { tiled with matrix := { tiled.matrix with chain := some ⟨0, 15, 1, 1, false, 255, none, false⟩ } }

/-- The planes are sound; a chain that stays open, and one more word of an open chain, which it closes or not. -/
theorem witness_matrix_chain : (∀ k, k < 8 → (tiled.matrix.mac k).live.sound = true) ∧ Calm chained ∧ chained.matrixStores = false ∧
    (∀ i ∈ ([.mmul .every 15 0 0 7 1 0 0 1 0 2 0, .mmul .every 15 0 0 7 0 0 0 1 0 0 0, .mmul .every 15 0 0 7 0 1 0 1 0 0 0] : List Instr),
      i.wf = true) ∧
    (∃ c, chained.matrix.chain = some c ∧ c.owner = chained.cur ∧ c.t = 15 ∧ c.n = 1 ∧ c.rows = 0 + 1 ∧ c.int = false ∧ c.count < 256) ∧
    (chained.matrix.mac 0).live.fmt = .b8 ∧ chained.resolve 0 0x1000 128 = some (scr 0x1000) :=
  ⟨by decide +kernel, calm_of (by decide +kernel), by decide +kernel, by decide +kernel, ⟨_, rfl, by decide +kernel⟩, by decide +kernel⟩

/-- A plane whose residue of row 0, column 63 is 1, where its element is 0, and the row of A that meets that row alone. -/
theorem witness_column_check :
    (let p : Plane := { Plane.reset with res := Plane.reset.res.set 0 (BitVec.ofNat 384 (8 ^ 63)) }
     let a : Array (Nat × Int) := #[(0, 1)]
     0 < 128 ∧ 63 < p.ncol ∧ (∀ j, j < 128 → j ≠ 0 → p.pos j 63 ≠ p.pos 0 63) ∧ (a.getD (0 + p.pos 0 63) (0, 0)).1 ≤ 1 ∧
     p.rho 0 63 % 7 ≠ residue (p.fmt.signed (p.bits 0 63))) ∧
    (∀ x, ((#[(0, 1)] : Array (Nat × Int)).getD x (0, 0)).2 = if x = 0 then 1 else 0) ∧ Plane.reset.sound = true := by
  refine ⟨by decide +kernel, ?_, by decide +kernel⟩
  intro x
  cases x with
  | zero => rfl
  | succ n => rfl

theorem witness_integer_product : (∀ p ∈ [({ Plane.reset with fmt := .int8 } : Plane)], p.fmt = .int8 ∧ p.sparse = false) ∧
    128 = 128 * [({ Plane.reset with fmt := .int8 } : Plane)].length := by decide +kernel

theorem witness_matrix_reads : Calm tiled ∧ MatrixFree tiled ∧ (tiled.matrix.tiles[15]).tag ≠ 0 ∧
    (Instr.mrd .every 15 31 0 1 0 0 0).wf = true ∧ (Instr.mrdv .every 15 31 62).wf = true ∧ (tiled.me.getA 1).addr.toNat % 16 = 0 ∧
    (∀ k, k < 1 → tiled.resolve 0 ((0x1000 + k * 256) % 2 ^ 32) 256 = some (scr (0x1000 + k * 256))) :=
  ⟨calm_of (by decide +kernel), free_of (by decide +kernel), by decide +kernel⟩

/-- The test machine in another quantiser configuration. -/
def quantised (c : QCfg) : State := with0 fun u => { u with qcfg := c }

/-- S7 = 65536 is a subnormal, S22 = 1.0, S3 a NaN (its low word with the sign cleared), S31 = 0; infinity is 0x7F800000. -/
theorem witness_quantiser_registers : Calm filled ∧ (filled.me.qcfg.target ≠ 10 ∧ filled.me.qcfg.target ≠ 11) ∧
    (let x := fun (r : BitVec 5) => ((filled.me.getS r).setWidth 32 &&& 0x7FFFFFFF : BitVec 32).toNat
     0x7F800000 < x 3 ∧ x 7 < 0x00800000 ∧ x 31 < 0x00800000 ∧ 0x00800000 ≤ x 22 ∧ x 22 < 0x7F800000) ∧
    (let y := with0 fun u => { u with s := u.s.set 9 0xFF800000 }
     Calm y ∧ ((y.me.getS 9).setWidth 32 &&& 0x7FFFFFFF : BitVec 32).toNat = 0x7F800000) ∧
    (let z := quantised ⟨10, 1, 0, 0, 0⟩; Calm z ∧ z.me.qcfg.target = 10) ∧ (15 : BitVec 4) ≠ 0 ∧
    ((3 : BitVec 4).setWidth 2 : BitVec 2) ≠ (0 : BitVec 4).setWidth 2 ∧
    (filled.me.getA 1).addr.toNat % 16 = 0 ∧ filled.resolve 0 0x1000 16 = some (scr 0x1000) ∧ filled.resolve 0 0x1000 128 = some (scr 0x1000) ∧
    filled.feReady 3 2 (granules (scr 0x1000) 128) = true ∧ (filled.chipRead (scr 0x1000) 128).2 = false ∧ Drains filled :=
  ⟨calm_of (by decide +kernel), by decide +kernel, by decide +kernel, ⟨calm_of (by decide +kernel), by decide +kernel⟩,
    ⟨calm_of (by decide +kernel), by decide +kernel⟩, also7 (by decide +kernel) (drains_of (by decide +kernel))⟩

/-- V16 is clean and V48 poisoned. -/
theorem witness_quantiser_stores : Calm tiled ∧ (tiled.me.getV 16).tag = 1 ∧ (tiled.me.getV 48).tag = 1 ∧
    (tiled.me.getV 16).poison = false ∧ (tiled.me.getV 48).poison = true ∧ tiled.me.qcfg.axis = 0 ∧ tiled.me.qcfg.target ≠ 10 ∧
    tiled.me.qcfg.target ≠ 11 ∧ (tiled.me.getA 1).addr.toNat % 16 = 0 ∧
    tiled.resolve 0 0x1000 (4 * elemWidth tiled.me.qcfg.target.toNat) = some (scr 0x1000) ∧
    (Instr.qstt .every 15 31 0 22 0 1 0 0 4).wf = true ∧ (tiled.matrix.tiles[15]).tag = 1 ∧ (tiled.matrix.tiles[15]).poison = false ∧
    (∀ k, k < 1 → tiled.resolve 0 ((0x1000 + k * 16 * 4) % 2 ^ 32) (8 * elemWidth tiled.me.qcfg.target.toNat) = some (scr 0x1000)) :=
  ⟨calm_of (by decide +kernel), by decide +kernel⟩

/-- INT8 codes in SHAPE mode along columns, B4 and B8 blocks in either order, and a poisoned tile. -/
theorem witness_quantiser_columns : ∀ c ∈ ([⟨6, 1, 2, 0, 0⟩, ⟨10, 0, 0, 0, 0⟩, ⟨11, 1, 2, 1, 3⟩] : List QCfg),
    let s : State := { tiled with strands := tiled.strands.set 0 { strand with qcfg := c } }
    let y : State := { s with matrix := { s.matrix with tiles := s.matrix.tiles.set 15 { Tile.clear with tag := 1, poison := true } } }
    let block := decide (c.target = 10 ∨ c.target = 11)
    Calm s ∧ Calm y ∧ s.me.qcfg = c ∧ (s.me.getV 16).tag = 1 ∧ (s.me.getV 48).tag = 1 ∧ (s.me.getV 16).poison = false ∧
    (s.me.getV 48).poison = true ∧ (c.axis = 1 ∨ block = true) ∧ (c.mode = 2 → c.axis = 1) ∧
    (s.me.getA 1).addr.toNat % 16 = 0 ∧ (s.me.getA 3).addr.toNat % 16 = 0 ∧ (s.me.getA (1 ^^^ 1)).addr.toNat % 4 = 0 ∧
    s.resolve 0 0x1000 (4 * elemWidth c.target.toNat) = some (scr 0x1000) ∧ s.resolve 0 0x1000 2 = some (scr 0x1000) ∧
    (Instr.qstt .every 15 30 1 22 0 3 0 0 4).wf = true ∧ (s.matrix.tiles[15]).tag = 1 ∧ (s.matrix.tiles[15]).poison = false ∧
    (y.matrix.tiles[15]).tag = 1 ∧ (y.matrix.tiles[15]).poison = true ∧
    (∀ k, k < 2 → s.resolve 0 ((0x3000 + k * 16 * 4) % 2 ^ 32) (8 * elemWidth c.target.toNat) = some (scr (0x3000 + 64 * k)) ∧
      s.resolve 0 ((0x2000 + 4 * k) % 2 ^ 32) 4 = some (scr (0x2000 + 4 * k))) ∧ (s.me.getA (3 ^^^ 1)).addr.toNat = 0x2000 := by
  intro c hc
  simp only [List.mem_cons, List.mem_nil_iff, or_false] at hc
  rcases hc with rfl | rfl | rfl <;> exact ⟨calm_of (by decide +kernel), calm_of (by decide +kernel), by decide +kernel⟩

/-- The value 128.0 in an INT8 chain, and 127.0, -129.0, and a zero. -/
theorem witness_quantiser_step : (⟨6, 0, 0, 0, 0⟩ : QCfg).target = 6 ∧ (⟨6, 0, 0, 0, 0⟩ : QCfg).mode ≠ 1 ∧
    (∃ neg n d e, val32 0x43000000 = .fin neg n d e ∧ 127 < (roundInt .ne neg n d e).1) ∧
    (∃ neg n d e, val32 0x42FE0000 = .fin neg n d e ∧ -128 ≤ (roundInt .ne neg n d e).1 ∧ (roundInt .ne neg n d e).1 ≤ 127) ∧
    (∃ neg n d e, val32 0xC3010000 = .fin neg n d e ∧ (roundInt .ne neg n d e).1 < -128) ∧
    (∃ neg d e, val32 0x80000000 = .fin neg 0 d e ∧ -128 ≤ (roundInt .ne neg 0 d e).1 ∧ (roundInt .ne neg 0 d e).1 ≤ 127) := by
  refine ⟨rfl, by decide, ?_, ?_, ?_, ?_⟩
  all_goals first
    | exact ⟨_, _, _, _, rfl, by decide +kernel⟩
    | exact ⟨_, _, _, rfl, by decide +kernel⟩

/-- Table 128 lines from 0x1000 on, and a curvature table of 520 bytes. -/
theorem witness_line_tables : Calm base ∧ (base.me.getA 1).addr.toNat % 16 = 0 ∧ base.resolve 0 0x1000 (16 * (127 + 1)) = some (scr 0x1000) ∧
    (base.chipRead (scr 0x1000) (16 * 128)).2 = false ∧ base.resolve 0 0x1000 520 = some (scr 0x1000) ∧
    (base.me.getV 16).tag = 1 ∧ tabSorted (0 : BitVec 16) [(3, 5), (8191, 1)] :=
  ⟨calm_base, also5 (by decide +kernel) (by unfold tabSorted; decide)⟩

/-- The test machine with two entries in the refresh list. -/
def refreshing : State := { base with line := { base.line with refresh := [1, 2] } }

theorem witness_line_use : Calm tiled ∧ (tiled.matrix.tiles[15]).tag = 1 ∧ (tiled.matrix.tiles[15]).poison = false ∧
    (Instr.lnchk .every 6 15 31 0 127).wf = true ∧ (Instr.lnchk .every 0 15 0 31 0).wf = true ∧ tiled.line.refresh.length ≤ 1024 ∧
    (let i : Instr := .lnchk .every 6 14 31 0 127
     let s : State := { tiled with matrix := { tiled.matrix with tiles := tiled.matrix.tiles.set 14 { Tile.clear with tag := 1, poison := true } } }
     let e : QEntry := { s.entry i with fresh := false }
     Calm s ∧ (s.matrix.tiles[14]).tag = 1 ∧ (s.matrix.tiles[14]).poison = true ∧ e.instr = i ∧ e.fresh = false ∧ e.held = false ∧
     e.since ≤ s.cycle) ∧ Calm refreshing ∧
    (refreshing.me.getA 1).addr.toNat % 4 = 0 ∧ refreshing.line.refresh.take (1 + 1) ≠ [] ∧
    refreshing.resolve 0 0x1000 (4 * (refreshing.line.refresh.take (1 + 1)).length) = some (scr 0x1000) ∧
    base.line.refresh.take (1023 + 1) = [] :=
  ⟨calm_of (by decide +kernel), also5 (by decide +kernel) ⟨⟨calm_of (by decide +kernel), by decide +kernel⟩,
    calm_of (by decide +kernel), by decide +kernel⟩⟩

theorem witness_line_fold : Calm base ∧ (Instr.lnfold .every 16 20 1 1 1).wf = true ∧ (base.me.getV 20).tag = 1 ∧ (base.me.getV 21).tag = 1 ∧
    (base.me.getV (16 + 2)).tag = 1 ∧ (base.me.getV (16 + 3)).tag = 1 ∧ (Instr.lnfold .every 60 30 1 0 0).wf = true ∧
    (base.me.getV 30).tag = 1 ∧ (base.me.getV 31).tag = 1 := ⟨calm_base, by decide +kernel⟩

/-- A slot of strand 1 next, a free one next, an open chain whose slot has ended, and a table that waits. -/
theorem witness_slot_events : base.matrix.chain = none ∧ base.matrix.pendingSlots = none ∧
    4 ≤ (base.matrix.slots.getD ((base.cycle / 256 + 1) % 16) 0xF).toNat ∧
    (let m := { base.matrix with slots := Vector.replicate 16 1#4 }; (m.slots.getD ((base.cycle / 256 + 1) % 16) 0xF).toNat = (1 : Fin 4).val) ∧
    (let c : Chain := ⟨1, 0, 1, 32, false, 1, some 0, false⟩
     let s : State := { base with matrix := { base.matrix with chain := some c } }
     s.matrix.chain = some c ∧ c.ends = some 0 ∧ 0 ≤ s.cycle ∧ s.matrix.pendingSlots = none) ∧
    (let s : State := { base with matrix := { base.matrix with pendingSlots := some (Vector.replicate 16 1) } }
     s.matrix.chain = none ∧ s.matrix.pendingSlots = some (Vector.replicate 16 1)) := by decide +kernel

/-! ## Witnesses: the copy engine -/

/-- A slot of strand 0, and slot 4, which is strand 1's. -/
theorem witness_stream_slots : Calm base ∧ (3 : BitVec 4).toNat / 4 = 0 ∧
    ¬ ((4 : BitVec 4).toNat / 4 = 0 ∨ (4 : BitVec 4).toNat / 4 = base.cur.val) ∧ (base.me.getA 1).addr.toNat % 64 = 0 ∧
    base.resolve 0 0x1000 64 = some (scr 0x1000) ∧ (base.chipRead (scr 0x1000) 64).2 = false := ⟨calm_base, by decide +kernel⟩

theorem linear_of {s : State} {ad : BitVec 3} {dsp : BitVec 2} {asrc : BitVec 3} {ssp : BitVec 2} {sn : BitVec 5} {sfe : BitVec 2}
    {ps pd : Nat → Nat} (h : (s.me.getS sn).toNat % 2 ^ 24 % 16 = 0 ∧ (s.me.getA asrc).addr.toNat % 16 = 0 ∧
      (s.me.getA ad).addr.toNat % 16 = 0 ∧
      (∀ k, k < (s.me.getS sn).toNat % 2 ^ 24 / 16 → s.resolve ssp ((s.me.getA asrc).addr.toNat + 16 * k) 16 = some (ps k)) ∧
      (∀ k, k < (s.me.getS sn).toNat % 2 ^ 24 / 16 → s.resolve dsp ((s.me.getA ad).addr.toNat + 16 * k) 16 = some (pd k)) ∧
      s.feReady 5 sfe (coverOf 16 ((List.range ((s.me.getS sn).toNat % 2 ^ 24 / 16)).map ps)) = true) :
    LinearOk s ad dsp asrc ssp sn sfe ps pd :=
  let ⟨len, src, dst, from_, into, ready⟩ := h
  { len, src, dst, from_, into, ready }

/-- S16 = 128 bytes from A1 to A2, with and without a qualifier, each range in one piece; the ranges do not meet.  A copy of no
bytes (S0); the codebook at A1, and 16 indices (S8) expanded. -/
theorem witness_linear_copies : Calm filled ∧
    LinearOk filled 2 0 1 0 16 0 (fun k => scr 0x1000 + 16 * k) (fun k => scr 0x2000 + 16 * k) ∧
    LinearOk filled 2 0 1 0 16 2 (fun k => scr 0x1000 + 16 * k) (fun k => scr 0x2000 + 16 * k) ∧
    LinearOk filled 2 0 1 0 0 1 (fun _ => 0) (fun _ => 0) ∧
    Memory.wf filled.mem = true ∧ scr 0x1000 + 128 ≤ scr 0x2000 ∧ (4 : BitVec 4) ∈ [1#4, 2#4, 4#4] ∧
    filled.resolve 0 0x1000 1024 = some (scr 0x1000) ∧ filled.feReady 5 1 (granules (scr 0x1000) 1024) = true ∧
    (filled.me.getS 8).toNat % 2 ^ 20 % 4 = 0 ∧ (filled.me.getS 0).toNat % 2 ^ 20 = 0 ∧
    filled.feReady 5 2 (coverOf 4 ((List.range (16 / 4)).map fun k => scr (0x1000 + 4 * k))) = true ∧
    (∀ k, k < 16 / 4 → filled.resolve 0 (0x1000 + 4 * k) 4 = some (scr (0x1000 + 4 * k)) ∧
      filled.resolve 0 (0x2000 + 16 * k) 16 = some (scr (0x2000 + 16 * k))) :=
  ⟨calm_of (by decide +kernel), linear_of (by decide +kernel), linear_of (by decide +kernel), linear_of (by decide +kernel),
    by decide +kernel⟩

/-- A record of two elements of 16 bytes from `a` on, 16 bytes apart (R213). -/
def pair (a : Nat) : BitVec 512 := BitVec.ofNat 512 (a + 4 * 2 ^ 72 + 2 * 2 ^ 128 + 2 ^ 192 + 2 ^ 256 + 2 ^ 320 + 16 * 2 ^ 160)

/-- A main-memory record of two rows of one element of 16 bytes, 64 bytes apart (R213). -/
def rowsAt (a : Nat) : BitVec 512 :=
  BitVec.ofNat 512 (a + 2 ^ 64 + 4 * 2 ^ 72 + 2 ^ 128 + 2 ^ 192 + 2 ^ 256 + 2 * 2 ^ 320 + 64 * 2 ^ 352)

/-- The test machine with stream slots: two patterns on chip, and two on pages. -/
def streams (f : Vector StreamSlot 4 → Vector StreamSlot 4) : State :=
  let v := f (#v[⟨pair 0x1000, true, none⟩, ⟨pair 0x2000, true, none⟩, ⟨rowsAt 0, true, none⟩, ⟨rowsAt 65472, true, none⟩])
  filled.updMe fun u => { u with slots := v }

theorem stream_of {s : State} {v : BitVec 4} {n : Nat} {p : List Nat → Nat} (h : (v.toNat / 4 = 0 ∨ v.toNat / 4 = s.cur.val) ∧
      (s.me.slots[v.toNat % 4]).valid = true ∧ (s.slotPattern v).main = false ∧ (s.slotPattern v).ind = false ∧
      ∀ is ∈ tuples (s.slotPattern v).counts,
        let a := (s.slotPattern v).direct is
        0 ≤ a ∧ a < 2 ^ 32 ∧ a % (min (2 ^ (s.slotPattern v).esize) 16 : Nat) = 0 ∧
          s.resolve (s.slotPattern v).space a.toNat n = some (p is)) : StreamOk s v n p :=
  let ⟨own, valid, chip, direct, fits⟩ := h
  { own, valid, chip, direct, fits }

/-- Two elements of 16 bytes each. -/
theorem witness_pattern_copy : Calm (streams id) ∧ patternOk (pair 0x1000) = true ∧
    StreamOk (streams id) 0 (2 ^ ((streams id).slotPattern 1).esize) (fun is => scr (0x1000 + 16 * is.headD 0)) ∧
    StreamOk (streams id) 1 (2 ^ ((streams id).slotPattern 1).esize) (fun is => scr (0x2000 + 16 * is.headD 0)) ∧
    (streams id).feReady 5 2 (coverOf (2 ^ ((streams id).slotPattern 1).esize) (((streams id).patternPairs 1 0
      (fun is => scr (0x1000 + 16 * is.headD 0)) (fun is => scr (0x2000 + 16 * is.headD 0))).map (·.1))) = true :=
  ⟨calm_of (by decide +kernel), by decide +kernel, stream_of (by decide +kernel), stream_of (by decide +kernel), by decide +kernel⟩

/-- Both forms with an MCFG or an MRDV to follow, which reads T15. -/
theorem witness_copy_then_matrix : let s : State := { streams id with matrix := tiled.matrix }
    Calm s ∧ MatrixFree s ∧ (62 : BitVec 6) ≠ 63 ∧ (s.matrix.tiles[15]).tag ≠ 0 ∧
    LinearOk s 2 0 1 0 16 2 (fun k => scr 0x1000 + 16 * k) (fun k => scr 0x2000 + 16 * k) ∧
    StreamOk s 0 (2 ^ (s.slotPattern 1).esize) (fun is => scr (0x1000 + 16 * is.headD 0)) ∧
    StreamOk s 1 (2 ^ (s.slotPattern 1).esize) (fun is => scr (0x2000 + 16 * is.headD 0)) ∧
    s.feReady 5 0 (coverOf (2 ^ (s.slotPattern 1).esize) ((s.patternPairs 1 0 (fun is => scr (0x1000 + 16 * is.headD 0))
      (fun is => scr (0x2000 + 16 * is.headD 0))).map (·.1))) = true :=
  ⟨calm_of (by decide +kernel), free_of (by decide +kernel), by decide, by decide +kernel, linear_of (by decide +kernel),
    stream_of (by decide +kernel), stream_of (by decide +kernel), by decide +kernel⟩

/-- A CPYM of no bytes and MCFG: the copy leaves the machine as it was, and the follow-on sets the gang. -/
theorem witness_copy_matrix :
    let s := base
    let c : Instr := .cpyLinear .every 1 0 2 0 0 0 0
    let f : Instr := .mcfg .every 1
    let y : State := { s with matrix := { s.matrix with gang := 1 } }
    let held : QEntry := { s.entry f with pc := s.me.pc + 4, held := true }
    let counted := fun (z : State) => (z.updMe fun u => u.completed c (s.me.nextNum c)).serve c
    Calm s ∧ MatrixFree s ∧ followOk .every f = true ∧ s.splitTrap c = none ∧
    (∀ k z, z.Same (s.withBook k) → ∃ w, runWord c (s.entry c) z = .ok (true, w) ∧ w.Same (s.withBook k)) ∧
    (∀ k z, z.Same ((counted s).withBook k) → ∃ w, runWord f held z = .ok (true, w) ∧ w.Same ((counted y).withBook k)) ∧
    s.me.book = s.me.book ∧ y.me.book = s.me.book ∧ y.me.placed = s.me.placed := by
  intro s c f y held counted
  refine ⟨calm_base, free_base, by decide +kernel, by decide +kernel, ?_, ?_, rfl, rfl, rfl⟩
  · intro k z h
    have hn : ((s.entry c).capS 2).toNat % 2 ^ 24 = 0 := by decide +kernel
    have ha : ((s.entry c).capA 1) % 16 = 0 := by decide +kernel
    have hb : ((s.entry c).capA 0) % 16 = 0 := by decide +kernel
    have h' : z.noTrace = (s.withBook k).noTrace := h
    have hm : z.me.begunOf 5 = [] := by
      have : z.noTrace.me.begunOf 5 = (s.withBook k).noTrace.me.begunOf 5 := by rw [h']
      exact this
    have hl : z.me.leftOf 5 (s.entry c).num = none := by
      unfold Strand.leftOf
      rw [hm]
      rfl
    have he : z.env.pieces = [] := by
      have : z.noTrace.env.pieces = (s.withBook k).noTrace.env.pieces := by rw [h']
      exact this
    refine ⟨z, ?_, h⟩
    show runCpyLinear (s.entry c) 0 0 0 0 z = _
    have hp : linearPlan (s.entry c) 0 0 0 z = .ok ([], z) := by
      unfold linearPlan
      rw [hn, M.bind_ok (aligned_ok _ rfl), M.bind_ok (aligned_ok _ ha), M.bind_ok (aligned_ok _ hb)]
      rfl
    unfold runCpyLinear
    rw [partwise_whole hl hm hp he rfl]
    have hz : (State.feStore z 0 (landed [] [])).updMe (fun st => st.setLeft 5 (s.entry c).num none) = z := by
      have hm : z.me.moving = [] := hm
      show z.setMe { z.me with moving := putLeft (s.entry c).num none z.me.moving } = z
      have : putLeft (s.entry c).num none z.me.moving = z.me.moving := by rw [hm]; rfl
      rw [this]
      exact State.setMe_self z
    rw [hz]
  intro k z h
  have h' : z.noTrace = ((counted s).withBook k).noTrace := h
  have hm : z.noTrace.matrix = ((counted s).withBook k).noTrace.matrix := by rw [h']
  have hm : z.matrix = base.matrix := hm
  refine ⟨{ z with matrix := { z.matrix with gang := 1 } }, ?_, ?_⟩
  · have hc : z.matrix.chain = none := by rw [hm]; rfl
    show (StateT.bind (noChain held >>= fun _ => updEngine fun m => { m with gang := 1 }) fun _ => pure true) z = _
    simp [StateT.bind, noChain, ask, State.ownsChain, hc, updEngine, upd, bind, pure, StateT.pure, Except.bind, Except.pure]
  · have : ({ z with matrix := { z.matrix with gang := 1 } } : State).noTrace =
        { z.noTrace with matrix := { z.noTrace.matrix with gang := 1 } } := rfl
    show _ = _
    rw [this, h']
    rfl

/-- CWIN over two rows of a page into the ring of A4; CADV by one row within the page, and from one page into the next. -/
theorem witness_windows : Calm (streams id) ∧ (2 : BitVec 4).toNat / 4 = 0 ∧ patternOk (rowsAt 0) = true ∧
    (patternOf (rowsAt 0)).main = true ∧ (patternOf (rowsAt 0)).ind = false ∧ (patternOf (rowsAt 0)).rowBytes = 16 ∧
    (∀ r ∈ [(0 : Nat), 65472], (tuples ((patternOf (rowsAt r)).counts.take 3)).length = 1 ∧ (patternOf (rowsAt r)).counts.getD 3 0 = 2 ∧
      ∀ j : Nat, j < 2 → ∀ is ∈ tuples ((patternOf (rowsAt r)).counts.take 3), ((patternOf (rowsAt r)).base : Int) +
        ((is ++ [j]).zipIdx.map fun (y : Nat × Nat) => (y.1 : Int) * (patternOf (rowsAt r)).strides.getD y.2 0).sum = (r : Int) + 64 * j) ∧
    (let r := (streams id).me.getA 4
     let w : Window := ⟨r.addr, r.base, r.len, 0, (streams id).me.getH 2, 0, 0, 2, 0⟩
     r.len ≠ 0 ∧ r.len.toNat % 16 = 0 ∧
     (∀ j, j < 2 → (streams id).resolve 0 (w.rowAddr 16 j) 16 = some (scr (0x1010 + 16 * j))) ∧ w.handle.state = .valid ∧
     (∀ j, j < 2 → 64 * j + 16 ≤ w.handle.pageSize) ∧
     (let x := streams fun v => v.set 2 ⟨rowsAt 0, true, some { w with hi := 1 }⟩; Calm x ∧ (x.me.slots[2]).window = some { w with hi := 1 }) ∧
     (let x := streams fun v => v.set 3 ⟨rowsAt 65472, true, some { w with hi := 1 }⟩; Calm x ∧ (x.me.slots[3]).window = some { w with hi := 1 }) ∧
     65472 + 64 * 1 - ((streams id).me.getH 3).pageSize = 0) ∧
    MainOk (streams id) (2 * 65536 + 64) 16 ∧ MainOk (streams id) (3 * 65536) 16 := by
  refine ⟨calm_of (by decide +kernel), also6 (by decide +kernel) ⟨also5 (by decide +kernel) ?_, mainOk_of (by decide +kernel),
    mainOk_of (by decide +kernel)⟩⟩
  exact ⟨⟨calm_of (by decide +kernel), by decide +kernel⟩, ⟨calm_of (by decide +kernel), by decide +kernel⟩, by decide +kernel⟩

/-- Two elements of 4 bytes: the descriptors at A2 name the first two granules of this core's scratchpad, here full; and none. -/
theorem witness_gather_scatter : let s : State := { base with full := [scr 0 / 16, scr 0x10 / 16], mem := [(scr 0x2008, 16)] }
    Calm s ∧ (s.me.getS 18).toNat % 2 ^ 20 = 2 ∧ (s.me.getS 0).toNat % 2 ^ 20 = 0 ∧ 2 ≤ (2 : BitVec 3).toNat ∧
    (s.me.getA 1).addr.toNat % 16 = 0 ∧ (s.me.getA 2).addr.toNat % 8 = 0 ∧
    (∀ k, k < 2 → s.resolve 0 (0x2000 + 8 * k) 8 = some (scr (0x2000 + 8 * k)) ∧ (s.chipRead (scr (0x2000 + 8 * k)) 8).2 = false ∧
      s.descPlace (leNat (cellsRead s.mem (scr (0x2000 + 8 * k)) 8)) 4 = some (scr (16 * k)) ∧
      leNat (cellsRead s.mem (scr (0x2000 + 8 * k)) 8) % 2 ^ 23 % min 4 16 = 0 ∧
      s.resolve 0 (0x1000 + k * 4) 4 = some (scr (0x1000 + 4 * k)) ∧ s.allFull (granules (scr (16 * k)) 4) = true) ∧
    ((List.range 2).Pairwise fun j k => ∀ g ∈ granules (scr (16 * j)) 4, g ∉ granules (scr (16 * k)) 4) ∧
    s.feReady 6 0 ((List.range 2).flatMap fun k => granules (scr (0x1000 + 4 * k)) 4).dedup = true ∧
    (let t : State := { s with full := [scr 0x1000 / 16] }
     t.feReady 6 2 ((List.range 2).flatMap fun k => granules (scr (0x1000 + 4 * k)) 4).dedup = true) :=
  ⟨calm_of (by decide +kernel), by decide +kernel⟩

/-- The test machine with ends past the page of H2 (S24) and at four numbers from 0x10000 on (S25). -/
def cut : State := with0 fun u => { u with s := (u.s.set 24 70000).set 25 0x10010 }

/-- Four zeros at S12 = 0x2000 and two at S13 = 0x2040, on chip and in the pages of H2 and H3: they match twice.  Two empty
streams (their ends in S26 and S27).  A stream that its page cuts off after two of its numbers, at S6 = 65528 of H2. -/
theorem witness_intersection : Calm base ∧ (∀ i ∈ ([.sisect .every 1 12 14 0 0 1 0 0 0 1 0, .sisect .every 1 12 14 1 1 1 2 0 0 1 0,
      .sisect .every 3 12 26 0 0 1 0 0 0 1 0, .sisect .every 1 6 24 1 0 1 2 0 0 1 0] : List Instr),
      i.wf = true) ∧ (base.me.getS 12).toNat % 4 = 0 ∧ (base.me.getS 13).toNat % 4 = 0 ∧
    (base.me.getS 14).toNat = (base.me.getS 12).toNat + 4 * 4 ∧ (base.me.getS (14 + 1)).toNat = (base.me.getS 13).toNat + 4 * 2 ∧
    (∀ k, k < 4 → base.resolve 0 (0x2000 + 4 * k) 4 = some (scr (0x2000 + 4 * k)) ∧ (base.chipRead (scr (0x2000 + 4 * k)) 4).2 = false) ∧
    (∀ k, k < 2 → base.resolve 0 (0x2040 + 4 * k) 4 = some (scr (0x2040 + 4 * k)) ∧ (base.chipRead (scr (0x2040 + 4 * k)) 4).2 = false) ∧
    (base.me.getH 2).state = .valid ∧ (base.me.getH (2 ^^^ 1)).state = .valid ∧ 0x2000 + 4 * 4 ≤ (base.me.getH 2).pageSize ∧
    (∀ k, k < 4 → MainOk base (2 * 65536 + (0x2000 + 4 * k)) 4) ∧ (∀ k, k < 2 → MainOk base (3 * 65536 + (0x2040 + 4 * k)) 4) ∧
    (∀ k, k < 4 → base.mainPoisoned (2 * 65536 + (0x2000 + 4 * k)) 4 ((2 * 65536 + (0x2000 + 4 * k)) / 64) = false) ∧
    (mergeSorted false false 65536 [0, 0, 0, 0] [0, 0]).found = [0, 0] ∧
    (∀ k, k < 2 → base.resolve 0 ((0x1000 + 4 * k) % 2 ^ 32) 4 = some (scr (0x1000 + 4 * k))) ∧
    (∀ j k, j < 2 → j < k → k < 4 → scr (0x1000 + 4 * j) + 4 ≤ scr (0x2000 + 4 * k)) := by
  repeat' apply And.intro
  all_goals first
    | exact calm_base
    | exact fun k hk => mainOk_of (by revert k; decide +kernel)
    | (intro j k hj _ _; unfold scr; omega)
    | decide +kernel

theorem witness_intersection_edges : ((base.me.getS 26).toNat - (base.me.getS 12).toNat + 3) / 4 = 0 ∧
    ((base.me.getS (26 + 1)).toNat - (base.me.getS 13).toNat + 3) / 4 = 0 ∧ (mergeSorted false false 65536 [] []).why = 1 ∧ Calm cut ∧
    (cut.me.getS 6).toNat % 4 = 0 ∧ (cut.me.getS (6 + 1)).toNat % 4 = 0 ∧
    min (((cut.me.getS 24).toNat - (cut.me.getS 6).toNat + 3) / 4) (((cut.me.getH 2).pageSize - (cut.me.getS 6).toNat) / 4) = 2 ∧
    2 < ((cut.me.getS 24).toNat - (cut.me.getS 6).toNat + 3) / 4 ∧
    ((cut.me.getS (24 + 1)).toNat - (cut.me.getS (6 + 1)).toNat + 3) / 4 = 4 ∧
    (∀ k, k < 2 → MainOk cut (2 * 65536 + (65528 + 4 * k)) 4) ∧
    (∀ k, k < 2 → cut.mainPoisoned (2 * 65536 + (65528 + 4 * k)) 4 ((2 * 65536 + (65528 + 4 * k)) / 64) = false) ∧
    (∀ k, k < 4 → cut.resolve 0 (65536 + 4 * k) 4 = some (scr (65536 + 4 * k)) ∧ (cut.chipRead (scr (65536 + 4 * k)) 4).2 = false) ∧
    (let r := mergeSorted true false 65536 [0, 0] [0, 0, 0, 0]; r.why = 3 ∧ r.found = [0, 0]) := by
  refine ⟨by decide +kernel, by decide +kernel, by decide +kernel, calm_of (by decide +kernel),
    also5 (by decide +kernel) ⟨?_, by decide +kernel⟩⟩
  intro k hk
  exact mainOk_of (by revert k; decide +kernel)

/-! ## Witnesses: the sync unit -/

/-- A queue's binding: its context is that of the root at 0 with 2^20 buckets and address space 0; rings of 16 records. -/
def bound : QueueBinding := ⟨0, 20, 0, true, 0x200000, 4, 0x210000, some (0x220000, 6, 0x221000), 0, []⟩

/-- A queue with two records to read. -/
def ring : Queue := ⟨bound, 0, 2, 0, 0, 0, 0, false⟩

/-- An expert queue with a threshold and a capacity. -/
def experts (via : BitVec 6) (capacity threshold : Nat) (tokens : List (BitVec 64 × BitVec 64)) : ExpertQueue :=
  ⟨via, 0x200000, 0x210000, capacity, threshold, 100, tokens, 0⟩

/-- The page-table entry of a writable page of 64 KiB, stored where the hash of its key places it (R236). -/
def mapPage (va ppn : Nat) (m : List Host.Cell) : List Host.Cell :=
  let h := pageHash (keyOf va false)
  cellsWrite m (64 * (h % 2 ^ 20)) (leBytes 8 (2 ^ 63 + 2 ^ 60 + 2 ^ 59 + h / 2 ^ 20 * 2 ^ 38 + ppn))

/-- The pages of `bound`'s rings. -/
def ringPages : List Host.Cell := mapPage 0x200000 0x5000 (mapPage 0x210000 0x5001 (mapPage 0x220000 0x5002 []))

/-- The test machine with four queues (2 of another address space, 3 full, 5 without a trace ring), two experts, and a node. -/
def queued : State :=
  let node := { Node.fresh 0 (BitVec.ofNat 512 (3 + 2 ^ 32)) none with stage := .running }
  { base with
    mem := ringPages
    sys := { base.sys with
      queues := [(0, ring), (2, { ring with binding := { bound with asid := 9 } }), (3, { ring with tail := 16 })]
      experts := [(1, experts 0 8 2 []), (3, experts 2 8 2 []), (5, experts 0 1 1 [(7, 3)])]
      nodes := [node] } }

/-- A strand of the same node in slot 1, in the same group. -/
def twoStrands : State :=
  { base with strands := base.strands.set 1 { strand with placed := some { pl with rank := 1, count := 2 } } }

theorem witness_ordering : Calm base ∧ Drains base ∧ base.me.triggered = false ∧
    (let s := with0 fun u => { u with triggered := true, latch := true }; Calm s ∧ Drains s ∧ s.me.triggered = true ∧ s.me.latch = true) ∧
    (0 : BitVec 7).toNat = base.coreInDie ∧ (95 : BitVec 7).toNat ≠ base.coreInDie ∧ base.me.getS 1 ≤ base.now ∧
    ¬ base.me.getS 7 ≤ base.now ∧ base.me.latch = false :=
  ⟨calm_base, drains_of (by decide +kernel), by decide +kernel,
    ⟨calm_of (by decide +kernel), drains_of (by decide +kernel), by decide +kernel⟩, by decide +kernel⟩

/-- A2 and S6 = 65528, the last doubleword of a page. -/
theorem witness_atomics : Calm filled ∧ Drains filled ∧ (filled.me.getA 1).addr.toNat % 8 = 0 ∧
    filled.resolve 0 0x1000 8 = some (scr 0x1000) ∧ filled.feReady 0 2 (granules (scr 0x1000) 8) = true ∧
    (filled.chipRead (scr 0x1000) 8).2 = false ∧ (filled.me.getH 2).state = .valid ∧ (filled.me.getS 6).toNat % 8 = 0 ∧
    (filled.me.getS 6).toNat + 8 ≤ (filled.me.getH 2).pageSize ∧ MainOk filled (2 * 65536 + 65528) 8 ∧
    filled.mainPoisoned (2 * 65536 + 65528) 8 ((2 * 65536 + 65528) / 64) = false ∧ (filled.me.getH 2).w = true ∧
    NearRoom (filled.performed 5 fun b => !b.unordered) (filled.me.getH 2).kind (2 * 65536 + 65528) ∧
    (filled.performed 5 fun b => !b.unordered).nearStuck = false ∧
    (let y := filled.performed 5 fun b => !b.unordered
     let z := ((y.near.filter fun l => decide (l.line = (2 * 65536 + 65528) / 64)).foldl State.drainLine y).behind (2 * 65536 + 65528) 8
     z.mainPoisoned (2 * 65536 + 65528) 8 ((2 * 65536 + 65528) / 64) = false) :=
  ⟨calm_of (by decide +kernel), drains_of (by decide +kernel), also7 (by decide +kernel) ⟨mainOk_of (by decide +kernel),
    by decide +kernel, by decide +kernel, room_of (by decide +kernel), by decide +kernel, by decide +kernel⟩⟩

theorem witness_atomic_operations : 0xFFFFFFFF < 2 ^ 32 ∧ 0x80000000 < 2 ^ 32 ∧ 0xFFFFFFFFFFFFFFFF < 2 ^ 64 := by decide

/-- Page 0 is mapped and writable at physical page 5; page 1, whose entry lacks W; page 2 is not mapped. -/
def mapped : State :=
  let h := pageHash (keyOf 65536 false)
  let m := cellsWrite (mapPage 0 5 []) (64 * (h % 2 ^ 20)) (leBytes 8 (2 ^ 63 + 2 ^ 60 + h / 2 ^ 20 * 2 ^ 38 + 6))
  { base with mem := m }

/-- S31 = 0 lies in page 0, S7 = 65536 in page 1, and S19 = 0x10000 there too; the page of 0x20000 is in no table. -/
theorem witness_translation_words : Calm mapped ∧ mapped.walkHeld mapped.me.root 0 = none ∧
    mapped.walk mapped.me.root 0 = some (2 ^ 63 + 2 ^ 60 + 2 ^ 59 + 5, false) ∧ (2 ^ 63 + 2 ^ 60 + 2 ^ 59 + 5) / 2 ^ 59 % 2 = 1 ∧
    mapped.walkHeld mapped.me.root ((mapped.me.getS 7).toNat % 2 ^ 56) = none ∧
    (mapped.walk mapped.me.root ((mapped.me.getS 7).toNat % 2 ^ 56)).map (fun x => (x.1 / 2 ^ 59 % 2, x.2)) = some (0, false) ∧
    Calm base ∧ base.walkHeld base.me.root 0 = none ∧ base.walk base.me.root 0 = none ∧ base.sys.invs.length < 64 := by
  refine ⟨calm_of (by decide +kernel), by decide +kernel, by decide +kernel, by decide, by decide +kernel, ?_, calm_base,
    by decide +kernel, by decide +kernel, by decide +kernel⟩
  decide +kernel

/-- The node of the test strand with a rank on another core. -/
def withFar (r : FarRank) : State :=
  { queued with sys := { queued.sys with nodes := queued.sys.nodes.map fun n => { n with far := [r] } } }

/-- A rank of group 5 on another core. -/
def farRank : FarRank := ⟨1, 2, #v[5, 0xFF, 0xFF, 0xFF], false, false, false, [], []⟩

/-- Group 5 with no other member, or only one on another core that has arrived or exited; with strand 1, or one on another core,
in it that has not arrived, or one that ended without EXIT; and a number at the issued one. -/
theorem witness_barriers : Calm base ∧ Drains base ∧ (5 : BitVec 8) ≠ 0xFF ∧ base.me.groups[(0 : Fin 4)] = 5 ∧
    base.me.members[(0 : Fin 4)] = ⟨false, false, false⟩ ∧ base.memberLost base.me 5 = false ∧ base.sys.saved = [] ∧
    (∀ k : Fin 4, k ≠ base.cur → base.me.inGroup base.strands[k] 5 = false) ∧ base.farMembers base.me 5 = [] ∧
    Calm twoStrands ∧ Drains twoStrands ∧ twoStrands.memberLost twoStrands.me 5 = false ∧ twoStrands.me.groups[(0 : Fin 4)] = 5 ∧
    twoStrands.me.members[(0 : Fin 4)] = ⟨false, false, false⟩ ∧
    (∃ k : Fin 4, k ≠ twoStrands.cur ∧ twoStrands.me.inGroup twoStrands.strands[k] 5 = true ∧ twoStrands.strands[k].arrived 5 = false) ∧
    (1 : BitVec 2).toNat ≤ 1 ∧ (base.me.copyDone - 0).toNat < 2 ^ 31 :=
  ⟨calm_base, drains_of (by decide +kernel), by decide, also6 (by decide +kernel) ⟨calm_of (by decide +kernel),
    drains_of (by decide +kernel), by decide +kernel⟩⟩

theorem witness_far_barriers :
    (∀ r ∈ [{ farRank with arrived := [5] }, { farRank with exited := true }], let s := withFar r
      calmB s = true ∧ s.farMembers s.me 5 = [r] ∧ s.memberLost s.me 5 = false ∧ (r.exited = true ∨ 5 ∈ r.arrived)) ∧
    (let s := withFar farRank
     calmB s = true ∧ s.farMembers s.me 5 = [farRank] ∧ s.memberLost s.me 5 = false ∧ ¬ (farRank.exited = true ∨ 5 ∈ farRank.arrived)) ∧
    (let s := withFar { farRank with lost := true }; calmB s = true ∧ s.memberLost s.me 5 = true ∧ s.near = [] ∧ s.links = []) := by
  decide +kernel

theorem witness_trace_word : Calm queued ∧ queued.me.placed = some pl ∧ queued.binding queued.me = some bound ∧ queued.traceLost = false ∧
    bound.mask.getLsbD 0 = false ∧ (∀ x ∈ queued.trace, x.time ≤ queued.now) ∧ bound.trace.isSome = true ∧ queued.trace.length < 64 ∧
    (let b := { bound with trace := none }
     let s : State := { queued with sys := { queued.sys with queues := [(0, { ring with binding := b })] } }
     Calm s ∧ s.binding s.me = some b ∧ b.trace = none ∧ ∀ x ∈ s.trace, x.time ≤ s.now) :=
  ⟨calm_of (by decide +kernel), also7 (by decide +kernel) ⟨calm_of (by decide +kernel), by decide +kernel⟩⟩

/-- S23 = 65472, the last line of the page of H2. -/
theorem witness_log : Calm base ∧ (base.me.getH 2).state = .valid ∧ (base.me.getS 23).toNat % 64 = 0 ∧
    (base.me.getS 23).toNat + 64 ≤ (base.me.getH 2).pageSize ∧ (base.me.getH 2).w = true ∧ MainOk base (2 * 65536 + 65472) 64 ∧
    base.sys.log = [] ∧
    (let s : State := { base with sys := { base.sys with log := [1, 2] } }
     Calm s ∧ s.sys.log = 1 :: [2] ∧ NearRoom s (s.me.getH 2).kind (2 * 65536 + 65472)) :=
  ⟨calm_base, also4 (by decide +kernel) ⟨mainOk_of (by decide +kernel), by decide +kernel, calm_of (by decide +kernel),
    by decide +kernel, room_of (by decide +kernel)⟩⟩

/-- Firmware's access succeeds. -/
def succeeds {α : Type} : Except NoAccess α → Bool
  | .ok _ => true
  | .error _ => false

/-- Queue 8 does not exist, 2 is of another context, 3 is full, 0 has room; op 1 in the record at A2. -/
theorem witness_task : Calm queued ∧ Drains queued ∧ (queued.me.getA 1).addr.toNat % 64 = 0 ∧
    queued.resolve 0 0x1000 64 = some (scr 0x1000) ∧ (queued.chipRead (scr 0x1000) 64).2 = false ∧ queued.queue 8 = none ∧
    (∃ x, queued.queue 2 = some x ∧ queued.queuesMeet pl.queue 2 = false) ∧
    (∃ x, queued.queue 3 = some x ∧ queued.queuesMeet pl.queue 3 = true ∧ queued.me.priv = true ∧ x.size ≤ x.tail - x.head ∧
      taskOp (BitVec.ofNat 512 (leNat (cellsRead queued.mem (scr 0x1000) 64))) = 0) ∧
    (∃ x, queued.queue 0 = some x ∧ queued.queuesMeet pl.queue 0 = true ∧ x.tail - x.head < x.size ∧
      succeeds (queued.fwWrite (bindingRoot x.binding) (pageFuel 64) (x.binding.ring.toNat + 64 * (x.tail % x.size))
        (cellsRead queued.mem (scr 0x1000) 64)) = true) ∧
    (let s : State := { queued with mem := cellsWrite queued.mem (scr 0x1006) [0x40#8] }
     Calm s ∧ taskOp (BitVec.ofNat 512 (leNat (cellsRead s.mem (scr 0x1000) 64))) = 1) :=
  ⟨calm_of (by decide +kernel), drains_of (by decide +kernel), also4 (by decide +kernel) ⟨⟨_, rfl, by decide +kernel⟩,
    ⟨_, rfl, by decide +kernel⟩, ⟨_, rfl, by decide +kernel⟩, calm_of (by decide +kernel), by decide +kernel⟩⟩

theorem witness_tokens : queued.expert 8 = none ∧ (∃ x, queued.expert 3 = some x ∧ queued.queuesMeet pl.queue x.via = false) ∧
    (∃ x, queued.expert 5 = some x ∧ queued.queuesMeet pl.queue x.via = true ∧ x.capacity ≤ x.tokens.length) ∧
    (∃ x, queued.expert 1 = some x ∧ queued.queuesMeet pl.queue x.via = true ∧ x.tokens.length < x.capacity) :=
  ⟨by decide +kernel, ⟨_, rfl, by decide +kernel⟩, ⟨_, rfl, by decide +kernel⟩, ⟨_, rfl, by decide +kernel⟩⟩

/-- Strand 1, of the same node, has arrived at the barrier of group 5. -/
def atBarrier : State :=
  let st := twoStrands.strands[(1 : Fin 4)]
  { twoStrands with strands := twoStrands.strands.set 1 { st with members := st.members.set 0 ⟨true, false, false⟩ } }

theorem witness_exit : Calm queued ∧ Drains queued ∧ (∀ l ∈ queued.near, queued.me.ident ∉ l.pins) ∧ queued.lastOfNode = true ∧
    (queued.sys.nodes.any fun n => queued.me.ofNode n && n.storedPoison) = false ∧ Calm atBarrier ∧ Drains atBarrier ∧
    atBarrier.lastOfNode = false ∧ 5 ∈ atBarrier.me.groups.toList ∧ (1 : Fin 4) ≠ atBarrier.cur ∧
    atBarrier.me.inGroup atBarrier.strands[(1 : Fin 4)] 5 = true ∧ atBarrier.strands[(1 : Fin 4)].groupIndex 5 = some 0 ∧
    atBarrier.memberLost atBarrier.me 5 = false ∧ atBarrier.sys.saved = [] ∧ atBarrier.farMembers atBarrier.me 5 = [] ∧
    (∀ m : Fin 4, m ≠ atBarrier.cur → atBarrier.me.inGroup atBarrier.strands[m] 5 = true → atBarrier.strands[m].arrived 5 = true) :=
  ⟨calm_of (by decide +kernel), drains_of (by decide +kernel), by decide +kernel, by decide +kernel, by decide +kernel,
    calm_of (by decide +kernel), drains_of (by decide +kernel), by decide +kernel⟩

/-- H5 is a large page at 2^25; strand 0 is the own one, 1 is free or placed, 8 another core's; core 400 does not exist. -/
theorem witness_context_words : Calm base ∧ Drains base ∧ (base.me.getH 5).state = .valid ∧ (base.me.getS 31).toNat % 4096 = 0 ∧
    (base.me.getH 5).w = true ∧ 0x510000 ≤ (base.me.getH 5).pageSize ∧ MainOk base (512 * 65536) 0x28000 ∧
    MainOk base (512 * 65536) 0x510000 ∧ (base.me.getS 4).toNat % 2 ^ 11 / 4 ≠ base.sys.gcore ∧
    (base.me.getS 31).toNat % 2 ^ 11 / 4 = base.sys.gcore ∧ (base.me.getS 31).toNat % 2 ^ 11 % 4 = base.cur.val ∧
    (base.me.getS 10).toNat % 2 ^ 11 / 4 = base.sys.gcore ∧ (base.me.getS 10).toNat % 2 ^ 11 % 4 = (1 : Fin 4).val ∧
    (base.me.getS 6).toNat % 2 ^ 11 / 4 ≠ base.sys.gcore ∧ 1536 ≤ (base.me.getS 6).toNat % 2 ^ 11 ∧
    (base.me.getS 4).toNat % 2 ^ 11 < 1536 ∧ (base.farCore 2).strands[(0 : Fin 4)] = none ∧
    base.strands[(1 : Fin 4)].placed = none ∧ base.savedAt (512 * 65536) = none ∧ Calm twoStrands ∧
    twoStrands.strands[(1 : Fin 4)].placed.isSome = true ∧ twoStrands.cannotStop 1 = false ∧ twoStrands.strands[(1 : Fin 4)].trns = [] ∧
    twoStrands.strands[(1 : Fin 4)].sleeping = none ∧ twoStrands.strands[(1 : Fin 4)].passing = false ∧ (∀ l ∈ twoStrands.near, (1 : Fin 4).val ∉ l.pins) ∧
    (base.me.getS 31).toNat % 2 ^ 9 = base.sys.gcore ∧ (base.me.getS 10).toNat % 2 ^ 9 ≠ base.sys.gcore ∧
    (base.me.getS 10).toNat % 2 ^ 9 < 384 ∧ 384 ≤ (base.me.getS 24).toNat % 2 ^ 9 ∧ (base.me.getS 24).toNat % 2 ^ 9 ≠ base.sys.gcore :=
  by repeat' apply And.intro
     all_goals first
       | exact calm_of (by decide +kernel)
       | exact drains_of (by decide +kernel)
       | exact mainOk_of (by decide +kernel)
       | decide +kernel

theorem peeks_cells {s : State} (h : s.near = [] ∧ s.links = []) (p n : Nat) : s.peeks p n = cellsRead s.mem p n := by
  induction n generalizing p with
  | zero => rfl
  | succ n ih =>
    show s.peek p :: s.peeks (p + 1) n = cellGet s.mem p :: cellsRead s.mem (p + 1) n
    rw [ih]
    congr 1
    simp [State.peek, State.nearByte, State.linkByte, lineByte, h.1, h.2]

/-- A state in which an area holds what was saved there. -/
def holding (s : State) (p : Nat) (x : Saved) : State :=
  { s with mem := cellsWrite s.mem p x.bytes, sys := { s.sys with saved := [(p, x)] } }

theorem holding_savedAt {s : State} (hm : Memory.wf s.mem = true) (hn : s.near = [] ∧ s.links = []) (p : Nat) (x : Saved) :
    (holding s p x).savedAt p = some x := by
  have hr : (holding s p x).peeks p x.bytes.length = x.bytes := by
    rw [peeks_cells (show (holding s p x).near = [] ∧ (holding s p x).links = [] from hn)]
    apply cellsRead_eq
    intro k hk
    show cellGet (cellsWrite s.mem p x.bytes) (p + k) = _
    rw [cellGet_cellsWrite p x.bytes hm, if_pos (by omega), Nat.add_sub_cancel_left]
    simp [List.getD, hk]
  unfold State.savedAt
  have hs : (holding s p x).sys.saved = [(p, x)] := rfl
  simp [hs, hr]

/-- A saved strand of the context that the core holds. -/
def away : SavedStrand := ⟨strand, [], none⟩

/-- Another core, of the same context as the modelled one, with `x` in its slot 0. -/
def beside (x : Option SavedStrand) (s : State) : State :=
  s.setFarCore 2 { FarCore.reset with strands := FarCore.reset.strands.set 0 x, ctx := some (bindingRoot bound) }

/-- A strand on core 2: S4 = 8 names it as a strand, and S18 = 2 the core. -/
theorem witness_far_strands : let s := beside (some away) queued
    Calm s ∧ Drains s ∧ (s.me.getS 4).toNat % 2 ^ 11 = 8 ∧ (s.farCore 2).strands[(0 : Fin 4)] = some away ∧
    (s.me.getS 18).toNat % 2 ^ 9 = 2 ∧ (∃ j : Fin 4, ((s.farCore 2).strands[j]).isSome = true) ∧
    (∀ j : Fin 4, (base.farCore 2).strands[j] = none) ∧ (beside none queued).sys.saved = [] ∧
    ((beside none queued).farCore 2).ctx = (beside none queued).contextOf away.strand := by
  refine ⟨calm_of (by decide +kernel), drains_of (by decide +kernel), by decide +kernel, by decide +kernel, by decide +kernel,
    ⟨0, by decide +kernel⟩, by decide +kernel, by decide +kernel, by decide +kernel⟩

theorem away_length : (Saved.strand 0 true away).bytes.length = 0x8000 := by
  simp [Saved.bytes, stateRegion, away, strandStateBytes]

/-- A strand and a core area that were saved at H5's page; the core, or core 2, holds their context, or none. -/
theorem witness_saved_areas :
    (let s := holding { queued with coreCtx := some (bindingRoot bound) } (512 * 65536) (.strand 0 true away)
     Calm s ∧ Drains s ∧ s.strands[(1 : Fin 4)].placed = none ∧ s.savedAt (512 * 65536) = some (.strand 0 true away) ∧
     s.coreCtx.isSome = true ∧ s.coreCtx = s.contextOf away.strand ∧ away.chain = none) ∧
    (let s := holding (beside none queued) (512 * 65536) (.strand 0 true away)
     Calm s ∧ Drains s ∧ s.coreCtx = none ∧ s.savedAt (512 * 65536) = some (.strand 0 true away) ∧
     ((s.farCore 2).strands[(0 : Fin 4)] = none ∧ (s.farCore 2).ctx.isSome = true ∧ (s.farCore 2).ctx = s.contextOf away.strand)) ∧
    (let v : SavedCore := ⟨[], [], ([], []), ([], []), MatrixEngine.reset, LineEngine.reset, 0, none⟩
     (holding queued (512 * 65536) (.core 0 v)).savedAt (512 * 65536) = some (.core 0 v)) ∧
    Memory.wf queued.mem = true ∧ queued.sys.saved = [] ∧ 512 * 65536 + (Saved.strand 0 true away).bytes.length ≤ 2 ^ 54 := by
  refine ⟨⟨(by constructor <;> first | rfl | exact of_decide_eq_true rfl | exact fun g => Or.inl (by cases g <;> rfl)), drains_of ⟨rfl, rfl⟩, rfl,
      holding_savedAt (by decide +kernel) ⟨rfl, rfl⟩ _ _, rfl, by decide +kernel, rfl⟩,
    ⟨(by constructor <;> first | rfl | exact of_decide_eq_true rfl | exact fun g => Or.inl (by cases g <;> rfl)), drains_of ⟨rfl, rfl⟩, rfl,
      holding_savedAt (by decide +kernel) ⟨rfl, rfl⟩ _ _, by decide +kernel⟩,
    holding_savedAt (by decide +kernel) ⟨rfl, rfl⟩ _ _, by decide +kernel, rfl, by rw [away_length]; decide⟩

/-- Nothing holds a write of main memory: the buffer and the links are empty, and no stack is in self-refresh. -/
def Plain (s : State) : Prop :=
  s.near = [] ∧ s.links = [] ∧ s.env.silent = false ∧ s.sys.selfRefresh = [] ∧ s.sys.device = 0

theorem strong_ok {s : State} (h : Plain s) {w : Who} {u : Bool} {p : Nat} {b : List Byte} (hp : p + b.length ≤ 2 ^ 39) :
    ∃ t, mainStore w true u p b false s = .ok ((), t) ∧ Plain t := by
  obtain ⟨hn, hl, he, hr, hd⟩ := h
  have hlost : s.lostAt p = false := by simp [State.lostAt, he]
  have hstuck : s.nearStuck = false := by simp [State.nearStuck, hn]
  have hdev : mainDevice p = 0 := Nat.div_eq_of_lt (by omega)
  have hloc : mainLocal p = p := Nat.mod_eq_of_lt (by omega)
  have hready : mainReady p b.length s = .ok ((), s) := by
    have : ¬ Config.mainBytes < p + b.length := by unfold Config.mainBytes; omega
    simp [mainReady, hlost, hdev, hd, hloc, State.stackHeld, hr, this]
  have hput : ∀ (l : List Nat) (f : State → Nat → Bool) (x : State), Plain x →
      Plain (l.foldl (fun t k => t.setLinePoison k (f t k)) x) := by
    intro l f
    induction l with
    | nil => exact fun _ hx => hx
    | cons a l ih => exact fun x hx => ih _ hx
  have hw : Plain (((s.behind p b.length).dropNear p b.length).mainWrite p b false) := by
    unfold State.mainWrite
    apply hput
    simp [Plain, State.behind, State.dropNear, hn, hl, he, hr, hd]
  generalize ht : ((s.behind p b.length).dropNear p b.length).mainWrite p b false = t at hw
  refine ⟨t.updNode fun n =>
    { n with storedPoison := n.storedPoison || false
             unreplayable := n.unreplayable || decide (mainDevice p ≠ t.sys.device) }, ?_, hw⟩
  unfold mainStore
  rw [M.bind_ok (ask_run id s)]
  simp only [id, hlost, hstuck, Bool.false_eq_true, if_false, if_true]
  rw [M.bind_ok hready, M.bind_ok (upd_run _ s), upd_run, ht]

theorem lineChunks_within : ∀ (n p : Nat) (b : List Byte), ∀ x ∈ lineChunks n p b, x.1 + x.2.length ≤ p + b.length := by
  intro n
  induction n with
  | zero => intro p b x hx; cases hx
  | succ n ih =>
    intro p b x hx
    rw [lineChunks] at hx
    cases hb : b.isEmpty
    · rw [List.splitAt_eq] at hx
      simp only [hb, Bool.false_eq_true, if_false, List.mem_cons] at hx
      rcases hx with rfl | hx
      · simp
      · have := ih _ _ x hx
        simp only [List.length_take, List.length_drop] at this
        omega
    · simp [hb] at hx

/-- Through a handle of a strong page an area is written at once. -/
theorem saveAt_ok {s : State} (h : Plain s) {g : Handle} (hg : g.kind = 0) {p : Nat} {x : Saved} (hp : p + x.bytes.length ≤ 2 ^ 39) :
    ∃ t, saveAt g p x s = .ok ((), t) := by
  have all : ∀ (l : List (Nat × List Byte)), (∀ c ∈ l, c.1 + c.2.length ≤ 2 ^ 39) → ∀ y, Plain y →
      ∃ t, each (fun c => mainStore scalarWho true (decide (g.kind = 2)) c.1 c.2 false) l y = .ok ((), t) := by
    intro l
    induction l with
    | nil => exact fun _ y _ => ⟨y, rfl⟩
    | cons c l ih =>
      intro hl y hy
      obtain ⟨t, ht, hp⟩ := strong_ok hy (w := scalarWho) (u := decide (g.kind = 2)) (hl c List.mem_cons_self)
      obtain ⟨z, hz⟩ := ih (fun c hc => hl c (List.mem_cons_of_mem _ hc)) t hp
      refine ⟨z, ?_⟩
      rw [each, M.bind_ok ht, hz]
  obtain ⟨t, ht⟩ := all _ (fun c hc => Nat.le_trans (lineChunks_within _ p _ c hc) hp) s h
  refine ⟨t.noteSaved p x, ?_⟩
  have ha : areaWrite g p x.bytes s = .ok ((), t) := by
    unfold areaWrite
    rw [decide_eq_true hg]
    exact ht
  unfold saveAt
  rw [M.bind_ok ha, upd_run]

/-- An area that is written: a saved strand, at a strong page. -/
theorem witness_area_written : Inv queued ∧ queued.env.silent = false ∧
    512 * 65536 + (Saved.strand 0 true away).bytes.length ≤ 2 ^ 54 ∧ queued.sys.saved = [] ∧
    ∃ t, saveAt ⟨.valid, true, 0, true, false, 7, 512, 512⟩ (512 * 65536) (.strand 0 true away) queued = .ok ((), t) := by
  refine ⟨⟨by decide +kernel, inv_base.full, inv_base.poison, inv_base.lines, inv_base.near, inv_base.links, inv_base.records,
    inv_base.fns, inv_base.tols, inv_base.counts⟩, rfl, by rw [away_length]; decide, rfl, saveAt_ok ⟨rfl, rfl, rfl, rfl, rfl⟩ rfl ?_⟩
  rw [away_length]
  decide

/-- The buffer is free to take an area, and the strands that are saved can stop. -/
theorem witness_context_saved :
    (Inv twoStrands ∧ (∀ l ∈ twoStrands.near, l.pins = []) ∧ twoStrands.sys.selfRefresh = []) ∧
    (let s := beside (some away) queued
     (∀ l ∈ s.near, l.pins = []) ∧ s.sys.selfRefresh = [] ∧
     away.strand.cannotStop (((s.farCore 2).matrix.chainOf 0).or away.chain).isSome = false ∧ away.strand.trns = [] ∧
     away.strand.passing = false) ∧ Inv (beside (some away) queued) :=
  ⟨⟨⟨inv_base.mem, inv_base.full, inv_base.poison, inv_base.lines, inv_base.near, inv_base.links, inv_base.records,
    inv_base.fns, inv_base.tols, inv_base.counts⟩, by decide +kernel⟩, by decide +kernel,
    ⟨by decide +kernel, inv_base.full, inv_base.poison, inv_base.lines, inv_base.near, inv_base.links, inv_base.records,
    inv_base.fns, inv_base.tols, inv_base.counts⟩⟩

/-- Translations in flight of page 0 (mapped), of a page that is not, of one whose root breaks R235, of one whose bucket's stack is in
self-refresh, and of one that an invalidate marked; a command to be sent and one that was. -/
theorem witness_translation_events :
    (let f : TrnFlight := ⟨3, 0, mapped.me.root, []⟩
     let s := mapped.updMe fun u => { u with trns := [f] }
     s.strands[(0 : Fin 4)].trns = [f] ∧ (∀ j : Fin 4, j ≠ 0 → s.strands[j].trns = []) ∧ f.marks = [] ∧ f.root.ok = true ∧
     ({ f.root with n := 31 } : Root).ok = false ∧ s.bucketHeld f.root f.va.toNat false = false ∧
     s.bucketHeld f.root f.va.toNat true = false ∧
     s.home f.root f.va.toNat false = some (2 ^ 63 + 2 ^ 60 + 2 ^ 59 + 5) ∧
     base.home f.root f.va.toNat false = none ∧ base.home f.root f.va.toNat true = none ∧ ({ f with marks := [1] } : TrnFlight).marks ≠ [] ∧
     (let z := { s with sys := { s.sys with selfRefresh := List.range 64 } }; z.bucketHeld f.root f.va.toNat false = true)) ∧
    (let r : Root := ⟨0, 20, 0⟩
     let h := pageHash (keyOf 0 true)
     let m := cellsWrite [] (64 * (h % 2 ^ 20)) (leBytes 8 (2 ^ 63 + 2 ^ 62 + 2 ^ 60 + h / 2 ^ 20 * 2 ^ 38))
     let s : State := { base with mem := m }
     r.ok = true ∧ s.home r 0 false = none ∧ (s.home r 0 true).isSome = true) ∧
    (let c : InvCmd := ⟨1, 1, 1, 7, 0, 0, false⟩
     let s : State := { base with sys := { base.sys with invs := [c] } }
     s.sys.invs = c :: [] ∧ c.sent = false ∧ (∀ j : Fin 4, s.coversText c s.strands[j] = false) ∧
     (∀ n ∈ s.sys.nodes, s.coversNode c n = false) ∧ s.sys.saved = [] ∧
     (let w : Window := ⟨0, 0, 0, 0, base.me.getH 1, 0, 0, 0, 0⟩
      let t := s.updMe fun u => { u with slots := u.slots.set 2 ⟨0, true, some w⟩ }
      (t.strands[(0 : Fin 4)].slots[2]).window = some w ∧ w.handle.state = .valid)) ∧
    (let c : InvCmd := ⟨1, 1, 1, 7, 0, 0, true⟩
     let s : State := { base with sys := { base.sys with invs := [c] } }
     s.sys.invs = c :: [] ∧ c.sent = true ∧
     (∀ j : Fin 4, (∀ e ∈ s.strands[j].queue ++ s.strands[j].inject, c.number ∉ e.counted) ∧
       s.strands[j].atSplit = none ∧ ∀ x ∈ s.strands[j].trns, c.number ∉ x.marks) ∧ s.orphans = [] ∧
     s.strands[c.issuer].placed.isSome = true) := by decide +kernel

/-! ## Witnesses: traps and errors -/

/-- The test machine in the body of two nested loops, with a transfer that has one delay word left. -/
def nested : State := with0 fun u =>
  { u with
    loops := (u.loops.set 0 ⟨true, 0xF0, 0x200, 3, 1, false, false, Vector.replicate 8 4⟩).set 1
      ⟨true, 0x100, 0x100, 1, 1, false, false, Vector.replicate 8 0⟩
    xfer := some ⟨0x400, 0x108, 2, true⟩ }

theorem inv_of_lists {s : State} (h : s.mem = [] ∧ s.full = [] ∧ s.poison = [] ∧ s.linePoison = [] ∧ s.near = [] ∧ s.links = [] ∧ s.line.records = [] ∧
    s.line.fns = [] ∧ s.line.tols = [] ∧ s.line.counts = []) : Inv s := by
  obtain ⟨h1, h2, h3, h4, h5, h0, h6, h7, h8, h9⟩ := h
  constructor
  · rw [h1]; rfl
  · rw [h2]; exact List.Pairwise.nil
  · rw [h3]; exact List.Pairwise.nil
  · rw [h4]; exact List.Pairwise.nil
  · rw [h5]; exact ⟨List.nodup_nil, by intro x hx; cases hx⟩
  · rw [h0]; intro x hx; cases hx
  · rw [h6]; exact ⟨List.Pairwise.nil, by intro x hx; cases hx⟩
  · rw [h7]; exact ⟨List.Pairwise.nil, by intro x hx; cases hx⟩
  · rw [h8]; exact ⟨List.Pairwise.nil, by intro x hx; cases hx⟩
  · rw [h9]; exact ⟨List.Pairwise.nil, by intro x hx; cases hx⟩

/-- A CPYM and its follow-on, in the queue. -/
def copying : QEntry := base.entry (.cpymLinear .every 1 0 2 0 0 0 0 (.mcfg .every 1))
def following : QEntry := { base.entry (.mcfg .every 1) with pc := copying.pc + 4, held := true }

/-- Taking a trap with no transfer and with one, with no withdrawn word and with one; and the way back. -/
theorem witness_trap : Inv base ∧ Inv nested ∧ Calm base ∧ base.me.xfer = none ∧ nested.me.xfer = some ⟨0x400, 0x108, 2, true⟩ ∧
    (∀ s ∈ [base, nested], s.me.placed.isSome = true ∧ s.me.busy = false ∧ s.armed = [] ∧ s.env.soft = [] ∧ s.me.trns = [] ∧ s.me.flight = [] ∧ s.me.inject = [] ∧
      s.me.sleeping = none ∧ s.me.intrap = false ∧ s.me.trapvec ≠ 0 ∧ s.me.returning = none ∧
      s.resolve 0 s.me.trapframe.toNat 4096 = some (scr 0x8000) ∧ qcfgOk s.me.qcfg.target s.me.qcfg.axis s.me.qcfg.mode = true ∧
      (∀ x ∈ s.me.xfer.toList, (s.me.frameTarget x).toNat % 4 = 0 ∧ 1 ≤ x.left ∧ x.left ≤ 2) ∧
      (∀ (k : Nat) (_ : k < 6), let l := s.me.loops[k]
        if l.active then l.start.toNat % 4 = 0 ∧ l.fin.toNat % 4 = 0 ∧ l.start ≤ l.fin ∧ 1 ≤ l.iter ∧ l.iter ≤ l.count
        else l.start = 0 ∧ l.fin = 0 ∧ l.count = 0 ∧ l.iter = 0 ∧ l.brk = false ∧ l.interlocked = false) ∧
      (∀ (k : Nat) (_ : k < 5), s.me.loops[k + 1].active = true →
        s.me.loops[k].active = true ∧ s.me.loops[k].start ≤ s.me.loops[k + 1].start ∧ s.me.loops[k + 1].fin ≤ s.me.loops[k].fin)) ∧
    (∀ x ∈ nested.me.xfer.toList, x.left ≤ 2) ∧ [(rooted, true), (copying, true), (following, false)].length ≤ 48 ∧
    copying.isCpym = true ∧ following.held = true ∧ copying.pc + 4 = following.pc ∧ (0x100 : BitVec 32).toNat % 4 = 0 ∧
    (∀ c ∈ [1#8, 0x0A], 1 ≤ c.toNat ∧ c.toNat ≤ 0x0A) ∧ (∀ c ∈ [0#8, 0x0B, 0x20], ¬ (1 ≤ c.toNat ∧ c.toNat ≤ 0x0A)) :=
  ⟨inv_of_lists (by decide +kernel), inv_of_lists (by decide +kernel), calm_base, by decide +kernel⟩

/-- A running node of the strand, one of its context, and one of another context, each with a strand. -/
def contexts : State :=
  let node := fun (id q : Nat) (f : Nat) =>
    ({ Node.fresh (BitVec.ofNat 6 q) (BitVec.ofNat 512 (id + 2 ^ 32 + f * 2 ^ 48)) none with stage := .running } : Node)
  let v := (queued.strands.set 1 { strand with placed := some { pl with node := 4 } }).set 2
    { strand with placed := some { pl with node := 5, queue := 2 } }
  { queued with strands := v, sys := { queued.sys with nodes := [node 3 0 1, node 4 0 0, node 5 2 0, node 6 2 0] } }

theorem witness_errors : contexts.me.placed = some pl ∧ contexts.sameContext contexts.me contexts.strands[(1 : Fin 4)] = true ∧
    contexts.sameContext contexts.me contexts.strands[(2 : Fin 4)] = false ∧
    (∀ k (_ : k < 4), let n := contexts.sys.nodes[k]!
      n.stage = .running ∧ (contexts.nodeInContext contexts.me n = true ↔ k < 2)) ∧
    contexts.orphans = [] ∧ (∀ k : Fin 4, contexts.strands[k].busy = false) ∧ contexts.me.trns = [] ∧ (with0 fun u => { u with intrap := true }).me.intrap = true ∧
    (with0 fun u => { u with trapvec := 0 }).me.trapvec = 0 ∧
    (contexts.sys.nodes.any fun n => contexts.me.ofNode n && n.record.getLsbD 48 && !n.unreplayable && decide (n.replays < 3)) = true ∧
    (queued.sys.nodes.any fun n => queued.me.ofNode n && n.record.getLsbD 48 && !n.unreplayable && decide (n.replays < 3)) = false := by
  decide +kernel

/-! ## Witnesses: events -/

/-- A buffered line with a byte of the test strand. -/
def line (n : Nat) (pins : List Nat) : NearLine := ⟨n, [⟨63, 5, 0⟩], [⟨0, 0, 0, false⟩], false, pins⟩

theorem near_of {s : State} {l : List NearLine} (h : s.mem = [] ∧ s.full = [] ∧ s.poison = [] ∧ s.linePoison = [] ∧ s.near = l ∧
    s.links = [] ∧ s.line.records = [] ∧ s.line.fns = [] ∧ s.line.tols = [] ∧ s.line.counts = []) (hn : nearOk l) : Inv s := by
  obtain ⟨h1, h2, h3, h4, h5, h0, h6, h7, h8, h9⟩ := h
  have := inv_of_lists (s := { s with near := [] }) ⟨h1, h2, h3, h4, rfl, h0, h6, h7, h8, h9⟩
  exact ⟨this.mem, this.full, this.poison, this.lines, h5 ▸ hn, this.links, this.records, this.fns, this.tols, this.counts⟩

/-- One unpinned line, and the same with its stack in self-refresh; and 64 pinned ones. -/
theorem witness_near_buffer :
    (let s : State := { base with near := [line 1024 []] }
     Inv s ∧ s.near = line 1024 [] :: [] ∧ s.stackHeld (1024 * 64) = false ∧ (line 1024 []).pins = [] ∧ s.near.length < 64 ∧
     ({ s with sys := { s.sys with selfRefresh := [stackOf (1024 * 64)] } } : State).stackHeld (1024 * 64) = true) ∧
    (let ls := (List.range 64).map fun k => line (1024 + k) [0]
     let s : State := { base with near := ls }
     Inv s ∧ s.near.length = 64 ∧ (∀ x ∈ s.near, x.pins ≠ []) ∧ s.stackHeld (1024 * 64) = false) := by
  refine ⟨⟨near_of (l := [line 1024 []]) (by decide +kernel) (by unfold nearOk; decide +kernel), by decide +kernel⟩, ?_⟩
  exact ⟨near_of (l := (List.range 64).map fun k => line (1024 + k) [0]) (by decide +kernel) (by unfold nearOk; decide +kernel),
    by decide +kernel, by decide +kernel, by decide +kernel⟩

/-- Reads from outside of full granules, of empty ones, of ones that an older access awaits, and of one that waits; and of main memory:
a pinned line, a stack in self-refresh, and neither. -/
theorem witness_remote_requests : isMain (scr 0x1000) = false ∧ filled.allFull (granules (scr 0x1000) 8) = true ∧
    filled.takeFree (filled.ticks, 9, 1) (granules (scr 0x1000) 8) = true ∧ filled.allFull (granules (scr 0) 8) = false ∧
    (let s : State := { filled with waiters := [⟨0, 0, 0, 0, true, granules (scr 0x1000) 8⟩], ticks := 5 }
     s.allFull (granules (scr 0x1000) 8) = true ∧ s.takeFree (s.ticks, 9, 1) (granules (scr 0x1000) 8) = false) ∧
    (let s : State := { State.reset with full := [scr 0 / 16], sys := { State.reset.sys with remoteWaits := [⟨.read (scr 0) 8 1 9 1, 0, 0⟩] } }
     (∀ j : Fin 4, s.strands[j].placed = none) ∧ s.sys.remoteWaits = [⟨.read (scr 0) 8 1 9 1, 0, 0⟩] ∧ s.waiters = [] ∧
     s.allFull (granules (scr 0) 8) = true) ∧ isMain (1024 * 64) = true ∧ (∀ l ∈ linesOf (1024 * 64) 8, base.stackHeld (l * 64) = false) ∧ base.near = [] ∧
    (let s : State := { base with sys := { base.sys with selfRefresh := [stackOf (1024 * 64)] } }
     ∃ l ∈ linesOf (1024 * 64) 8, s.stackHeld (l * 64) = true) ∧
    (∃ l ∈ [line 1024 [0]], l.line ∈ linesOf (1024 * 64) 8 ∧ l.pins ≠ []) := by decide +kernel

/-- An AMO of strand 0 on another device, and a gather of which one element on another device is left. -/
theorem witness_lost_partners : let t := with0 fun u => { u with h := u.h.set 9 ⟨.valid, false, 1, true, false, 7, 1, 0x1000000⟩ }
    (let e := t.entry (.amo .every 3 1 1 0x120 0 5 1 0)
     let s := t.updMe fun u => { u with queue := [e] }
     let y : State := { s with cur := 0 }
     s.strands[(0 : Fin 4)].placed.isSome = true ∧ s.strands[(0 : Fin 4)].queue = [e] ∧ e.instr = .amo .every 3 1 1 0x120 0 5 1 0 ∧
     e.handles.any s.farHandle = true ∧ y.readyIn [] e = true) ∧
    (let e := t.entry (.cgath .every 1 0 2 0 10 2 0 0)
     let left := [Piece.elem (scr 0x1000) (chipPlace 1 0 0 0) 4]
     let s := t.updMe fun u => { u with queue := [e], gather := [(e.num, left)] }
     s.strands[(0 : Fin 4)].queue = [e] ∧ e.instr = .cgath .every 1 0 2 0 10 2 0 0 ∧ s.strands[(0 : Fin 4)].gather = [(e.num, left)] ∧
     s.orphans = [] ∧ left ≠ [] ∧ s.isLost (deviceOf (chipPlace 1 0 0 0)) = true ∧ s.mem = [] ∧ s.full = [] ∧ s.poison = [] ∧ s.near = []) := by
  decide +kernel

/-- An image that passes its checks: its version is the counter's value. -/
def goodImage : FlashImage := ⟨Config.rollbackCounter, true, true, 1⟩

/-- An image that does not. -/
def badImage : FlashImage := ⟨0, false, true, 1⟩

/-- The test machine in recovery. -/
def recovering (a b c : Option FlashImage) : State := { base with sys := { base.sys with boot := ⟨a, b, c, true, []⟩ } }

theorem witness_boot : (goodImage.rsaOk = true ∧ goodImage.slhOk = true ∧ Config.rollbackCounter ≤ goodImage.version) ∧
    ¬ (badImage.rsaOk = true ∧ badImage.slhOk = true ∧ Config.rollbackCounter ≤ badImage.version) ∧
    (recovering none none none).sys.boot.recovery = true ∧ (recovering none none none).sys.boot.security = none ∧
    (recovering (some goodImage) none none).sys.boot.security.isSome = true ∧ (recovering (some goodImage) none none).sys.boot.ganymede = none ∧
    (recovering (some goodImage) (some goodImage) none).sys.boot.ganymede.isSome = true ∧
    (recovering (some goodImage) (some goodImage) none).sys.boot.loader = none ∧ base.sys.boot.recovery = false ∧
    (let s : State := { base with sys := { base.sys with boot := ⟨some goodImage, some goodImage, some goodImage, false, []⟩ } }
     s.sys.boot.security = some goodImage ∧ s.sys.boot.ganymede = some goodImage ∧ s.sys.boot.loader = some goodImage) :=
  ⟨⟨rfl, rfl, le_refl _⟩, (by rintro ⟨h, _⟩; exact absurd h (by decide)), rfl, rfl, rfl, rfl, rfl, rfl, rfl, rfl, rfl, rfl⟩

/-- Buffers that a summary can be written into at once: in main memory, and on chip; and one whose first line is pinned. -/
theorem witness_summary : Inv base ∧ base.sys.gcore < 384 ∧ base.die < 4 ∧ isMain 0x20000 = true ∧ isMain (scr 0) = false ∧
    (∀ n, ¬ (∃ l ∈ base.near, l.line ∈ linesOf 0x20000 n ∧ l.pins ≠ []) ∧
      ¬ ∃ l ∈ linesOf 0x20000 n, base.stackHeld (l * 64) = true) ∧
    (∀ n, let s : State := { base with near := [line 0x800 [0]] }
      ∃ l ∈ s.near, l.line ∈ linesOf 0x20000 (n + 1) ∧ l.pins ≠ []) := by
  refine ⟨inv_of_lists (by decide +kernel), by decide, by decide, by decide, by decide, fun n => ⟨?_, ?_⟩, fun n => ⟨_, .head _, ?_, by decide⟩⟩
  · rintro ⟨l, hl, _⟩
    cases hl
  · rintro ⟨l, _, hl⟩
    have : base.stackHeld (l * 64) = false := by simp [State.stackHeld, show base.sys.selfRefresh = [] from rfl]
    rw [this] at hl
    cases hl
  · show 0x800 ∈ linesOf 0x20000 (n + 1)
    unfold linesOf
    rw [if_neg (by omega), List.mem_range'_1]
    omega

/-- The entry of a page that may be executed. -/
def mapCode (va ppn : Nat) (m : List Host.Cell) : List Host.Cell :=
  let h := pageHash (keyOf va false)
  cellsWrite m (64 * (h % 2 ^ 20)) (leBytes 8 (2 ^ 63 + 2 ^ 60 + 2 ^ 58 + h / 2 ^ 20 * 2 ^ 38 + ppn))

/-- The record of a task of one strand: its kernel at 0x300000, its entry 0x10 bytes into the text (R296). -/
def taskRecord (flags op : Nat) : Nat := 77 + 2 ^ 32 + flags * 2 ^ 48 + op * 2 ^ 54 + 0x300000 * 2 ^ 64 + 0x10 * 2 ^ 128 + 100 * 2 ^ 160

/-- A record that names the node 77 and nothing else (R299). -/
def nodeRecord (op : Nat) : Nat := 77 + op * 2 ^ 54

/-- The record of expert queue 5 (R309). -/
def expertRecord : Nat := 5 + 0xC0 * 2 ^ 48 + 0x400000 * 2 ^ 64 + 0x401000 * 2 ^ 128 + 8 * 2 ^ 192 + 3 * 2 ^ 208 + 500 * 2 ^ 256

/-- Firmware runs; the first record of queue 0 is `r`; a text of 32 bytes with an image of 16 stands at 0x300000; `ns` are the nodes. -/
def launching (r : Nat) (ns : List Node) : State :=
  let m := cellsWrite (cellsWrite (mapCode 0x300000 0x5003 ringPages) (0x5000 * 65536) (leBytes 64 r)) (0x5003 * 65536) [0x20#8, 0, 0, 0, 0x10]
  { queued with
    mem := m
    sys := { queued.sys with boot := ⟨some badImage, some badImage, some badImage, false, []⟩, nodes := ns } }

/-- The node of `taskRecord` at a stage. -/
def task (stage : NodeStage) : Node := { Node.fresh 0 (BitVec.ofNat 512 (taskRecord 0 0)) none with stage := stage }

theorem witness_launch_records : (launching 0 []).firmware = true ∧ (launching 0 []).queue 0 = some ring ∧
    (let f := fun (r : Nat) => (((launching r []).consumed 0).headRecord 0).toOption.map fun x =>
       (x.1 = BitVec.ofNat 512 r, taskOp x.1, (x.2.2.checkRecord 0 x.2.1 x.1).toOption, taskPreds x.1)
     (f (taskRecord 0 0)).map (fun x => x.2) = some (0, some 0, []) ∧ ((f 0).map fun x => x.2.1) = some 0 ∧
     ((f 0).map fun x => x.2.2.1) = some (some 1) ∧ ((f (nodeRecord 1)).map fun x => x.2.1) = some 1 ∧
     ((f (nodeRecord 2)).map fun x => x.2.1) = some 2 ∧ ((f expertRecord).map fun x => x.2.1) = some 3) ∧
    onlyNode (BitVec.ofNat 512 (nodeRecord 1)) = true ∧ onlyNode (BitVec.ofNat 512 (nodeRecord 2)) = true ∧
    expertOk (BitVec.ofNat 512 expertRecord) = true ∧
    (let l := launching (taskRecord 0 0) []
     let s : State := { l with sys := { l.sys with selfRefresh := [stackOf (0x5003 * 65536)] } }
     succeeds (s.checkRecord 0 ring (BitVec.ofNat 512 (taskRecord 0 0))) = false) ∧
    (4 ≤ bound.k ∧ bound.k ≤ 16 ∧ bound.mask.getLsbD 7 = false ∧ bound.keys = []) ∧ ¬ (4 ≤ ({ bound with k := 3 } : QueueBinding).k) ∧
    (task .held).start = none ∧ (task .held).stage = .held ∧ (task .held).id.toNat = 77 ∧ (task .held).queue = 0 := by
  decide +kernel

/-- The core runs a strand of the same context, or is idle. -/
theorem witness_node_placed : ∀ v ∈ [base.strands, State.reset.strands],
    let l := launching 0 [task .eligible]
    let s : State := { l with strands := v, sys := { l.sys with clock := { l.sys.clock with placing := true } } }
    let n := task .eligible
    let y := s.settle
    s.firmware = true ∧ firstEligible 0 y.sys.nodes = some n ∧ y.queue 0 = some ring ∧ y.goesFirst n = true ∧
    (y.idle = decide (v = State.reset.strands)) ∧
    (match y.placeable ring n with
     | .ok (p, _) => decide (p.gang = [0] ∧ p.kernel.imageLen = 16 ∧ p.image.length = 16)
     | .error _ => false) = true ∧
    y.freeSlots[0]?.isSome = true ∧ n.batch = none ∧ ({ n with batch := some (1, 2) } : Node).batch = some (1, 2) := by decide +kernel

theorem witness_completion : (∀ v ∈ [0#8, 1, 2], let n := { task .finished with verdict := v }
    let s := launching 0 [n]
    let y := s.consumed 0
    s.firmware = true ∧ firstFinished 0 y.sys.nodes = some n ∧ y.queue 0 = some ring ∧ ring.hasRoom = true ∧ y.traced n = true ∧
    succeeds (y.fwWrite (bindingRoot bound) (pageFuel 32) (bound.compRing.toNat + 32 * (ring.compTail % ring.size)) n.completion) = true) := by
  decide +kernel

/-- Expert 5 is full and its token late (100 after 3, now 1000), 1 is empty; an expert that cannot be late, and one not yet late. -/
theorem witness_experts : let s := launching (taskRecord 0 0) []
    (∃ x, s.expert 5 = some x ∧ x.threshold ≤ x.tokens.length ∧ x.timeout ≠ 0 ∧
      (∃ v a rest, x.tokens = (v, a) :: rest ∧ a.toNat + x.timeout ≤ s.now.toNat) ∧ x.firings < 2 ∧
      (let z := s.consumed x.via
       z.queue x.via = some ring ∧ ring.hasRoom = true ∧
       (match z.fwRead (bindingRoot bound) (pageFuel 64) x.template.toNat 64 with
        | .error _ => none
        | .ok (b, v) => match v.fwWrite (bindingRoot bound) (pageFuel (8 * x.tokens.length))
            (x.buffer.toNat + x.firings % 2 * 8 * x.capacity) (x.tokens.flatMap fun t => leBytes 8 t.1.toNat) with
          | .error _ => none
          | .ok w => (w.checkRecord x.via ring
              (BitVec.ofNat 512 (leNat b / 2 ^ 32 * 2 ^ 32 + (firingId (BitVec.ofNat 512 (leNat b)) x.firings).toNat))).toOption) =
         some 0)) ∧
    (∃ x, s.expert 1 = some x ∧ x.tokens.length < x.threshold ∧ x.tokens = []) ∧
    (let t : State := { s with sys := { s.sys with experts := [(0, { experts 0 8 2 [(1, 900)] with timeout := 101 }), (2, { experts 0 8 2 [(1, 1)] with timeout := 0 })] } }
     (∃ x, t.expert 0 = some x ∧ ∃ v a rest, x.tokens = (v, a) :: rest ∧ t.now.toNat < a.toNat + x.timeout) ∧
     (∃ x, t.expert 2 = some x ∧ x.timeout = 0)) := by
  refine ⟨⟨_, rfl, by decide +kernel, by decide +kernel, ⟨_, _, _, rfl, by decide +kernel⟩, by decide +kernel⟩, ⟨_, rfl, by decide +kernel⟩,
    ⟨_, rfl, _, _, _, rfl, by decide +kernel⟩, _, rfl, by decide +kernel⟩

/-- A strand asleep until `d`, beside one asleep until 1001, and one with nothing queued. -/
def asleep (d : BitVec 64) : State :=
  let e (d : BitVec 64) : QEntry := { base.entry (.slpat .every 7) with caps := [.s d] }
  let sleep (d : BitVec 64) : Strand := { strand with queue := [e d], sleeping := some d }
  { base with strands := ((base.strands.set 0 (sleep d)).set 1 (sleep 1001)).set 2 strand }

theorem witness_time : (∀ k : Fin 4, base.strands[k].placed = none ∨ base.strands[k].queue = []) ∧ (1000000 : Int) ≤ 1000000 ∧ (999999 : Int) < 1000000 ∧
    (∀ d ∈ [1000#64, 1001], let s := asleep d
      Calm { s.updMe fun u => { u with queue := [], sleeping := none } with cur := 0 } ∧
      (∀ j ∈ [(2 : Fin 4), 3], s.strands[j].placed = none ∨ s.strands[j].queue = []) ∧
      (∀ e ∈ s.strands[(1 : Fin 4)].queue, e.instr = .slpat .every 7 ∧ e.held = false ∧ e.caps = [.s 1001]) ∧
      s.strands[(1 : Fin 4)].queue.length = 1 ∧ s.strands[(1 : Fin 4)].sleeping = some 1001 ∧ s.now < 1001 ∧ s.strands[(0 : Fin 4)].sleeping = some d ∧
      (∀ e ∈ s.strands[(0 : Fin 4)].queue, e.instr = .slpat .every 7 ∧ e.held = false ∧ e.caps = [.s d])) ∧
    (1000 : BitVec 64) ≤ base.now ∧ base.now < (1001 : BitVec 64) ∧
    (let s : State := { base with now := 10000000000 }
     s.sys.clock.locked = false ∧ s.sys.clock.holdover ≤ s.now.toNat ∧ s.sys.energy.taken < s.now.toNat / 1000 ∧
     s.sys.energy.begun < s.now.toNat / s.sys.energy.interval ∧ s.sys.energy.next = none ∧
     ({ s.sys.energy with next := some (1000000, 5) } : EnergyState).next = some (1000000, 5)) ∧
    base.now.toNat < base.sys.clock.holdover ∧ base.now.toNat / base.sys.energy.interval ≤ base.sys.energy.begun ∧
    State.reset.now.toNat / 1000 ≤ State.reset.sys.energy.taken ∧
    1000000 ≤ 1000000 ∧ 1000000000 ≤ 1000000000 ∧ 999999 < 1000000 ∧ base.trace = [] := by
  refine ⟨by decide +kernel, by decide, by decide, ?_, by decide +kernel⟩
  intro d hd
  have hd : d = 1000 ∨ d = 1001 := by simpa using hd
  rcases hd with rfl | rfl
  · exact ⟨calm_of (by decide +kernel), by decide +kernel⟩
  · exact ⟨calm_of (by decide +kernel), by decide +kernel⟩

/-- The oldest trace record that waits for no TRC goes to queue 0's ring, which has room, or is full by its head word, or whose page lies
in a stack in self-refresh; its queue is unbound. -/
theorem witness_trace_ring : let r : TraceRec := ⟨0, 1, 2, 3, 4, 7⟩
    let x : TraceRec := ⟨0, 1, 2, 3, 4, 0⟩
    let l := launching 0 []
    let s : State := { (l.updMe fun u => { u with trcs := [0] }) with trace := [x, r] }
    let held : State := { s with sys := { s.sys with selfRefresh := [stackOf (0x5002 * 65536)] } }
    s.trace = [x] ++ r :: [] ∧ s.traceWaits x = true ∧
    succeeds (held.fwWrite (bindingRoot bound) (pageFuel 32) (0x220000 + 32 * (ring.traceTail % 2 ^ 6)) (r.bytes false)) = false ∧
    let full := fun (q : Queue) (h : Nat) => BitVec.ofNat 64 q.traceTail - BitVec.ofNat 64 h = BitVec.ofNat 64 (2 ^ 6)
    s.queue r.queue = some ring ∧ bound.trace = some (0x220000, 6, 0x221000) ∧ s.traceWaits r = false ∧ ¬ full ring ring.traceHead ∧
    (match s.fwWrite (bindingRoot bound) (pageFuel 32) (0x220000 + 32 * (ring.traceTail % 2 ^ 6))
      (leBytes 8 r.time.toNat ++ leBytes 8 r.a.toNat ++ leBytes 8 r.b.toNat ++ leBytes 8 (r.source ||| (if ring.traceLost then 0x8000 else 0)).toNat) with
     | .ok y => succeeds (y.fwWrite (bindingRoot bound) (pageFuel 8) (0x221000 + 8) (leBytes 8 (ring.traceTail + 1)))
     | .error _ => false) = true ∧
    full { ring with traceTail := 64 } 0 ∧
    (match s.fwRead (bindingRoot bound) (pageFuel 8) 0x221000 8 with
     | .ok (b, _) => decide (full { ring with traceTail := 64 } (leNat b))
     | .error _ => false) = true ∧ s.queue 8 = none := by decide +kernel

/-- Four failures of a write to a line that is buffered and to one that is not; a stack whose requests have been held for 50 ms. -/
theorem witness_hbm : Inv base ∧ 4 ≤ 4 ∧ 255 < 256 ∧ (base.sys.bankErrors.map (·.1)).Nodup ∧
    (let s : State := { base with near := [line 1024 []] }; Inv s ∧ (∃ l ∈ s.near, l.line = 1024) ∧ ¬ ∃ l ∈ s.near, l.line = 1025) ∧
    (queued.binding queued.me = some bound ∧ queued.contextOnChannel bound 128 = true ∧ queued.contextOnChannel bound 383 = false ∧
      383 ∉ queued.sys.deadChannels ∧ 128 ∉ queued.sys.deadChannels ∧ (queued.sys.queues.map (·.1)).Nodup ∧
      (∀ q ∈ queued.sys.queues, q.1 < 64) ∧
      (∀ n ∈ queued.sys.nodes, n.stage = .running ∧ (queued.queue n.queue).map (·.binding) = some bound)) ∧
    (∀ k : Fin 4, k ≠ 0 → queued.binding queued.strands[k] = none) ∧ 383 < 384 ∧
    setSorted base.sys.selfRefresh ∧
    (let s : State := { base with now := 50000000
                                  sys := { base.sys with selfRefresh := [2], holding := [(2, 0)] } }
     Inv s ∧ 2 ∈ s.sys.selfRefresh ∧ 2 ∉ s.sys.stalled ∧ (2, (0 : BitVec 64)) ∈ s.sys.holding ∧ (0 : BitVec 64).toNat + 50000000 ≤ s.now.toNat ∧
     s.sys.log.length < 256 ∧ 3 ∉ s.sys.selfRefresh) ∧
    (let w : RemoteWait := ⟨.read 0x20000 8 0 9 1, 0, 0⟩
     let s : State := { base with sys := { base.sys with selfRefresh := [stackOf 0x20000], remoteWaits := [w] } }
     Inv s ∧ s.sys.remoteWaits = [w] ∧ isMain 0x20000 = true ∧ (∀ l ∈ linesOf 0x20000 8, stackOf (l * 64) = stackOf 0x20000) ∧
     s.near = [] ∧ setSorted s.sys.selfRefresh) :=
  ⟨inv_of_lists (by decide +kernel), by decide, by decide, by decide +kernel,
    ⟨near_of (l := [line 1024 []]) (by decide +kernel) (by unfold nearOk; decide +kernel), by decide +kernel, by decide +kernel⟩,
    by decide +kernel, by decide +kernel, by decide, by unfold setSorted; decide +kernel,
    ⟨inv_of_lists (by decide +kernel), by decide +kernel⟩,
    ⟨inv_of_lists (by decide +kernel), by decide +kernel, by decide, by decide +kernel, by decide +kernel,
      by unfold setSorted; decide +kernel⟩⟩

/-! ## Witnesses: encoding and the step -/

theorem witness_encoding : (Instr.add .every 3 1 2).isWord = true ∧ (Instr.add .every 3 1 2).wf = true ∧
    (Instr.vamo .last 5 2 0 0 4 0 9 3).isWord = true ∧ (Instr.vamo .last 5 2 0 0 4 0 9 3).wf = true ∧
    inPrivRange ((encode (.add .every 3 1 2)).headD 0) = false ∧ inPrivRange ((encode (.mslot .every 3 1)).headD 0) = true ∧
    decode false [0x00230880] = .ok (.add .every 3 1 2) ∧ decode true (encode (.mslot .every 3 1)) = .ok (.mslot .every 3 1) := by
  decide +kernel

/-- A word at the first place of a text, run and passed over: ADD, and ADD of the first iteration in the second one. -/
def fetching (w : Nat) : State := base.withFetchWord 32 w

theorem witness_step_runs : (∀ x ∈ [((fetching 0x00230880, 0x00230880#32), (Instr.add .every 3 1 2)),
      (({ fetching 0x08230880 with strands := (fetching 0x08230880).strands.set 0 { (fetching 0x08230880).strands[0] with
          loops := Strand.launch.loops.set 0 { firstLevel with iter := 2 } } }, 0x08230880#32), Instr.add .first 3 1 2)],
    let s := x.1.1
    let st := s.me
    let e := s.evictLines
    s.env.inputs = [] ∧ st.placed.isSome = true ∧ st.inject = [] ∧ st.blocked = false ∧ e.textWord st.pc.toNat = some x.1.2 ∧
    e.fetchStop st.pc.toNat (e.lengthAt st.pc.toNat) = none ∧ e.testWaits e.wordsHere = false ∧ decode st.priv e.wordsHere = .ok x.2 ∧ st.qualifierBad x.1.2 = false ∧
    st.valueOk x.2 = true ∧ e.placementBad x.2 = false ∧ st.eretOutside x.2 = false ∧
    (st.qualified x.2 = true ∨ st.loops[0].iter = 2 ∧ st.qualified x.2 = false)) := by decide +kernel

/-- A word with a reserved bit set, and a PC at the end of the text. -/
theorem witness_step_stops :
    (let s := fetching 0x00230881
     let e := s.evictLines
     let a := s.me.pc.toNat
     s.env.inputs = [] ∧ s.me.inject = [] ∧ s.me.blocked = false ∧ e.textWord a = some 0x00230881 ∧ e.fetchStop a (e.lengthAt a) = none ∧
     s.me.placed.isSome = true ∧ e.testWaits e.wordsHere = false ∧ e.tests e.wordsHere = .error (fail .reservedBit) ∧
     e.missedWord (fail .reservedBit) = none) ∧
    (let s := with0 fun u => { u with pc := 0x4000 }
     s.env.inputs = [] ∧ s.me.inject = [] ∧ s.me.blocked = false ∧ s.me.placed = some pl ∧ s.evictLines.textWord 0x4000 = none) := by
  decide +kernel

/-- Steps of 2,000 ns: at most 1 ns is slewed out. -/
theorem witness_step_ticks : let s : State := { base with env := { base.env with pace := [2000] } }
    let most : Int := ((2000 * 500 + s.sys.clock.carry) / 1000000 : Nat)
    s.orphans = [] ∧ s.links = [] ∧ s.wakes = false ∧ s.near = [] ∧ s.sys.nodes = [] ∧ s.env.upsets = [] ∧ s.env.stray = [] ∧
    s.env.others = [] ∧ s.env.away = [] ∧ s.env.dies = [] ∧ s.env.pace.headD 1 = 2000 ∧
    most = 1 ∧ -most ≤ s.sys.clock.slew ∧ s.sys.clock.slew ≤ most ∧ most < 2 ∧ (-2 : Int) < -most := by decide +kernel

/-- An event that has arrived; and a step of the test machine that answers a next state. -/
theorem witness_step : ({ base with env := { base.env with inputs := [.retryReissue] } } : State).env.inputs = .retryReissue :: [] ∧
    Instr.retryReissue.isWord = false ∧ base.sys.clock.slew = 0 ∧ Inv base ∧
    (match step (fetching 0x00230880) with | .next _ => true | _ => false) = true :=
  ⟨rfl, by decide, by decide +kernel, inv_of_lists (by decide +kernel), by decide +kernel⟩

/-- A byte of a line that the buffer does not hold, read back at the edge of a line. -/
theorem witness_reads_back : Memory.wf [(3, 5#8)] = true ∧ Inv base ∧ 0 < [5#8].length ∧ (1024 * 64 + 63) % 64 + [5#8].length ≤ 64 ∧
    isMain (1024 * 64 + 63 + 63) = true := ⟨by decide, inv_of_lists (by decide +kernel), by decide, by decide, by decide⟩

/-! ## One step: results worked out from the spec by hand (S1 = 5, S2 = 3, S3 = -2, S11 the least number) -/

/-- The test machine with the bytes of the codes 1, 2, 3 … at A1. -/
def counted : State := { filled with mem := (List.range 128).map fun k => (scr 0x1000 + k, BitVec.ofNat 8 (k + 1)) }

/-- R57: sums and differences wrap, products have their halves. -/
theorem test_scalar_sums : (after (.add .every 9 3 1) base).me.getS 9 = 3 ∧ (after (.sub .every 9 2 1) base).me.getS 9 = -2 ∧
    (after (.mul .every 9 3 1) base).me.getS 9 = -10 ∧ (after (.mulh .every 9 3 1) base).me.getS 9 = -1 ∧
    (after (.mulhu .every 9 3 1) base).me.getS 9 = 4 ∧ (after (.add .every 0 3 1) base).me.getS 0 = 0 := by decide +kernel

/-- R57: shifts take the amount modulo 64. -/
theorem test_scalar_shifts : (after (.shl .every 9 1 2) base).me.getS 9 = 40 ∧ (after (.shr .every 9 3 2) base).me.getS 9 = 0x1FFFFFFFFFFFFFFF ∧
    (after (.sra .every 9 3 2) base).me.getS 9 = -1 ∧ (after (.shl .every 9 1 17) base).me.getS 9 = 5 ∧
    (after (.shli .every 9 1 63) base).me.getS 9 = 0x8000000000000000 ∧ (after (.srai .every 9 11 63) base).me.getS 9 = -1 ∧
    (after (.shri .every 9 11 63) base).me.getS 9 = 1 := by decide +kernel

theorem test_scalar_logic_and_order : (after (.and .every 9 1 2) base).me.getS 9 = 1 ∧ (after (.or .every 9 1 2) base).me.getS 9 = 7 ∧
    (after (.xor .every 9 1 2) base).me.getS 9 = 6 ∧ (after (.min .every 9 3 1) base).me.getS 9 = -2 ∧
    (after (.minu .every 9 3 1) base).me.getS 9 = 5 ∧ (after (.max .every 9 3 1) base).me.getS 9 = 5 ∧
    (after (.maxu .every 9 3 1) base).me.getS 9 = -2 := by decide +kernel

/-- R57-R59: the immediate is signed. -/
theorem test_scalar_immediates : (after (.addi .every 9 1 0x7FF) base).me.getS 9 = 4 ∧ (after (.andi .every 9 1 0x7FC) base).me.getS 9 = 4 ∧
    (after (.ori .every 9 1 0x400) base).me.getS 9 = 0xFFFFFFFFFFFFFC05 ∧ (after (.xori .every 9 1 1) base).me.getS 9 = 4 ∧
    (after (.movi .every 9 0x8000) base).me.getS 9 = 0xFFFFFFFFFFFF8000 ∧ (after (.insh0 .every 1 7) base).me.getS 1 = 7 ∧
    (after (.insh1 .every 1 7) base).me.getS 1 = 0x70005 ∧ (after (.insh2 .every 1 7) base).me.getS 1 = 0x700000005 ∧
    (after (.insh3 .every 1 7) base).me.getS 1 = 0x7000000000005 ∧ (after (.popc .every 9 3) base).me.getS 9 = 63 ∧
    (after (.clz .every 9 1) base).me.getS 9 = 61 ∧ (after (.clz .every 9 0) base).me.getS 9 = 64 ∧
    (after (.nop .every) base).me.pc = 0x104 := by decide +kernel

theorem test_predicates : (after (.cmp .every 1 3 1 2) base).me.getP 1 = true ∧ (after (.cmp .every 1 3 1 4) base).me.getP 1 = false ∧
    (after (.cmpi .every 1 3 0 0x3FE) base).me.getP 1 = true ∧ (after (.cmpi .every 1 1 5 0x3FF) base).me.getP 1 = false ∧
    (after (.plog .every 1 0 2 3) base).me.getP 1 = true ∧ (after (.plog .every 1 0 0 5) base).me.getP 1 = false ∧
    (after (.sel .every 9 1 2 0) base).me.getS 9 = 5 ∧ (after (.sel .every 9 1 2 1) base).me.getS 9 = 3 := by decide +kernel

/-- R63-R65: with the PC at 0x100, the two delay words end at 0x10C. -/
theorem test_transfers : (after (.pbr .every 2 0x7FFFF) base).me.getB 2 = 0xFC ∧ (after (.pbrr .every 2 4) base).me.getB 2 = 8 ∧
    (after (.pbrr .every 2 5) base).me.trapcause = 0x0A ∧ (after (.br .every 2 0 1) base).me.xfer = some ⟨0, 0x10C, 2, false⟩ ∧
    (after (.call .every 2 0 0) base).me.rstack = [0x10C, 0x40] ∧ (after (.ret .every 0 0) base).me.xfer = some ⟨0x40, 0x10C, 2, true⟩ ∧
    (after (.ret .every 0 0) (stacked 0)).me.trapcause = 0x05 := by decide +kernel

/-- R67, R70-R72: a loop of three iterations over one word; one of none skips its body; the end of an iteration. -/
theorem test_loops : ((after (.loop .every 0 2 1 0) base).me.loops[0]).count = 3 ∧ (after (.loop .every 0 2 1 0) base).me.pc = 0x104 ∧
    (after (.loop .every 0 0 4 0) base).me.pc = 0x114 ∧ ((after (.lstr .every 0 2 4) base).me.loops[0].stride[2]) = 8 ∧
    ((after (.lbrk .every 0 0) { looping 3 1 false with strands := (looping 3 1 false).strands.map fun u => { u with pc := 0xF4 } }).me.loops[0]).brk = true ∧
    (after (.nop .every) (looping 3 1 false)).me.pc = 0xF0 ∧ ((after (.nop .every) (looping 3 1 false)).me.getA 1).addr = 0x1004 := by
  decide +kernel

theorem test_address_registers : ((after (.ainc .every 4 0x30) base).me.getA 4).addr = 0x1000 ∧
    ((after (.ainc .every 1 0x3FFFF) base).me.getA 1).addr = 0xFFF ∧ (after (.amov .every 1 1 2) base).me.getA 1 = ⟨5, 5, 0⟩ := by
  decide +kernel

/-- R76, R79: the least byte lies lowest. -/
theorem test_scalar_memory : (after (.ldsW .every 9 1 0 0 1) counted).me.getS 9 = 0x08070605 ∧
    (after (.ldsD .every 9 1 0 0 1) counted).me.getS 9 = 0x100F0E0D0C0B0A09 ∧
    cellsRead (after (.stsD .every 5 1 0 0 0) base).mem (scr 0x1000) 3 = [2, 16, 0] ∧
    (after (.stsW .every 5 1 0 1 0) base).full = [scr 0x1000 / 16] ∧ (after (.ldsW .every 9 6 0 0 0) base).me.trapdata = 0x1002 ∧
    cellsRead (after (.stg .every 5 1 4 0) base).mem 65544 2 = [2, 16] ∧ (after (.stg .every 5 2 4 0) base).peek 131081 = 16 ∧
    (after (.ldg .every 9 1 4 1) base).me.getS 9 = 0 ∧ (after (.ldg .every 9 0 4 1) base).me.placed = none := by decide +kernel

theorem test_identity : (after (.getid .every 9 7) base).me.getS 9 = 3 ∧ (after (.getid .every 9 9) base).me.getS 9 = 1 ∧
    (after (.time .every 9) base).me.getS 9 = 1000 ∧ (after (.csrr .every 9 0x000) base).me.getS 9 = 1 ∧
    (after (.csrr .every 9 0x050) base).me.getS 9 = 1 ∧ (after (.csrw .every 5 0x010) base).me.trapvec = 0x1000 ∧
    (after (.rsbottomRead .every 9) base).me.getS 9 = 0x40 ∧ (after (.rsbottomWrite .every 5) base).me.rstack = [0x40, 0x1000] := by
  decide +kernel

/-- R128-R131: lane 0 of V16 and V17 is 1.0, lane 1 is 1.0078125 (0x3F810000). -/
theorem test_vector_float : let f := fun (i : Instr) (l : Nat) => lane ((after i base).me.getV 60).data l
    f (.vfadd .every 60 16 17) 0 = 0x40000000 ∧ f (.vfadd .every 60 16 17) 1 = 0x40010000 ∧ f (.vfsub .every 60 16 17) 1 = 0 ∧
    f (.vfmul .every 60 16 17) 1 = 0x3F820200 ∧ f (.vfmin .every 60 16 17) 2 = 0x3F820000 ∧ f (.vfmax .every 60 16 17) 2 = 0x3F820000 ∧
    f (.vfdiv .every 60 16 17) 5 = 0x3F800000 ∧ f (.vfsqrt .every 60 16) 0 = 0x3F800000 ∧ f (.vfsgn .every 60 16 0 1) 0 = 0xBF800000 ∧
    f (.vfops .every 60 16 22 0) 0 = 0x40000000 ∧ f (.vfun .every 60 16 2) 0 = 0x40000000 := by decide +kernel

/-- R128: V(vd) is the accumulator: 1 × 1 + 1, 1 × 1 − 1 and 1 − 1 × 1. -/
theorem test_vector_fused : let f := fun (i : Instr) => lane ((after i base).me.getV 18).data 0
    f (.vfma .every 18 16 17) = 0x40000000 ∧ f (.vfms .every 18 16 17) = 0 ∧ f (.vfnma .every 18 16 17) = 0 := by decide +kernel

/-- R132, R133: lane l of V32 to V47 is l. -/
theorem test_vector_integer : let f := fun (i : Instr) (l : Nat) => lane ((after i base).me.getV 60).data l
    f (.vadd .every 60 32 33 0) 31 = 62 ∧ f (.vsub .every 60 32 33 0) 31 = 0 ∧ f (.vmul .every 60 32 33) 31 = 961 ∧
    f (.vmulh .every 60 32 33 0) 31 = 0 ∧ f (.vand .every 60 32 33) 5 = 5 ∧ f (.vor .every 60 32 33) 5 = 5 ∧ f (.vxor .every 60 32 33) 5 = 0 ∧
    f (.vshl .every 60 32 33) 3 = 24 ∧ f (.vshr .every 60 32 33) 3 = 0 ∧ f (.vsra .every 60 32 33) 1 = 0 ∧ f (.vmin .every 60 32 33 1) 9 = 9 ∧
    f (.vmax .every 60 32 33 0) 9 = 9 ∧ f (.viops .every 60 32 1 0) 31 = 36 := by decide +kernel

/-- R134-R136. -/
theorem test_vector_masks : (after (.vcmp .every 2 32 33 0) base).me.getM 2 = 0xFFFFFFFF ∧ (after (.vfcmp .every 2 16 17 2) base).me.getM 2 = 0 ∧
    (after (.vmlog .every 2 0 1 4) base).me.getM 2 = 0xFFFFFFFF ∧ (after (.vact .every 3) base).me.act = 3 ∧
    (after (.vany .every 1 1) base).me.getP 1 = false ∧ (after (.vall .every 1 0) base).me.getP 1 = true ∧
    (after (.vmpop .every 9 0) base).me.getS 9 = 32 := by decide +kernel

/-- R138-R140: 0 + … + 31 = 496; 32 + 496/128 = 35.875; lane 2 of the running sum of 1.0, 1.0078125, 1.015625. -/
theorem test_vector_reductions : (after (.vred .every 0 32 9 8) base).me.getS 9 = 496 ∧ (after (.vfred .every 0 16 9 8) base).me.getS 9 = 0x420F8000 ∧
    lane ((after (.vfscan .every 60 16 0) base).me.getV 60).data 2 = 0x4041_8000 := by decide +kernel

/-- R137, R141-R146. -/
theorem test_vector_moves : let f := fun (i : Instr) (l : Nat) => lane ((after i base).me.getV 60).data l
    f (.vsel .every 60 32 33 0) 7 = 7 ∧ f (.vmov .every 60 32) 7 = 7 ∧ f (.vmovi .every 60 0x7FFF) 7 = 0xFFFFFFFF ∧ f (.viota .every 60 1) 31 = 31 ∧
    f (.vbcs .every 60 3 4) 9 = 0xFFFFFFFE ∧ f (.vbcl .every 60 32 1) 9 = 5 ∧ f (.vperm .every 60 32 12) 9 = 0 ∧ f (.vrot .every 60 32 1 0) 30 = 3 ∧
    f (.vrot .every 60 32 1 2) 4 = 0 ∧ f (.vins .every 16 9 1) 9 = 0 ∧ f (.vmovMaskToReg .every 60 0) 3 = 0xFFFFFFFF ∧
    (after (.vmovRegToMask .every 2 13) base).me.getM 2 = 0 ∧ lane ((after (.vins .every 32 9 1) base).me.getV 32).data 9 = 5 ∧
    (after (.vext .every 31 32 9 0) base).me.getS 9 = 31 ∧ ((after (.vtag .every 60 32 12) base).me.getV 60).tag = 12 := by decide +kernel

/-- R145: 0 to 31 as FP32; lane 3 is 3.0. -/
theorem test_vector_convert : lane ((after (.vcvt .every 60 32 1 0 0) base).me.getV 60).data 3 = 0x40400000 ∧
    ((after (.vcvt .every 60 32 1 0 0) base).me.getV 60).tag = 1 := by decide +kernel

/-- R147-R150. -/
theorem test_vector_memory : lane ((after (.vld .every 60 1 0 0 4 0) counted).me.getV 60).data 1 = 0x08070605 ∧
    ((after (.vld .every 60 1 0 0 4 1) counted).me.getA 1).addr ≠ 0x1000 ∧
    lane ((after (.vldx .every 60 1 0 0 4 0 12) counted).me.getV 60).data 9 = 0x04030201 ∧
    cellsRead (after (.vst .every 32 1 0 0 4 0) base).mem (scr 0x1004) 8 = [1, 0, 0, 0, 2, 0, 0, 0] ∧
    cellsRead (after (.vstx .every 32 1 0 0 4 0 12) base).mem (scr 0x1000) 4 = [31, 0, 0, 0] ∧
    lane ((after (.vldl .every 60 1 0 0 4 0) (after (.vstl .every 32 1 0 0 4 0) base)).me.getV 60).data 30 = 30 ∧
    cellsRead (after (.vamo .every 32 1 0 0 4 0 12 0) base).mem (scr 0x1000) 2 = [0xF0, 1] := by decide +kernel

/-- An INT8 plane whose element (0, 0) is 2, active in macro 1. -/
def multiplying : State :=
  let p : Plane := { Plane.reset with fmt := .int8, rows := Plane.reset.rows.set 0 2 }
  { counted with matrix := { counted.matrix with macros := counted.matrix.macros.set 1 ⟨p, p, 0⟩ } }

/-- R167: the INT8 row 3, 0, … against the plane's column 0, which begins with 2: 3 × 2 + 5 = 11. -/
theorem test_matrix_entry : entrySum true [(multiplying.matrix.macros[1]).live]
    (aRow 6 128 (3 :: List.replicate 127 0) []).toArray 0 5 = (11, false) := by decide +kernel

/-- R155-R163, R172-R175: the words that arrange the engine, load planes and read tiles. -/
theorem test_matrix_words : (after (.mcfg .every 2) base).matrix.gang = 2 ∧ ((after (.mswap .every 1 0) base).matrix.macros[1]).active = 1 ∧
    (after (.mclr .every 1 9 1) tiled).me.getS 9 = 0x400 ∧ ((after (.mpois .every 1) base).matrix.tiles[1]).poison = true ∧
    ((after (.mslot .every 31 1) base).matrix.slots[15]) = 0 ∧
    ((after (.mldw .every 0 6 1 0 0 0 0 0 0) counted).matrix.macros[0]).shadow.bits 0 3 = 4 ∧
    ((after (.mrdv .every 1 0 60) tiled).me.getV 61).tag = 4 ∧
    cellsRead (after (.mrd .every 1 0 0 2 0 0 0) tiled).mem (scr 0x2000) 2 = [0, 0] ∧
    ((after (.mwrk .every 1 16 31) tiled).matrix.macros[1]).shadow.bits 0 0 = 1 ∧
    lane ((after (.mrdk .every 1 60 31) multiplying).me.getV 60).data 0 = 2 := by decide +kernel

/-- R106-R117: with INT8 and scale 1.0 the value 1.0 has the code 1; 448.0 / 448 = 1.0. -/
theorem test_quantiser : cellsRead (after (.qstv .every 1 0 16 0 22 0) (quantised ⟨6, 0, 0, 0, 0⟩)).mem (scr 0x1000) 2 = [1, 1] ∧
    (after (.qcfg .every 6 0 2 1 3) base).me.qcfg = ⟨6, 0, 2, 1, 3⟩ ∧
    (after (.qscl .every 9 1) (with0 fun u => { u with s := u.s.set 1 0x43E00000 })).me.getS 9 = 0x3F800000 ∧
    (after (.qrld .every 0 3 1 0 0 0 0) counted).me.getQ 3 = 0x04030201 ∧
    cellsRead (after (.qrst .every 0 3 2 0 0 0 0) (after (.qrld .every 0 3 1 0 0 0 0) counted)).mem (scr 0x2000) 5 = [1, 2, 3, 4, 0] ∧
    (after (.qrmov .every 0 4 3) (after (.qrld .every 0 3 1 0 0 0 0) counted)).me.getQ 4 = 0x04030201 ∧
    (after (.qrclr .every 0 3) base).me.qflags = 4 ∧ (after (.qflg .every 9 1) (after (.qrclr .every 0 3) base)).me.qflags = 0 ∧
    cellsRead (after (.qstt .every 15 0 0 22 0 1 0 0 4) tiled).mem (scr 0x1000) 2 = [0, 0] := by decide +kernel

/-- R181-R195. -/
theorem test_line_engine : (after (.lntol .every 3 22) base).line.tau 3 = 0x3F800000 ∧
    ((after (.lnld .every 31 1 0 0 2) counted).line.rec_ 0).a = 0x04030201 ∧
    cellsRead (after (.lnst .every 31 2 0 0) (after (.lnld .every 31 1 0 0 2) counted)).mem (scr 0x2004) 2 = [5, 6] ∧
    (after (.lncnt .every 60 0 0) (after (.lnchk .every 2 15 0 0 0) tiled)).me.getV 60 =
      ⟨ofLanes fun _ => 1, 4, 0, false⟩ ∧ (after (.lnchk .every 2 15 0 0 0) tiled).me.getM 3 = 0xFFFFFFFF ∧
    (after (.lnrfl .every 9 2 0 1) (after (.lnchk .every 2 15 0 0 0) tiled)).me.getS 9 = 0x3E00000002 ∧
    lane ((after (.lnapl .every 60 15 0 0 0) tiled).me.getV 60).data 0 = 0 ∧
    lane ((after (.lncor .every 60 15 0 0 0) tiled).me.getV 60).data 0 = 0x7FC00000 ∧
    (after (.lnclrList .every) refreshing).line.refresh = [] ∧ (after (.lnclrCounts .every 0) (after (.lnchk .every 2 15 0 0 0) tiled)).line.counts = [] ∧
    (after (.lnclrLines .every 0) (after (.lnld .every 31 1 0 0 2) counted)).line.records = [] ∧
    lane ((after (.lnfold .every 60 16 31 0 0) base).me.getV 60).data 0 = 0 := by decide +kernel

/-- R186, R187: a code of LNFIT sets the function of every feature it fits. -/
theorem test_line_fit : ((after (.lnfit .every 16 0 0 1) base).line.fn 31) = 1 ∧ ((after (.lnfit .every 16 1 0 1) base).line.fn 31) = 0 ∧
    (after (.lnstTable .every 1 0 2) base).me.pc = 0x104 := by decide +kernel

/-- R216-R226. -/
theorem test_copies : cellsRead (after (.cpyLinear .every 2 0 1 0 16 1 0) counted).mem (scr 0x2000) 3 = [1, 2, 3] ∧
    (after (.cpyLinear .every 2 0 1 0 16 1 0) counted).allFull (granules (scr 0x2000) 128) = true ∧
    cellsRead (after (.cpyPattern .every 1 0 0 0 0) { streams id with mem := counted.mem }).mem (scr 0x2010) 2 = [17, 18] ∧
    (after (.cpymLinear .every 2 0 1 0 16 0 0 (.mcfg .every 1)) counted).matrix.gang = 1 ∧
    ((after (.cpymPattern .every 1 0 0 0 0 (.mcfg .every 1)) { streams id with mem := counted.mem }).me.copyDone) = 1 ∧
    (after (.srec .every 1 1 0) counted).me.slots[1].valid = false ∧ (after (.srec .every 4 1 0) counted).me.trapcause = 0x09 ∧
    cellsRead (after (.cred .every 1 0 1 0 16 4 0 0) counted).mem (scr 0x1000) 2 = [2, 4] ∧
    cellsRead (after (.cvqxExpand .every 2 0 1 0 4 0 0) { counted with codebook := 0x0807060500000000 }).mem (scr 0x2000) 4 = [5, 6, 7, 8] := by
  decide +kernel

/-- R222-R227: a page holds its row number plus one at each row. -/
theorem test_windows_and_gathers :
    (let s : State := { streams id with mem := [(131072, 1#8), (131136, 2#8)] }
     let t := after (.cwin .every 2 4 0 2 2 31) s
     cellsRead t.mem (scr 0x1010) 17 = 1 :: List.replicate 15 0 ++ [2] ∧
     (after (.cadv .every 2 10 0 0) t).allFull (granules (scr 0x1010) 16) = false) ∧
    cellsRead (after (.cgath .every 1 0 2 0 10 2 0 0) { base with mem := [(scr 0, 9#8)] }).mem (scr 0x1000) 1 = [9] ∧
    cellsRead (after (.cscat .every 1 0 2 0 10 2 0 0) counted).mem (scr 0) 4 = [1, 2, 3, 4] ∧
    (let t := (after (.sisect .every 1 12 14 0 0 1 0 0 0 1 0) base).me
     t.getS 1 = 0x200000002 ∧ t.getS 12 = 0x2008 ∧ t.getS 13 = 0x2048) ∧
    (after (.cseq .every 9 0 1) base).me.getS 9 = 0 := by decide +kernel

/-- R257-R273, R286, R289. -/
theorem test_ordering : (after (.fence .every 5) (after (.stg .every 5 2 4 0) base)).near = [] ∧
    (after (.xfence .every 0 7 2) (after (.stg .every 5 2 4 0) base)).near = [] ∧ (after (.drain .every 5) base).me.pc = 0x104 ∧
    (after (.trig .every) base).me.triggered = true ∧ (after (.wfe .every) base).me.queue.length = 1 ∧
    (after (.sev .every 0 0 0 0) base).me.latch = true ∧ (after (.slpat .every 1) base).me.sleeping = none ∧
    (after (.slpat .every 7) base).me.sleeping = some 65536 ∧ (after (.bar .every 5 9 1) base).me.getS 9 = 0 ∧
    (after (.bar .every 5 9 1) twoStrands).me.queue.length = 1 ∧ (after (.waitseq .every 9 0 1 0) base).me.getS 9 = 0 := by decide +kernel

/-- R266, R269: 5 is added to the word 0x04030201, and compared with it. -/
theorem test_atomics : (after (.ldaq .every 9 1 1 0 0 0) counted).me.getS 9 = 0x04030201 ∧
    cellsRead (after (.strl .every 5 1 2 0 0 0) base).mem (scr 0x2000) 2 = [2, 16] ∧ (after (.ldaqHandle .every 9 0 1 4 0) base).me.getS 9 = 0 ∧
    cellsRead (after (.strlHandle .every 5 0 1 4 0) base).mem 65544 2 = [2, 16] ∧
    (after (.amo .every 9 0 1 (0x20#9 <<< 1) 0 0 1 0) counted).me.getS 9 = 0x04030201 ∧
    cellsRead (after (.amo .every 9 0 1 (0x20#9 <<< 1) 0 0 1 0) counted).mem (scr 0x1000) 2 = [6, 2] ∧
    cellsRead (after (.cas .every 9 0 1 (0x20#9 <<< 1) 0 0 1 2) counted).mem (scr 0x1000) 2 = [1, 2] := by decide +kernel

/-- R230-R241: page 0 of the mapped machine is at physical page 5. -/
theorem test_translation : (after (.trn .every 6 31) mapped).me.trns.length = 1 ∧ (after (.hvld .every 1 2 9) mapped).me.getS 9 = 0x51 ∧
    ((after (.probe .every 6 31 1) mapped).me.getH 6).ppn = 5 ∧ (after (.probe .every 6 7 1) mapped).me.trapdata = 0x4000000000010000 ∧
    (after (.invqIssue .every 9 1 2) base).sys.invs.length = 1 ∧ (after (.invqAck .every 9) (after (.invqIssue .every 9 1 2) base)).me.pc = 0x108 := by
  decide +kernel

/-- R251, R308, R311, R312, R335, R336, R342. -/
theorem test_system : (after (.trap .every 7) base).me.pc = 0x800 ∧ (after (.trap .every 7) base).me.trapcause = 0x08 ∧
    (after (.exit .every) base).me.placed = none ∧
    (after (.task .every 9 1 0 31) queued).me.getS 9 = 0 ∧ (after (.tokq .every 9 10 1) queued).me.getS 9 = 0 ∧
    (after (.mchkPop .every 9 2 23 0) base).me.getS 9 = 0 ∧ (after (.mchkInject .every 2) base).armed = [2] ∧
    (after (.trc .every 1 2 7) queued).trace.length = 1 ∧ (after (.ctxsvStrand .every 9 31 5 31) base).me.getS 9 = 3 ∧
    (after (.ctxldStrand .every 9 4 5 31) base).me.getS 9 = 4 ∧ (after (.ctxldStrand .every 9 6 5 31) base).me.getS 9 = 1 ∧ (after (.ctxldStrand .every 9 10 5 31) base).me.getS 9 = 4 ∧
    (after (.ctxsvCore .every 9 31 5 31) base).me.getS 9 = 3 ∧ (after (.ctxldCore .every 9 24 5 31) base).me.getS 9 = 1 := by decide +kernel

/-- R276-R352: events. -/
theorem test_events : (after .retryReissue base).retries = 1 ∧ (after .nearBufferDrain (after (.stg .every 5 2 4 0) base)).near = [] ∧
    cellsRead (after (.remoteRequest (.write (scr 0) [7#8] [] 1)) base).mem (scr 0) 1 = [7] ∧
    (after (.criticalTemperature 2) base).stackHeld (2 ^ 0) = (base.stackHeld 1 || decide (stackOf 1 = 2)) ∧
    (after (.launchDoorbell 0 9) { launching 0 [] with cycle := 0 }).sys.queues.length = 3 ∧
    (after (.nodePlacement 0) { launching 0 [task .eligible] with cur := 0 }).strands[(0 : Fin 4)].placed = some pl ∧
    (after (.energyConfig 1000000 5) base).sys.energy.next = some (1000000, 5) ∧ (after .holdoverExpiry { base with now := 10000000000 }).sys.clock.placing = true ∧
    (after (.trapEntry ⟨0x0A, 7⟩) base).me.trapdata = 7 ∧ (after (.hbmParityAlert 0 0 5 false 4) base).linePoisoned 5 = true := by decide +kernel

end Sys2Proof.Tests
end

section
/-! PROOFS. The statements of `spec/04_control_instructions.md` (R60-R62, R74, R75, R84): a clear control word answers the state
with its effect, past the word, since its bookkeeping (R54, R147, R220) adds nothing; what is left of each statement is the value
that the word writes. -/

namespace Sys2Proof.Machine

/-! ## A control word completes with its effect alone -/

/-- Only vector memory words have post-increments. -/
theorem Strand.postInc_control {i : Instr} (hc : i.eng = some .control) (st : Strand) : st.postInc i = st := by
  unfold Strand.postInc
  split
  case h_8 => rfl
  all_goals cases hc

theorem Instr.copyNumbered_control {i : Instr} (hc : i.eng = some .control) : i.copyNumbered = false := by
  simp [Instr.copyNumbered, hc]

theorem Instr.netNumbered_control {i : Instr} (hc : i.eng = some .control) : i.netNumbered = false := by
  cases i <;> cases hc <;> rfl

theorem drainsPipe_control {i : Instr} (hc : i.eng = some .control) : drainsPipe i = false := by
  cases i <;> cases hc <;> rfl

/-- A control word takes no sequence number, has no post-increment and is no drain point: its bookkeeping changes nothing. -/
theorem Strand.bookkeep_control {i : Instr} (hc : i.eng = some .control) (st : Strand) : st.bookkeep i = st := by
  simp [Strand.bookkeep, Strand.postInc_control hc, Strand.number, Strand.completed, Instr.copyNumbered_control hc,
    Instr.netNumbered_control hc, drainsPipe_control hc, hc]

/-- The control engine is not a shared one: no turn is taken in it. -/
theorem State.serve_control {i : Instr} (hc : i.eng = some .control) (s : State) : s.serve i = s := by
  unfold State.serve
  rw [hc]

/-- A clear control word answers the state past it, with the effect that its body has. -/
theorem control_past {i : Instr} {s x : State} {body : M Unit} (hc : i.eng = some .control) (h : Clear i s)
    (hb : body s = .ok ((), x)) : control i body s = .next (s.past i x) := by
  rw [control_clear h hb]
  unfold State.past
  simp only [Strand.bookkeep_control hc, State.serve_control hc]

/-- Two changes that agree on the current strand make the same state. -/
theorem State.updMe_congr {s : State} {f g : Strand → Strand} (h : f s.me = g s.me) : s.updMe f = s.updMe g :=
  congrArg s.setMe h

/-- A clear control word whose body changes the strand by `f` answers the change `g` that agrees with it there. -/
theorem control_updMe {i : Instr} {s : State} {f g : Strand → Strand} (hc : i.eng = some .control) (h : Clear i s)
    (hfg : f s.me = g s.me) : control i (updMe f) s = .next (s.past i (s.updMe g)) := by
  rw [control_past hc h (updMe_run f s), State.updMe_congr hfg]

/-! ## The conditions of a compare (R21, R60) -/

theorem intCond_two (x y : BitVec 64) : intCond 2 x y = decide (x.toInt < y.toInt) := rfl

theorem intCond_three (x y : BitVec 64) : intCond 3 x y = decide (y.toInt ≤ x.toInt) := by
  simp [intCond, BitVec.slt, ← decide_not]

theorem intCond_four (x y : BitVec 64) : intCond 4 x y = decide (x.toNat < y.toNat) := rfl

theorem intCond_five (x y : BitVec 64) : intCond 5 x y = decide (y.toNat ≤ x.toNat) := by
  simp [intCond, BitVec.ult, ← decide_not]

/-! ## Compares, predicate functions and SEL (R60-R62) -/

theorem exec_cmp {s : State} {q : Itq} {pd : BitVec 3} {a b : BitVec 5} {cond : BitVec 4} {v : Bool}
    (h : Clear (.cmp q pd a b cond) s) (hv : intCond cond.toNat (s.me.getS a) (s.me.getS b) = v) :
    exec (.cmp q pd a b cond) s = .next (s.past (.cmp q pd a b cond) (s.updMe fun u => u.setP pd v)) :=
  control_updMe rfl h (congrArg (s.me.setP pd) hv)

theorem exec_cmpi {s : State} {q : Itq} {pd : BitVec 3} {a : BitVec 5} {cond : BitVec 3} {imm : BitVec 10} {v : Bool}
    (h : Clear (.cmpi q pd a cond imm) s) (hv : intCond cond.toNat (s.me.getS a) (imm.signExtend 64) = v) :
    exec (.cmpi q pd a cond imm) s = .next (s.past (.cmpi q pd a cond imm) (s.updMe fun u => u.setP pd v)) :=
  control_updMe rfl h (congrArg (s.me.setP pd) hv)

theorem exec_plog {s : State} {q : Itq} {pd pa pb fn : BitVec 3} {v : Bool}
    (h : Clear (.plog q pd pa pb fn) s) (hv : boolFn fn.toNat (s.me.getP pa) (s.me.getP pb) = v) :
    exec (.plog q pd pa pb fn) s = .next (s.past (.plog q pd pa pb fn) (s.updMe fun u => u.setP pd v)) :=
  control_updMe rfl h (congrArg (s.me.setP pd) hv)

theorem exec_sel {s : State} {q : Itq} {d a b : BitVec 5} {p : BitVec 3} (h : Clear (.sel q d a b p) s) :
    exec (.sel q d a b p) s = .next (s.past (.sel q d a b p)
      (s.updMe fun u => u.setS d (if s.me.getP p = true then s.me.getS a else s.me.getS b))) :=
  control_updMe rfl h rfl

/-- Settles O1: each word sets its register to the value of its body (`exec_cmp`, `exec_cmpi`, `exec_plog`, `exec_sel`), and each
condition is the comparison of integers that the statement names (R21). -/
theorem predicates : Obligations.Predicates := by
  unfold Obligations.Predicates
  intro s q d a b pd pa pb imm x y i
  have hi : i.toInt = imm.toInt := BitVec.toInt_signExtend_of_le (by decide)
  refine ⟨?cmpEq, ?cmpNe, ?cmpLt, ?cmpGe, ?cmpLtu, ?cmpGeu, ?cmpiEq, ?cmpiNe, ?cmpiLt, ?cmpiGe, ?cmpiLtu, ?cmpiGeu,
    ?and, ?or, ?xor, ?andNot, ?orNot, ?not, ?mov, ?sel⟩
  case cmpEq => exact fun h => exec_cmp h rfl
  case cmpNe => exact fun h => exec_cmp h rfl
  case cmpLt => exact fun h => exec_cmp h (intCond_two x y)
  case cmpGe => exact fun h => exec_cmp h (intCond_three x y)
  case cmpLtu => exact fun h => exec_cmp h (intCond_four x y)
  case cmpGeu => exact fun h => exec_cmp h (intCond_five x y)
  case cmpiEq => exact fun h => exec_cmpi h rfl
  case cmpiNe => exact fun h => exec_cmpi h rfl
  case cmpiLt => exact fun h => exec_cmpi h (hi ▸ intCond_two x i)
  case cmpiGe => exact fun h => exec_cmpi h (hi ▸ intCond_three x i)
  case cmpiLtu => exact fun h => exec_cmpi h (intCond_four x i)
  case cmpiGeu => exact fun h => exec_cmpi h (intCond_five x i)
  case and => exact fun h => exec_plog h rfl
  case or => exact fun h => exec_plog h rfl
  case xor => exact fun h => exec_plog h rfl
  case andNot => exact fun h => exec_plog h rfl
  case orNot => exact fun h => exec_plog h rfl
  case not => exact fun h => exec_plog h rfl
  case mov => exact fun h => exec_plog h rfl
  case sel => exact fun p h => exec_sel h

/-! ## Address registers (R74, R75) -/

/-- A number with its two low bits cleared keeps its other bits. -/
theorem testBit_div_four_mul_four (n i : Nat) : (n / 4 * 4).testBit i = (n.testBit i && !Nat.testBit 3 i) := by
  have h3 : Nat.testBit 3 i = decide (i < 2) := Nat.testBit_two_pow_sub_one 2 i
  have hn : (n / 2 ^ 2 * 2 ^ 2).testBit i = (decide (2 ≤ i) && n.testBit (i - 2 + 2)) := by
    rw [Nat.testBit_mul_two_pow, Nat.testBit_div_two_pow]
  rw [h3, show n / 4 * 4 = n / 2 ^ 2 * 2 ^ 2 from rfl, hn]
  by_cases h : 2 ≤ i
  · simp [h, Nat.sub_add_cancel h, Nat.not_lt.2 h]
  · simp [h, Nat.lt_of_not_le h]

/-- The low `w` bits of a register with bits [1:0] taken as 0, as a number. -/
theorem setWidth_and_not_three (w : Nat) (x : BitVec 64) :
    x.setWidth w &&& ~~~3#w = BitVec.ofNat w (x.toNat % 2 ^ w / 4 * 4) := by
  refine BitVec.eq_of_getLsbD_eq fun i hi => ?_
  rw [BitVec.getLsbD_and, BitVec.getLsbD_not, BitVec.getLsbD_ofNat, BitVec.getLsbD_ofNat, testBit_div_four_mul_four,
    Nat.testBit_mod_two_pow, BitVec.getLsbD_setWidth, decide_eq_true hi]
  simp [BitVec.getLsbD]

/-- Addition modulo 2^w is that of the integers. -/
theorem add_ofInt (w : Nat) (a : BitVec w) (d : Int) : a + BitVec.ofInt w d = BitVec.ofInt w (a.toNat + d) := by
  rw [BitVec.ofInt_add, BitVec.ofInt_natCast, BitVec.ofNat_toNat, BitVec.setWidth_eq]

/-- The modulo rule (R74): without a length the address moves on modulo 2^32, with one it stays in the ring above the base. -/
theorem AReg.advance_eq (r : AReg) (d : Int) : r.advance d =
    { r with addr := if r.len = 0 then BitVec.ofInt 32 (r.addr.toNat + d)
      else BitVec.ofInt 32 (r.base.toNat + ((r.addr.toNat : Int) - r.base.toNat + d) % r.len.toNat) } := by
  unfold AReg.advance
  split <;> rw [add_ofInt]

/-- Settles O3: AMOV writes address, base and length, whose two low bits are cleared (`setWidth_and_not_three`); AINC is the
modulo rule of R74 (`AReg.advance_eq`). -/
theorem addressRegisters : Obligations.AddressRegisters := by
  unfold Obligations.AddressRegisters
  intro s q a sa sb imm x r off moved
  refine ⟨fun h => control_updMe rfl h ?_, fun h => control_updMe rfl h ?_⟩
  · exact congrArg (fun len => s.me.setA a ⟨x, x, len⟩) (setWidth_and_not_three 23 (s.me.getS sb))
  · exact congrArg (s.me.setA a) (r.advance_eq imm.toInt)

/-! ## The return stack (R84) -/

/-- What a CSRR of RSBOTTOM does with the stack empty. -/
theorem exec_rsbottomRead_empty {s : State} {q : Itq} {r : BitVec 5} (h : Clear (.rsbottomRead q r) s)
    (he : s.me.rstack = []) : exec (.rsbottomRead q r) s =
      .next (s.past (.rsbottomRead q r) (s.updMe fun u => u.setS r 0)) :=
  control_updMe rfl h (by simp only [he, List.getLast?_nil])

/-- The oldest entry is the last of the list. -/
theorem exec_rsbottomRead_append {s : State} {q : Itq} {r : BitVec 5} {l : List (BitVec 32)} {x : BitVec 32}
    (h : Clear (.rsbottomRead q r) s) (he : s.me.rstack = l ++ [x]) : exec (.rsbottomRead q r) s =
      .next (s.past (.rsbottomRead q r) (s.updMe fun u => { u.setS r (x.setWidth 64) with rstack := l })) :=
  control_updMe rfl h (by simp only [he, List.getLast?_concat, List.dropLast_concat])

theorem exec_rsbottomWrite_room {s : State} {q : Itq} {r : BitVec 5} (h : Clear (.rsbottomWrite q r) s)
    (hl : s.me.rstack.length < 16) : exec (.rsbottomWrite q r) s = .next (s.past (.rsbottomWrite q r)
      (s.updMe fun u => { u with rstack := s.me.rstack ++ [(s.me.getS r).setWidth 32 &&& 0xFFFFFFFC] })) :=
  control_updMe rfl h (if_neg (Nat.not_le.2 hl))

theorem exec_rsbottomWrite_full {s : State} {q : Itq} {r : BitVec 5} (h : Clear (.rsbottomWrite q r) s)
    (hl : 16 ≤ s.me.rstack.length) : exec (.rsbottomWrite q r) s =
      .next (s.past (.rsbottomWrite q r) (s.updMe fun u => { u with rstack := s.me.rstack })) :=
  control_updMe rfl h (if_pos hl)

theorem exec_csrr_rsdepth {s : State} {q : Itq} {r : BitVec 5} (h : Clear (.csrr q r 0x050) s) :
    exec (.csrr q r 0x050) s = .next (s.past (.csrr q r 0x050)
      (s.updMe fun u => u.setS r (BitVec.ofNat 64 s.me.rstack.length))) :=
  control_past rfl h (upd_run _ s)

/-- Settles O4: a read of RSBOTTOM with the stack empty or not, a write of it with room or with 16 entries held, and RSDEPTH. -/
theorem returnStackBottom : Obligations.ReturnStackBottom := by
  unfold Obligations.ReturnStackBottom
  intro s q r old v
  exact ⟨exec_rsbottomRead_empty, fun h _ _ => exec_rsbottomRead_append h, exec_rsbottomWrite_room,
    exec_rsbottomWrite_full, exec_csrr_rsdepth⟩

end Sys2Proof.Machine
end
